-- ==== Sys2Proof/Word.lean ====
section
/-! DEFINITION. The word types of the QMC core (spec/10_state.md rules R22, R30, R36, R40). -/

namespace Sys2Proof

/-- A host register and a command word: 32 bits (rules R14, R22). -/
abbrev Word := BitVec 32

/-- A byte of the compressed stream (rules R64, R65). -/
abbrev Byte := BitVec 8

/-- A sample of the line/frame buffer: 16 bits (rule R68). -/
abbrev Sample := BitVec 16

/-- An entry of DA or DB: a signed residual of 17 bits (rule R40). -/
abbrev Residual := BitVec 17

end Sys2Proof
end

