-- ==== Sys2Proof/Syntax.lean ====
section
/-! DEFINITION. The commands of the QMC core: one constructor per row of spec/opcode_table.json, with the fields of
spec/30_encoding.md rules R81 and R82. -/

namespace Sys2Proof

/-- The scan direction, field DIR and STATUS.DMODE: 0 encode, 1 decode (rules R23, R81). -/
inductive Dir where
  | encode
  | decode
deriving DecidableEq, Repr

/-- A command (rule R82). `c` is a component number 0..3, `bin` a context bin 0..255 of which 160..255 are illegal
operands, `d` a bit to encode, `mask` a component mask, `l` and `u` the thresholds of CLASSIFY (rule R81). -/
inductive Instr where
  | nop
  | encInit
  | encBit (c : Fin 4) (bin : Byte) (d : Bool)
  | encFlush
  | decInit
  | decBit (c : Fin 4) (bin : Byte)
  | ctxReset (mask : BitVec 4)
  | clearErr
  | classify (l u : BitVec 4)
  | encDiff (c : Fin 4)
  | decDiff (c : Fin 4)
  | startScan (dir : Dir)
  | startMcuRow
  | writeMcu
  | parseMcu
  | flush
  | abort
  | reset
deriving DecidableEq, Repr

end Sys2Proof
end

