-- ==== Sys2Proof/Decode.lean ====
section
/-! DEFINITION. Command words: the decoder, total on every 32-bit word and rejecting by name, and the encoder
(spec/30_encoding.md rules R80 to R84). -/

namespace Sys2Proof

/-- Why a word is no command (rule R84): its OP is not in rule R82, or a bit outside the command's defined fields
is 1. The machine answers either with `IllegalCommand`. -/
inductive DecodeError where
  | unknownOpcode
  | reservedBits
deriving DecidableEq, Repr

/-- `OP = word[31:24]` (rule R80). -/
def opcodeOf (w : Word) : Byte := w.extractLsb' 24 8

/-- The component number C, `word[17:16]` (rule R81). -/
def fieldC (w : Word) : Fin 4 := (w.extractLsb' 16 2).toFin

/-- BIN, `word[15:8]` (rule R81). -/
def fieldBin (w : Word) : Byte := w.extractLsb' 8 8

/-- D, `word[0]` (rule R81). -/
def fieldD (w : Word) : Bool := w.getLsbD 0

/-- MASK of CTX_RESET and L of CLASSIFY, `word[3:0]` (rule R81). -/
def fieldLow (w : Word) : BitVec 4 := w.extractLsb' 0 4

/-- U of CLASSIFY, `word[7:4]` (rule R81). -/
def fieldU (w : Word) : BitVec 4 := w.extractLsb' 4 4

/-- DIR of START_SCAN, `word[0]`: 0 encode, 1 decode (rule R81). -/
def fieldDir (w : Word) : Dir := if w.getLsbD 0 then .decode else .encode

/-- The instruction `i` if every bit of `word[23:0]` outside the command's defined bits is 0 (rules R80, R84). -/
def definedOnly (defined w : Word) (i : Instr) : Except DecodeError Instr :=
  if w &&& ~~~(0xFF000000#32 ||| defined) = 0#32 then .ok i else .error .reservedBits

/-- The command a word spells (rules R82, R83). -/
def decode (w : Word) : Except DecodeError Instr :=
  match (opcodeOf w).toNat with
  | 0x00 => definedOnly 0#32 w .nop
  | 0x01 => definedOnly 0#32 w .encInit
  | 0x02 => definedOnly 0x0003FF01#32 w (.encBit (fieldC w) (fieldBin w) (fieldD w))
  | 0x03 => definedOnly 0#32 w .encFlush
  | 0x04 => definedOnly 0#32 w .decInit
  | 0x05 => definedOnly 0x0003FF00#32 w (.decBit (fieldC w) (fieldBin w))
  | 0x06 => definedOnly 0x0000000F#32 w (.ctxReset (fieldLow w))
  | 0x07 => definedOnly 0#32 w .clearErr
  | 0x10 => definedOnly 0x000000FF#32 w (.classify (fieldLow w) (fieldU w))
  | 0x11 => definedOnly 0x00030000#32 w (.encDiff (fieldC w))
  | 0x12 => definedOnly 0x00030000#32 w (.decDiff (fieldC w))
  | 0x20 => definedOnly 0x00000001#32 w (.startScan (fieldDir w))
  | 0x21 => definedOnly 0#32 w .startMcuRow
  | 0x22 => definedOnly 0#32 w .writeMcu
  | 0x23 => definedOnly 0#32 w .parseMcu
  | 0x24 => definedOnly 0#32 w .flush
  | 0x2F => definedOnly 0#32 w .abort
  | 0x7F => definedOnly 0#32 w .reset
  | _ => .error .unknownOpcode

/-- A word from its OP and its field bits (rule R80). -/
def commandWord (op : Byte) (fields : Word) : Word := op.setWidth 32 <<< 24 ||| fields

/-- The bits of C at `[17:16]` (rule R81). -/
def placeC (c : Fin 4) : Word := BitVec.ofNat 32 c.val <<< 16

/-- The bits of BIN at `[15:8]` (rule R81). -/
def placeBin (bin : Byte) : Word := bin.setWidth 32 <<< 8

/-- One bit at `[0]`: D of ENC_BIT (rule R81). -/
def placeBit (d : Bool) : Word := (BitVec.ofBool d).setWidth 32

/-- DIR at `[0]` (rule R81). -/
def placeDir : Dir → Word
  | .encode => 0#32
  | .decode => 1#32

/-- The word of a command (rule R82). -/
def encode : Instr → Word
  | .nop => commandWord 0x00 0#32
  | .encInit => commandWord 0x01 0#32
  | .encBit c bin d => commandWord 0x02 (placeC c ||| placeBin bin ||| placeBit d)
  | .encFlush => commandWord 0x03 0#32
  | .decInit => commandWord 0x04 0#32
  | .decBit c bin => commandWord 0x05 (placeC c ||| placeBin bin)
  | .ctxReset mask => commandWord 0x06 (mask.setWidth 32)
  | .clearErr => commandWord 0x07 0#32
  | .classify l u => commandWord 0x10 (l.setWidth 32 ||| u.setWidth 32 <<< 4)
  | .encDiff c => commandWord 0x11 (placeC c)
  | .decDiff c => commandWord 0x12 (placeC c)
  | .startScan dir => commandWord 0x20 (placeDir dir)
  | .startMcuRow => commandWord 0x21 0#32
  | .writeMcu => commandWord 0x22 0#32
  | .parseMcu => commandWord 0x23 0#32
  | .flush => commandWord 0x24 0#32
  | .abort => commandWord 0x2F 0#32
  | .reset => commandWord 0x7F 0#32

/-- The row of rule R83 a command belongs to, as (mask, match): a word selects the command when
`word & mask = match`. -/
def Instr.row : Instr → Word × Word
  | .nop => (0xFFFFFFFF#32, 0x00000000#32)
  | .encInit => (0xFFFFFFFF#32, 0x01000000#32)
  | .encBit _ _ _ => (0xFFFC00FE#32, 0x02000000#32)
  | .encFlush => (0xFFFFFFFF#32, 0x03000000#32)
  | .decInit => (0xFFFFFFFF#32, 0x04000000#32)
  | .decBit _ _ => (0xFFFC00FF#32, 0x05000000#32)
  | .ctxReset _ => (0xFFFFFFF0#32, 0x06000000#32)
  | .clearErr => (0xFFFFFFFF#32, 0x07000000#32)
  | .classify _ _ => (0xFFFFFF00#32, 0x10000000#32)
  | .encDiff _ => (0xFFFCFFFF#32, 0x11000000#32)
  | .decDiff _ => (0xFFFCFFFF#32, 0x12000000#32)
  | .startScan _ => (0xFFFFFFFE#32, 0x20000000#32)
  | .startMcuRow => (0xFFFFFFFF#32, 0x21000000#32)
  | .writeMcu => (0xFFFFFFFF#32, 0x22000000#32)
  | .parseMcu => (0xFFFFFFFF#32, 0x23000000#32)
  | .flush => (0xFFFFFFFF#32, 0x24000000#32)
  | .abort => (0xFFFFFFFF#32, 0x2F000000#32)
  | .reset => (0xFFFFFFFF#32, 0x7F000000#32)

/-- The instruction the decoder reads from a word whose low `nbits` bits are those of `w`, as
spec/opcode_table.json numbers them; none where the decoder refuses. -/
def decodeTableWord (nbits w : Nat) : Option Instr :=
  match decode (BitVec.ofNat 32 (w % 2 ^ nbits)) with
  | .ok i => some i
  | .error _ => none

end Sys2Proof
end

