-- ==== Sys2Proof/Config.lean ====
section
/-! DEFINITION. What a build of the hardware fixes: the parameters of spec/00_scope.md rules R8 to R11 and the
probability ROM of spec/40_engine.md rule R101. -/

namespace Sys2Proof

/-- The component sets provided, `NCOMP_MAX` (rule R9). -/
abbrev Config.nComp : Nat := 4

/-- The bins of one component's context set, `NBIN` (rules R9, R152). -/
abbrev Config.nBin : Nat := 160

/-- The rows of the probability ROM (rules R8, R101). -/
abbrev Config.nRow : Nat := 113

/-- One row of the probability ROM: Qe, the next index after an LPS and after an MPS renormalization, and SWITCH
(rule R101). -/
structure RomRow where
  qe : BitVec 16
  nlps : BitVec 7
  nmps : BitVec 7
  switch : Bool
deriving DecidableEq, Repr

/-- The two properties of a row that the engine's register bounds rest on, which any `QE_TABLE` must have
(rule R102): `0 < Qe < 0x8000`, and both next indices lie in 0..112. -/
abbrev RomRow.Legal (r : RomRow) : Prop :=
  0 < r.qe.toNat ∧ r.qe.toNat < 0x8000 ∧ r.nlps.toNat < Config.nRow ∧ r.nmps.toNat < Config.nRow

/-- A row as rule R101 prints it. -/
def Config.row (qe : BitVec 16) (nlps nmps : BitVec 7) (switch : Bool) : RomRow :=
  { qe := qe, nlps := nlps, nmps := nmps, switch := switch }

open Config (row)

/-- Rows 0 to 15 of the table of rule R101. -/
def Config.qeTable000 : List RomRow :=
  [
   row 0x5A1D 1 1 true, row 0x2586 14 2 false, row 0x1114 16 3 false, row 0x080B 18 4 false,
   row 0x03D8 20 5 false, row 0x01DA 23 6 false, row 0x00E5 25 7 false, row 0x006F 28 8 false,
   row 0x0036 30 9 false, row 0x001A 33 10 false, row 0x000D 35 11 false, row 0x0006 9 12 false,
   row 0x0003 10 13 false, row 0x0001 12 13 false, row 0x5A7F 15 15 true, row 0x3F25 36 16 false ]

/-- Rows 16 to 31 of the table of rule R101. -/
def Config.qeTable016 : List RomRow :=
  [
   row 0x2CF2 38 17 false, row 0x207C 39 18 false, row 0x17B9 40 19 false, row 0x1182 42 20 false,
   row 0x0CEF 43 21 false, row 0x09A1 45 22 false, row 0x072F 46 23 false, row 0x055C 48 24 false,
   row 0x0406 49 25 false, row 0x0303 51 26 false, row 0x0240 52 27 false, row 0x01B1 54 28 false,
   row 0x0144 56 29 false, row 0x00F5 57 30 false, row 0x00B7 59 31 false, row 0x008A 60 32 false ]

/-- Rows 32 to 47 of the table of rule R101. -/
def Config.qeTable032 : List RomRow :=
  [
   row 0x0068 62 33 false, row 0x004E 63 34 false, row 0x003B 32 35 false, row 0x002C 33 9 false,
   row 0x5AE1 37 37 true, row 0x484C 64 38 false, row 0x3A0D 65 39 false, row 0x2EF1 67 40 false,
   row 0x261F 68 41 false, row 0x1F33 69 42 false, row 0x19A8 70 43 false, row 0x1518 72 44 false,
   row 0x1177 73 45 false, row 0x0E74 74 46 false, row 0x0BFB 75 47 false, row 0x09F8 77 48 false ]

/-- Rows 48 to 63 of the table of rule R101. -/
def Config.qeTable048 : List RomRow :=
  [
   row 0x0861 78 49 false, row 0x0706 79 50 false, row 0x05CD 48 51 false, row 0x04DE 50 52 false,
   row 0x040F 50 53 false, row 0x0363 51 54 false, row 0x02D4 52 55 false, row 0x025C 53 56 false,
   row 0x01F8 54 57 false, row 0x01A4 55 58 false, row 0x0160 56 59 false, row 0x0125 57 60 false,
   row 0x00F6 58 61 false, row 0x00CB 59 62 false, row 0x00AB 61 63 false, row 0x008F 61 32 false ]

/-- Rows 64 to 79 of the table of rule R101. -/
def Config.qeTable064 : List RomRow :=
  [
   row 0x5B12 65 65 true, row 0x4D04 80 66 false, row 0x412C 81 67 false, row 0x37D8 82 68 false,
   row 0x2FE8 83 69 false, row 0x293C 84 70 false, row 0x2379 86 71 false, row 0x1EDF 87 72 false,
   row 0x1AA9 87 73 false, row 0x174E 72 74 false, row 0x1424 72 75 false, row 0x119C 74 76 false,
   row 0x0F6B 74 77 false, row 0x0D51 75 78 false, row 0x0BB6 77 79 false, row 0x0A40 77 48 false ]

/-- Rows 80 to 95 of the table of rule R101. -/
def Config.qeTable080 : List RomRow :=
  [
   row 0x5832 80 81 true, row 0x4D1C 88 82 false, row 0x438E 89 83 false, row 0x3BDD 90 84 false,
   row 0x34EE 91 85 false, row 0x2EAE 92 86 false, row 0x299A 93 87 false, row 0x2516 86 71 false,
   row 0x5570 88 89 true, row 0x4CA9 95 90 false, row 0x44D9 96 91 false, row 0x3E22 97 92 false,
   row 0x3824 99 93 false, row 0x32B4 99 94 false, row 0x2E17 93 86 false, row 0x56A8 95 96 true ]

/-- Rows 96 to 111 of the table of rule R101. -/
def Config.qeTable096 : List RomRow :=
  [
   row 0x4F46 101 97 false, row 0x47E5 102 98 false, row 0x41CF 103 99 false, row 0x3C3D 104 100 false,
   row 0x375E 99 93 false, row 0x5231 105 102 false, row 0x4C0F 106 103 false, row 0x4639 107 104 false,
   row 0x415E 103 99 false, row 0x5627 105 106 true, row 0x50E7 108 107 false, row 0x4B85 109 103 false,
   row 0x5597 110 109 false, row 0x504F 111 107 false, row 0x5A10 110 111 true, row 0x5522 112 109 false ]

/-- Rows 112 to 112 of the table of rule R101. -/
def Config.qeTable112 : List RomRow :=
  [
   row 0x59EB 112 111 true ]

/-- `QE_TABLE` as rule R101 gives it: T.81 Table D.3. -/
def Config.qeTable : List RomRow :=
  Config.qeTable000 ++ Config.qeTable016 ++ Config.qeTable032 ++ Config.qeTable048 ++ Config.qeTable064 ++
    Config.qeTable080 ++ Config.qeTable096 ++ Config.qeTable112

/-- What one build of the hardware fixes and no command changes: the open parameters `XMAX` (rule R10) and
`QE_TABLE` (rule R11), the second being the probability ROM that rule R20 counts as state. -/
structure Build where
  xmax : Nat
  rom : List RomRow
deriving DecidableEq, Repr

/-- The default build: `XMAX` = 65535 (rule R10) and the table of rule R101. -/
def Build.default : Build := { xmax := 65535, rom := Config.qeTable }

/-- What the rules assume of a build's ROM (rules R101, R102): 113 rows, each legal. -/
abbrev Build.Legal (b : Build) : Prop :=
  b.rom.length = Config.nRow ∧ ∀ r ∈ b.rom, r.Legal

end Sys2Proof
end

