-- ==== Sys2Proof/Machine/State.lean ====
section
/-! DEFINITION. The state of the QMC core as plain data (spec/10_state.md), the model's view of its collaborators
(spec/20_memory.md), the reasons a step can stop, and the state after reset (spec/70_reset_and_hazards.md rule R250). -/

namespace Sys2Proof.Machine

/-- STATUS.DSTATE (rule R23): the values 6 and 7 are never held, so there is no constructor for them. -/
inductive DState where
  | uninitialized
  | scanStarted
  | rowReady
  | rowConsumed
  | scanFlushed
  | faulted
deriving DecidableEq, Repr

/-- ENG_MODE (rule R22): the value 3 is unused and has no constructor. -/
inductive EngMode where
  | idle
  | encode
  | decode
deriving DecidableEq, Repr

/-- STATUS.ERR (rule R221): the codes 7..15 are never written and have no constructor. -/
inductive ErrCode where
  | none
  | configurationError
  | streamExhausted
  | sinkFailure
  | stateCorruption
  | illegalCommand
  | sequenceError
deriving DecidableEq, Repr

/-- The stored fields of STATUS (rule R23). MARKER_SEEN is MARKER[8] and ROWS_LEFT is computed on a read, so neither
is stored here. -/
structure Status where
  dstate : DState
  dmode : Dir
  exhausted : Bool
  fault : Bool
  err : ErrCode
deriving DecidableEq, Repr

/-- ARG0, ARG1, ARG2 and RESULT (rule R22). -/
structure HostRegs where
  arg0 : Word
  arg1 : Word
  arg2 : Word
  result : Word
deriving DecidableEq, Repr

/-- MARKER: the latched marker code and its valid bit (rule R22). -/
structure MarkerReg where
  code : Byte
  valid : Bool
deriving DecidableEq, Repr

/-- One CFG_LU register: the thresholds L and U of a component (rule R22). -/
structure Thresholds where
  l : BitVec 4
  u : BitVec 4
deriving DecidableEq, Repr

/-- The configuration registers (rules R22, R45). -/
structure ScanConfig where
  pred : BitVec 4
  ncomp : BitVec 3
  prec : BitVec 5
  width : BitVec 16
  height : BitVec 16
  ri : BitVec 16
  rowgrp : BitVec 8
  lu : Vector Thresholds Config.nComp
deriving DecidableEq, Repr

/-- The coder register state (rule R30). -/
structure Engine where
  a : BitVec 17
  c : BitVec 32
  ct : BitVec 4
  b : Byte
  bv : Bool
  sc : BitVec 32
  zc : BitVec 32
  nbytes : BitVec 32
  eos : Bool
  mode : EngMode
deriving DecidableEq, Repr

/-- One entry of the context RAM: the index I and the MPS sense (rule R36). -/
structure CtxEntry where
  i : BitVec 7
  mps : Bool
deriving DecidableEq, Repr

/-- The initial state of a context entry, (I 0, MPS 0) (rule R37). -/
abbrev CtxEntry.init : CtxEntry := { i := 0, mps := false }

/-- The bins of one component (rules R36, R152). -/
abbrev ContextSet := Vector CtxEntry Config.nBin

/-- The driver's position registers: POS, YEND, RST and MCUCNT (rules R22, R44). -/
structure Position where
  x : BitVec 16
  y : BitVec 16
  yend : BitVec 16
  rl : BitVec 16
  m : BitVec 3
  mcucnt : BitVec 32
deriving DecidableEq, Repr

/-- A memory as a list of (address, cell), addresses strictly rising and no cell equal to what an unlisted address
reads as (`Memory.wf` in Machine/Ops.lean). The cells are the smallest units the spec addresses: 17-bit entries of a
DB buffer (rule R40), 16-bit samples of the line/frame buffer (rule R68). -/
abbrev Memory (w : Nat) := List (Nat × BitVec w)

/-- What the byte sink or the marker writer returns (rules R64, R69). -/
inductive Reply where
  | ok
  | fail
deriving DecidableEq, Repr

/-- The kind of a marker call (rule R69): restart marker number m, or the end of the scan. -/
inductive MarkerKind where
  | rst (m : BitVec 3)
  | scanEnd
deriving DecidableEq, Repr

/-- One completed port transaction (rules R64 to R69). -/
inductive PortEvent where
  | sinkWrite (b : Byte) (r : Reply)
  | sourceRead (b : Option Byte)
  | lineRead (c : Fin 4) (x y : Nat) (v : Sample)
  | lineWrite (c : Fin 4) (x y : Nat) (v : Sample)
  | markerEmit (k : MarkerKind) (r : Reply)
  | markerSync (k : MarkerKind) (latched : Option Byte)
deriving DecidableEq, Repr

/-- One thing the host does to the block: a read or a write of the register window, at a byte offset and of a width
in bytes (rule R61), or a hardware reset (rule R250). -/
inductive HostEvent where
  | read (off bytes : Nat)
  | write (off bytes : Nat) (v : Word)
  | hardReset
deriving DecidableEq, Repr

/-- The byte source: the bytes it still holds, and whether after the last of them it answers no further read
(`silent`) or answers `EndOfStream` (rule R65; 93_implementation_defined.md I11). -/
structure Source where
  bytes : List Byte
  silent : Bool
deriving DecidableEq, Repr

/-- The collaborators as the block meets them, the model's own fields and not state of the block (rule R20): what the
host will do next and what its reads returned, what each port will answer, the samples the line/frame buffer can
supply, and the port transactions made so far, oldest first. In an answer list `none` is a port that never answers,
and a list that has run out answers `Ok` (sink, marker writer) or leaves the source as it is (marker reader). -/
structure Ports where
  host : List HostEvent
  replies : List Word
  sinkAnswers : List (Option Reply)
  emitAnswers : List (Option Reply)
  source : Source
  syncs : List (Option Source)
  samples : Memory 16
  trace : List PortEvent
deriving DecidableEq, Repr

/-- The state (rule R20): STATUS, the host registers, MARKER, the CFG registers, the engine, the context RAM, DA and
DB, the driver position, the build's parameters with the probability ROM; and the collaborators. -/
structure State where
  status : Status
  regs : HostRegs
  marker : MarkerReg
  cfg : ScanConfig
  eng : Engine
  ctx : Vector ContextSet Config.nComp
  da : Vector Residual Config.nComp
  db : Vector (Memory 17) Config.nComp
  pos : Position
  build : Build
  ports : Ports
deriving DecidableEq, Repr

/-- Why the machine is stuck: a collaborator does not answer and the command never completes (rules R68, R259;
93_implementation_defined.md I11). Every fault is raised by a port operation of Machine/Ops.lean and is safe: the
hardware waits without bound and takes no further step either. -/
inductive Fault where
  /-- Raised by `sinkWrite`: the byte sink never answers. Safe. -/
  | sinkNeverAnswers
  /-- Raised by `sourceRead`: the byte source never answers. Safe. -/
  | sourceNeverAnswers
  /-- Raised by `lineRead`: the line/frame buffer does not supply the sample. Safe. -/
  | lineBufferNeverAnswers
  /-- Raised by `markerEmit` and `markerSync`: the marker collaborator never answers. Safe. -/
  | markerNeverAnswers
deriving DecidableEq, Repr

/-- Why the model gives no meaning. -/
inductive Refusal where
  /-- Raised by an arm of `exec` whose instruction has no meaning yet (no arm does). Safe. -/
  | notModelled (mnemonic : String)
  /-- Raised by `step`: a host access that is not an aligned 32-bit access, which rule R61 has a model refuse. Safe. -/
  | unsupportedAccess
  /-- Raised by `step`: a host access outside the window's offsets 0x0000..0x13FF (rule R60), which is no access to the
  block. Safe. -/
  | outsideWindow
deriving DecidableEq, Repr

/-- STATUS after reset: 0 in every field (rule R250). -/
def Status.reset : Status :=
  { dstate := .uninitialized, dmode := .encode, exhausted := false, fault := false, err := .none }

/-- The engine after reset: every register 0, ENG_MODE Idle (rule R250). -/
def Engine.reset : Engine :=
  { a := 0, c := 0, ct := 0, b := 0, bv := false, sc := 0, zc := 0, nbytes := 0, eos := false, mode := .idle }

/-- The CFG registers after reset: 0 (rule R250). -/
def ScanConfig.reset : ScanConfig :=
  { pred := 0, ncomp := 0, prec := 0, width := 0, height := 0, ri := 0, rowgrp := 0
    lu := Vector.replicate Config.nComp { l := 0, u := 0 } }

/-- POS, RST, MCUCNT and YEND after reset: 0 (rule R250). -/
def Position.reset : Position := { x := 0, y := 0, yend := 0, rl := 0, m := 0, mcucnt := 0 }

/-- The collaborators with nothing pending and nothing done (the model's own: notes/assumptions/3.md). -/
def Ports.empty : Ports :=
  { host := [], replies := [], sinkAnswers := [], emitAnswers := [], source := { bytes := [], silent := false }
    syncs := [], samples := [], trace := [] }

/-- Every context entry at (I 0, MPS 0) (rules R37, R250). -/
def resetContexts : Vector ContextSet Config.nComp :=
  Vector.replicate Config.nComp (Vector.replicate Config.nBin CtxEntry.init)

/-- The block right after reset (rule R250), in the default build (rules R10, R11) and with nothing pending at its
ports. -/
def State.reset : State :=
  { status := Status.reset
    regs := { arg0 := 0, arg1 := 0, arg2 := 0, result := 0 }
    marker := { code := 0, valid := false }
    cfg := ScanConfig.reset
    eng := Engine.reset
    ctx := resetContexts
    da := Vector.replicate Config.nComp 0
    db := Vector.replicate Config.nComp []
    pos := Position.reset
    build := Build.default
    ports := Ports.empty }

end Sys2Proof.Machine
end

