-- ==== Sys2Proof/Machine/Ops.lean ====
section
/-! DEFINITION. The named operations over memories, registers and ports; raising an error (spec/60_exceptions.md
rules R226, R227) and leaving the Faulted state (rule R229); and the order in which one command is checked
(spec/30_encoding.md rule R85). -/

namespace Sys2Proof.Machine

/-! ## Sparse memories -/

/-- The listed cell at an address. -/
def Memory.lookup {w : Nat} : Memory w → Nat → Option (BitVec w)
  | [], _ => none
  | (k, v) :: m, a => if k = a then some v else Memory.lookup m a

/-- The cell at an address: the listed one, else what an unlisted address reads as (`blank`). -/
def Memory.read {w : Nat} (blank : Option (BitVec w)) (m : Memory w) (a : Nat) : Option (BitVec w) :=
  match Memory.lookup m a with
  | some v => some v
  | none => blank

/-- List a cell, keeping the addresses rising. -/
def Memory.insert {w : Nat} : Memory w → Nat → BitVec w → Memory w
  | [], a, v => [(a, v)]
  | (k, x) :: m, a, v =>
    if a < k then (a, v) :: (k, x) :: m
    else if a = k then (a, v) :: m
    else (k, x) :: Memory.insert m a v

/-- Unlist an address. -/
def Memory.remove {w : Nat} : Memory w → Nat → Memory w
  | [], _ => []
  | (k, x) :: m, a => if k = a then Memory.remove m a else (k, x) :: Memory.remove m a

/-- Write a cell: the value an unlisted address reads as is unlisted, any other is listed. -/
def Memory.write {w : Nat} (blank : Option (BitVec w)) (m : Memory w) (a : Nat) (v : BitVec w) : Memory w :=
  if blank = some v then Memory.remove m a else Memory.insert m a v

/-- Every listed address is above `lo`, and they rise. -/
def Memory.risesFrom {w : Nat} : Nat → Memory w → Bool
  | _, [] => true
  | lo, (k, _) :: m => decide (lo ≤ k) && Memory.risesFrom (k + 1) m

/-- The canonical form: addresses strictly rising, and no listed cell equal to what an unlisted address reads as. -/
def Memory.wf {w : Nat} (blank : Option (BitVec w)) (m : Memory w) : Bool :=
  Memory.risesFrom 0 m && m.all (fun e => decide (blank ≠ some e.2))

/-- A DB entry nothing has written since the last reset of the buffers is 0 (rules R41, R250). -/
abbrev dbBlank : Option Residual := some 0

/-- A position the line/frame buffer does not list is one whose sample it cannot supply (rule R68). -/
abbrev sampleBlank : Option Sample := none

/-- The key of (component c, column x, line y) in the line/frame buffer (rule R60: the sample port is addressed by
these three). Columns and lines have 16 bits. -/
def sampleKey (c : Fin 4) (x y : Nat) : Nat := (c.val * 65536 + y) * 65536 + x

/-! ## Errors -/

/-- Non-fatal entry (rule R227): `if FAULT = 0: ERR <- code(E)`. -/
def State.report (e : ErrCode) (s : State) : State :=
  if s.status.fault then s else { s with status := { s.status with err := e } }

/-- Fatal entry (rule R226): ERR as for a non-fatal error, then FAULT, DSTATE and ENG_MODE; nothing is rolled back, and
no further state is written: B, BV, SC and ZC stay, and the window shows them as 0 in Idle
(`State.encoderRegister`; DEDUCED, notes/assumptions/17.md). -/
def State.enterFaulted (e : ErrCode) (s : State) : State :=
  let t := s.report e
  { t with
    status := { t.status with fault := true, dstate := .faulted }
    eng := { t.eng with mode := .idle } }

/-- The return from the Faulted state: there is none but a reset of every piece of state (rules R229, R250, R251).
The build and the collaborators are not state of the block that a reset reaches. -/
def State.resetBlock (s : State) : State :=
  { State.reset with build := s.build, ports := s.ports }

/-- Why a command ends before its last step: a fatal error, already recorded in the state (rule R226), or a port that
never answers (rule R68). -/
inductive Halt where
  | fatal
  | stuck (f : Fault)
deriving DecidableEq, Repr

/-- The body of a command: it threads the state, and on a halt keeps the state it had reached (rule R226: every
state write made before the raise stays). -/
abbrev Cmd := EStateM Halt State

/-- `raise E` for a fatal E (rule R226). -/
def raiseFatal {α : Type} (e : ErrCode) : Cmd α := fun s => .error .fatal (s.enterFaulted e)

/-- `raise E` for a non-fatal E inside a command that goes on (rule R227). -/
def raiseNonFatal (e : ErrCode) : Cmd Unit := fun s => .ok () (s.report e)

/-- A port that never answers (rule R68). -/
def stuck {α : Type} (f : Fault) : Cmd α := fun s => .error (.stuck f) s

/-- Run a command's body to its outcome. -/
def Cmd.outcome (m : Cmd Unit) (s : State) : Host.Outcome State Fault Refusal :=
  match m s with
  | .ok _ t => .next t
  | .error .fatal t => .next t
  | .error (.stuck f) _ => .fault f

/-- One decoded command, checked in the order of rule R85: FAULT = 1 (for every command but NOP and RESET, which do
not come through here), the operand ranges, the state precondition, then its body. A refused command does nothing
but report its error (rules R223, R225). -/
def guarded (operands precondition : Bool) (body : Cmd Unit) (s : State) : Host.Outcome State Fault Refusal :=
  if s.status.fault then .next (s.report .sequenceError)
  else if operands = false then .next (s.report .illegalCommand)
  else if precondition = false then .next (s.report .sequenceError)
  else body.outcome s

/-! ## Registers -/

/-- The state with other engine registers. -/
def State.withEng (s : State) (e : Engine) : State := { s with eng := e }

/-- The state with other position registers. -/
def State.withPos (s : State) (p : Position) : State := { s with pos := p }

/-- The state with other stored fields of STATUS. -/
def State.withStatus (s : State) (st : Status) : State := { s with status := st }

/-- Update the engine registers. -/
def modifyEng (f : Engine → Engine) : Cmd Unit := modify fun s => s.withEng (f s.eng)

/-- Update the position registers. -/
def modifyPos (f : Position → Position) : Cmd Unit := modify fun s => s.withPos (f s.pos)

/-- Update the stored fields of STATUS. -/
def modifyStatus (f : Status → Status) : Cmd Unit := modify fun s => s.withStatus (f s.status)

/-- `A <- n`: a value that does not fit 17 bits is a `StateCorruption` (rule R12). -/
def assignA (n : Nat) : Cmd Unit :=
  if n < 2 ^ 17 then modifyEng fun e => { e with a := BitVec.ofNat 17 n } else raiseFatal .stateCorruption

/-- `C <- n`: a value that does not fit 32 bits is a `StateCorruption` (rule R12). -/
def assignC (n : Nat) : Cmd Unit :=
  if n < 2 ^ 32 then modifyEng fun e => { e with c := BitVec.ofNat 32 n } else raiseFatal .stateCorruption

/-- `CT <- n`: a value that does not fit 4 bits is a `StateCorruption` (rule R12). -/
def assignCT (n : Nat) : Cmd Unit :=
  if n < 2 ^ 4 then modifyEng fun e => { e with ct := BitVec.ofNat 4 n } else raiseFatal .stateCorruption

/-- `SC <- n`: passing 2^32 - 1 is a `StateCorruption` (rule R110). -/
def assignSC (n : Nat) : Cmd Unit :=
  if n < 2 ^ 32 then modifyEng fun e => { e with sc := BitVec.ofNat 32 n } else raiseFatal .stateCorruption

/-- `ZC <- n`: passing 2^32 - 1 is a `StateCorruption` (rule R110). -/
def assignZC (n : Nat) : Cmd Unit :=
  if n < 2 ^ 32 then modifyEng fun e => { e with zc := BitVec.ofNat 32 n } else raiseFatal .stateCorruption

/-- `RESULT <- v`. -/
def writeResult (v : Word) : Cmd Unit := modify fun s => { s with regs := { s.regs with result := v } }

/-! ## Context RAM and differential state -/

/-- `ctx[c][b]` (rule R36); a bin number above 159 names no entry and reads as the initial one. -/
def State.ctxAt (s : State) (c : Fin 4) (b : Nat) : CtxEntry := s.ctx[c][b]?.getD CtxEntry.init

/-- `ctx[c][b] <- e`. -/
def State.setCtx (s : State) (c : Fin 4) (b : Nat) (e : CtxEntry) : State :=
  { s with ctx := s.ctx.set c (s.ctx[c].setIfInBounds b e) }

/-- `DB[c][x]` (rule R40). -/
def State.dbAt (s : State) (c : Fin 4) (x : Nat) : Residual := (Memory.read dbBlank s.db[c] x).getD 0

/-- `DA[c] <- v`. -/
def State.setDa (s : State) (c : Fin 4) (v : Residual) : State := { s with da := s.da.set c v }

/-- `DB[c][x] <- v`. -/
def State.setDb (s : State) (c : Fin 4) (x : Nat) (v : Residual) : State :=
  { s with db := s.db.set c (Memory.write dbBlank s.db[c] x v) }

/-- `for c in 0..3: for b in 0..159: ctx[c][b] <- (I 0, MPS 0)` (rules R171, R183). -/
def State.resetCtx (s : State) : State := { s with ctx := resetContexts }

/-- `for c in 0..3: DA[c] <- 0; DB[c][*] <- 0` (rules R41, R171, R183). -/
def State.clearDiff (s : State) : State :=
  { s with da := Vector.replicate Config.nComp 0, db := Vector.replicate Config.nComp [] }

/-! ## Ports -/

/-- Append a completed transaction (rule R70: in program order). -/
def State.log (s : State) (e : PortEvent) : State :=
  { s with ports := { s.ports with trace := s.ports.trace ++ [e] } }

/-- `SinkWrite(b)` (rule R64). -/
def sinkWrite (b : Byte) : Cmd Reply := fun s =>
  match s.ports.sinkAnswers with
  | [] => .ok .ok (s.log (.sinkWrite b .ok))
  | some r :: rest => .ok r ({ s with ports := { s.ports with sinkAnswers := rest } }.log (.sinkWrite b r))
  | none :: _ => stuck .sinkNeverAnswers s

/-- `SourceRead()` (rule R65): the next byte, or none for `EndOfStream`. -/
def sourceRead : Cmd (Option Byte) := fun s =>
  match s.ports.source.bytes with
  | b :: rest =>
    .ok (some b)
      ({ s with ports := { s.ports with source := { s.ports.source with bytes := rest } } }.log (.sourceRead (some b)))
  | [] => if s.ports.source.silent then stuck .sourceNeverAnswers s else .ok none (s.log (.sourceRead none))

/-- `LineRead(c, x, y)` (rule R68). -/
def lineRead (c : Fin 4) (x y : Nat) : Cmd Sample := fun s =>
  match Memory.read sampleBlank s.ports.samples (sampleKey c x y) with
  | some v => .ok v (s.log (.lineRead c x y v))
  | none => stuck .lineBufferNeverAnswers s

/-- `LineWrite(c, x, y, v)` (rule R68). DESIGN CHOICE (notes/assumptions/26.md): the provider takes every write; the
rule lets it leave a read unanswered and says nothing of a write. -/
def lineWrite (c : Fin 4) (x y : Nat) (v : Sample) : Cmd Unit := fun s =>
  .ok () ({ s with ports := { s.ports with
    samples := Memory.write sampleBlank s.ports.samples (sampleKey c x y) v } }.log (.lineWrite c x y v))

/-- `MarkerEmit(k)` (rule R69). -/
def markerEmit (k : MarkerKind) : Cmd Reply := fun s =>
  match s.ports.emitAnswers with
  | [] => .ok .ok (s.log (.markerEmit k .ok))
  | some r :: rest => .ok r ({ s with ports := { s.ports with emitAnswers := rest } }.log (.markerEmit k r))
  | none :: _ => stuck .markerNeverAnswers s

/-- `MarkerSync(k, latched)` (rule R69): the reader leaves the source wherever it chooses
(93_implementation_defined.md I9), and its verdict is not read. -/
def markerSync (k : MarkerKind) (latched : Option Byte) : Cmd Unit := fun s =>
  match s.ports.syncs with
  | [] => .ok () (s.log (.markerSync k latched))
  | some src :: rest =>
    .ok () ({ s with ports := { s.ports with syncs := rest, source := src } }.log (.markerSync k latched))
  | none :: _ => stuck .markerNeverAnswers s

/-- A marker-writer call whose `Fail` is a `SinkFailure` (rules R69, R175, R181). -/
def emitMarker (k : MarkerKind) : Cmd Unit := do
  match ← markerEmit k with
  | .ok => pure ()
  | .fail => raiseFatal .sinkFailure

end Sys2Proof.Machine
end

