-- ==== Sys2Proof/Machine/Operands.lean ====
section
/-! DEFINITION. Operands: signed arguments, thresholds, the preconditions commands share, the ROM row a context
entry selects, and the residual arithmetic of spec/00_scope.md rule R12. -/

namespace Sys2Proof.Machine

/-- ARG0 as `sext_32` (rule R81). -/
def State.arg0 (s : State) : Int := s.regs.arg0.toInt

/-- ARG1 as `sext_32` (rule R81). -/
def State.arg1 (s : State) : Int := s.regs.arg1.toInt

/-- ARG2 as `sext_32` (rule R81). -/
def State.arg2 (s : State) : Int := s.regs.arg2.toInt

/-- L of CFG_LUc. -/
def State.lowThreshold (s : State) (c : Fin 4) : Nat := s.cfg.lu[c].l.toNat

/-- U of CFG_LUc. -/
def State.highThreshold (s : State) (c : Fin 4) : Nat := s.cfg.lu[c].u.toNat

/-- `L <= U` in CFG_LUc (rules R84, R177). -/
def State.thresholdsOrdered (s : State) (c : Fin 4) : Bool := decide (s.lowThreshold c ≤ s.highThreshold c)

/-- BIN lies in 0..159 (rule R84). -/
def binLegal (bin : Byte) : Bool := decide (bin.toNat < Config.nBin)

/-- V lies in -32768..32768 (rules R84, R158). -/
def residualLegal (v : Int) : Bool := decide (-32768 ≤ v) && decide (v ≤ 32768)

/-- The precondition RAW: DSTATE is Uninitialized or ScanFlushed (spec/40_engine.md section 5). -/
def State.raw (s : State) : Bool := s.status.dstate = .uninitialized || s.status.dstate = .scanFlushed

/-- RAW and the engine in the given mode (rules R121, R124). -/
def State.rawIn (s : State) (m : EngMode) : Bool := s.raw && s.eng.mode = m

/-- The ROM row of an index, if there is one and it has the properties every ROM must have (rule R102). An index
without one is "context index out of table range", a `StateCorruption` (rule R221). -/
def romLookup (b : Build) (i : BitVec 7) : Option RomRow :=
  match b.rom[i.toNat]? with
  | some r => if r.Legal then some r else none
  | none => none

/-- The row `ctx[c][b].I` selects, or a `StateCorruption`. -/
def romRow (c : Fin 4) (b : Nat) : Cmd RomRow := fun s =>
  match romLookup s.build (s.ctxAt c b).i with
  | some r => .ok r s
  | none => raiseFatal .stateCorruption s

/-- `s16(v)`: v mod 2^16 read as a two's-complement 16-bit value (rule R12). -/
def s16 (v : Int) : Int := (BitVec.ofInt 16 v).toInt

/-- The components of the scan, 0..N-1, in component order (rule R180). -/
def State.components (s : State) : List (Fin 4) :=
  (List.finRange 4).filter fun c => decide (c.val < s.cfg.ncomp.toNat)

end Sys2Proof.Machine
end

