-- ==== Sys2Proof/Machine/Encoder.lean ====
section
/-! DEFINITION. The encoder procedures of the arithmetic coder engine (spec/40_engine.md rules R103 to R113). -/

namespace Sys2Proof.Machine

/-! ## Probability estimation -/

/-- The entry after `EstimateMPS` (rule R103). -/
def CtxEntry.afterMps (e : CtxEntry) (r : RomRow) : CtxEntry := { e with i := r.nmps }

/-- The entry after `EstimateLPS` (rule R104): SWITCH is read at the old index. -/
def CtxEntry.afterLps (e : CtxEntry) (r : RomRow) : CtxEntry :=
  { i := r.nlps, mps := if r.switch then !e.mps else e.mps }

/-- Which estimate a decision makes: none, the one after an MPS, the one after an LPS. -/
inductive Estimate where
  | keep
  | mps
  | lps
deriving DecidableEq, Repr

/-- The entry after a decision. -/
def CtxEntry.adapt (e : CtxEntry) (r : RomRow) : Estimate → CtxEntry
  | .keep => e
  | .mps => e.afterMps r
  | .lps => e.afterLps r

/-- Make the estimate on `ctx[c][b]`. -/
def adaptCtx (c : Fin 4) (b : Nat) (r : RomRow) (e : Estimate) : Cmd Unit :=
  modify fun s => s.setCtx c b ((s.ctxAt c b).adapt r e)

/-! ## Register bounds -/

/-- The bounds of the encoder registers between operations (rule R32): `0x8000 <= A <= 0x10000`,
`(C << CT) < 2^28`, `1 <= CT <= 11`, and `BV = 1` or `B = 0`. -/
def Engine.encodeBounds (e : Engine) : Bool :=
  decide (0x8000 ≤ e.a.toNat) && decide (e.a.toNat ≤ 0x10000) && decide (e.c.toNat <<< e.ct.toNat < 2 ^ 28)
    && decide (1 ≤ e.ct.toNat) && decide (e.ct.toNat ≤ 11) && (e.bv || e.b = 0)

/-- A bound of rule R32 that does not hold is a `StateCorruption` (rules R32, R221). -/
def requireEncodeBounds : Cmd Unit := fun s =>
  if s.eng.encodeBounds then .ok () s else raiseFatal .stateCorruption s

/-! ## Byte output -/

/-- `EncInit` (rule R105). -/
def encInit : Cmd Unit :=
  modifyEng fun e =>
    { e with a := 0x10000, c := 0, ct := 11, b := 0, bv := false, sc := 0, zc := 0, eos := false, mode := .encode }

/-- `Emit(b)` (rule R106). -/
def emit (b : Byte) : Cmd Unit := do
  match ← sinkWrite b with
  | .ok => modifyEng fun e => { e with nbytes := e.nbytes + 1 }
  | .fail => raiseFatal .sinkFailure

/-- `Emit(b)`, followed by the stuffed 0x00 when b is 0xFF (rules R107, R113). -/
def emitStuffed (b : Byte) : Cmd Unit := do
  emit b
  if b = 0xFF then emit 0x00 else pure ()

/-- `n` turns of the loop of `EmitZeros`. -/
def emitZerosN : Nat → Cmd Unit
  | 0 => pure ()
  | n + 1 => do
    emit 0x00
    modifyEng fun e => { e with zc := e.zc - 1 }
    emitZerosN n

/-- `EmitZeros` (rule R106): `while ZC > 0: Emit(0x00); ZC <- ZC - 1`. -/
def emitZeros : Cmd Unit := fun s => emitZerosN s.eng.zc.toNat s

/-- `repeat n times: Emit(0xFF); Emit(0x00)` (rule R107). -/
def emitStacked : Nat → Cmd Unit
  | 0 => pure ()
  | n + 1 => do
    emitStuffed 0xFF
    emitStacked n

/-- The carry reaches the held byte (rule R107). B is never 0xFF when BV = 1, and `B + 1` then fits a byte; a held
0xFF is a broken internal invariant (notes/assumptions/9.md). -/
def emitCarried : Cmd Unit := do
  let e := (← get).eng
  if e.bv then
    if e.b = 0xFF then raiseFatal .stateCorruption
    else
      emitZeros
      emitStuffed (e.b + 1)
  else pure ()

/-- `EmitHeld(carry = 1)` (rule R107). -/
def emitHeldCarry : Cmd Unit := do
  emitCarried
  let e := (← get).eng
  assignZC (e.zc.toNat + e.sc.toNat)
  modifyEng fun e => { e with sc := 0 }

/-- The held byte of `EmitHeld(carry = 0)`: a 0x00 is deferred, any other byte written (rule R107). -/
def emitHeldByte : Cmd Unit := do
  let e := (← get).eng
  if e.bv then
    if e.b = 0x00 then assignZC (e.zc.toNat + 1)
    else
      emitZeros
      emit e.b
  else pure ()

/-- The stacked bytes of `EmitHeld(carry = 0)` (rule R107). -/
def emitHeldStack : Cmd Unit := do
  let e := (← get).eng
  if e.sc = 0 then pure ()
  else
    emitZeros
    emitStacked e.sc.toNat
    modifyEng fun e => { e with sc := 0 }

/-- `EmitHeld(carry = 0)` (rule R107). -/
def emitHeldPlain : Cmd Unit := do
  emitHeldByte
  emitHeldStack

/-- `EmitHeld(carry)` (rule R107). -/
def emitHeld (carry : Bool) : Cmd Unit := if carry then emitHeldCarry else emitHeldPlain

/-- `B <- T & 0xFF; BV <- 1` (rule R110). -/
def holdByte (t : Nat) : Cmd Unit := modifyEng fun e => { e with b := BitVec.ofNat 8 t, bv := true }

/-- `C <- C & 0x7FFFF; CT <- CT + 8`, the end of `ByteOut` (rule R110). -/
def dropByte : Cmd Unit := do
  let e := (← get).eng
  assignC (e.c.toNat &&& 0x7FFFF)
  assignCT (e.ct.toNat + 8)

/-- The output byte and its carry, `T <- C >> 19` (rule R110). -/
def Engine.outByte (e : Engine) : Nat := e.c.toNat >>> 19

/-- `ByteOut` (rule R110). -/
def byteOut : Cmd Unit := do
  let e := (← get).eng
  if e.outByte > 0xFF then
    emitHeld true
    holdByte e.outByte
  else if e.outByte = 0xFF then assignSC (e.sc.toNat + 1)
  else
    emitHeld false
    holdByte e.outByte
  dropByte

/-! ## Coding a decision -/

/-- `A <- A << 1; C <- C << 1; CT <- CT - 1` (rule R109). -/
def shiftE : Cmd Unit := do
  let e := (← get).eng
  assignA (e.a.toNat <<< 1)
  assignC (e.c.toNat <<< 1)
  assignCT (e.ct.toNat - 1)

/-- `if CT = 0: ByteOut` (rule R109). -/
def byteOutIfDue : Cmd Unit := do
  if (← get).eng.ct = 0 then byteOut else pure ()

/-- `RenormE` (rule R109): shift until `A >= 0x8000`. A nonzero A reaches it in 15 shifts or fewer; a loop that does
not end within the fuel has A = 0, a broken register bound. -/
def renormE : Nat → Cmd Unit
  | 0 => raiseFatal .stateCorruption
  | n + 1 => do
    shiftE
    byteOutIfDue
    if 0x8000 ≤ (← get).eng.a.toNat then pure () else renormE n

/-- More shifts than any renormalization of a nonzero A takes. -/
abbrev renormFuel : Nat := 16

/-- The interval step of `EncodeBit` (rule R108) on A, C and q = Qe: the new A, the new C and the estimate; a kept
estimate means no renormalization. `isMps` says whether the bit coded is the MPS. -/
def encodeSplit (a c q : Nat) (isMps : Bool) : Nat × Nat × Estimate :=
  let r := a - q
  if isMps then
    if 0x8000 ≤ r then (r, c, .keep)
    else if r < q then (q, c + r, .mps)
    else (r, c, .mps)
  else if q ≤ r then (q, c + r, .lps)
  else (r, c, .lps)

/-- `EncodeBit(ctx[c][b], d)` (rule R108). -/
def encodeBit (c : Fin 4) (b : Nat) (d : Bool) : Cmd Unit := do
  requireEncodeBounds
  let row ← romRow c b
  let s ← get
  let step := encodeSplit s.eng.a.toNat s.eng.c.toNat row.qe.toNat (d == (s.ctxAt c b).mps)
  assignA step.1
  assignC step.2.1
  if step.2.2 = .keep then pure ()
  else
    adaptCtx c b row step.2.2
    renormE renormFuel

/-! ## Flush -/

/-- The value of `EncFlush`, first part, before the shift (rule R112): the one in the final interval with the most
trailing zero bits. -/
def clearFinalBits (a c : Nat) : Nat :=
  let t := (c + a - 1) &&& 0xFFFF0000
  if t < c then t + 0x8000 else t

/-- `EncFlush`, first part (rule R112). -/
def flushValue : Cmd Unit := do
  let e := (← get).eng
  assignC (clearFinalBits e.a.toNat e.c.toNat <<< e.ct.toNat)

/-- The final bytes of `EncFlush`, second part (rule R113). -/
def emitFinal (c : Nat) : Cmd Unit := do
  if c &&& 0x07FFF800 = 0 then pure ()
  else
    emitZeros
    emitStuffed (BitVec.ofNat 8 (c >>> 19))
    if c &&& 0x0007F800 = 0 then pure () else emitStuffed (BitVec.ofNat 8 (c >>> 11))

/-- `ZC <- 0; B <- 0; BV <- 0; SC <- 0; ENG_MODE <- Idle` (rules R113, R176). -/
def Engine.discardHeld (e : Engine) : Engine :=
  { e with zc := 0, b := 0, bv := false, sc := 0, mode := .idle }

/-- `EncFlush` (rules R112, R113). -/
def encFlush : Cmd Unit := do
  requireEncodeBounds
  flushValue
  let c := (← get).eng.c.toNat
  emitHeld (c &&& 0xF8000000 ≠ 0)
  emitFinal c
  modifyEng Engine.discardHeld

end Sys2Proof.Machine
end

