-- ==== Sys2Proof/Machine/Flags.lean ====
section
/-! DEFINITION. The flags and the STATUS word (spec/10_state.md rules R23, R46), and the codes the host window shows
for the enumerated registers (rules R22, R221). -/

namespace Sys2Proof.Machine

/-- The value of STATUS[2:0]. -/
def DState.code : DState → Nat
  | .uninitialized => 0
  | .scanStarted => 1
  | .rowReady => 2
  | .rowConsumed => 3
  | .scanFlushed => 4
  | .faulted => 5

/-- The value of STATUS[3]. -/
def dirCode : Dir → Nat
  | .encode => 0
  | .decode => 1

/-- The value of ENG_MODE. -/
def EngMode.code : EngMode → Nat
  | .idle => 0
  | .encode => 1
  | .decode => 2

/-- The value of STATUS[11:8] (rule R221). -/
def ErrCode.code : ErrCode → Nat
  | .none => 0
  | .configurationError => 1
  | .streamExhausted => 2
  | .sinkFailure => 3
  | .stateCorruption => 4
  | .illegalCommand => 5
  | .sequenceError => 6

/-- ROWS_LEFT: DSTATE is 1, 2 or 3 and some line y < Y is not yet coded (rule R23). -/
def State.rowsLeft (s : State) : Bool :=
  (s.status.dstate = .scanStarted || s.status.dstate = .rowReady || s.status.dstate = .rowConsumed)
    && decide (s.pos.y.toNat < s.cfg.height.toNat)

/-- A flag at a bit position of a 32-bit word. -/
def flagAt (b : Bool) (pos : Nat) : Nat := if b then 2 ^ pos else 0

/-- The STATUS word (rule R23). -/
def State.statusWord (s : State) : Word :=
  BitVec.ofNat 32
    (s.status.dstate.code + dirCode s.status.dmode * 8 + flagAt s.status.exhausted 4 + flagAt s.marker.valid 5
      + flagAt s.status.fault 6 + s.status.err.code * 256 + flagAt s.rowsLeft 16)

/-- `SetExhausted` (rule R116): EOS is set, and the first time in a scan EXHAUSTED with it and `StreamExhausted`
reported. -/
def setExhausted : Cmd Unit := do
  modifyEng fun e => { e with eos := true }
  if (← get).status.exhausted then pure ()
  else
    modifyStatus fun st => { st with exhausted := true }
    raiseNonFatal .streamExhausted

end Sys2Proof.Machine
end

