-- ==== Sys2Proof/Machine/Decoder.lean ====
section
/-! DEFINITION. The decoder procedures of the arithmetic coder engine (spec/40_engine.md rules R114 to R117). -/

namespace Sys2Proof.Machine

/-- The bounds of the decoder registers between operations (rule R32): `0x8000 <= A <= 0x10000`, `(C >> 16) < A`,
`0 <= CT <= 8`. -/
def Engine.decodeBounds (e : Engine) : Bool :=
  decide (0x8000 ≤ e.a.toNat) && decide (e.a.toNat ≤ 0x10000) && decide (e.c.toNat >>> 16 < e.a.toNat)
    && decide (e.ct.toNat ≤ 8)

/-- A bound of rule R32 that does not hold is a `StateCorruption` (rules R32, R221). -/
def requireDecodeBounds : Cmd Unit := fun s =>
  if s.eng.decodeBounds then .ok () s else raiseFatal .stateCorruption s

/-- `repeat b2 <- SourceRead() until b2 != 0xFF` (rule R116), over the bytes the source still holds: each turn
consumes one. -/
def readPastFill : Nat → Cmd (Option Byte)
  | 0 => sourceRead
  | n + 1 => do
    match ← sourceRead with
    | some b => if b = 0xFF then readPastFill n else pure (some b)
    | none => pure none

/-- The data byte after a 0xFF and its fill bytes (rule R116): a stuffed zero, a marker, or the end of the source. -/
def afterFF (b2 : Option Byte) : Cmd Byte := do
  match b2 with
  | none =>
    setExhausted
    pure 0x00
  | some b =>
    if b = 0x00 then pure 0xFF
    else
      modify fun s => { s with marker := { code := b, valid := true } }
      pure 0x00

/-- The byte t that `ByteIn` fetches (rule R116). -/
def nextDataByte : Cmd Byte := do
  let s ← get
  if s.marker.valid || s.eng.eos then pure 0x00
  else
    match ← sourceRead with
    | none =>
      setExhausted
      pure 0x00
    | some b =>
      if b = 0xFF then
        let b2 ← readPastFill (← get).ports.source.bytes.length
        afterFF b2
      else pure b

/-- `ByteIn` (rule R116). -/
def byteIn : Cmd Unit := do
  let t ← nextDataByte
  let e := (← get).eng
  assignC (e.c.toNat + t.toNat <<< 8)

/-- `C <- C << 8` (rule R114). -/
def shiftInit : Cmd Unit := do
  let e := (← get).eng
  assignC (e.c.toNat <<< 8)

/-- `DecInit` (rule R114). -/
def decInit : Cmd Unit := do
  modify fun s => { s with marker := { code := 0, valid := false } }
  modifyEng fun e => { e with eos := false, a := 0x10000, c := 0 }
  byteIn
  shiftInit
  byteIn
  shiftInit
  modifyEng fun e => { e with ct := 0, b := 0, bv := false, sc := 0, zc := 0, mode := .decode }

/-- `if CT = 0: ByteIn; CT <- 8` (rule R117). -/
def byteInIfDue : Cmd Unit := do
  if (← get).eng.ct = 0 then
    byteIn
    assignCT 8
  else pure ()

/-- `A <- A << 1; C <- C << 1 (mod 2^32); CT <- CT - 1` (rule R117). -/
def shiftD : Cmd Unit := do
  let e := (← get).eng
  assignA (e.a.toNat <<< 1)
  assignC ((e.c.toNat <<< 1) % 2 ^ 32)
  assignCT (e.ct.toNat - 1)

/-- `RenormD` (rule R117); the fuel as for `renormE`. -/
def renormD : Nat → Cmd Unit
  | 0 => raiseFatal .stateCorruption
  | n + 1 => do
    byteInIfDue
    shiftD
    if 0x8000 ≤ (← get).eng.a.toNat then pure () else renormD n

/-- The interval step of `DecodeBit` (rule R115) on A, C and q = Qe: the new A, the new C, whether the decoded bit is
the MPS, and the estimate; a kept estimate means no renormalization. -/
def decodeSplit (a c q : Nat) : Nat × Nat × Bool × Estimate :=
  let r := a - q
  if c >>> 16 < r then
    if r < 0x8000 then
      if r < q then (r, c, false, .lps) else (r, c, true, .mps)
    else (r, c, true, .keep)
  else if r < q then (q, c - r <<< 16, true, .mps)
  else (q, c - r <<< 16, false, .lps)

/-- `DecodeBit(ctx[c][b]) -> d` (rule R115). -/
def decodeBit (c : Fin 4) (b : Nat) : Cmd Bool := do
  requireDecodeBounds
  let row ← romRow c b
  let s ← get
  let step := decodeSplit s.eng.a.toNat s.eng.c.toNat row.qe.toNat
  let d := step.2.2.1 == (s.ctxAt c b).mps
  assignA step.1
  assignC step.2.1
  if step.2.2.2 = .keep then pure d
  else
    adaptCtx c b row step.2.2.2
    renormD renormFuel
    pure d

end Sys2Proof.Machine
end

