-- ==== Sys2Proof/Machine/Classifier.lean ====
section
/-! DEFINITION. The context model: classification, the bins of a context set, and the coding of one residual
(spec/41_context.md rules R151 to R158). -/

namespace Sys2Proof.Machine

/-- `classify(d, L, U)` (rule R151). -/
def classify (d : Int) (l u : Nat) : Int :=
  if d.natAbs ≤ (1 <<< l) >>> 1 then 0
  else if d.natAbs ≤ 1 <<< u then (if 0 < d then 1 else -1)
  else (if 0 < d then 2 else -2)

/-- `selectZeroSign(Da, Db, L, U)` (rule R153). -/
def selectZeroSign (da db : Int) (l u : Nat) : Nat := (5 * (classify da l u + 2) + (classify db l u + 2)).toNat

/-- `selectMagnitude(Db, U)` (rule R155): the high-magnitude group? -/
def selectMagnitude (db : Int) (u : Nat) : Bool := decide (1 <<< u < db.natAbs)

/-- Bin S0 of cell z: is V zero (rules R152, R154). -/
def binZero (z : Nat) : Nat := 4 * z

/-- Bin SS of cell z: the sign (rules R152, R154). -/
def binSign (z : Nat) : Nat := 4 * z + 1

/-- Bin SP or SN of cell z: the first magnitude decision after the given sign (rules R152, R154). -/
def binFirst (z : Nat) (negative : Bool) : Nat := if negative then 4 * z + 3 else 4 * z + 2

/-- Bin X(g, k) (rule R152). -/
def binX (g : Bool) (k : Nat) : Nat := (if g then 130 else 100) + (k - 1)

/-- Bin M(g, k) (rule R152). -/
def binM (g : Bool) (k : Nat) : Nat := (if g then 145 else 115) + (k - 1)

/-- The magnitude category of Sz >= 1: the k with 2^(k-1) <= Sz < 2^k at which the loop of rule R156 ends. -/
def magnitudeCategory (sz : Nat) : Nat := Nat.log2 sz + 1

/-- `while Sz >= 2^k: code(X(g, k), 1); k <- k + 1`, then `code(X(g, k), 0)`, from k = 1 (rule R156). -/
def exponentDecisions (g : Bool) (sz : Nat) : List (Nat × Bool) :=
  (List.range (magnitudeCategory sz - 1)).map (fun i => (binX g (i + 1), true)) ++ [(binX g (magnitudeCategory sz), false)]

/-- `for j from k - 2 down to 0: code(M(g, k), Sz[j])` (rule R156). -/
def mantissaDecisions (g : Bool) (sz : Nat) : List (Nat × Bool) :=
  (List.range (magnitudeCategory sz - 1)).reverse.map (fun j => (binM g (magnitudeCategory sz), sz.testBit j))

/-- The magnitude decisions after the sign (rule R156): Sz = abs(V) - 1. -/
def magnitudeDecisions (z : Nat) (g negative : Bool) (sz : Nat) : List (Nat × Bool) :=
  if sz = 0 then [(binFirst z negative, false)]
  else (binFirst z negative, true) :: (exponentDecisions g sz ++ mantissaDecisions g sz)

/-- The binary decisions of `EncodeV(c, V, Da, Db, L, U)` in order, each a bin and the bit coded in it (rule R156). -/
def residualDecisions (v da db : Int) (l u : Nat) : List (Nat × Bool) :=
  let z := selectZeroSign da db l u
  if v = 0 then [(binZero z, false)]
  else
    (binZero z, true) :: (binSign z, decide (v < 0)) ::
      magnitudeDecisions z (selectMagnitude db u) (decide (v < 0)) (v.natAbs - 1)

/-- Code decisions in order with the contexts of component c. -/
def encodeDecisions (c : Fin 4) : List (Nat × Bool) → Cmd Unit
  | [] => pure ()
  | (b, d) :: rest => do
    encodeBit c b d
    encodeDecisions c rest

/-- `EncodeV(c, V, Da, Db, L, U)` (rule R156). -/
def encodeV (c : Fin 4) (v da db : Int) (l u : Nat) : Cmd Unit := encodeDecisions c (residualDecisions v da db l u)

/-- The exponent loop of `DecodeV` from category k, with `fuel` = 16 - k decisions left before k = 16 (rule R157). -/
def decodeExponent (c : Fin 4) (g : Bool) : Nat → Nat → Cmd Nat
  | 0, _ => raiseFatal .stateCorruption
  | fuel + 1, k => do
    if ← decodeBit c (binX g k) then decodeExponent c g fuel (k + 1) else pure k

/-- The mantissa loop of `DecodeV`: `n` bits in bin `b`, from bit n - 1 down to bit 0 (rule R157). -/
def decodeMantissa (c : Fin 4) (b : Nat) : Nat → Nat → Cmd Nat
  | 0, sz => pure sz
  | n + 1, sz => do
    if ← decodeBit c b then decodeMantissa c b n (sz ||| 2 ^ n) else decodeMantissa c b n sz

/-- The Sz of `DecodeV` after a nonzero first magnitude decision (rule R157). -/
def decodeMagnitude (c : Fin 4) (g : Bool) : Cmd Nat := do
  let k ← decodeExponent c g 15 1
  decodeMantissa c (binM g k) (k - 1) (2 ^ (k - 1))

/-- The residual of a sign and an Sz: `(s = 1) ? -(Sz + 1) : Sz + 1` (rule R157). -/
def signedResidual (negative : Bool) (sz : Nat) : Int := if negative then -(sz + 1 : Int) else (sz + 1 : Int)

/-- `DecodeV` after a nonzero zero decision (rule R157). -/
def decodeNonzero (c : Fin 4) (z : Nat) (g : Bool) : Cmd Int := do
  let negative ← decodeBit c (binSign z)
  if ← decodeBit c (binFirst z negative) then
    let sz ← decodeMagnitude c g
    pure (signedResidual negative sz)
  else pure (signedResidual negative 0)

/-- `DecodeV(c, Da, Db, L, U) -> V` (rule R157). -/
def decodeV (c : Fin 4) (da db : Int) (l u : Nat) : Cmd Int := do
  if ← decodeBit c (binZero (selectZeroSign da db l u)) then
    decodeNonzero c (selectZeroSign da db l u) (selectMagnitude db u)
  else pure 0

/-- The RESULT of CLASSIFY (rule R160). -/
def classifyResult (da db : Int) (l u : Nat) : Word :=
  BitVec.ofNat 32
    ((classify da l u + 2).toNat ||| (classify db l u + 2).toNat <<< 4
      ||| (if selectMagnitude db u then 1 else 0) <<< 8 ||| binZero (selectZeroSign da db l u) <<< 16)

end Sys2Proof.Machine
end

