-- ==== Sys2Proof/Machine/ContextCommands.lean ====
section
/-! DEFINITION. The context-model commands CLASSIFY, ENC_DIFF and DEC_DIFF (spec/41_context.md rules R160 to R162). -/

namespace Sys2Proof.Machine

/-- CLASSIFY (rule R160): allowed in every driver state, for thresholds in any order. -/
def execClassify (l u : BitVec 4) (s : State) : Host.Outcome State Fault Refusal :=
  guarded true true (writeResult (classifyResult s.arg0 s.arg1 l.toNat u.toNat)) s

/-- ENC_DIFF (rule R161). -/
def execEncDiff (c : Fin 4) (s : State) : Host.Outcome State Fault Refusal :=
  guarded (residualLegal s.arg0 && s.thresholdsOrdered c) (s.rawIn .encode)
    (encodeV c s.arg0 s.arg1 s.arg2 (s.lowThreshold c) (s.highThreshold c)) s

/-- DEC_DIFF (rule R162): V to RESULT as 32-bit two's complement. -/
def execDecDiff (c : Fin 4) (s : State) : Host.Outcome State Fault Refusal :=
  guarded (s.thresholdsOrdered c) (s.rawIn .decode) (do
    let v ← decodeV c s.arg1 s.arg2 (s.lowThreshold c) (s.highThreshold c)
    writeResult (BitVec.ofInt 32 v)) s

end Sys2Proof.Machine
end

