-- ==== Sys2Proof/Machine/Walk.lean ====
section
/-! DEFINITION. The predictive scan driver's procedures: the configuration check, restarts, prediction, one sample,
and the walk over a row group (spec/42_driver.md rules R177 to R190). -/

namespace Sys2Proof.Machine

/-- `ConfigValid` (rule R177). -/
def State.configValid (s : State) : Bool :=
  decide (s.cfg.pred.toNat ≤ 7)
    && decide (1 ≤ s.cfg.ncomp.toNat) && decide (s.cfg.ncomp.toNat ≤ 4)
    && decide (2 ≤ s.cfg.prec.toNat) && decide (s.cfg.prec.toNat ≤ 16)
    && decide (1 ≤ s.cfg.width.toNat) && decide (s.cfg.width.toNat ≤ s.build.xmax)
    && decide (1 ≤ s.cfg.height.toNat)
    && decide (1 ≤ s.cfg.rowgrp.toNat)
    && decide (s.cfg.ri.toNat = 0 ∨ s.cfg.ri.toNat % s.cfg.width.toNat = 0)
    && s.components.all s.thresholdsOrdered

/-! ## Restart -/

/-- `RestartReset` (rule R183). -/
def restartReset : Cmd Unit :=
  modify fun s =>
    let t := s.resetCtx.clearDiff
    { t with pos := { t.pos with rl := t.pos.y, mcucnt := 0 } }

/-- `m <- (m + 1) mod 8` (rules R181, R182). -/
def nextMarkerNumber : Cmd Unit := modifyPos fun p => { p with m := p.m + 1 }

/-- The latched marker code a `MarkerSync` hands over: the MARKER register, or none (rule R69). -/
def State.latched (s : State) : Option Byte := if s.marker.valid then some s.marker.code else none

/-- `Restart(encode)` (rule R181). -/
def restartEncode : Cmd Unit := do
  encFlush
  emitMarker (.rst (← get).pos.m)
  nextMarkerNumber
  restartReset
  encInit

/-- `Restart(decode)` (rule R182). -/
def restartDecode : Cmd Unit := do
  let s ← get
  markerSync (.rst s.pos.m) s.latched
  nextMarkerNumber
  restartReset
  decInit

/-- `Restart(dir)`. -/
def restart : Dir → Cmd Unit
  | .encode => restartEncode
  | .decode => restartDecode

/-- A restart is due: `RI > 0 and MCUCNT = RI` (rule R180). -/
def State.restartDue (s : State) : Bool :=
  decide (0 < s.cfg.ri.toNat) && decide (s.pos.mcucnt.toNat = s.cfg.ri.toNat)

/-- `if RI > 0 and MCUCNT = RI: Restart(dir)` (rule R180). -/
def restartIfDue (dir : Dir) : Cmd Unit := do
  if (← get).restartDue then restart dir else pure ()

/-! ## Prediction -/

/-- `Predict(sel, Ra, Rb, Rc)` (rule R190), on integers; `>>` is the floor shift. No selection outside 1..7 reaches
it (rules R177, R185). -/
def predict (sel : Nat) (ra rb rc : Int) : Option Int :=
  match sel with
  | 1 => some ra
  | 2 => some rb
  | 3 => some rc
  | 4 => some (ra + rb - rc)
  | 5 => some (ra + (rb - rc) / 2)
  | 6 => some (rb + (ra - rc) / 2)
  | 7 => some ((ra + rb) / 2)
  | _ => none

/-- A sample masked to P bits in predictor modes, as given in differential mode (rules R185, R187, R188). -/
def State.maskSample (s : State) (v : Nat) : Nat := if s.cfg.pred = 0 then v else v % 2 ^ s.cfg.prec.toNat

/-- `LineRead`, masked to P bits in predictor modes (rules R185, R187). -/
def readMasked (c : Fin 4) (x y : Nat) : Cmd Int := do
  let v ← lineRead c x y
  pure ((← get).maskSample v.toNat : Int)

/-- The last line of rule R185: all three neighbours, in the order Ra, Rb, Rc. -/
def predictInner (c : Fin 4) (sel x y : Nat) : Cmd Int := do
  let ra ← readMasked c (x - 1) y
  let rb ← readMasked c x (y - 1)
  let rc ← readMasked c (x - 1) (y - 1)
  match predict sel ra rb rc with
  | some p => pure p
  | none => raiseFatal .stateCorruption

/-- `Px(c, x, y)` (rule R185). -/
def prediction (c : Fin 4) : Cmd Int := do
  let s ← get
  if s.cfg.pred = 0 then pure 0
  else if s.pos.y = s.pos.rl then
    if s.pos.x = 0 then pure (2 ^ (s.cfg.prec.toNat - 1))
    else readMasked c (s.pos.x.toNat - 1) s.pos.y.toNat
  else if s.pos.x = 0 then readMasked c s.pos.x.toNat (s.pos.y.toNat - 1)
  else predictInner c s.cfg.pred.toNat s.pos.x.toNat s.pos.y.toNat

/-! ## One sample -/

/-- `DA[c] <- V; DB[c][x] <- V` (rules R187, R188). -/
def storeResidual (c : Fin 4) (v : Int) : Cmd Unit :=
  modify fun s => (s.setDa c (BitVec.ofInt 17 v)).setDb c s.pos.x.toNat (BitVec.ofInt 17 v)

/-- `CodeSample(encode, c, x, y)` (rule R187). -/
def codeSampleEncode (c : Fin 4) : Cmd Unit := do
  let px ← prediction c
  let p := (← get).pos
  let v ← readMasked c p.x.toNat p.y.toNat
  let s ← get
  encodeV c (s16 (v - px)) s.da[c].toInt (s.dbAt c s.pos.x.toNat).toInt (s.lowThreshold c) (s.highThreshold c)
  storeResidual c (s16 (v - px))

/-- The reconstructed sample: `(px + V) mod 2^16`, masked to P bits in predictor modes (rule R188). -/
def State.reconstruct (s : State) (px v : Int) : Sample := BitVec.ofNat 16 (s.maskSample ((px + v) % 2 ^ 16).toNat)

/-- `CodeSample(decode, c, x, y)` (rule R188). -/
def codeSampleDecode (c : Fin 4) : Cmd Unit := do
  let px ← prediction c
  let s ← get
  let v ← decodeV c s.da[c].toInt (s.dbAt c s.pos.x.toNat).toInt (s.lowThreshold c) (s.highThreshold c)
  lineWrite c s.pos.x.toNat s.pos.y.toNat (s.reconstruct px v)
  storeResidual c v

/-- `CodeSample(dir, c, x, y)`. -/
def codeSample : Dir → Fin 4 → Cmd Unit
  | .encode => codeSampleEncode
  | .decode => codeSampleDecode

/-! ## The walk -/

/-- `for c in 0..N-1: CodeSample(dir, c, x, y)` over a list of components (rule R180). -/
def codeComponents (dir : Dir) : List (Fin 4) → Cmd Unit
  | [] => pure ()
  | c :: rest => do
    codeSample dir c
    codeComponents dir rest

/-- One turn of the column loop (rule R180). -/
def walkColumn (dir : Dir) : Cmd Unit := do
  restartIfDue dir
  codeComponents dir (← get).components
  modifyPos fun p => { p with mcucnt := p.mcucnt + 1, x := p.x + 1 }

/-- The turns of the column loop that are left: `while x < X` (rule R180). -/
def walkColumns (dir : Dir) : Nat → Cmd Unit
  | 0 => pure ()
  | n + 1 => do
    walkColumn dir
    walkColumns dir n

/-- `for c in 0..N-1: DA[c] <- 0` over a list of components (rule R180). -/
def clearLeft : List (Fin 4) → Cmd Unit
  | [] => pure ()
  | c :: rest => do
    modify fun s => s.setDa c 0
    clearLeft rest

/-- One turn of the line loop (rule R180). -/
def walkLine (dir : Dir) : Cmd Unit := do
  clearLeft (← get).components
  modifyPos fun p => { p with x := 0 }
  walkColumns dir (← get).cfg.width.toNat
  modifyPos fun p => { p with y := p.y + 1 }

/-- The turns of the line loop that are left: `while y < YEND` (rule R180). -/
def walkLines (dir : Dir) : Nat → Cmd Unit
  | 0 => pure ()
  | n + 1 => do
    walkLine dir
    walkLines dir n

/-- `Walk(dir)` (rule R180). -/
def walk (dir : Dir) : Cmd Unit := do
  let p := (← get).pos
  walkLines dir (p.yend.toNat - p.y.toNat)
  modifyPos fun p => { p with x := 0 }

end Sys2Proof.Machine
end

