-- ==== Sys2Proof/Machine/DriverCommands.lean ====
section
/-! DEFINITION. The driver commands START_SCAN, START_MCU_ROW, WRITE_MCU, PARSE_MCU, FLUSH and ABORT
(spec/42_driver.md rules R170 to R176). -/

namespace Sys2Proof.Machine

/-- `DSTATE <- d`. -/
def setDState (d : DState) : Cmd Unit := modifyStatus fun st => { st with dstate := d }

/-- The resets of START_SCAN before the engine's own (rule R171). -/
def scanReset (dir : Dir) : Cmd Unit :=
  modify fun s =>
    let t := s.resetCtx.clearDiff
    { t with
      status := { t.status with dmode := dir, exhausted := false }
      pos := Position.reset
      eng := { t.eng with nbytes := 0 } }

/-- The engine's start in a direction (rule R171). -/
def engineInit : Dir → Cmd Unit
  | .encode => encInit
  | .decode => decInit

/-- The body of START_SCAN (rule R171). -/
def startScan (dir : Dir) : Cmd Unit := do
  if (← get).configValid then
    scanReset dir
    engineInit dir
    setDState .scanStarted
  else raiseFatal .configurationError

/-- START_SCAN (rule R171). -/
def execStartScan (dir : Dir) (s : State) : Host.Outcome State Fault Refusal := guarded true s.raw (startScan dir) s

/-- `YEND <- min(y + G, Y)` (rule R172). -/
def State.rowGroupEnd (s : State) : Nat := min (s.pos.y.toNat + s.cfg.rowgrp.toNat) s.cfg.height.toNat

/-- The precondition of START_MCU_ROW: DSTATE is ScanStarted or RowConsumed, and y < Y (rule R172). -/
def State.rowStartable (s : State) : Bool :=
  (s.status.dstate = .scanStarted || s.status.dstate = .rowConsumed) && decide (s.pos.y.toNat < s.cfg.height.toNat)

/-- START_MCU_ROW (rule R172). -/
def execStartMcuRow (s : State) : Host.Outcome State Fault Refusal :=
  guarded true s.rowStartable (do
    modifyPos fun p => { p with yend := BitVec.ofNat 16 s.rowGroupEnd }
    setDState .rowReady) s

/-- DSTATE is RowReady and DMODE is `dir` (rules R173, R174). -/
def State.rowReadyFor (s : State) (dir : Dir) : Bool := s.status.dstate = .rowReady && s.status.dmode = dir

/-- WRITE_MCU (rule R173). -/
def execWriteMcu (s : State) : Host.Outcome State Fault Refusal :=
  guarded true (s.rowReadyFor .encode) (do walk .encode; setDState .rowConsumed) s

/-- PARSE_MCU (rule R174). -/
def execParseMcu (s : State) : Host.Outcome State Fault Refusal :=
  guarded true (s.rowReadyFor .decode) (do walk .decode; setDState .rowConsumed) s

/-- The precondition of FLUSH: DSTATE is RowConsumed and y = Y (rule R175). -/
def State.scanDone (s : State) : Bool := s.status.dstate = .rowConsumed && s.pos.y = s.cfg.height

/-- The end of an encode scan (rule R175). -/
def finishEncode : Cmd Unit := do
  encFlush
  emitMarker .scanEnd

/-- The end of a decode scan (rule R175). -/
def finishDecode : Cmd Unit := do
  markerSync .scanEnd (← get).latched
  modifyEng fun e => { e with mode := .idle }

/-- The end of a scan in a direction (rule R175). -/
def finishScan : Dir → Cmd Unit
  | .encode => finishEncode
  | .decode => finishDecode

/-- FLUSH (rule R175). -/
def execFlush (s : State) : Host.Outcome State Fault Refusal :=
  guarded true s.scanDone (do finishScan s.status.dmode; setDState .scanFlushed) s

/-- ABORT (rule R176): allowed in every driver state but Faulted. -/
def execAbort (s : State) : Host.Outcome State Fault Refusal :=
  guarded true (s.status.dstate ≠ .faulted) (do
    modifyEng Engine.discardHeld
    setDState .uninitialized) s

end Sys2Proof.Machine
end

