-- ==== Sys2Proof/Machine/EngineCommands.lean ====
section
/-! DEFINITION. The engine commands ENC_INIT, ENC_BIT, ENC_FLUSH, DEC_INIT, DEC_BIT and CTX_RESET
(spec/40_engine.md rules R120 to R125). -/

namespace Sys2Proof.Machine

/-- ENC_INIT (rule R120): `EncInit; NBYTES <- 0`. -/
def execEncInit (s : State) : Host.Outcome State Fault Refusal :=
  guarded true s.raw (do encInit; modifyEng fun e => { e with nbytes := 0 }) s

/-- ENC_BIT (rule R121). -/
def execEncBit (c : Fin 4) (bin : Byte) (d : Bool) (s : State) : Host.Outcome State Fault Refusal :=
  guarded (binLegal bin) (s.rawIn .encode) (encodeBit c bin.toNat d) s

/-- ENC_FLUSH (rule R122). -/
def execEncFlush (s : State) : Host.Outcome State Fault Refusal := guarded true (s.rawIn .encode) encFlush s

/-- DEC_INIT (rule R123). -/
def execDecInit (s : State) : Host.Outcome State Fault Refusal := guarded true s.raw decInit s

/-- DEC_BIT (rule R124): the decoded bit, zero-extended, to RESULT. -/
def execDecBit (c : Fin 4) (bin : Byte) (s : State) : Host.Outcome State Fault Refusal :=
  guarded (binLegal bin) (s.rawIn .decode) (do
    let d ← decodeBit c bin.toNat
    writeResult (BitVec.ofNat 32 d.toNat)) s

/-- The context RAM with the sets a mask selects reset (rule R125). -/
def State.resetMasked (s : State) (mask : BitVec 4) : State :=
  { s with ctx := Vector.ofFn fun c => if mask.getLsbD c.val then Vector.replicate Config.nBin CtxEntry.init else s.ctx[c] }

/-- CTX_RESET (rule R125). -/
def execCtxReset (mask : BitVec 4) (s : State) : Host.Outcome State Fault Refusal :=
  guarded true s.raw (modify fun t => t.resetMasked mask) s

end Sys2Proof.Machine
end

