-- ==== Sys2Proof/Machine/SystemCommands.lean ====
section
/-! DEFINITION. The commands NOP, CLEAR_ERR and RESET (spec/60_exceptions.md rules R230, R231;
spec/70_reset_and_hazards.md rule R251). -/

namespace Sys2Proof.Machine

/-- NOP (rule R230): nothing, in every state, Faulted among them. -/
def execNop (s : State) : Host.Outcome State Fault Refusal := .next s

/-- CLEAR_ERR (rule R231): `ERR <- 0`, unless FAULT = 1. -/
def execClearErr (s : State) : Host.Outcome State Fault Refusal :=
  guarded true true (modifyStatus fun st => { st with err := .none }) s

/-- RESET (rule R251): allowed in every state, Faulted among them. -/
def execReset (s : State) : Host.Outcome State Fault Refusal := .next s.resetBlock

end Sys2Proof.Machine
end

