-- ==== Sys2Proof/Machine/Dispatch.lean ====
section
/-! DEFINITION. One arm per command (spec/30_encoding.md rule R82). -/

namespace Sys2Proof.Machine

/-- The meaning of a decoded command. -/
def exec (i : Instr) (s : State) : Host.Outcome State Fault Refusal :=
  match i with
  | .nop => Sys2Proof.Machine.execNop s
  | .encInit => Sys2Proof.Machine.execEncInit s
  | .encBit c bin d => Sys2Proof.Machine.execEncBit c bin d s
  | .encFlush => Sys2Proof.Machine.execEncFlush s
  | .decInit => Sys2Proof.Machine.execDecInit s
  | .decBit c bin => Sys2Proof.Machine.execDecBit c bin s
  | .ctxReset mask => Sys2Proof.Machine.execCtxReset mask s
  | .clearErr => Sys2Proof.Machine.execClearErr s
  | .classify l u => Sys2Proof.Machine.execClassify l u s
  | .encDiff c => Sys2Proof.Machine.execEncDiff c s
  | .decDiff c => Sys2Proof.Machine.execDecDiff c s
  | .startScan dir => Sys2Proof.Machine.execStartScan dir s
  | .startMcuRow => Sys2Proof.Machine.execStartMcuRow s
  | .writeMcu => Sys2Proof.Machine.execWriteMcu s
  | .parseMcu => Sys2Proof.Machine.execParseMcu s
  | .flush => Sys2Proof.Machine.execFlush s
  | .abort => Sys2Proof.Machine.execAbort s
  | .reset => Sys2Proof.Machine.execReset s

end Sys2Proof.Machine
end

