-- ==== Sys2Proof/Machine/Window.lean ====
section
/-! DEFINITION. The host register window: the register map, reads and writes (spec/10_state.md rules R22 to R25,
spec/20_memory.md rules R60 to R63), and the host pseudo-instructions (spec/30_encoding.md rule R87). -/

namespace Sys2Proof.Machine

/-- The registers of the window (rule R22). -/
inductive Reg where
  | cmd
  | status
  | result
  | arg0
  | arg1
  | arg2
  | marker
  | nbytes
  | cfgPred
  | cfgNcomp
  | cfgPrec
  | cfgWidth
  | cfgHeight
  | cfgRi
  | cfgRowgrp
  | cfgLu (c : Fin 4)
  | pos
  | rst
  | mcucnt
  | yend
  | engA
  | engC
  | engCT
  | engB
  | engSC
  | engZC
  | engMode
  | ctx (c : Fin 4) (b : Byte)
deriving DecidableEq, Repr

/-- The byte offset of a register (rule R22). -/
def Reg.offset : Reg → Nat
  | .cmd => 0x000
  | .status => 0x004
  | .result => 0x008
  | .arg0 => 0x00C
  | .arg1 => 0x010
  | .arg2 => 0x014
  | .marker => 0x018
  | .nbytes => 0x01C
  | .cfgPred => 0x020
  | .cfgNcomp => 0x024
  | .cfgPrec => 0x028
  | .cfgWidth => 0x02C
  | .cfgHeight => 0x030
  | .cfgRi => 0x034
  | .cfgRowgrp => 0x038
  | .cfgLu c => 0x040 + 4 * c.val
  | .pos => 0x050
  | .rst => 0x054
  | .mcucnt => 0x058
  | .yend => 0x05C
  | .engA => 0x060
  | .engC => 0x064
  | .engCT => 0x068
  | .engB => 0x06C
  | .engSC => 0x070
  | .engZC => 0x074
  | .engMode => 0x078
  | .ctx c b => 0x400 + 4 * (256 * c.val + b.toNat)

/-- The registers below the CTX view. -/
def Reg.low : List Reg :=
  [.cmd, .status, .result, .arg0, .arg1, .arg2, .marker, .nbytes, .cfgPred, .cfgNcomp, .cfgPrec, .cfgWidth,
   .cfgHeight, .cfgRi, .cfgRowgrp, .cfgLu 0, .cfgLu 1, .cfgLu 2, .cfgLu 3] ++
  [.pos, .rst, .mcucnt, .yend, .engA, .engC, .engCT, .engB, .engSC, .engZC, .engMode]

/-- The register at an aligned offset, if one is listed there (rule R22). -/
def Reg.ofOffset (off : Nat) : Option Reg :=
  if off < 0x400 then Reg.low.find? fun r => r.offset == off
  else if off < 0x1400 ∧ off % 4 = 0 then
    some (.ctx (Fin.ofNat 4 ((off - 0x400) / 4 / 256)) (BitVec.ofNat 8 ((off - 0x400) / 4)))
  else none

/-- What a read shows of a register that only the encoder uses: 0 in ENG_MODE Decode or Idle
(93_implementation_defined.md I21 on rule R30), whatever a fatal error left in it (rule R226;
notes/assumptions/17.md). -/
def State.encoderRegister (s : State) (v : Word) : Word := if s.eng.mode = .encode then v else 0

/-- The value a read of a register returns (rules R22, R25): the fields at their places, 0 elsewhere. -/
def State.regValue (s : State) : Reg → Word
  | .cmd => 0
  | .status => s.statusWord
  | .result => s.regs.result
  | .arg0 => s.regs.arg0
  | .arg1 => s.regs.arg1
  | .arg2 => s.regs.arg2
  | .marker => BitVec.ofNat 32 (s.marker.code.toNat + flagAt s.marker.valid 8)
  | .nbytes => s.eng.nbytes
  | .cfgPred => s.cfg.pred.setWidth 32
  | .cfgNcomp => s.cfg.ncomp.setWidth 32
  | .cfgPrec => s.cfg.prec.setWidth 32
  | .cfgWidth => s.cfg.width.setWidth 32
  | .cfgHeight => s.cfg.height.setWidth 32
  | .cfgRi => s.cfg.ri.setWidth 32
  | .cfgRowgrp => s.cfg.rowgrp.setWidth 32
  | .cfgLu c => BitVec.ofNat 32 (s.cfg.lu[c].l.toNat + s.cfg.lu[c].u.toNat * 16)
  | .pos => BitVec.ofNat 32 (s.pos.x.toNat + s.pos.y.toNat * 65536)
  | .rst => BitVec.ofNat 32 (s.pos.m.toNat + s.pos.rl.toNat * 65536)
  | .mcucnt => s.pos.mcucnt
  | .yend => s.pos.yend.setWidth 32
  | .engA => s.eng.a.setWidth 32
  | .engC => s.eng.c
  | .engCT => s.eng.ct.setWidth 32
  | .engB => s.encoderRegister (BitVec.ofNat 32 (s.eng.b.toNat + flagAt s.eng.bv 8))
  | .engSC => s.encoderRegister s.eng.sc
  | .engZC => s.encoderRegister s.eng.zc
  | .engMode => BitVec.ofNat 32 s.eng.mode.code
  | .ctx c b => BitVec.ofNat 32 ((s.ctxAt c b.toNat).i.toNat + flagAt (s.ctxAt c b.toNat).mps 7)

/-- `RegRead(off)` (rule R25): 0 where no register is listed. -/
def State.regRead (s : State) (off : Nat) : Word :=
  match Reg.ofOffset off with
  | some r => s.regValue r
  | none => 0

/-- CFG writes are taken when DSTATE is Uninitialized or ScanFlushed (rule R24). -/
def State.cfgWritable (s : State) : Bool :=
  s.status.dstate = .uninitialized || s.status.dstate = .scanFlushed

/-- A write of a CFG register: the listed field bits, or nothing in a state that ignores it (rule R24). -/
def State.writeCfg (s : State) (f : ScanConfig → ScanConfig) : State :=
  if s.cfgWritable then { s with cfg := f s.cfg } else s

/-- The thresholds a write to CFG_LU stores: L in [3:0], U in [7:4] (rule R22). -/
def thresholdsOf (v : Word) : Thresholds := { l := v.extractLsb' 0 4, u := v.extractLsb' 4 4 }

/-- The state after a write of `v` to a register other than CMD (rule R24); a write to a read-only register is
ignored. -/
def State.writeReg (s : State) (r : Reg) (v : Word) : State :=
  match r with
  | .arg0 => { s with regs := { s.regs with arg0 := v } }
  | .arg1 => { s with regs := { s.regs with arg1 := v } }
  | .arg2 => { s with regs := { s.regs with arg2 := v } }
  | .cfgPred => s.writeCfg fun c => { c with pred := v.setWidth 4 }
  | .cfgNcomp => s.writeCfg fun c => { c with ncomp := v.setWidth 3 }
  | .cfgPrec => s.writeCfg fun c => { c with prec := v.setWidth 5 }
  | .cfgWidth => s.writeCfg fun c => { c with width := v.setWidth 16 }
  | .cfgHeight => s.writeCfg fun c => { c with height := v.setWidth 16 }
  | .cfgRi => s.writeCfg fun c => { c with ri := v.setWidth 16 }
  | .cfgRowgrp => s.writeCfg fun c => { c with rowgrp := v.setWidth 8 }
  | .cfgLu k => s.writeCfg fun c => { c with lu := c.lu.set k (thresholdsOf v) }
  | .cmd | .status | .result | .marker | .nbytes | .pos | .rst | .mcucnt | .yend | .engA | .engC | .engCT | .engB
  | .engSC | .engZC | .engMode | .ctx _ _ => s

/-- `RegWrite(off, v)` at an offset other than CMD's (rule R24): ignored where no register is listed. -/
def State.regWrite (s : State) (off : Nat) (v : Word) : State :=
  match Reg.ofOffset off with
  | some r => s.writeReg r v
  | none => s

/-- Why a host access is none the model serves: not an aligned 32-bit access (rule R61), or outside the window
(rule R60). -/
def accessProblem (off bytes : Nat) : Option Refusal :=
  if bytes ≠ 4 ∨ off % 4 ≠ 0 then some .unsupportedAccess
  else if 0x1400 ≤ off then some .outsideWindow
  else none

/-- Return a read's value to the host. -/
def State.reply (s : State) (v : Word) : State :=
  { s with ports := { s.ports with replies := s.ports.replies ++ [v] } }

/-- The next host event, and the state with it taken. -/
def State.nextEvent (s : State) : Option (HostEvent × State) :=
  match s.ports.host with
  | [] => none
  | e :: rest => some (e, { s with ports := { s.ports with host := rest } })

/-- Put a host event before the pending ones. -/
def State.pushEvent (s : State) (e : HostEvent) : State :=
  { s with ports := { s.ports with host := e :: s.ports.host } }

/-! ## Host pseudo-instructions (rule R87) -/

/-- `WR reg, v`. -/
def hostWrite (r : Reg) (v : Word) : HostEvent := .write r.offset 4 v

/-- `RD reg`. -/
def hostRead (r : Reg) : HostEvent := .read r.offset 4

/-- A command: its word written to CMD (rule R14). -/
def hostCommand (w : Word) : HostEvent := hostWrite .cmd w

/-- `ENCV c, V, Da, Db`: three operand writes and ENC_DIFF. -/
def hostEncV (c : Fin 4) (v da db : Int) : List HostEvent :=
  [hostWrite .arg0 (BitVec.ofInt 32 v), hostWrite .arg1 (BitVec.ofInt 32 da), hostWrite .arg2 (BitVec.ofInt 32 db),
   hostCommand (encode (.encDiff c))]

/-- `DECV c, Da, Db`: two operand writes and DEC_DIFF. -/
def hostDecV (c : Fin 4) (da db : Int) : List HostEvent :=
  [hostWrite .arg1 (BitVec.ofInt 32 da), hostWrite .arg2 (BitVec.ofInt 32 db), hostCommand (encode (.decDiff c))]

/-- `CLS Da, Db, L, U`: two operand writes and CLASSIFY. -/
def hostCls (da db : Int) (l u : BitVec 4) : List HostEvent :=
  [hostWrite .arg0 (BitVec.ofInt 32 da), hostWrite .arg1 (BitVec.ofInt 32 db), hostCommand (encode (.classify l u))]

end Sys2Proof.Machine
end

