-- ==== Sys2Proof/Machine/Serve.lean ====
section
/-! DEFINITION. Serving one host event (spec/00_scope.md rule R14, spec/20_memory.md rule R61,
spec/30_encoding.md rule R85 step 1). -/

namespace Sys2Proof.Machine

/-- A word written to CMD: the command it spells, or `IllegalCommand` (rules R84, R85, R223). -/
def runWord (w : Word) (s : State) : Host.Outcome State Fault Refusal :=
  match decode w with
  | .ok i => exec i s
  | .error _ => .next (s.report .illegalCommand)

/-- A 32-bit write to the window (rule R24): to CMD it executes a command. -/
def serveWrite (off : Nat) (v : Word) (s : State) : Host.Outcome State Fault Refusal :=
  if off = Reg.offset .cmd then runWord v s else .next (s.regWrite off v)

/-- One host event (rules R14, R61, R250). DESIGN CHOICE (notes/assumptions/25.md): a hardware reset is served between
commands, as a host access is by rule R14; the rules say nothing of one that arrives while a command runs or waits. -/
def serve (e : HostEvent) (s : State) : Host.Outcome State Fault Refusal :=
  match e with
  | .hardReset => .next s.resetBlock
  | .read off bytes =>
    match accessProblem off bytes with
    | some r => .refused r
    | none => .next (s.reply (s.regRead off))
  | .write off bytes v =>
    match accessProblem off bytes with
    | some r => .refused r
    | none => serveWrite off v s

end Sys2Proof.Machine
end

