-- ==== Sys2Proof/Machine/Step.lean ====
section
/-! DEFINITION. One step: the block serves the next host event (spec/00_scope.md rules R14, R17). -/

namespace Sys2Proof.Machine

/-- The block takes the next host event and serves it to completion; with none pending it waits (rules R14, R17). -/
def step (s : State) : Host.Outcome State Fault Refusal :=
  match s.nextEvent with
  | none => .next s
  | some (e, t) => serve e t

/-- `s` with the command word whose low `nbits` bits are those of `w` as the host's next write to CMD. -/
def State.withFetchWord (s : State) (nbits w : Nat) : State :=
  s.pushEvent (hostCommand (BitVec.ofNat 32 (w % 2 ^ nbits)))

end Sys2Proof.Machine
end

