-- ==== Sys2Proof/Safety.lean ====
section
/-! DEFINITION. What a sound state of the machine is, in the terms the statements use: the register bounds and the
whole-machine invariant (spec/10_state.md rules R32, R36, R40, R44), when the collaborators answer, and the coder's
procedures as plain functions of its registers (spec/40_engine.md rules R107 to R117), against which the statements
hold the machine. -/

namespace Sys2Proof.Machine

/-! ## Collaborators -/

/-- Every answer the byte sink still gives is `Ok`. -/
abbrev Ports.SinkAccepts (p : Ports) : Prop := ∀ a ∈ p.sinkAnswers, a = some .ok

/-- Every answer the marker writer still gives is `Ok`. -/
abbrev Ports.WriterAccepts (p : Ports) : Prop := ∀ a ∈ p.emitAnswers, a = some .ok

/-- The source answers every read, with a byte or `EndOfStream`. -/
abbrev Ports.SourceAnswers (p : Ports) : Prop := p.source.silent = false

/-- The marker reader answers every call, and leaves a source that answers. -/
abbrev Ports.ReaderAnswers (p : Ports) : Prop := ∀ a ∈ p.syncs, a.any (fun src => !src.silent) = true

/-- The byte an accepted `SinkWrite` carried; none for any other transaction. -/
def PortEvent.sunkByte : PortEvent → Option Byte
  | .sinkWrite b .ok => some b
  | _ => none

/-- The bytes the sink has accepted, oldest first. -/
def Ports.sinkBytes (p : Ports) : List Byte := p.trace.filterMap PortEvent.sunkByte

/-- Every 0xFF is immediately followed by 0x00 (rule R67). -/
def StuffedBytes : List Byte → Prop
  | [] => True
  | b :: rest => (b = 0xFF → rest.head? = some 0x00) ∧ StuffedBytes rest

/-- The line/frame buffer can supply the sample (rule R68). -/
abbrev Ports.has (p : Ports) (c : Fin 4) (x y : Nat) : Prop :=
  (Memory.read sampleBlank p.samples (sampleKey c x y)).isSome = true

/-- The samples a walk reads that it does not write (rules R185, R187): encoding, those of the lines of the row group;
and in predictor modes those of the line above, unless the row group starts a restart interval. -/
structure State.GroupSupply (s : State) (dir : Dir) : Prop where
  here : dir = .encode → ∀ c ∈ s.components, ∀ x, x < s.cfg.width.toNat → ∀ y, s.pos.y.toNat ≤ y →
    y < s.pos.yend.toNat → s.ports.has c x y
  above : s.cfg.pred ≠ 0 → s.pos.y ≠ s.pos.rl →
    ∀ c ∈ s.components, ∀ x, x < s.cfg.width.toNat → s.ports.has c x (s.pos.y.toNat - 1)

/-- No more than SC + ZC can grow by in the walk of the row group: 64 for each sample (at most 32 decisions of at most
two output bytes each), and one for a restart at each column (rules R110, R156, R180). -/
def State.groupRoom (s : State) : Nat :=
  (64 * s.components.length + 1) * s.cfg.width.toNat * (s.pos.yend.toNat - s.pos.y.toNat)

/-! ## The encoder as functions of its registers -/

/-- The transactions of accepted bytes. -/
def wrotes (bs : List Byte) : List PortEvent := bs.map fun b => .sinkWrite b .ok

/-- The state after the sink accepted the bytes `bs` (rule R106). -/
def State.wrote (s : State) (bs : List Byte) : State :=
  { s with
    eng := { s.eng with nbytes := s.eng.nbytes + BitVec.ofNat 32 bs.length }
    ports := { s.ports with
      sinkAnswers := s.ports.sinkAnswers.drop bs.length
      trace := s.ports.trace ++ wrotes bs } }

/-- A byte with its stuffing (rules R107, R113). -/
def stuffed (b : Byte) : List Byte := if b = 0xFF then [b, 0x00] else [b]

/-- ZC after the held byte of `EmitHeld(carry = 0)`: a held 0x00 is deferred, any other leaves none (rule R107). -/
def Engine.zcAfterHeld (e : Engine) : Nat :=
  if e.bv then (if e.b = 0 then e.zc.toNat + 1 else 0) else e.zc.toNat

/-- The bytes `EmitHeld` writes (rule R107). -/
def Engine.heldBytes (e : Engine) (carry : Bool) : List Byte :=
  if carry then
    if e.bv then List.replicate e.zc.toNat 0x00 ++ stuffed (e.b + 1) else []
  else
    (if e.bv = true ∧ e.b ≠ 0 then List.replicate e.zc.toNat 0x00 ++ [e.b] else []) ++
      (if e.sc = 0 then [] else List.replicate e.zcAfterHeld 0x00 ++ (List.replicate e.sc.toNat (stuffed 0xFF)).flatten)

/-- SC and ZC after `EmitHeld` (rule R107). -/
def Engine.afterHeld (e : Engine) (carry : Bool) : Engine :=
  if carry then { e with zc := BitVec.ofNat 32 ((if e.bv then 0 else e.zc.toNat) + e.sc.toNat), sc := 0 }
  else { e with zc := if e.sc = 0 then BitVec.ofNat 32 e.zcAfterHeld else 0, sc := 0 }

/-- The bytes `ByteOut` writes (rule R110). -/
def Engine.byteOutBytes (e : Engine) : List Byte :=
  if e.outByte > 0xFF then e.heldBytes true else if e.outByte = 0xFF then [] else e.heldBytes false

/-- The registers after `ByteOut`, but for NBYTES (rule R110). -/
def Engine.afterByteOut (e : Engine) : Engine :=
  let f :=
    if e.outByte > 0xFF then { e.afterHeld true with b := BitVec.ofNat 8 e.outByte, bv := true }
    else if e.outByte = 0xFF then { e with sc := BitVec.ofNat 32 (e.sc.toNat + 1) }
    else { e.afterHeld false with b := BitVec.ofNat 8 e.outByte, bv := true }
  { f with c := BitVec.ofNat 32 (e.c.toNat &&& 0x7FFFF), ct := BitVec.ofNat 4 (e.ct.toNat + 8) }

/-- The registers after one shift (rule R109). -/
def Engine.shifted (e : Engine) : Engine :=
  { e with
    a := BitVec.ofNat 17 (e.a.toNat <<< 1), c := BitVec.ofNat 32 (e.c.toNat <<< 1)
    ct := BitVec.ofNat 4 (e.ct.toNat - 1) }

/-- The code value the flush leaves in C (rule R112). -/
def Engine.flushC (e : Engine) : Nat := clearFinalBits e.a.toNat e.c.toNat <<< e.ct.toNat

/-- The final bytes of the flush with `z` zeros deferred (rule R113). -/
def finalBytes (z c : Nat) : List Byte :=
  if c &&& 0x07FFF800 = 0 then []
  else List.replicate z (0x00 : Byte) ++ stuffed (BitVec.ofNat 8 (c >>> 19)) ++
    (if c &&& 0x0007F800 = 0 then [] else stuffed (BitVec.ofNat 8 (c >>> 11)))

/-- The bytes the flush writes (rules R112, R113). -/
def Engine.flushBytes (e : Engine) : List Byte :=
  e.heldBytes (e.flushC &&& 0xF8000000 ≠ 0) ++
    finalBytes (e.afterHeld (e.flushC &&& 0xF8000000 ≠ 0)).zc.toNat e.flushC

/-- The registers after the flush, but for NBYTES (rule R113). -/
def Engine.flushed (e : Engine) : Engine := { e with c := BitVec.ofNat 32 e.flushC }.discardHeld

/-- One turn of `RenormE`, and the bytes it writes (rule R109): a shift, and `ByteOut` when CT reaches 0. -/
def Engine.turn (e : Engine) : Engine × List Byte :=
  if e.shifted.ct = 0 then (e.shifted.afterByteOut, e.shifted.byteOutBytes) else (e.shifted, [])

/-- `RenormE` in at most n turns, and the bytes it writes (rule R109): until `A >= 0x8000`. -/
def Engine.renorm : Nat → Engine → Engine × List Byte
  | 0, e => (e, [])
  | n + 1, e =>
    if 0x8000 ≤ e.turn.1.a.toNat then e.turn
    else ((Engine.renorm n e.turn.1).1, e.turn.2 ++ (Engine.renorm n e.turn.1).2)

/-- The state after an interval step (rule R108): the new A and C, the entry adapted, and the renormalization unless
the estimate is kept. -/
def State.coded (s : State) (c : Fin 4) (b : Nat) (row : RomRow) (step : Nat × Nat × Estimate) : State :=
  let e := { s.eng with a := BitVec.ofNat 17 step.1, c := BitVec.ofNat 32 step.2.1 }
  if step.2.2 = .keep then s.withEng e
  else
    ((s.setCtx c b ((s.ctxAt c b).adapt row step.2.2)).withEng (e.renorm renormFuel).1).wrote (e.renorm renormFuel).2

/-! ## The decoder as functions of the state -/

/-- What one fetch of a data byte takes from the source (rule R116): the byte t, a marker code met, whether the source
ended, the bytes left, and the answers of `SourceRead` in order. -/
structure Fetch where
  t : Byte
  marker : Option Byte
  ended : Bool
  rest : List Byte
  reads : List (Option Byte)
deriving DecidableEq, Repr

/-- A fetch that found the end of the source. -/
def Fetch.atEnd : Fetch := { t := 0x00, marker := none, ended := true, rest := [], reads := [none] }

/-- The fetch after a 0xFF (rule R116): fill bytes skipped; then a stuffed zero, a marker, or the end. -/
def fetchPastFF : List Byte → Fetch
  | [] => Fetch.atEnd
  | b :: rest =>
    if b = 0xFF then { fetchPastFF rest with reads := some b :: (fetchPastFF rest).reads }
    else if b = 0x00 then { t := 0xFF, marker := none, ended := false, rest := rest, reads := [some b] }
    else { t := 0x00, marker := some b, ended := false, rest := rest, reads := [some b] }

/-- The fetch of one data byte from the source's bytes (rule R116). -/
def fetchData : List Byte → Fetch
  | [] => Fetch.atEnd
  | b :: rest =>
    if b = 0xFF then { fetchPastFF rest with reads := some b :: (fetchPastFF rest).reads }
    else { t := b, marker := none, ended := false, rest := rest, reads := [some b] }

/-- `SetExhausted` (rules R116, R224). -/
def State.sourceEnded (s : State) : State :=
  { s with
    eng := { s.eng with eos := true }
    status :=
      if s.status.exhausted then s.status
      else { s.status with exhausted := true, err := if s.status.fault then s.status.err else .streamExhausted } }

/-- The state after a fetch (rule R116). -/
def State.afterFetch (s : State) (f : Fetch) : State :=
  let t : State := { s with
    marker := match f.marker with
      | some m => { code := m, valid := true }
      | none => s.marker
    ports := { s.ports with
      source := { s.ports.source with bytes := f.rest }
      trace := s.ports.trace ++ f.reads.map PortEvent.sourceRead } }
  if f.ended then t.sourceEnded else t

/-- The decoder fetches nothing more: a marker is latched, or the source has ended (rule R116). -/
def State.inputStopped (s : State) : Bool := s.marker.valid || s.eng.eos

/-- The byte t of `ByteIn` (rule R116). -/
def State.dataByte (s : State) : Byte := if s.inputStopped then 0x00 else (fetchData s.ports.source.bytes).t

/-- The state after `ByteIn` (rule R116). -/
def State.byteFed (s : State) : State :=
  let t := if s.inputStopped then s else s.afterFetch (fetchData s.ports.source.bytes)
  t.withEng { t.eng with c := BitVec.ofNat 32 (s.eng.c.toNat + s.dataByte.toNat * 256) }

/-- One turn of `RenormD` (rule R117): `ByteIn` when CT = 0, then a shift. -/
def State.turnD (s : State) : State :=
  let t := if s.eng.ct = 0 then s.byteFed.withEng { s.byteFed.eng with ct := 8 } else s
  t.withEng { t.eng with
    a := BitVec.ofNat 17 (2 * t.eng.a.toNat), c := BitVec.ofNat 32 (2 * t.eng.c.toNat)
    ct := BitVec.ofNat 4 (t.eng.ct.toNat - 1) }

/-- `RenormD` in at most n turns (rule R117): until `A >= 0x8000`. -/
def State.renormedD : Nat → State → State
  | 0, s => s
  | n + 1, s => if 0x8000 ≤ s.turnD.eng.a.toNat then s.turnD else State.renormedD n s.turnD

/-- The state after an interval step of the decoder (rule R115). -/
def State.decoded (s : State) (c : Fin 4) (b : Nat) (row : RomRow) (step : Nat × Nat × Bool × Estimate) : State :=
  let t := s.withEng { s.eng with a := BitVec.ofNat 17 step.1, c := BitVec.ofNat 32 step.2.1 }
  if step.2.2.2 = .keep then t
  else (t.setCtx c b ((s.ctxAt c b).adapt row step.2.2.2)).renormedD renormFuel

/-- The state after `DecInit` (rule R114). -/
def State.decInited (s : State) : State :=
  let s0 := ({ s with marker := { code := 0, valid := false } } : State).withEng
    { s.eng with eos := false, a := 0x10000, c := 0 }
  let s1 := s0.byteFed.withEng { s0.byteFed.eng with c := BitVec.ofNat 32 (s0.byteFed.eng.c.toNat * 256) }
  let s2 := s1.byteFed.withEng { s1.byteFed.eng with c := BitVec.ofNat 32 (s1.byteFed.eng.c.toNat * 256) }
  s2.withEng { s2.eng with ct := 0, b := 0, bv := false, sc := 0, zc := 0, mode := .decode }

/-! ## The engine -/

/-- The encoder registers between operations: the bounds of rule R32, with the bound on the code value they rest on,
`(C + A) * 2^CT <= 2^27 + 2^24`, and a held byte that is never 0xFF (rule R107). -/
structure Engine.EncodeSound (e : Engine) : Prop where
  a_ge : 0x8000 ≤ e.a.toNat
  a_le : e.a.toNat ≤ 0x10000
  code_le : (e.c.toNat + e.a.toNat) * 2 ^ e.ct.toNat ≤ 2 ^ 27 + 2 ^ 24
  ct_ge : 1 ≤ e.ct.toNat
  ct_le : e.ct.toNat ≤ 11
  b_ne : e.b ≠ 0xFF
  b_zero : e.bv = false → e.b = 0

/-- Nothing is held, stacked or deferred. -/
structure Engine.NothingHeld (e : Engine) : Prop where
  b : e.b = 0
  bv : e.bv = false
  sc : e.sc = 0
  zc : e.zc = 0

/-- The decoder registers between operations: the bounds of rule R32, with the 16 - CT low bits of C still empty. -/
structure Engine.DecodeSound (e : Engine) : Prop where
  a_ge : 0x8000 ≤ e.a.toNat
  a_le : e.a.toNat ≤ 0x10000
  cx_lt : e.c.toNat >>> 16 < e.a.toNat
  ct_le : e.ct.toNat ≤ 8
  low_zero : e.c.toNat % 2 ^ (16 - e.ct.toNat) = 0

/-- SC and ZC can take n more increments each without passing 2^32 - 1 (rule R110). -/
abbrev Engine.Room (e : Engine) (n : Nat) : Prop := e.sc.toNat + e.zc.toNat + n < 2 ^ 32

/-! ## The whole machine -/

/-- Every context index lies in 0..112 (rule R36). -/
abbrev State.CtxLegal (s : State) : Prop :=
  ∀ (c : Fin 4) (b : Nat), b < Config.nBin → (s.ctxAt c b).i.toNat < Config.nRow

/-- A residual register lies in -32768..32768 (rule R40). -/
abbrev residualInRange (v : Residual) : Prop := -32768 ≤ v.toInt ∧ v.toInt ≤ 32768

/-- The differential state: DA and the listed entries of DB in range, the DB columns below XMAX, and each DB memory
in its canonical form (rule R40). -/
structure State.DiffSound (s : State) : Prop where
  da : ∀ c : Fin 4, residualInRange s.da[c]
  db : ∀ c : Fin 4, ∀ e ∈ s.db[c], residualInRange e.2 ∧ e.1 < s.build.xmax
  wf : ∀ c : Fin 4, Memory.wf dbBlank s.db[c] = true

/-- DSTATE is ScanStarted, RowReady or RowConsumed. -/
abbrev State.scanning (s : State) : Prop :=
  s.status.dstate = .scanStarted ∨ s.status.dstate = .rowReady ∨ s.status.dstate = .rowConsumed

/-- The engine mode a scan direction uses. -/
def dirMode : Dir → EngMode
  | .encode => .encode
  | .decode => .decode

/-- MCUCNT against the restart interval: with restarts enabled it never passes RI, and it counts columns modulo the
width (rules R180, R183). -/
abbrev State.CountSound (s : State) : Prop :=
  0 < s.cfg.ri.toNat →
    s.pos.mcucnt.toNat ≤ s.cfg.ri.toNat ∧ s.pos.mcucnt.toNat % s.cfg.width.toNat = s.pos.x.toNat % s.cfg.width.toNat

/-- A scan in progress, between commands (rules R44, R170 to R183). -/
structure State.ScanSound (s : State) : Prop where
  mode : s.eng.mode = dirMode s.status.dmode
  config : s.configValid = true
  x_zero : s.pos.x = 0
  y_le : s.pos.y.toNat ≤ s.cfg.height.toNat
  yend_le : s.pos.yend.toNat ≤ s.cfg.height.toNat
  rl_le : s.pos.rl.toNat ≤ s.pos.y.toNat
  ready : s.status.dstate = .rowReady → s.pos.y.toNat < s.pos.yend.toNat
  consumed : s.status.dstate = .rowConsumed → s.pos.y = s.pos.yend
  count : s.CountSound

/-- A fatal error code: 1, 3 or 4 (rule R221). -/
def ErrCode.isFatal : ErrCode → Bool
  | .configurationError | .sinkFailure | .stateCorruption => true
  | .none | .streamExhausted | .illegalCommand | .sequenceError => false

/-- The invariant of the machine between host events. -/
structure State.Inv (s : State) : Prop where
  build : s.build.Legal
  ctx : s.CtxLegal
  encoder : s.eng.mode = .encode → s.eng.EncodeSound
  decoder : s.eng.mode = .decode → s.eng.DecodeSound
  held : s.status.fault = false → s.eng.mode ≠ .encode → s.eng.NothingHeld
  faulted : s.status.fault = true ↔ s.status.dstate = .faulted
  fault : s.status.fault = true → s.eng.mode = .idle ∧ s.status.err.isFatal = true
  scan : s.scanning → s.ScanSound
  diff : s.DiffSound
  marker : s.marker.valid = false → s.marker.code = 0
  eos : s.eng.eos = true → s.status.exhausted = true
  samples : Memory.wf sampleBlank s.ports.samples = true

/-! ## What a command needs, and what it leaves -/

/-- The operands of a command lie in their ranges (rule R84). -/
def operandsLegal (i : Instr) (s : State) : Prop :=
  match i with
  | .encBit _ bin _ | .decBit _ bin => bin.toNat < 160
  | .encDiff c => -32768 ≤ s.arg0 ∧ s.arg0 ≤ 32768 ∧ s.lowThreshold c ≤ s.highThreshold c
  | .decDiff c => s.lowThreshold c ≤ s.highThreshold c
  | .nop | .encInit | .encFlush | .decInit | .ctxReset _ | .clearErr | .classify _ _ | .startScan _ | .startMcuRow
  | .writeMcu | .parseMcu | .flush | .abort | .reset => True

/-- The state allows a command, FAULT apart (rules R120 to R125, R160 to R162, R170 to R176, R230, R231, R251). -/
def allowedIn (i : Instr) (s : State) : Prop :=
  match i with
  | .encInit | .decInit | .ctxReset _ | .startScan _ =>
    s.status.dstate = .uninitialized ∨ s.status.dstate = .scanFlushed
  | .encBit _ _ _ | .encFlush | .encDiff _ =>
    (s.status.dstate = .uninitialized ∨ s.status.dstate = .scanFlushed) ∧ s.eng.mode = .encode
  | .decBit _ _ | .decDiff _ =>
    (s.status.dstate = .uninitialized ∨ s.status.dstate = .scanFlushed) ∧ s.eng.mode = .decode
  | .startMcuRow =>
    (s.status.dstate = .scanStarted ∨ s.status.dstate = .rowConsumed) ∧ s.pos.y.toNat < s.cfg.height.toNat
  | .writeMcu => s.status.dstate = .rowReady ∧ s.status.dmode = .encode
  | .parseMcu => s.status.dstate = .rowReady ∧ s.status.dmode = .decode
  | .flush => s.status.dstate = .rowConsumed ∧ s.pos.y = s.cfg.height
  | .abort => s.status.dstate ≠ .faulted
  | .nop | .clearErr | .classify _ _ | .reset => True

/-- A state with another error code: what a refused command leaves (rules R223, R225, R227). -/
def State.withErr (s : State) (e : ErrCode) : State := { s with status := { s.status with err := e } }

/-- What an encoding command that wrote `bs` leaves: every register but A, C, CT, B, BV, SC, ZC and NBYTES, DA and DB,
and every port but the sink; the context RAM is not spoken of. -/
structure State.EncodeFrame (s : State) (bs : List Byte) (t : State) : Prop where
  status : t.status = s.status
  regs : t.regs = s.regs
  marker : t.marker = s.marker
  cfg : t.cfg = s.cfg
  da : t.da = s.da
  db : t.db = s.db
  pos : t.pos = s.pos
  build : t.build = s.build
  mode : t.eng.mode = s.eng.mode
  eos : t.eng.eos = s.eng.eos
  nbytes : t.eng.nbytes = s.eng.nbytes + BitVec.ofNat 32 bs.length
  ports : t.ports = { s.ports with
    sinkAnswers := s.ports.sinkAnswers.drop bs.length
    trace := s.ports.trace ++ wrotes bs }

/-- What a decoding command leaves: the operand registers, CFG, DA, DB, the positions, B, BV, SC, ZC and NBYTES, every
port but the source; ERR and EXHAUSTED move only when the source ends. RESULT, MARKER, EOS, A, C, CT, ENG_MODE, DSTATE,
FAULT and the context RAM are not spoken of. -/
structure State.DecodeFrame (s t : State) : Prop where
  args : t.regs.arg0 = s.regs.arg0 ∧ t.regs.arg1 = s.regs.arg1 ∧ t.regs.arg2 = s.regs.arg2
  cfg : t.cfg = s.cfg
  da : t.da = s.da
  db : t.db = s.db
  pos : t.pos = s.pos
  build : t.build = s.build
  dmode : t.status.dmode = s.status.dmode
  exhausted : s.status.exhausted = true → t.status.exhausted = true
  held : t.eng.b = s.eng.b ∧ t.eng.bv = s.eng.bv ∧ t.eng.sc = s.eng.sc ∧ t.eng.zc = s.eng.zc
  nbytes : t.eng.nbytes = s.eng.nbytes
  sink : t.ports.sinkBytes = s.ports.sinkBytes
  ports : ∃ bytes trace, t.ports = { s.ports with
    source := { s.ports.source with bytes := bytes }, trace := trace }

/-- Run the decisions of a residual as ENC_BIT commands on component c, until one of them faults. -/
def runEncBits (c : Fin 4) : List (Nat × Bool) → State → Host.Outcome State Fault Refusal
  | [], s => .next s
  | (b, d) :: rest, s =>
    match exec (.encBit c (BitVec.ofNat 8 b) d) s with
    | .next t => if t.status.fault then .next t else runEncBits c rest t
    | .fault f => .fault f
    | .refused r => .refused r

/-- `DecodeBit` on the bins of the decisions, one after another, returns their bits, from `s` to `t`. -/
def DecodesAs (c : Fin 4) : List (Nat × Bool) → State → State → Prop
  | [], s, t => t = s
  | (b, d) :: rest, s, t => ∃ u, decodeBit c b s = .ok d u ∧ DecodesAs c rest u t

/-- The column loop from where x stands, `while x < X` (rule R180). -/
def walkColumnsLeft (dir : Dir) : Cmd Unit := fun s => walkColumns dir (s.cfg.width.toNat - s.pos.x.toNat) s

/-- The state with another RESULT. -/
def State.withResult (s : State) (v : Word) : State := { s with regs := { s.regs with result := v } }

end Sys2Proof.Machine
end

