-- ==== Sys2Proof/Certificates/Slice0/Obligations.lean ====
section
/-! DEFINITION. The statements for the provers. Each docstring names the rule of spec/ a statement formalises. -/

open Sys2Proof Sys2Proof.Machine

/-! ## Command words (spec/30_encoding.md) -/

/-- Rule R88: the worked encodings, both ways, and the illegal word. -/
def Obligations.WorkedEncodings : Prop :=
  encode (.encBit 0 0x00 true) = 0x02000001#32 ∧ decode 0x02000001#32 = .ok (.encBit 0 0x00 true) ∧
  encode (.encBit 2 159 false) = 0x02029F00#32 ∧ decode 0x02029F00#32 = .ok (.encBit 2 159 false) ∧
  encode (.decBit 1 100) = 0x05016400#32 ∧ decode 0x05016400#32 = .ok (.decBit 1 100) ∧
  encode (.ctxReset 0xF) = 0x0600000F#32 ∧ decode 0x0600000F#32 = .ok (.ctxReset 0xF) ∧
  encode (.classify 2 6) = 0x10000062#32 ∧ decode 0x10000062#32 = .ok (.classify 2 6) ∧
  encode (.encDiff 3) = 0x11030000#32 ∧ decode 0x11030000#32 = .ok (.encDiff 3) ∧
  encode (.startScan .decode) = 0x20000001#32 ∧ decode 0x20000001#32 = .ok (.startScan .decode) ∧
  encode .flush = 0x24000000#32 ∧ decode 0x24000000#32 = .ok .flush ∧
  decode 0x02000002#32 = .error .reservedBits

/-- Decode and encode agree on every command, with every operand at every value its bits spell (rules R80 to R82). -/
def Obligations.DecodeOfEncode : Prop := ∀ i : Instr, decode (encode i) = .ok i

/-- A word spells at most one command, and only the word `encode` gives it (rules R80 to R83). -/
def Obligations.EncodeOfDecode : Prop := ∀ (w : Word) (i : Instr), decode w = .ok i → encode i = w

/-- Rule R83: a word selects a command exactly when `word & mask = match`, with the masks the rule lists and
`match = OP << 24` for the OP of rule R82. -/
def Obligations.MaskAndMatch : Prop :=
  ∀ w : Word,
    (decode w = .ok .nop ↔ w &&& 0xFFFFFFFF#32 = 0x00#32 <<< 24) ∧
    (decode w = .ok .encInit ↔ w &&& 0xFFFFFFFF#32 = 0x01#32 <<< 24) ∧
    ((∃ c bin d, decode w = .ok (.encBit c bin d)) ↔ w &&& 0xFFFC00FE#32 = 0x02#32 <<< 24) ∧
    (decode w = .ok .encFlush ↔ w &&& 0xFFFFFFFF#32 = 0x03#32 <<< 24) ∧
    (decode w = .ok .decInit ↔ w &&& 0xFFFFFFFF#32 = 0x04#32 <<< 24) ∧
    ((∃ c bin, decode w = .ok (.decBit c bin)) ↔ w &&& 0xFFFC00FF#32 = 0x05#32 <<< 24) ∧
    ((∃ mask, decode w = .ok (.ctxReset mask)) ↔ w &&& 0xFFFFFFF0#32 = 0x06#32 <<< 24) ∧
    (decode w = .ok .clearErr ↔ w &&& 0xFFFFFFFF#32 = 0x07#32 <<< 24) ∧
    ((∃ l u, decode w = .ok (.classify l u)) ↔ w &&& 0xFFFFFF00#32 = 0x10#32 <<< 24) ∧
    ((∃ c, decode w = .ok (.encDiff c)) ↔ w &&& 0xFFFCFFFF#32 = 0x11#32 <<< 24) ∧
    ((∃ c, decode w = .ok (.decDiff c)) ↔ w &&& 0xFFFCFFFF#32 = 0x12#32 <<< 24) ∧
    ((∃ dir, decode w = .ok (.startScan dir)) ↔ w &&& 0xFFFFFFFE#32 = 0x20#32 <<< 24) ∧
    (decode w = .ok .startMcuRow ↔ w &&& 0xFFFFFFFF#32 = 0x21#32 <<< 24) ∧
    (decode w = .ok .writeMcu ↔ w &&& 0xFFFFFFFF#32 = 0x22#32 <<< 24) ∧
    (decode w = .ok .parseMcu ↔ w &&& 0xFFFFFFFF#32 = 0x23#32 <<< 24) ∧
    (decode w = .ok .flush ↔ w &&& 0xFFFFFFFF#32 = 0x24#32 <<< 24) ∧
    (decode w = .ok .abort ↔ w &&& 0xFFFFFFFF#32 = 0x2F#32 <<< 24) ∧
    (decode w = .ok .reset ↔ w &&& 0xFFFFFFFF#32 = 0x7F#32 <<< 24)

/-- Rules R84 and R223: the OPs that are illegal; a reserved bit that is 1; an operand out of its range; and what each
leaves: ERR, while FAULT = 0, and nothing else. -/
def Obligations.IllegalCommands : Prop :=
  (∀ w : Word,
    (0x08 ≤ w.toNat / 2 ^ 24 ∧ w.toNat / 2 ^ 24 ≤ 0x0F) ∨ (0x13 ≤ w.toNat / 2 ^ 24 ∧ w.toNat / 2 ^ 24 ≤ 0x1F) ∨
      (0x25 ≤ w.toNat / 2 ^ 24 ∧ w.toNat / 2 ^ 24 ≤ 0x2E) ∨ (0x30 ≤ w.toNat / 2 ^ 24 ∧ w.toNat / 2 ^ 24 ≤ 0x7E) ∨
      (0x80 ≤ w.toNat / 2 ^ 24 ∧ w.toNat / 2 ^ 24 ≤ 0xFF) →
    decode w = .error .unknownOpcode) ∧
  (∀ (w : Word) (i : Instr), w.extractLsb' 24 8 = (encode i).extractLsb' 24 8 →
    w.extractLsb' 0 24 &&& i.row.1.extractLsb' 0 24 ≠ 0#24 → decode w = .error .reservedBits) ∧
  (∀ (w : Word) (e : DecodeError) (s : State), decode w = .error e →
    runWord w s = .next (if s.status.fault then s else s.withErr .illegalCommand)) ∧
  (∀ (c : Fin 4) (bin : Byte) (d : Bool) (s : State), s.status.fault = false → 160 ≤ bin.toNat →
    exec (.encBit c bin d) s = .next (s.withErr .illegalCommand) ∧
    exec (.decBit c bin) s = .next (s.withErr .illegalCommand)) ∧
  (∀ (c : Fin 4) (s : State), s.status.fault = false →
    (s.regs.arg0.toInt < -32768 ∨ 32768 < s.regs.arg0.toInt ∨ s.cfg.lu[c].u.toNat < s.cfg.lu[c].l.toNat →
      exec (.encDiff c) s = .next (s.withErr .illegalCommand)) ∧
    (s.cfg.lu[c].u.toNat < s.cfg.lu[c].l.toNat → exec (.decDiff c) s = .next (s.withErr .illegalCommand)))

/-! ## The host interface (spec/00_scope.md rule R14, spec/10_state.md, spec/20_memory.md) -/

/-- A step runs the command whose word the host writes to CMD (rule R14): when the pending write's word decodes to `i`,
the step is `exec i`, with the write taken from the host's queue and nothing else done. -/
def Obligations.StepRunsTheCommand : Prop :=
  (∀ (s : State) (w : Word) (rest : List HostEvent) (i : Instr), s.ports.host = .write 0x000 4 w :: rest →
    decode w = .ok i → step s = exec i { s with ports := { s.ports with host := rest } }) ∧
  (∀ (s : State) (i : Instr), step (s.withFetchWord 32 (encode i).toNat) = exec i s)

/-- The other steps. Rule R61: an access of another width or alignment is refused by name. Rule R250: a hardware reset
resets the block. The model's own choices: with nothing pending the block waits unchanged (notes/assumptions/2.md, over
rules R14 and R17); the reset is one event between commands (25.md) and `State.resetBlock` keeps the build and the ports
(1.md, 18.md); an access outside the 0x0000..0x13FF of rule R60 is refused (11.md). -/
def Obligations.OtherSteps : Prop :=
  (∀ s : State, s.ports.host = [] → step s = .next s) ∧
  (∀ s : State, step (s.pushEvent .hardReset) = .next s.resetBlock) ∧
  (∀ (s : State) (off bytes : Nat) (v : Word), bytes ≠ 4 ∨ off % 4 ≠ 0 →
    step (s.pushEvent (.write off bytes v)) = .refused .unsupportedAccess ∧
    step (s.pushEvent (.read off bytes)) = .refused .unsupportedAccess) ∧
  (∀ (s : State) (off : Nat) (v : Word), off % 4 = 0 → 0x1400 ≤ off →
    step (s.pushEvent (.write off 4 v)) = .refused .outsideWindow ∧
    step (s.pushEvent (.read off 4)) = .refused .outsideWindow)

/-- Rule R25, over the map of rule R22: a read returns the named fields at their bits, with 0 in the reserved bits, in
CMD and at an unlisted offset, and changes nothing but what the host is told. ENG_B, ENG_SC and ENG_ZC read as 0 outside
ENG_MODE Encode (93_implementation_defined.md I21; in Faulted that is the model's reading, notes/assumptions/17.md). -/
def Obligations.ReadsReturnTheFields : Prop :=
  (∀ (s : State) (off : Nat), off % 4 = 0 → off < 0x1400 →
    step (s.pushEvent (.read off 4)) =
      .next { s with ports := { s.ports with replies := s.ports.replies ++ [s.regRead off] } }) ∧
  (∀ s : State,
    s.regRead 0x000 = 0#32 ∧ s.regRead 0x008 = s.regs.result ∧ s.regRead 0x00C = s.regs.arg0 ∧
    s.regRead 0x010 = s.regs.arg1 ∧ s.regRead 0x014 = s.regs.arg2 ∧
    s.regRead 0x018 = 0#23 ++ BitVec.ofBool s.marker.valid ++ s.marker.code ∧ s.regRead 0x01C = s.eng.nbytes ∧
    s.regRead 0x020 = 0#28 ++ s.cfg.pred ∧ s.regRead 0x024 = 0#29 ++ s.cfg.ncomp ∧
    s.regRead 0x028 = 0#27 ++ s.cfg.prec ∧ s.regRead 0x02C = 0#16 ++ s.cfg.width ∧
    s.regRead 0x030 = 0#16 ++ s.cfg.height ∧ s.regRead 0x034 = 0#16 ++ s.cfg.ri ∧
    s.regRead 0x038 = 0#24 ++ s.cfg.rowgrp ∧ s.regRead 0x03C = 0#32) ∧
  (∀ (s : State) (c : Fin 4), s.regRead (0x040 + 4 * c.val) = 0#24 ++ s.cfg.lu[c].u ++ s.cfg.lu[c].l) ∧
  (∀ s : State,
    s.regRead 0x050 = s.pos.y ++ s.pos.x ∧ s.regRead 0x054 = s.pos.rl ++ 0#13 ++ s.pos.m ∧
    s.regRead 0x058 = s.pos.mcucnt ∧ s.regRead 0x05C = 0#16 ++ s.pos.yend ∧ s.regRead 0x060 = 0#15 ++ s.eng.a ∧
    s.regRead 0x064 = s.eng.c ∧ s.regRead 0x068 = 0#28 ++ s.eng.ct ∧
    s.regRead 0x06C = (if s.eng.mode = .encode then 0#23 ++ BitVec.ofBool s.eng.bv ++ s.eng.b else 0#32) ∧
    s.regRead 0x070 = (if s.eng.mode = .encode then s.eng.sc else 0#32) ∧
    s.regRead 0x074 = (if s.eng.mode = .encode then s.eng.zc else 0#32) ∧
    s.regRead 0x078 = (match s.eng.mode with | .idle => 0#32 | .encode => 1#32 | .decode => 2#32)) ∧
  (∀ (s : State) (c : Fin 4) (b : Nat), b < 256 →
    s.regRead (0x400 + 4 * (256 * c.val + b)) =
      if b < 160 then 0#24 ++ BitVec.ofBool (s.ctxAt c b).mps ++ (s.ctxAt c b).i else 0#32) ∧
  (∀ (s : State) (off : Nat), 0x07C ≤ off → off < 0x400 → s.regRead off = 0#32)

/-- STATUS (rule R23): DSTATE, DMODE, EXHAUSTED, MARKER_SEEN = MARKER[8], FAULT, ERR and ROWS_LEFT at their bits with
their codes (rule R221 for ERR), the reserved bits 0. -/
def Obligations.StatusWordFields : Prop :=
  ∀ s : State, ∃ (dstate : BitVec 3) (err : BitVec 4) (rows : Bool),
    s.regRead 0x004 = 0#15 ++ BitVec.ofBool rows ++ 0#4 ++ err ++ 0#1 ++ BitVec.ofBool s.status.fault ++
      BitVec.ofBool s.marker.valid ++ BitVec.ofBool s.status.exhausted ++
      BitVec.ofBool (s.status.dmode = .decode) ++ dstate ∧
    dstate = (match s.status.dstate with
      | .uninitialized => 0#3 | .scanStarted => 1#3 | .rowReady => 2#3 | .rowConsumed => 3#3 | .scanFlushed => 4#3
      | .faulted => 5#3) ∧
    err = (match s.status.err with
      | .none => 0#4 | .configurationError => 1#4 | .streamExhausted => 2#4 | .sinkFailure => 3#4
      | .stateCorruption => 4#4 | .illegalCommand => 5#4 | .sequenceError => 6#4) ∧
    (rows = true ↔ (dstate = 1#3 ∨ dstate = 2#3 ∨ dstate = 3#3) ∧ s.pos.y.toNat < s.cfg.height.toNat)

/-- Rule R24: what a write to each register of the window does, and that it does nothing else. -/
def Obligations.HostWrites : Prop :=
  (∀ (s : State) (v : Word),
    step (s.pushEvent (.write 0x00C 4 v)) = .next { s with regs := { s.regs with arg0 := v } } ∧
    step (s.pushEvent (.write 0x010 4 v)) = .next { s with regs := { s.regs with arg1 := v } } ∧
    step (s.pushEvent (.write 0x014 4 v)) = .next { s with regs := { s.regs with arg2 := v } } ∧
    step (s.pushEvent (.write 0x000 4 v)) = runWord v s) ∧
  (∀ (s : State) (v : Word), s.status.dstate = .uninitialized ∨ s.status.dstate = .scanFlushed →
    step (s.pushEvent (.write 0x020 4 v)) = .next { s with cfg := { s.cfg with pred := v.extractLsb' 0 4 } } ∧
    step (s.pushEvent (.write 0x024 4 v)) = .next { s with cfg := { s.cfg with ncomp := v.extractLsb' 0 3 } } ∧
    step (s.pushEvent (.write 0x028 4 v)) = .next { s with cfg := { s.cfg with prec := v.extractLsb' 0 5 } } ∧
    step (s.pushEvent (.write 0x02C 4 v)) = .next { s with cfg := { s.cfg with width := v.extractLsb' 0 16 } } ∧
    step (s.pushEvent (.write 0x030 4 v)) = .next { s with cfg := { s.cfg with height := v.extractLsb' 0 16 } } ∧
    step (s.pushEvent (.write 0x034 4 v)) = .next { s with cfg := { s.cfg with ri := v.extractLsb' 0 16 } } ∧
    step (s.pushEvent (.write 0x038 4 v)) = .next { s with cfg := { s.cfg with rowgrp := v.extractLsb' 0 8 } } ∧
    ∀ c : Fin 4, step (s.pushEvent (.write (0x040 + 4 * c.val) 4 v)) =
      .next { s with cfg := { s.cfg with
        lu := s.cfg.lu.set c { l := v.extractLsb' 0 4, u := v.extractLsb' 4 4 } } }) ∧
  (∀ (s : State) (off : Nat) (v : Word), s.status.dstate ≠ .uninitialized → s.status.dstate ≠ .scanFlushed →
    off % 4 = 0 → (0x020 ≤ off ∧ off ≤ 0x038) ∨ (0x040 ≤ off ∧ off ≤ 0x04C) →
    step (s.pushEvent (.write off 4 v)) = .next s) ∧
  (∀ (s : State) (off : Nat) (v : Word), off % 4 = 0 →
    off = 0x004 ∨ off = 0x008 ∨ off = 0x018 ∨ off = 0x01C ∨ off = 0x03C ∨ (0x050 ≤ off ∧ off < 0x1400) →
    step (s.pushEvent (.write off 4 v)) = .next s)

/-! ## Errors (spec/60_exceptions.md) -/

/-- Rule R226: a fatal error ends the command at once; the state writes made before it stay. -/
def Obligations.FatalEntry : Prop :=
  ∀ (before rest : Cmd Unit) (e : ErrCode) (s u : State), before s = .ok () u →
    Cmd.outcome (do before; raiseFatal e; rest) s = .next { u with
      status := { u.status with
        err := if u.status.fault then u.status.err else e
        fault := true
        dstate := .faulted }
      eng := { u.eng with mode := .idle } }

/-- Rule R225, in the checking order of rule R85: every command but NOP and RESET is blocked while FAULT = 1, with no
visible effect; else an operand out of range is reported before a state that does not allow the command, and either
report changes ERR alone. -/
def Obligations.CommandsAreCheckedInOrder : Prop :=
  ∀ (i : Instr) (s : State), i ≠ .nop → i ≠ .reset →
    (s.status.fault = true → exec i s = .next s) ∧
    (s.status.fault = false → ¬ operandsLegal i s → exec i s = .next (s.withErr .illegalCommand)) ∧
    (s.status.fault = false → operandsLegal i s → ¬ allowedIn i s → exec i s = .next (s.withErr .sequenceError))

/-- Which command can end in which fatal error (rule R221), and what the Faulted entry then shows and keeps
(rule R226). -/
def Obligations.FatalErrorsOfEachCommand : Prop :=
  ∀ (i : Instr) (s t : State), s.Inv → s.status.fault = false → exec i s = .next t → t.status.fault = true →
    t.status.dstate = .faulted ∧ t.eng.mode = .idle ∧ t.regs = s.regs ∧ t.cfg = s.cfg ∧ t.build = s.build ∧
    match i with
    | .startScan _ => t.status.err = .configurationError
    | .encBit _ _ _ | .encFlush | .encDiff _ | .writeMcu | .flush =>
      t.status.err = .sinkFailure ∨ t.status.err = .stateCorruption
    | .decDiff _ | .parseMcu => t.status.err = .stateCorruption
    | .nop | .encInit | .decInit | .decBit _ _ | .ctxReset _ | .clearErr | .classify _ _ | .startMcuRow | .abort
    | .reset => False

/-- Rule R229: nothing leaves the Faulted state, and nothing changes STATUS in it, but a hardware reset and RESET. -/
def Obligations.FaultedIsLeftOnlyByReset : Prop :=
  ∀ (s t : State), s.Inv → s.status.dstate = .faulted → step s = .next t →
    t.status = s.status ∨
    (t.status.dstate = .uninitialized ∧ ∃ rest, s.ports.host = .hardReset :: rest ∨
      s.ports.host = .write 0x000 4 0x7F000000#32 :: rest)

/-- FAULT and EXHAUSTED are sticky (rule R46): only RESET clears FAULT, and only RESET and START_SCAN clear
EXHAUSTED. -/
def Obligations.StickyFlags : Prop :=
  ∀ (i : Instr) (s t : State), s.Inv → exec i s = .next t → i ≠ .reset →
    (s.status.fault = true → t.status.fault = true) ∧
    (s.status.exhausted = true → (∀ dir, i ≠ .startScan dir) → t.status.exhausted = true)

/-- Rule R230: NOP, in every state; a reserved bit of its word that is 1 makes the word illegal. -/
def Obligations.NopDoesNothing : Prop :=
  encode .nop = 0x00000000#32 ∧ (∀ s : State, exec .nop s = .next s) ∧
  ∀ w : Word, w.extractLsb' 24 8 = 0#8 → w ≠ 0#32 → decode w = .error .reservedBits

/-- Rule R231: CLEAR_ERR, in every driver state but Faulted. -/
def Obligations.ClearErrClearsErrAlone : Prop :=
  encode .clearErr = 0x07000000#32 ∧
  (∀ s : State, s.status.fault = false → exec .clearErr s = .next (s.withErr .none)) ∧
  ∀ s : State, s.status.fault = true → exec .clearErr s = .next s

/-! ## Reset (spec/70_reset_and_hazards.md) -/

/-- Rules R250 and R251: every piece of the block's state at its reset value, after RESET and after a hardware reset,
from any state. That both keep the build (notes/assumptions/1.md) and the ports (notes/assumptions/18.md) is the model's
reading: rule R251 says only that RESET calls no collaborator. A hardware reset comes between commands
(notes/assumptions/25.md). -/
def Obligations.ResetGivesEveryResetValue : Prop :=
  encode .reset = 0x7F000000#32 ∧
  (∀ w : Word, w.extractLsb' 24 8 = 0x7F#8 → w ≠ 0x7F000000#32 → decode w = .error .reservedBits) ∧
  (∀ r : State, (∃ s : State, exec .reset s = .next r) ∨ (∃ s : State, step (s.pushEvent .hardReset) = .next r) →
    r.status = { dstate := .uninitialized, dmode := .encode, exhausted := false, fault := false, err := .none } ∧
    r.regs = { arg0 := 0, arg1 := 0, arg2 := 0, result := 0 } ∧ r.marker = { code := 0, valid := false } ∧
    (∀ off, off < 0x1400 → r.regRead off = 0#32) ∧
    r.eng = { a := 0, c := 0, ct := 0, b := 0, bv := false, sc := 0, zc := 0, nbytes := 0, eos := false
              mode := .idle } ∧
    (∀ (c : Fin 4) (b : Nat), r.ctxAt c b = { i := 0, mps := false }) ∧
    (∀ (c : Fin 4), r.da[c] = 0 ∧ ∀ x, r.dbAt c x = 0) ∧
    r.pos = { x := 0, y := 0, yend := 0, rl := 0, m := 0, mcucnt := 0 } ∧ r.configValid = false) ∧
  (∀ s : State, ∃ r : State, exec .reset s = .next r ∧ r.build = s.build ∧ r.ports = s.ports ∧
    step (s.pushEvent .hardReset) = .next r) ∧
  State.reset.build.rom = Config.qeTable ∧ exec .reset State.reset = .next State.reset

/-! ## The arithmetic coder engine (spec/40_engine.md) -/

/-- Rule R102: the properties of the ROM, which is the default build's (rule R11). -/
def Obligations.RomProperties : Prop :=
  Build.default.rom = Config.qeTable ∧ Config.qeTable.length = 113 ∧
  (∀ r ∈ Config.qeTable, 0x0001 ≤ r.qe.toNat ∧ r.qe.toNat ≤ 0x5B12 ∧ r.qe.toNat < 0x8000 ∧ r.nlps.toNat ≤ 112 ∧
    r.nmps.toNat ≤ 112) ∧
  ∀ i : Fin 113, (Config.qeTable[i.val]?.map RomRow.switch = some true ↔
    i.val ∈ [0, 14, 36, 64, 80, 88, 95, 105, 110, 112])

/-- Rules R105 and R120: `EncInit`, and ENC_INIT, which clears NBYTES too; in a state that is not RAW, SequenceError and
no change. -/
def Obligations.EncInitSetsTheRegisters : Prop :=
  encode .encInit = 0x01000000#32 ∧
  (∀ s : State, encInit s = .ok () { s with eng :=
    { a := 0x10000, c := 0, ct := 11, b := 0, bv := false, sc := 0, zc := 0, nbytes := s.eng.nbytes, eos := false
      mode := .encode } }) ∧
  (∀ s : State, s.status.fault = false → (s.status.dstate = .uninitialized ∨ s.status.dstate = .scanFlushed) →
    exec .encInit s = .next { s with eng :=
      { a := 0x10000, c := 0, ct := 11, b := 0, bv := false, sc := 0, zc := 0, nbytes := 0, eos := false
        mode := .encode } }) ∧
  ∀ s : State, s.status.fault = false → s.status.dstate ≠ .uninitialized → s.status.dstate ≠ .scanFlushed →
    exec .encInit s = .next (s.withErr .sequenceError)

/-- Rule R125: CTX_RESET resets the sets its mask selects and touches nothing else. -/
def Obligations.CtxResetResetsTheMaskedSets : Prop :=
  (∀ k : BitVec 4, encode (.ctxReset k) = 0x06000000#32 ||| k.setWidth 32) ∧
  (∀ (k : BitVec 4) (s : State), s.status.fault = false →
    (s.status.dstate = .uninitialized ∨ s.status.dstate = .scanFlushed) →
    ∃ t : State, exec (.ctxReset k) s = .next t ∧ t = { s with ctx := t.ctx } ∧
      ∀ (c : Fin 4) (b : Nat), b < 160 →
        t.ctxAt c b = if k.getLsbD c.val then { i := 0, mps := false } else s.ctxAt c b) ∧
  (∀ s : State, s.status.fault = false → (s.status.dstate = .uninitialized ∨ s.status.dstate = .scanFlushed) →
    exec (.ctxReset 0) s = .next s) ∧
  ∀ (k : BitVec 4) (s : State), s.status.fault = false → s.status.dstate ≠ .uninitialized →
    s.status.dstate ≠ .scanFlushed → exec (.ctxReset k) s = .next (s.withErr .sequenceError)

/-- Rule R106: `Emit` on each answer of the sink, and `EmitZeros`, turn by turn and as a whole. -/
def Obligations.EmitSendsAndCounts : Prop :=
  (∀ (b : Byte) (s : State), s.ports.sinkAnswers.head? = none ∨ s.ports.sinkAnswers.head? = some (some .ok) →
    emit b s = .ok () { s with
      eng := { s.eng with nbytes := s.eng.nbytes + 1 }
      ports := { s.ports with
        sinkAnswers := s.ports.sinkAnswers.tail, trace := s.ports.trace ++ [.sinkWrite b .ok] } }) ∧
  (∀ (b : Byte) (s : State), s.ports.sinkAnswers.head? = some (some .fail) →
    emit b s = .error .fatal (State.enterFaulted .sinkFailure { s with
      ports := { s.ports with
        sinkAnswers := s.ports.sinkAnswers.tail, trace := s.ports.trace ++ [.sinkWrite b .fail] } })) ∧
  (∀ s : State, s.eng.zc = 0 → emitZeros s = .ok () s) ∧
  (∀ s : State, s.eng.zc ≠ 0 →
    emitZeros s = (do emit 0x00; modifyEng fun e => { e with zc := e.zc - 1 }; emitZeros : Cmd Unit) s) ∧
  ∀ s : State, s.ports.SinkAccepts →
    emitZeros s = .ok () ((s.withEng { s.eng with zc := 0 }).wrote (List.replicate s.eng.zc.toNat 0x00))

/-- Rule R107: `EmitHeld` with room in SC and ZC and a sink that accepts: the bytes it writes and the registers it
leaves are those of `Engine.heldBytes` and `Engine.afterHeld`; and what these are in each of the rule's cases. -/
def Obligations.EmitHeldBytesAndRegisters : Prop :=
  (∀ (carry : Bool) (s : State), s.ports.SinkAccepts → s.eng.b ≠ 0xFF → s.eng.Room 1 →
    emitHeld carry s = .ok () ((s.withEng (s.eng.afterHeld carry)).wrote (s.eng.heldBytes carry))) ∧
  ∀ e : Engine, e.Room 1 → e.b ≠ 0xFF →
    (e.bv = true → e.heldBytes true = List.replicate e.zc.toNat 0x00 ++
      (if e.b + 1 = 0xFF then [0xFF, 0x00] else [e.b + 1]) ∧ (e.afterHeld true).zc = e.sc) ∧
    (e.bv = false → e.heldBytes true = [] ∧ (e.afterHeld true).zc = e.zc + e.sc) ∧
    (e.bv = true → e.b = 0 → e.sc = 0 → e.heldBytes false = [] ∧ (e.afterHeld false).zc = e.zc + 1) ∧
    (e.bv = true → e.b = 0 → e.sc ≠ 0 → e.heldBytes false = List.replicate (e.zc.toNat + 1) 0x00 ++
      (List.replicate e.sc.toNat [0xFF, 0x00]).flatten ∧ (e.afterHeld false).zc = 0) ∧
    (e.bv = true → e.b ≠ 0 → e.heldBytes false = List.replicate e.zc.toNat 0x00 ++ [e.b] ++
      (List.replicate e.sc.toNat [0xFF, 0x00]).flatten ∧ (e.afterHeld false).zc = 0) ∧
    (e.bv = false → e.sc = 0 → e.heldBytes false = [] ∧ (e.afterHeld false).zc = e.zc) ∧
    (e.bv = false → e.sc ≠ 0 → e.heldBytes false = List.replicate e.zc.toNat 0x00 ++
      (List.replicate e.sc.toNat [0xFF, 0x00]).flatten ∧ (e.afterHeld false).zc = 0) ∧
    ∀ carry, (e.afterHeld carry).sc = 0 ∧
      e.afterHeld carry = { e with zc := (e.afterHeld carry).zc, sc := (e.afterHeld carry).sc }

/-- Rule R110: `ByteOut` at a byte boundary, for each T; and the overflow of SC. -/
def Obligations.ByteOutForEachT : Prop :=
  (∀ s : State, s.eng.ct = 0 → s.ports.SinkAccepts → s.eng.b ≠ 0xFF → s.eng.Room 1 →
    let t := s.eng.c.toNat / 2 ^ 19
    let dropped := fun e : Engine => { e with c := BitVec.ofNat 32 (s.eng.c.toNat % 2 ^ 19), ct := 8 }
    (0xFF < t → byteOut s = .ok () ((s.withEng (dropped
      { s.eng.afterHeld true with b := BitVec.ofNat 8 t, bv := true })).wrote (s.eng.heldBytes true))) ∧
    (t = 0xFF → byteOut s = .ok () (s.withEng (dropped { s.eng with sc := s.eng.sc + 1 }))) ∧
    (t < 0xFF → byteOut s = .ok () ((s.withEng (dropped
      { s.eng.afterHeld false with b := BitVec.ofNat 8 t, bv := true })).wrote (s.eng.heldBytes false)))) ∧
  ∀ s : State, s.eng.c.toNat / 2 ^ 19 = 0xFF → s.eng.sc.toNat = 2 ^ 32 - 1 →
    byteOut s = .error .fatal (s.enterFaulted .stateCorruption)

/-- ENC_BIT (rules R108, R109, R121): with the ROM row at the index the context entry holds (rule R101), the interval step
of rule R108, written out, and the registers and the bytes that follow from it; every other piece of state is as before.
The entry after it (rules R103, R104): as it was where nothing renormalizes; after an MPS, I is NMPS and MPS stays; after
an LPS, I is NLPS and MPS is flipped exactly when SWITCH is 1 at the old index. And the corner of rule R121: an MPS with
`A - Qe >= 0x8000` changes only A, whatever the sink would answer. -/
def Obligations.EncBitCompletes : Prop :=
  (∀ (c : Fin 4) (bin : Byte) (d : Bool) (s : State) (row : RomRow), s.status.fault = false →
     (s.status.dstate = .uninitialized ∨ s.status.dstate = .scanFlushed) → s.eng.mode = .encode → bin.toNat < 160 →
     let old := s.ctxAt c bin.toNat
     s.eng.EncodeSound → s.build.rom[old.i.toNat]? = some row → row.Legal → s.ports.SinkAccepts → s.eng.Room 2 →
     let a := s.eng.a.toNat - row.qe.toNat
     let q := row.qe.toNat
     let step : Nat × Nat × Estimate :=
       if d = old.mps then
         if 0x8000 ≤ a then (a, s.eng.c.toNat, .keep)
         else if a < q then (q, s.eng.c.toNat + a, .mps) else (a, s.eng.c.toNat, .mps)
       else if q ≤ a then (q, s.eng.c.toNat + a, .lps) else (a, s.eng.c.toNat, .lps)
     let t := s.coded c bin.toNat row step
     exec (.encBit c bin d) s = .next t ∧
       ∀ (c' : Fin 4) (b' : Nat), t.ctxAt c' b' =
         if c' = c ∧ b' = bin.toNat then
           match step.2.2 with
           | .keep => old
           | .mps => { i := row.nmps, mps := old.mps }
           | .lps => { i := row.nlps, mps := if row.switch = true then !old.mps else old.mps }
         else s.ctxAt c' b') ∧
  (∀ (c : Fin 4) (bin : Byte) (s : State) (row : RomRow), s.status.fault = false →
     (s.status.dstate = .uninitialized ∨ s.status.dstate = .scanFlushed) → s.eng.mode = .encode → bin.toNat < 160 →
     s.eng.EncodeSound → s.build.rom[(s.ctxAt c bin.toNat).i.toNat]? = some row → row.Legal →
     0x8000 ≤ s.eng.a.toNat - row.qe.toNat →
     exec (.encBit c bin (s.ctxAt c bin.toNat).mps) s =
       .next { s with eng := { s.eng with a := s.eng.a - row.qe.setWidth 17 } })

/-- Renormalization without a byte boundary on the way: k shifts that CT allows double A and C k times, lower CT by k,
and write or read nothing. `RenormE` (rule R109), whose byte falls due after the shift that brings CT to 0: of the
machine's `renormE`, and of `Engine.renorm`, which gives the registers after ENC_BIT. `RenormD` (rule R117), whose byte
is due before a shift with CT = 0, and whose C is taken mod 2^32: of the machine's `renormD`, and of
`State.renormedD`, which gives the state after DEC_BIT. -/
def Obligations.RenormalizationWithoutAByte : Prop :=
  ∀ (s : State) (k n : Nat), s.eng.a.toNat < 0x8000 → 0x8000 ≤ s.eng.a.toNat * 2 ^ k →
    s.eng.a.toNat * 2 ^ k < 0x10000 → k ≤ n →
    let shifted : Engine := { s.eng with
      a := BitVec.ofNat 17 (s.eng.a.toNat * 2 ^ k), c := BitVec.ofNat 32 (s.eng.c.toNat * 2 ^ k)
      ct := BitVec.ofNat 4 (s.eng.ct.toNat - k) }
    (k < s.eng.ct.toNat → s.eng.c.toNat * 2 ^ k < 2 ^ 32 →
      renormE n s = .ok () (s.withEng shifted) ∧ s.eng.renorm n = (shifted, [])) ∧
    (k ≤ s.eng.ct.toNat →
      renormD n s = .ok () (s.withEng shifted) ∧ s.renormedD n = s.withEng shifted)

/-- Rule R112: the value of the flush is the rule's, lies in the final interval, and has the most trailing zero bits
there. -/
def Obligations.FlushValueHasMostTrailingZeros : Prop :=
  ∀ s : State, s.eng.EncodeSound →
    let c := s.eng.c.toNat
    let a := s.eng.a.toNat
    let t := (c + a - 1) &&& 0xFFFF0000
    let v := if t < c then t + 0x8000 else t
    flushValue s = .ok () (s.withEng { s.eng with c := BitVec.ofNat 32 (v <<< s.eng.ct.toNat) }) ∧
    c ≤ v ∧ v < c + a ∧ ∀ w n : Nat, c ≤ w → w < c + a → 2 ^ n ∣ w → 2 ^ n ∣ v

/-- ENC_FLUSH (rules R113, R122): the bytes it writes and the registers it leaves; every other piece of state is as
before. -/
def Obligations.EncFlushCompletes : Prop :=
  ∀ s : State, s.status.fault = false → (s.status.dstate = .uninitialized ∨ s.status.dstate = .scanFlushed) →
    s.eng.mode = .encode → s.eng.EncodeSound → s.ports.SinkAccepts → s.eng.Room 1 →
    let v := clearFinalBits s.eng.a.toNat s.eng.c.toNat * 2 ^ s.eng.ct.toNat
    let carry : Bool := 2 ^ 27 ≤ v
    let zeros := List.replicate (s.eng.afterHeld carry).zc.toNat (0x00 : Byte)
    exec .encFlush s = .next (State.wrote { s with
        eng := { s.eng with
          c := BitVec.ofNat 32 v, zc := 0, b := 0, bv := false, sc := 0, mode := .idle } }
      (s.eng.heldBytes carry ++
        if v % 2 ^ 27 / 2 ^ 11 = 0 then []
        else zeros ++ stuffed (BitVec.ofNat 8 (v / 2 ^ 19)) ++
          if v % 2 ^ 19 / 2 ^ 11 = 0 then [] else stuffed (BitVec.ofNat 8 (v / 2 ^ 11))))

/-- How the stream ends (rules R67, R113, R122): the bytes of a flush are stuffed, and their last is a 0x00 only where
it stuffs a 0xFF; right after ENC_INIT a flush writes no byte. -/
def Obligations.TheStreamEndsWell : Prop :=
  (∀ s t : State, s.Inv → s.status.fault = false → exec .encFlush s = .next t → t.status.fault = false →
    s.eng.mode = .encode → (s.status.dstate = .uninitialized ∨ s.status.dstate = .scanFlushed) →
    ∃ bs : List Byte, t.ports.sinkBytes = s.ports.sinkBytes ++ bs ∧ StuffedBytes bs ∧
      ∀ p : List Byte, bs = p ++ [0x00] → ∃ r : List Byte, p = r ++ [0xFF]) ∧
  ∀ s : State, s.status.fault = false → (s.status.dstate = .uninitialized ∨ s.status.dstate = .scanFlushed) →
    ∃ t u : State, exec .encInit s = .next t ∧ exec .encFlush t = .next u ∧ u.ports = s.ports ∧
      u.eng.nbytes = 0 ∧ u.eng.mode = .idle

/-- Rule R116, with the once-only report of rule R224: `ByteIn` on every shape of what the source holds. -/
def Obligations.ByteInOnEachSource : Prop :=
  ∀ s : State, s.ports.source.silent = false → s.eng.c.toNat + 0xFF00 < 2 ^ 32 →
    let moved := fun (bytes : List Byte) (reads : List (Option Byte)) (t : Nat) => { s with
      eng := { s.eng with c := s.eng.c + BitVec.ofNat 32 (t * 256) }
      ports := { s.ports with
        source := { s.ports.source with bytes := bytes }, trace := s.ports.trace ++ reads.map PortEvent.sourceRead } }
    let ended := fun (t : State) => { t with
      eng := { t.eng with eos := true }
      status := if s.status.exhausted then s.status else
        { s.status with exhausted := true, err := if s.status.fault then s.status.err else .streamExhausted } }
    (s.marker.valid = true ∨ s.eng.eos = true → byteIn s = .ok () s) ∧
    (s.marker.valid = false → s.eng.eos = false →
      (s.ports.source.bytes = [] → byteIn s = .ok () (ended (moved [] [none] 0))) ∧
      (∀ (b : Byte) (rest : List Byte), b ≠ 0xFF → s.ports.source.bytes = b :: rest →
        byteIn s = .ok () (moved rest [some b] b.toNat)) ∧
      (∀ n : Nat, s.ports.source.bytes = List.replicate (n + 1) 0xFF →
        byteIn s = .ok () (ended (moved [] (List.replicate (n + 1) (some 0xFF) ++ [none]) 0))) ∧
      (∀ (n : Nat) (rest : List Byte), s.ports.source.bytes = List.replicate (n + 1) 0xFF ++ 0x00 :: rest →
        byteIn s = .ok () (moved rest (List.replicate (n + 1) (some 0xFF) ++ [some 0x00]) 0xFF)) ∧
      (∀ (n : Nat) (m : Byte) (rest : List Byte), m ≠ 0x00 → m ≠ 0xFF →
        s.ports.source.bytes = List.replicate (n + 1) 0xFF ++ m :: rest →
        byteIn s = .ok () { moved rest (List.replicate (n + 1) (some 0xFF) ++ [some m]) 0 with
          marker := { code := m, valid := true } }))

/-- DEC_INIT (rules R114, R123) completes on every source that answers: MARKER and EOS are cleared first, C's upper half
holds the two data bytes fetched and its lower half 0, and A, CT, the held registers and ENG_MODE are set; what it
leaves. On two plain bytes and on an empty source, to the last field. -/
def Obligations.DecInitCompletes : Prop :=
  (∀ s : State, s.status.fault = false → (s.status.dstate = .uninitialized ∨ s.status.dstate = .scanFlushed) →
     s.ports.SourceAnswers →
     let f := fetchData s.ports.source.bytes
     ∃ t : State, exec .decInit s = .next t ∧ t = s.decInited ∧
       t.eng.c = f.t ++ (if f.marker.isSome || f.ended then 0x00 else (fetchData f.rest).t) ++ 0#16 ∧
       t.eng.a = 0x10000 ∧ t.eng.ct = 0 ∧ t.eng.b = 0 ∧ t.eng.bv = false ∧ t.eng.sc = 0 ∧ t.eng.zc = 0 ∧
       t.eng.mode = .decode ∧ t.eng.nbytes = s.eng.nbytes ∧
       t.ctx = s.ctx ∧ t.regs = s.regs ∧ t.cfg = s.cfg ∧ t.da = s.da ∧ t.db = s.db ∧ t.pos = s.pos ∧
       t.build = s.build ∧ t.status.dstate = s.status.dstate ∧ t.status.dmode = s.status.dmode ∧
       t.status.fault = false ∧ t.ports.sinkBytes = s.ports.sinkBytes ∧ t.ports.samples = s.ports.samples) ∧
  (∀ s : State, s.status.fault = false → (s.status.dstate = .uninitialized ∨ s.status.dstate = .scanFlushed) →
     let started := fun (c : Word) (eos : Bool) => { s.eng with
       a := 0x10000, c := c, ct := 0, b := 0, bv := false, sc := 0, zc := 0, eos := eos, mode := .decode }
     (∀ (b1 b2 : Byte) (rest : List Byte), b1 ≠ 0xFF → b2 ≠ 0xFF → s.ports.source.bytes = b1 :: b2 :: rest →
       exec .decInit s = .next { s with
         eng := started (b1 ++ b2 ++ 0#16) false
         marker := { code := 0, valid := false }
         ports := { s.ports with
           source := { s.ports.source with bytes := rest }
           trace := s.ports.trace ++ [.sourceRead (some b1), .sourceRead (some b2)] } }) ∧
     (s.ports.source.bytes = [] → s.ports.source.silent = false →
       exec .decInit s = .next { s with
         eng := started 0#32 true
         marker := { code := 0, valid := false }
         status := if s.status.exhausted then s.status else
           { s.status with exhausted := true, err := .streamExhausted }
         ports := { s.ports with trace := s.ports.trace ++ [.sourceRead none] } }))

/-- DEC_BIT (rules R115, R117, R124): with the ROM row at the index the context entry holds (rule R101), the interval step
of rule R115, written out, the bit to RESULT, and the registers that follow from it; every other piece of state is as
before. The entry after it (rules R103, R104): as it was where nothing renormalizes; after an MPS, I is NMPS and MPS
stays; after an LPS, I is NLPS and MPS is flipped exactly when SWITCH is 1 at the old index. -/
def Obligations.DecBitCompletes : Prop :=
  ∀ (c : Fin 4) (bin : Byte) (s : State) (row : RomRow), s.status.fault = false →
    (s.status.dstate = .uninitialized ∨ s.status.dstate = .scanFlushed) → s.eng.mode = .decode → bin.toNat < 160 →
    let old := s.ctxAt c bin.toNat
    s.eng.DecodeSound → s.build.rom[old.i.toNat]? = some row → row.Legal → s.ports.SourceAnswers →
    let a := s.eng.a.toNat - row.qe.toNat
    let q := row.qe.toNat
    let upper := s.eng.c.toNat - a * 2 ^ 16
    let step : Nat × Nat × Bool × Estimate :=
      if s.eng.c.toNat / 2 ^ 16 < a then
        if a < 0x8000 then
          if a < q then (a, s.eng.c.toNat, false, .lps) else (a, s.eng.c.toNat, true, .mps)
        else (a, s.eng.c.toNat, true, .keep)
      else if a < q then (q, upper, true, .mps) else (q, upper, false, .lps)
    let d : Bool := if step.2.2.1 then old.mps else !old.mps
    let t := (s.decoded c bin.toNat row step).withResult (if d then 1#32 else 0#32)
    exec (.decBit c bin) s = .next t ∧
      ∀ (c' : Fin 4) (b' : Nat), t.ctxAt c' b' =
        if c' = c ∧ b' = bin.toNat then
          match step.2.2.2 with
          | .keep => old
          | .mps => { i := row.nmps, mps := old.mps }
          | .lps => { i := row.nlps, mps := if row.switch = true then !old.mps else old.mps }
        else s.ctxAt c' b'

/-- The decoder's interval step undoes the encoder's (rules R108, R115, R118): for a code value p inside the interval
the encoder chose, the decoder finds the same bit, the same interval and the same estimate, and p's place in it. -/
def Obligations.DecoderStepTracksEncoderStep : Prop :=
  ∀ (a c q p : Nat) (isMps : Bool), 0x8000 ≤ a → a ≤ 0x10000 → 0 < q → q < 0x8000 →
    let e := encodeSplit a c q isMps
    e.2.1 ≤ p → p < e.2.1 + e.1 →
    decodeSplit a ((p - c) * 2 ^ 16) q = (e.1, (p - e.2.1) * 2 ^ 16, isMps, e.2.2)

/-! ## The context model (spec/41_context.md) -/

/-- Rule R153: the zero/sign cell, 0..24, with the bands of rule R151, which cut the integers without gap or overlap,
and the magnitude group of rule R155, which is class ±2 of Db when L <= U. -/
def Obligations.ClassifyBandsAndCells : Prop :=
  (∀ (d : Int) (l u : Nat),
     let lp := if l = 0 then 0 else 2 ^ (l - 1)
     (classify d l u = 0 ↔ d.natAbs ≤ lp) ∧
     (classify d l u = 1 ↔ lp < d.natAbs ∧ d.natAbs ≤ 2 ^ u ∧ 0 < d) ∧
     (classify d l u = -1 ↔ lp < d.natAbs ∧ d.natAbs ≤ 2 ^ u ∧ d < 0) ∧
     (classify d l u = 2 ↔ lp < d.natAbs ∧ 2 ^ u < d.natAbs ∧ 0 < d) ∧
     (classify d l u = -2 ↔ lp < d.natAbs ∧ 2 ^ u < d.natAbs ∧ d < 0)) ∧
  (∀ (da db : Int) (l u : Nat),
     (selectMagnitude db u = true ↔ 2 ^ u < db.natAbs) ∧
     (l ≤ u → (selectMagnitude db u = true ↔ classify db l u = 2 ∨ classify db l u = -2)) ∧
     ((selectZeroSign da db l u : Int) = 5 * (classify da l u + 2) + (classify db l u + 2)) ∧
     selectZeroSign da db l u ≤ 24)

/-- Rule R160: CLASSIFY in every driver state with FAULT = 0, for thresholds in any order and every ARG0 and ARG1: the
fields of RESULT at their bits, and no other change. A reserved bit of its word that is 1 makes the word illegal. -/
def Obligations.ClassifyWritesResultAlone : Prop :=
  (∀ l u : BitVec 4, encode (.classify l u) = 0x10000000#32 ||| u.setWidth 32 <<< 4 ||| l.setWidth 32) ∧
  (∀ w : Word, w.extractLsb' 24 8 = 0x10#8 → w.extractLsb' 8 16 ≠ 0#16 → decode w = .error .reservedBits) ∧
  ∀ (l u : BitVec 4) (s : State), s.status.fault = false →
    let ca := classify s.regs.arg0.toInt l.toNat u.toNat
    let cb := classify s.regs.arg1.toInt l.toNat u.toNat
    exec (.classify l u) s = .next (s.withResult
      (0#8 ++ BitVec.ofInt 8 (4 * (5 * (ca + 2) + (cb + 2))) ++ 0#7 ++
        BitVec.ofBool (selectMagnitude s.regs.arg1.toInt u.toNat) ++ 0#1 ++ BitVec.ofInt 3 (cb + 2) ++ 0#1 ++
        BitVec.ofInt 3 (ca + 2)))

/-- Rule R156: `EncodeV` is `EncodeBit` on each of its decisions; their bins and bits, in order, and their number.
Rule R159, with the layout of rule R152: they use the four bins of one zero/sign cell and the bins of one magnitude
group, of which abs(V) <= 1 uses none; and never the unused bins 115 and 145. -/
def Obligations.DecisionsOfAResidual : Prop :=
  (∀ (c : Fin 4) (v da db : Int) (l u : Nat) (s : State),
    encodeV c v da db l u s = ((residualDecisions v da db l u).forM fun p => encodeBit c p.1 p.2) s) ∧
  (∀ (v da db : Int) (l u : Nat), -32768 ≤ v → v ≤ 32768 →
     let z := selectZeroSign da db l u
     let x := fun k => (if selectMagnitude db u then 130 else 100) + (k - 1)
     let m := fun k => (if selectMagnitude db u then 145 else 115) + (k - 1)
     let first := if 0 < v then 4 * z + 2 else 4 * z + 3
     let ds := residualDecisions v da db l u
     (v = 0 → ds = [(4 * z, false)]) ∧
     (v.natAbs = 1 → ds = [(4 * z, true), (4 * z + 1, decide (v < 0)), (first, false)]) ∧
     (∀ k, 2 ^ (k - 1) ≤ v.natAbs - 1 → v.natAbs - 1 < 2 ^ k → 1 ≤ k →
       k ≤ 15 ∧ ds.length = 2 * k + 2 ∧
       ds = [(4 * z, true), (4 * z + 1, decide (v < 0)), (first, true)] ++
         (List.range (k - 1)).map (fun i => (x (i + 1), true)) ++ [(x k, false)] ++
         (List.range (k - 1)).reverse.map (fun j => (m k, (v.natAbs - 1).testBit j)))) ∧
  (∀ (v da db : Int) (l u : Nat), -32768 ≤ v → v ≤ 32768 →
     let z := selectZeroSign da db l u
     let base := if selectMagnitude db u then 130 else 100
     z ≤ 24 ∧ ∀ p ∈ residualDecisions v da db l u, p.1 < 160 ∧ p.1 ≠ 115 ∧ p.1 ≠ 145 ∧
       ((4 * z ≤ p.1 ∧ p.1 ≤ 4 * z + 3) ∨ (base ≤ p.1 ∧ p.1 < base + 30 ∧ 2 ≤ v.natAbs)))

/-- No residual's decisions begin another's (rules R156, R157): what the decoder reads fixes the residual. -/
def Obligations.ResidualCodeIsPrefixFree : Prop :=
  ∀ (v w da db : Int) (l u : Nat), -32768 ≤ v → v ≤ 32768 → -32768 ≤ w → w ≤ 32768 →
    residualDecisions v da db l u <+: residualDecisions w da db l u → v = w

/-- ENC_DIFF is its ENC_BITs (rules R156, R161): in every sound state that allows it, ENC_DIFF does exactly what
ENC_BIT on each decision of the residual does, in order, up to the first that faults. -/
def Obligations.EncDiffIsItsEncBits : Prop :=
  ∀ (c : Fin 4) (s : State), s.Inv → s.status.fault = false → operandsLegal (.encDiff c) s →
    allowedIn (.encDiff c) s →
    exec (.encDiff c) s = runEncBits c
      (residualDecisions s.arg0 s.arg1 s.arg2 (s.lowThreshold c) (s.highThreshold c)) s

/-- ENC_DIFF completes (rule R161) with a sink that accepts and room in SC and ZC, and what it leaves: every register
but the coder's, DA and DB, the contexts of the other components, and the bins of this one that no decision uses. -/
def Obligations.EncDiffCompletes : Prop :=
  ∀ (c : Fin 4) (s : State), s.Inv → s.status.fault = false → operandsLegal (.encDiff c) s →
    allowedIn (.encDiff c) s → s.ports.SinkAccepts → s.eng.Room 64 →
    ∃ (t : State) (bs : List Byte), exec (.encDiff c) s = .next t ∧ s.EncodeFrame bs t ∧ StuffedBytes bs ∧
      t.eng.EncodeSound ∧ (∀ c' : Fin 4, c' ≠ c → t.ctx[c'] = s.ctx[c']) ∧
      ∀ b, (∀ p ∈ residualDecisions s.arg0 s.arg1 s.arg2 (s.lowThreshold c) (s.highThreshold c), p.1 ≠ b) →
        t.ctxAt c b = s.ctxAt c b

/-- DEC_DIFF completes (rules R157, R162) with RESULT = V for every residual V whose decisions `DecodeBit` reads from
the state, one after another; and whenever it completes without a fatal error it has read the decisions of the V in
RESULT. -/
def Obligations.DecDiffReadsTheDecisionsOfItsResult : Prop :=
  ∀ (c : Fin 4) (s : State), s.status.fault = false → operandsLegal (.decDiff c) s → allowedIn (.decDiff c) s →
    (∀ (v : Int) (t : State), -32768 ≤ v → v ≤ 32768 →
      DecodesAs c (residualDecisions v s.arg1 s.arg2 (s.lowThreshold c) (s.highThreshold c)) s t →
      exec (.decDiff c) s = .next (t.withResult (BitVec.ofInt 32 v))) ∧
    (∀ t : State, s.Inv → exec (.decDiff c) s = .next t → t.status.fault = false →
      ∃ (v : Int) (u : State), -32768 ≤ v ∧ v ≤ 32768 ∧
        DecodesAs c (residualDecisions v s.arg1 s.arg2 (s.lowThreshold c) (s.highThreshold c)) s u ∧
        t = u.withResult (BitVec.ofInt 32 v))

/-- DEC_DIFF answers on every source that answers (rules R157, R158, R162): either a residual in -32768..32768 in
RESULT, or StateCorruption with RESULT as it was; and what it leaves either way. Of a zero residual: where the cell's
S0 entry expects a 0 and the code value lies in the part of the interval that needs no renormalization, RESULT is 0 and
only A changes besides. -/
def Obligations.DecDiffAnswers : Prop :=
  (∀ (c : Fin 4) (s : State), s.Inv → s.status.fault = false → operandsLegal (.decDiff c) s →
     allowedIn (.decDiff c) s → s.ports.SourceAnswers →
     ∃ t : State, exec (.decDiff c) s = .next t ∧ s.DecodeFrame t ∧
       (∀ c' : Fin 4, c' ≠ c → t.ctx[c'] = s.ctx[c']) ∧
       ((t.status.fault = false ∧ t.status.dstate = s.status.dstate ∧ t.eng.mode = .decode ∧ t.eng.DecodeSound ∧
         ∃ v : Int, -32768 ≤ v ∧ v ≤ 32768 ∧ t.regs.result = BitVec.ofInt 32 v) ∨
       (t.status.fault = true ∧ t.status.dstate = .faulted ∧ t.status.err = .stateCorruption ∧ t.eng.mode = .idle ∧
         t.regs.result = s.regs.result))) ∧
  (∀ (c : Fin 4) (s : State) (row : RomRow), s.status.fault = false → operandsLegal (.decDiff c) s →
     allowedIn (.decDiff c) s → s.eng.DecodeSound →
     let b := 4 * selectZeroSign s.arg1 s.arg2 (s.lowThreshold c) (s.highThreshold c)
     s.build.rom[(s.ctxAt c b).i.toNat]? = some row → row.Legal → (s.ctxAt c b).mps = false →
     0x8000 ≤ s.eng.a.toNat - row.qe.toNat → s.eng.c.toNat / 2 ^ 16 < s.eng.a.toNat - row.qe.toNat →
     exec (.decDiff c) s =
       .next { s with eng := { s.eng with a := s.eng.a - row.qe.setWidth 17 }, regs := { s.regs with result := 0#32 } })

/-! ## The predictive scan driver (spec/42_driver.md) -/

/-- Rule R177: exactly when a configuration is valid, and that START_SCAN refuses any other with the fatal
ConfigurationError, the CFG registers as they were (rules R171, R221). -/
def Obligations.ConfigValidExactlyWhen : Prop :=
  (∀ s : State, s.configValid = true ↔
    s.cfg.pred.toNat ≤ 7 ∧ 1 ≤ s.cfg.ncomp.toNat ∧ s.cfg.ncomp.toNat ≤ 4 ∧ 2 ≤ s.cfg.prec.toNat ∧
    s.cfg.prec.toNat ≤ 16 ∧ 1 ≤ s.cfg.width.toNat ∧ s.cfg.width.toNat ≤ s.build.xmax ∧ 1 ≤ s.cfg.height.toNat ∧
    1 ≤ s.cfg.rowgrp.toNat ∧ (s.cfg.ri.toNat = 0 ∨ s.cfg.ri.toNat % s.cfg.width.toNat = 0) ∧
    ∀ c : Fin 4, c.val < s.cfg.ncomp.toNat → s.cfg.lu[c].l.toNat ≤ s.cfg.lu[c].u.toNat) ∧
  ∀ (dir : Dir) (s : State), s.status.fault = false →
    (s.status.dstate = .uninitialized ∨ s.status.dstate = .scanFlushed) → s.configValid = false →
    exec (.startScan dir) s = .next { s with
      status := { s.status with dstate := .faulted, fault := true, err := .configurationError }
      eng := { s.eng with mode := .idle } }

/-- START_SCAN on a valid configuration (rule R171): DIR=0 to the last field; DIR=1, with a source that answers, the
resets, then `DecInit`, then DSTATE, and what it leaves. -/
def Obligations.StartScanCompletes : Prop :=
  (∀ s : State, s.status.fault = false → (s.status.dstate = .uninitialized ∨ s.status.dstate = .scanFlushed) →
     s.configValid = true →
     exec (.startScan .encode) s = .next { s with
       status := { s.status with dstate := .scanStarted, dmode := .encode, exhausted := false }
       ctx := Vector.replicate 4 (Vector.replicate 160 { i := 0, mps := false })
       da := Vector.replicate 4 0
       db := Vector.replicate 4 []
       pos := { x := 0, y := 0, yend := 0, rl := 0, m := 0, mcucnt := 0 }
       eng := { a := 0x10000, c := 0, ct := 11, b := 0, bv := false, sc := 0, zc := 0, nbytes := 0, eos := false
                mode := .encode } }) ∧
  (∀ s : State, s.status.fault = false → (s.status.dstate = .uninitialized ∨ s.status.dstate = .scanFlushed) →
     s.configValid = true → s.ports.SourceAnswers →
     ∃ t : State, exec (.startScan .decode) s = .next { t with status := { t.status with dstate := .scanStarted } } ∧
       t = State.decInited { s with
         status := { s.status with dmode := .decode, exhausted := false }
         ctx := Vector.replicate 4 (Vector.replicate 160 { i := 0, mps := false })
         da := Vector.replicate 4 0
         db := Vector.replicate 4 []
         pos := { x := 0, y := 0, yend := 0, rl := 0, m := 0, mcucnt := 0 }
         eng := { s.eng with nbytes := 0 } } ∧
       t.eng.mode = .decode ∧ t.eng.a = 0x10000 ∧ t.eng.ct = 0 ∧ t.eng.nbytes = 0 ∧ t.status.fault = false ∧
       t.status.dmode = .decode ∧ t.status.exhausted = t.eng.eos ∧
       (t.status.exhausted = false → t.status = { s.status with dmode := .decode, exhausted := false }) ∧ t.cfg = s.cfg ∧ t.regs = s.regs ∧ t.build = s.build ∧
       t.ports.sinkBytes = s.ports.sinkBytes ∧ t.ports.samples = s.ports.samples)

/-- Rule R172: START_MCU_ROW, where it is allowed and where it is not. -/
def Obligations.StartMcuRowSetsYend : Prop :=
  encode .startMcuRow = 0x21000000#32 ∧
  (∀ s : State, s.status.fault = false → (s.status.dstate = .scanStarted ∨ s.status.dstate = .rowConsumed) →
    s.pos.y.toNat < s.cfg.height.toNat →
    exec .startMcuRow s = .next { s with
      status := { s.status with dstate := .rowReady }
      pos := { s.pos with
        yend := BitVec.ofNat 16 (min (s.pos.y.toNat + s.cfg.rowgrp.toNat) s.cfg.height.toNat) } }) ∧
  ∀ s : State, s.status.fault = false →
    (s.status.dstate ≠ .scanStarted ∧ s.status.dstate ≠ .rowConsumed) ∨ s.cfg.height.toNat ≤ s.pos.y.toNat →
    exec .startMcuRow s = .next (s.withErr .sequenceError)

/-- WRITE_MCU completes (rules R173, R180) in a sound state whose collaborators answer, with room in SC and ZC: the
row group is consumed; the bytes written are stuffed and counted; what it leaves. That MCUCNT wraps, in states no run
reaches, is the model's choice (notes/assumptions/10.md). -/
def Obligations.WriteMcuCompletes : Prop :=
  ∀ s : State, s.Inv → s.status.fault = false → s.status.dstate = .rowReady → s.status.dmode = .encode →
    s.ports.SinkAccepts → s.ports.WriterAccepts → s.GroupSupply .encode → s.eng.Room s.groupRoom →
    ∃ (t : State) (bs : List Byte), exec .writeMcu s = .next t ∧
      t.status = { s.status with dstate := .rowConsumed } ∧ t.pos.x = 0 ∧ t.pos.y = s.pos.yend ∧
      t.pos.yend = s.pos.yend ∧ t.eng.mode = .encode ∧ t.eng.EncodeSound ∧
      t.ports.sinkBytes = s.ports.sinkBytes ++ bs ∧ StuffedBytes bs ∧
      t.eng.nbytes = s.eng.nbytes + BitVec.ofNat 32 bs.length ∧ t.regs = s.regs ∧ t.marker = s.marker ∧
      t.cfg = s.cfg ∧ t.build = s.build ∧ t.ports.source = s.ports.source ∧ t.ports.syncs = s.ports.syncs ∧
      t.ports.host = s.ports.host ∧ t.ports.replies = s.ports.replies ∧
      ∀ (c : Fin 4) (x y : Nat), x < 65536 → y < 65536 →
        Memory.read sampleBlank t.ports.samples (sampleKey c x y) =
          Memory.read sampleBlank s.ports.samples (sampleKey c x y)

/-- PARSE_MCU answers (rules R174, R180) in a sound state whose collaborators answer: the row group is consumed, or a
StateCorruption ends the command; what it leaves either way, and that it stores no sample outside the row group. That
it answers rests on the model's choices that the line/frame buffer takes every LineWrite (notes/assumptions/26.md) and
that MCUCNT wraps (10.md), in states no run reaches. -/
def Obligations.ParseMcuAnswers : Prop :=
  ∀ s : State, s.Inv → s.status.fault = false → s.status.dstate = .rowReady → s.status.dmode = .decode →
    s.ports.SourceAnswers → s.ports.ReaderAnswers → s.GroupSupply .decode →
    ∃ t : State, exec .parseMcu s = .next t ∧
      ((t.status.fault = false ∧ t.status.dstate = .rowConsumed ∧ t.pos.x = 0 ∧ t.pos.y = s.pos.yend ∧
          t.pos.yend = s.pos.yend ∧ t.eng.mode = .decode ∧ t.eng.DecodeSound ∧ t.eng.nbytes = s.eng.nbytes) ∨
        (t.status.fault = true ∧ t.status.dstate = .faulted ∧ t.status.err = .stateCorruption ∧ t.eng.mode = .idle)) ∧
      t.status.dmode = .decode ∧ t.regs = s.regs ∧ t.cfg = s.cfg ∧ t.build = s.build ∧
      t.ports.sinkBytes = s.ports.sinkBytes ∧ t.ports.sinkAnswers = s.ports.sinkAnswers ∧
      t.ports.emitAnswers = s.ports.emitAnswers ∧ t.ports.host = s.ports.host ∧ t.ports.replies = s.ports.replies ∧
      ∀ (c : Fin 4) (x y : Nat), x < 65536 → y < 65536 →
        ¬ (c.val < s.cfg.ncomp.toNat ∧ x < s.cfg.width.toNat ∧ s.pos.y.toNat ≤ y ∧ y < s.pos.yend.toNat) →
        Memory.read sampleBlank t.ports.samples (sampleKey c x y) =
          Memory.read sampleBlank s.ports.samples (sampleKey c x y)

/-- PARSE_MCU completes (rules R174, R180, R185, R188) on a one-component row group without restarts whose residuals
are all zero: where DB is 0 on its columns, the entry of bin 48 expects a 0, and the code value lies so low in the
interval that none of its K decisions renormalizes, A falls by K times Qe, the positions advance, every sample of the
row group is stored, and the coder, the contexts and the rest are as before. That it completes rests on the model's
choice that the line/frame buffer takes every LineWrite (notes/assumptions/26.md); that MCUCNT + K wraps, in states no
run reaches, is the model's choice too (notes/assumptions/10.md). -/
def Obligations.ParseMcuOfZeroResiduals : Prop :=
  ∀ (s : State) (row : RomRow), s.Inv → s.status.fault = false → s.status.dstate = .rowReady →
    s.status.dmode = .decode → s.cfg.ncomp = 1 → s.cfg.ri = 0 →
    (∀ x, x < s.cfg.width.toNat → s.dbAt 0 x = 0) → s.GroupSupply .decode →
    s.build.rom[(s.ctxAt 0 48).i.toNat]? = some row → (s.ctxAt 0 48).mps = false →
    let k := s.cfg.width.toNat * (s.pos.yend.toNat - s.pos.y.toNat)
    0x8000 + k * row.qe.toNat ≤ s.eng.a.toNat → s.eng.c.toNat / 2 ^ 16 + k * row.qe.toNat < s.eng.a.toNat →
    ∃ t : State, exec .parseMcu s = .next t ∧ t.status = { s.status with dstate := .rowConsumed } ∧
      t.eng = { s.eng with a := BitVec.ofNat 17 (s.eng.a.toNat - k * row.qe.toNat) } ∧ t.ctx = s.ctx ∧
      t.pos = { s.pos with x := 0, y := s.pos.yend, mcucnt := s.pos.mcucnt + BitVec.ofNat 32 k } ∧
      (∀ x y, x < s.cfg.width.toNat → s.pos.y.toNat ≤ y → y < s.pos.yend.toNat → t.ports.has 0 x y) ∧
      (∀ x, x < s.cfg.width.toNat → t.dbAt 0 x = 0) ∧ t.regs = s.regs ∧ t.marker = s.marker ∧ t.cfg = s.cfg ∧
      t.build = s.build ∧ t.ports.source = s.ports.source

/-- FLUSH (rule R175). Of an encode scan: the engine's flush, then the marker writer told of the end, then ScanFlushed.
Of a decode scan: the marker reader called with the latched code, ENG_MODE Idle, ScanFlushed. -/
def Obligations.FlushCompletes : Prop :=
  (∀ s : State, s.Inv → s.status.fault = false → s.status.dstate = .rowConsumed → s.pos.y = s.cfg.height →
     s.status.dmode = .encode → s.ports.SinkAccepts → s.ports.WriterAccepts → s.eng.Room 1 →
     let t := (s.withEng s.eng.flushed).wrote s.eng.flushBytes
     exec .flush s = .next { t with
       status := { s.status with dstate := .scanFlushed }
       ports := { t.ports with
         emitAnswers := s.ports.emitAnswers.tail, trace := t.ports.trace ++ [.markerEmit .scanEnd .ok] } }) ∧
  (∀ s : State, s.status.fault = false → s.status.dstate = .rowConsumed → s.pos.y = s.cfg.height →
     s.status.dmode = .decode → s.ports.ReaderAnswers →
     exec .flush s = .next { s with
       status := { s.status with dstate := .scanFlushed }
       eng := { s.eng with mode := .idle }
       ports := { s.ports with
         source := match s.ports.syncs with
           | some src :: _ => src
           | _ => s.ports.source
         syncs := s.ports.syncs.tail
         trace := s.ports.trace ++
           [.markerSync .scanEnd (if s.marker.valid then some s.marker.code else none)] } })

/-- Rule R176: ABORT in every driver state but Faulted. -/
def Obligations.AbortDiscardsTheScan : Prop :=
  encode .abort = 0x2F000000#32 ∧
  ∀ s : State, s.status.fault = false → s.status.dstate ≠ .faulted →
    exec .abort s = .next { s with
      status := { s.status with dstate := .uninitialized }
      eng := { s.eng with mode := .idle, b := 0, bv := false, sc := 0, zc := 0 } }

/-- Rule R170: the driver's transitions. A command that changes DSTATE enters Faulted, resets the block, or makes a
transition of the rule's table. -/
def Obligations.DriverTransitions : Prop :=
  ∀ (i : Instr) (s t : State), s.Inv → exec i s = .next t → t.status.dstate ≠ s.status.dstate →
    (t.status.dstate = .faulted ∧ t.status.fault = true) ∨
    match i with
    | .startScan dir => (s.status.dstate = .uninitialized ∨ s.status.dstate = .scanFlushed) ∧ s.configValid = true ∧
        t.status.dstate = .scanStarted ∧ t.status.dmode = dir
    | .startMcuRow => (s.status.dstate = .scanStarted ∨ s.status.dstate = .rowConsumed) ∧
        s.pos.y.toNat < s.cfg.height.toNat ∧ t.status.dstate = .rowReady
    | .writeMcu => s.status.dstate = .rowReady ∧ s.status.dmode = .encode ∧ t.status.dstate = .rowConsumed
    | .parseMcu => s.status.dstate = .rowReady ∧ s.status.dmode = .decode ∧ t.status.dstate = .rowConsumed
    | .flush => s.status.dstate = .rowConsumed ∧ s.pos.y = s.cfg.height ∧ t.status.dstate = .scanFlushed
    | .abort => s.status.dstate ≠ .faulted ∧ t.status.dstate = .uninitialized
    | .reset => t.status.dstate = .uninitialized
    | .nop | .encInit | .encBit _ _ _ | .encFlush | .decInit | .decBit _ _ | .ctxReset _ | .clearErr | .classify _ _
    | .encDiff _ | .decDiff _ => False

/-- Rule R190: the seven predictions, on integers, with the floor shift. Rule R185: Px and the samples it reads, in
order, in each of the rule's cases; neighbours are masked to P bits. That the last case reads Ra, Rb and Rc for every
selection 1 to 7 is the model's reading of the rule (notes/assumptions/15.md), and so is what the first-sample case gives
at P = 0, which no valid configuration has (notes/assumptions/16.md). -/
def Obligations.PredictionAndItsNeighbours : Prop :=
  (∀ ra rb rc : Int,
     predict 1 ra rb rc = some ra ∧ predict 2 ra rb rc = some rb ∧ predict 3 ra rb rc = some rc ∧
     predict 4 ra rb rc = some (ra + rb - rc) ∧ predict 5 ra rb rc = some (ra + ((rb - rc) >>> 1)) ∧
     predict 6 ra rb rc = some (rb + ((ra - rc) >>> 1)) ∧ predict 7 ra rb rc = some ((ra + rb) >>> 1)) ∧
  (∀ (c : Fin 4) (s : State),
     let x := s.pos.x.toNat
     let y := s.pos.y.toNat
     let at' := fun x y => Memory.read sampleBlank s.ports.samples (sampleKey c x y)
     let low := fun v : Sample => ((v.toNat % 2 ^ s.cfg.prec.toNat : Nat) : Int)
     (s.cfg.pred = 0 → prediction c s = .ok 0 s) ∧
     (s.cfg.pred ≠ 0 → s.pos.y = s.pos.rl → s.pos.x = 0 → prediction c s = .ok (2 ^ (s.cfg.prec.toNat - 1)) s) ∧
     (∀ ra, s.cfg.pred ≠ 0 → s.pos.y = s.pos.rl → s.pos.x ≠ 0 → at' (x - 1) y = some ra →
       prediction c s = .ok (low ra) (s.log (.lineRead c (x - 1) y ra))) ∧
     (∀ rb, s.cfg.pred ≠ 0 → s.pos.y ≠ s.pos.rl → 1 ≤ y → s.pos.x = 0 → at' 0 (y - 1) = some rb →
       prediction c s = .ok (low rb) (s.log (.lineRead c 0 (y - 1) rb))) ∧
     (∀ ra rb rc p, s.cfg.pred ≠ 0 → s.pos.y ≠ s.pos.rl → 1 ≤ y → s.pos.x ≠ 0 → at' (x - 1) y = some ra →
       at' x (y - 1) = some rb → at' (x - 1) (y - 1) = some rc →
       predict s.cfg.pred.toNat (low ra) (low rb) (low rc) = some p →
       prediction c s = .ok p (((s.log (.lineRead c (x - 1) y ra)).log (.lineRead c x (y - 1) rb)).log
         (.lineRead c (x - 1) (y - 1) rc))))

/-- The decoder's sample undoes the encoder's residual (rules R187, R188, R191): for a sample of P bits (of 16 in
differential mode) and any prediction, reconstructing from V = s16(s - px) gives the sample back. -/
def Obligations.ReconstructionUndoesTheResidual : Prop :=
  ∀ (s : State) (px : Int) (v : Sample), s.cfg.prec.toNat ≤ 16 →
    (s.cfg.pred ≠ 0 → v.toNat < 2 ^ s.cfg.prec.toNat) →
    -32768 ≤ s16 ((v.toNat : Int) - px) ∧ s16 ((v.toNat : Int) - px) ≤ 32767 ∧
      s.reconstruct px (s16 ((v.toNat : Int) - px)) = v

/-- The differential buffers (rules R40, R41, R186, R189): a written DA or DB entry reads back, every other entry is as
it was, and the reset makes every entry 0. -/
def Obligations.DifferentialBuffersReadBack : Prop :=
  ∀ (s : State) (c c' : Fin 4) (x x' : Nat) (v : Residual),
    (s.setDb c x v).dbAt c' x' = (if c' = c ∧ x' = x then v else s.dbAt c' x') ∧
    (s.setDa c v).da[c'] = (if c' = c then v else s.da[c']) ∧ (s.setDa c v).dbAt c' x' = s.dbAt c' x' ∧
    (s.setDb c x v).da[c'] = s.da[c'] ∧ s.clearDiff.dbAt c' x' = 0 ∧ s.clearDiff.da[c'] = 0

/-- The sample port (rules R68, R70): `LineRead` returns the last value written to its position and is not moved by a
write to another, and a position that is not supplied leaves the block waiting. That every `LineWrite` completes is the
model's choice (notes/assumptions/26.md). -/
def Obligations.SamplePortReadsBack : Prop :=
  ∀ (s : State) (c c' : Fin 4) (x y x' y' : Nat) (v w : Sample), x < 65536 → y < 65536 → x' < 65536 → y' < 65536 →
    ∃ t : State, lineWrite c x y v s = .ok () t ∧ lineRead c x y t = .ok v (t.log (.lineRead c x y v)) ∧
      ((c', x', y') ≠ (c, x, y) → Memory.read sampleBlank s.ports.samples (sampleKey c' x' y') = some w →
        lineRead c' x' y' t = .ok w (t.log (.lineRead c' x' y' w))) ∧
      ((c', x', y') ≠ (c, x, y) → Memory.read sampleBlank s.ports.samples (sampleKey c' x' y') = none →
        lineRead c' x' y' t = .error (.stuck .lineBufferNeverAnswers) t)

/-- Rule R180: the three nested loops of a walk, each as one turn and the rest; the components in order; and where a
restart falls. Rules R187 and R188: one sample, encoded and decoded, with the context inputs and the two writes of
rules R186 and R189. The model's choices in it: the decoded sample's LineWrite completes (notes/assumptions/26.md), and
MCUCNT, x and y wrap at their widths, in states no run reaches (notes/assumptions/10.md). -/
def Obligations.WalkAndOneSample : Prop :=
  (∀ (dir : Dir) (s : State),
     walk dir s = (if s.pos.y.toNat < s.pos.yend.toNat then (do walkLine dir; walk dir : Cmd Unit) s
       else .ok () (s.withPos { s.pos with x := 0 })) ∧
     walkLine dir s = (do walkColumnsLeft dir; modifyPos fun p => { p with y := p.y + 1 } : Cmd Unit) { s with
       da := Vector.ofFn fun c => if c.val < s.cfg.ncomp.toNat then 0 else s.da[c]
       pos := { s.pos with x := 0 } } ∧
     walkColumnsLeft dir s = (if s.pos.x.toNat < s.cfg.width.toNat then (do
         restartIfDue dir
         codeComponents dir s.components
         modifyPos fun p => { p with mcucnt := p.mcucnt + 1, x := p.x + 1 }
         walkColumnsLeft dir : Cmd Unit) s
       else .ok () s) ∧
     restartIfDue dir s = (if 0 < s.cfg.ri.toNat ∧ s.pos.mcucnt.toNat = s.cfg.ri.toNat then restart dir s
       else .ok () s)) ∧
  (∀ s : State, (s.cfg.ncomp = 1 → s.components = [0]) ∧ (s.cfg.ncomp = 2 → s.components = [0, 1]) ∧
     (s.cfg.ncomp = 3 → s.components = [0, 1, 2]) ∧ (s.cfg.ncomp = 4 → s.components = [0, 1, 2, 3])) ∧
  (∀ (dir : Dir) (c : Fin 4) (rest : List (Fin 4)) (s : State), codeComponents dir [] s = .ok () s ∧
     codeComponents dir (c :: rest) s = (do codeSample dir c; codeComponents dir rest : Cmd Unit) s) ∧
  (∀ (c : Fin 4) (px : Int) (v : Sample) (s u t : State), prediction c s = .ok px u →
     let x := s.pos.x.toNat
     let y := s.pos.y.toNat
     Memory.read sampleBlank s.ports.samples (sampleKey c x y) = some v →
     let r := s16 ((if s.cfg.pred = 0 then v.toNat else v.toNat % 2 ^ s.cfg.prec.toNat : Nat) - px)
     encodeV c r s.da[c].toInt (s.dbAt c x).toInt s.cfg.lu[c].l.toNat s.cfg.lu[c].u.toNat
       (u.log (.lineRead c x y v)) = .ok () t →
     codeSample .encode c s = .ok () ((t.setDa c (BitVec.ofInt 17 r)).setDb c x (BitVec.ofInt 17 r))) ∧
  (∀ (c : Fin 4) (px r : Int) (s u t : State), prediction c s = .ok px u →
     let x := s.pos.x.toNat
     let y := s.pos.y.toNat
     decodeV c s.da[c].toInt (s.dbAt c x).toInt s.cfg.lu[c].l.toNat s.cfg.lu[c].u.toNat u = .ok r t →
     let sum := ((px + r) % 2 ^ 16).toNat
     let v : Sample := BitVec.ofNat 16 (if s.cfg.pred = 0 then sum else sum % 2 ^ s.cfg.prec.toNat)
     ∃ w : State, lineWrite c x y v t = .ok () w ∧
       codeSample .decode c s = .ok () ((w.setDa c (BitVec.ofInt 17 r)).setDb c x (BitVec.ofInt 17 r)))

/-- A restart (rules R71, R181 to R183). Encoding: the flush's bytes, then the marker call with m, then the resets and
`EncInit`; nothing else changes. Decoding: the marker reader called with m and the latched code, the resets, and
`DecInit`, from wherever the reader leaves the source. -/
def Obligations.RestartCompletes : Prop :=
  (∀ s : State, s.eng.EncodeSound → s.ports.SinkAccepts → s.ports.WriterAccepts → s.eng.Room 1 →
     restart .encode s = .ok () { s with
       ctx := Vector.replicate 4 (Vector.replicate 160 { i := 0, mps := false })
       da := Vector.replicate 4 0
       db := Vector.replicate 4 []
       pos := { s.pos with m := s.pos.m + 1, rl := s.pos.y, mcucnt := 0 }
       eng := { a := 0x10000, c := 0, ct := 11, b := 0, bv := false, sc := 0, zc := 0, eos := false, mode := .encode
                nbytes := s.eng.nbytes + BitVec.ofNat 32 s.eng.flushBytes.length }
       ports := { s.ports with
         sinkAnswers := s.ports.sinkAnswers.drop s.eng.flushBytes.length
         emitAnswers := s.ports.emitAnswers.tail
         trace := s.ports.trace ++ wrotes s.eng.flushBytes ++ [.markerEmit (.rst s.pos.m) .ok] } }) ∧
  (∀ s : State, s.ports.SourceAnswers → s.ports.ReaderAnswers →
     restart .decode s = .ok () (State.decInited { s with
       ctx := Vector.replicate 4 (Vector.replicate 160 { i := 0, mps := false })
       da := Vector.replicate 4 0
       db := Vector.replicate 4 []
       pos := { s.pos with m := s.pos.m + 1, rl := s.pos.y, mcucnt := 0 }
       ports := { s.ports with
         source := match s.ports.syncs with
           | some src :: _ => src
           | _ => s.ports.source
         syncs := s.ports.syncs.tail
         trace := s.ports.trace ++
           [.markerSync (.rst s.pos.m) (if s.marker.valid then some s.marker.code else none)] } }))

/-! ## The whole machine -/

/-- The invariant holds after reset (rules R32, R36, R40, R44, R250). -/
def Obligations.InvAtReset : Prop := State.reset.Inv

/-- Every step keeps the invariant (rules R32, R36, R40, R44, R226): the register bounds in each ENG_MODE, legal context
indices, residuals in range and DB below XMAX in canonical form, FAULT exactly in Faulted with a fatal ERR and an idle
engine, nothing held outside encoding, and the positions of a scan. -/
def Obligations.StepKeepsTheInvariant : Prop := ∀ s t : State, s.Inv → step s = .next t → t.Inv

/-- What no command but RESET changes (rules R22, R24, R256): the CFG registers, the operand registers, the build, and
the host's queue; and RESULT but for the commands rule R82 gives it. Only PARSE_MCU stores samples, and only the
encoding commands write to the sink (rules R64, R68). -/
def Obligations.WhatCommandsKeep : Prop :=
  (∀ (i : Instr) (s t : State), s.Inv → exec i s = .next t → i ≠ .reset →
     t.cfg = s.cfg ∧ t.build = s.build ∧ t.ports.host = s.ports.host ∧ t.ports.replies = s.ports.replies ∧
     t.regs.arg0 = s.regs.arg0 ∧ t.regs.arg1 = s.regs.arg1 ∧ t.regs.arg2 = s.regs.arg2 ∧
     (t.regs.result ≠ s.regs.result → (∃ c b, i = .decBit c b) ∨ (∃ c, i = .decDiff c) ∨ ∃ l u, i = .classify l u)) ∧
  (∀ (i : Instr) (s t : State), s.Inv → exec i s = .next t →
     (i ≠ .parseMcu → ∀ (c : Fin 4) (x y : Nat), x < 65536 → y < 65536 →
       Memory.read sampleBlank t.ports.samples (sampleKey c x y) =
         Memory.read sampleBlank s.ports.samples (sampleKey c x y)) ∧
     ((∀ c b d, i ≠ .encBit c b d) → i ≠ .encFlush → (∀ c, i ≠ .encDiff c) → i ≠ .writeMcu → i ≠ .flush →
       t.ports.sinkBytes = s.ports.sinkBytes))

/-- The stuffing guarantee (rule R67), with the count of rule R106: with collaborators that accept and room in SC and
ZC, every 0xFF byte a command writes is immediately followed by a 0x00 the same command writes, and NBYTES counts what
is written but where a command clears it. -/
def Obligations.StuffingGuarantee : Prop :=
  ∀ (i : Instr) (s t : State), s.Inv → s.ports.SinkAccepts → s.ports.WriterAccepts →
    s.eng.Room (64 + if i = .writeMcu then s.groupRoom else 0) → exec i s = .next t →
    ∃ bs : List Byte, t.ports.sinkBytes = s.ports.sinkBytes ++ bs ∧ StuffedBytes bs ∧
      (i ≠ .encInit → i ≠ .reset → (∀ dir, i ≠ .startScan dir) →
        t.eng.nbytes = s.eng.nbytes + BitVec.ofNat 32 bs.length)
end

