-- ==== Sys2Proof/Laws/State.lean ====
section
/-! SUPPORT. One lemma per field per update of the state: what `report`, `enterFaulted`, the context and differential
writes, the resets and `log` change and leave unchanged. -/

namespace Sys2Proof.Machine

variable (s : State)

section Report
variable (e : ErrCode)

@[simp] theorem report_regs : (s.report e).regs = s.regs := by unfold State.report; split <;> rfl
@[simp] theorem report_marker : (s.report e).marker = s.marker := by unfold State.report; split <;> rfl
@[simp] theorem report_cfg : (s.report e).cfg = s.cfg := by unfold State.report; split <;> rfl
@[simp] theorem report_eng : (s.report e).eng = s.eng := by unfold State.report; split <;> rfl
@[simp] theorem report_ctx : (s.report e).ctx = s.ctx := by unfold State.report; split <;> rfl
@[simp] theorem report_da : (s.report e).da = s.da := by unfold State.report; split <;> rfl
@[simp] theorem report_db : (s.report e).db = s.db := by unfold State.report; split <;> rfl
@[simp] theorem report_pos : (s.report e).pos = s.pos := by unfold State.report; split <;> rfl
@[simp] theorem report_build : (s.report e).build = s.build := by unfold State.report; split <;> rfl
@[simp] theorem report_ports : (s.report e).ports = s.ports := by unfold State.report; split <;> rfl
@[simp] theorem report_dstate : (s.report e).status.dstate = s.status.dstate := by unfold State.report; split <;> rfl
@[simp] theorem report_dmode : (s.report e).status.dmode = s.status.dmode := by unfold State.report; split <;> rfl
@[simp] theorem report_exhausted : (s.report e).status.exhausted = s.status.exhausted := by
  unfold State.report; split <;> rfl
@[simp] theorem report_fault : (s.report e).status.fault = s.status.fault := by unfold State.report; split <;> rfl

theorem report_of_fault (h : s.status.fault = true) : s.report e = s := by simp [State.report, h]

theorem report_of_not_fault (h : s.status.fault = false) :
    s.report e = { s with status := { s.status with err := e } } := by simp [State.report, h]

@[simp] theorem enterFaulted_regs : (s.enterFaulted e).regs = s.regs := by simp [State.enterFaulted]
@[simp] theorem enterFaulted_marker : (s.enterFaulted e).marker = s.marker := by simp [State.enterFaulted]
@[simp] theorem enterFaulted_cfg : (s.enterFaulted e).cfg = s.cfg := by simp [State.enterFaulted]
@[simp] theorem enterFaulted_eng : (s.enterFaulted e).eng = { s.eng with mode := .idle } := by
  simp [State.enterFaulted]
@[simp] theorem enterFaulted_ctx : (s.enterFaulted e).ctx = s.ctx := by simp [State.enterFaulted]
@[simp] theorem enterFaulted_da : (s.enterFaulted e).da = s.da := by simp [State.enterFaulted]
@[simp] theorem enterFaulted_db : (s.enterFaulted e).db = s.db := by simp [State.enterFaulted]
@[simp] theorem enterFaulted_pos : (s.enterFaulted e).pos = s.pos := by simp [State.enterFaulted]
@[simp] theorem enterFaulted_build : (s.enterFaulted e).build = s.build := by simp [State.enterFaulted]
@[simp] theorem enterFaulted_ports : (s.enterFaulted e).ports = s.ports := by simp [State.enterFaulted]
@[simp] theorem enterFaulted_dstate : (s.enterFaulted e).status.dstate = .faulted := by simp [State.enterFaulted]
@[simp] theorem enterFaulted_dmode : (s.enterFaulted e).status.dmode = s.status.dmode := by
  simp [State.enterFaulted]
@[simp] theorem enterFaulted_exhausted : (s.enterFaulted e).status.exhausted = s.status.exhausted := by
  simp [State.enterFaulted]
@[simp] theorem enterFaulted_fault : (s.enterFaulted e).status.fault = true := by simp [State.enterFaulted]

theorem enterFaulted_err (h : s.status.fault = false) : (s.enterFaulted e).status.err = e := by
  simp [State.enterFaulted, State.report, h]

@[simp] theorem ctxAt_report (c : Fin 4) (b : Nat) : (s.report e).ctxAt c b = s.ctxAt c b := by
  simp [State.ctxAt]
@[simp] theorem ctxAt_enterFaulted (c : Fin 4) (b : Nat) : (s.enterFaulted e).ctxAt c b = s.ctxAt c b := by
  simp [State.ctxAt]

end Report

section Contexts
variable (c : Fin 4) (b : Nat) (e : CtxEntry)

@[simp] theorem setCtx_status : (s.setCtx c b e).status = s.status := rfl
@[simp] theorem setCtx_regs : (s.setCtx c b e).regs = s.regs := rfl
@[simp] theorem setCtx_marker : (s.setCtx c b e).marker = s.marker := rfl
@[simp] theorem setCtx_cfg : (s.setCtx c b e).cfg = s.cfg := rfl
@[simp] theorem setCtx_eng : (s.setCtx c b e).eng = s.eng := rfl
@[simp] theorem setCtx_da : (s.setCtx c b e).da = s.da := rfl
@[simp] theorem setCtx_db : (s.setCtx c b e).db = s.db := rfl
@[simp] theorem setCtx_pos : (s.setCtx c b e).pos = s.pos := rfl
@[simp] theorem setCtx_build : (s.setCtx c b e).build = s.build := rfl
@[simp] theorem setCtx_ports : (s.setCtx c b e).ports = s.ports := rfl

/-- Reading a context entry after writing one. -/
theorem ctxAt_setCtx (c' : Fin 4) (b' : Nat) (hb : b < Config.nBin) :
    (s.setCtx c b e).ctxAt c' b' = if c' = c ∧ b' = b then e else s.ctxAt c' b' := by
  unfold State.setCtx State.ctxAt
  by_cases hc : c' = c
  · subst hc
    by_cases hb' : b' = b
    · subst hb'
      simp [hb]
    · simp [hb', Ne.symm hb']
  · have hne : c.val ≠ c'.val := fun h => hc (Fin.ext h.symm)
    simp [hc, hne]

/-- A write to one component's set leaves the others alone. -/
theorem setCtx_other (c' : Fin 4) (h : c' ≠ c) : (s.setCtx c b e).ctx[c'] = s.ctx[c'] := by
  have hne : c.val ≠ c'.val := fun h' => h (Fin.ext h'.symm)
  simp [State.setCtx, hne]

@[simp] theorem resetContexts_get (c : Fin 4) : resetContexts[c] = Vector.replicate Config.nBin CtxEntry.init := by
  simp [resetContexts]

@[simp] theorem ctxAt_resetContexts (h : s.ctx = resetContexts) : s.ctxAt c b = CtxEntry.init := by
  simp only [State.ctxAt, h, resetContexts_get, Vector.getElem?_replicate]
  split <;> rfl

@[simp] theorem ctxAt_resetCtx : s.resetCtx.ctxAt c b = CtxEntry.init :=
  ctxAt_resetContexts _ c b rfl

end Contexts

section Differential
variable (c : Fin 4) (x : Nat) (v : Residual)

@[simp] theorem setDa_da : (s.setDa c v).da = s.da.set c v := rfl
@[simp] theorem setDa_db : (s.setDa c v).db = s.db := rfl
@[simp] theorem setDa_eng : (s.setDa c v).eng = s.eng := rfl
@[simp] theorem setDa_status : (s.setDa c v).status = s.status := rfl
@[simp] theorem setDa_ctx : (s.setDa c v).ctx = s.ctx := rfl
@[simp] theorem setDa_cfg : (s.setDa c v).cfg = s.cfg := rfl
@[simp] theorem setDa_pos : (s.setDa c v).pos = s.pos := rfl
@[simp] theorem setDa_ports : (s.setDa c v).ports = s.ports := rfl
@[simp] theorem setDa_build : (s.setDa c v).build = s.build := rfl
@[simp] theorem setDa_regs : (s.setDa c v).regs = s.regs := rfl
@[simp] theorem setDa_marker : (s.setDa c v).marker = s.marker := rfl
@[simp] theorem setDb_da : (s.setDb c x v).da = s.da := rfl
@[simp] theorem setDb_db : (s.setDb c x v).db = s.db.set c (Memory.write dbBlank s.db[c] x v) := rfl
@[simp] theorem setDb_eng : (s.setDb c x v).eng = s.eng := rfl
@[simp] theorem setDb_status : (s.setDb c x v).status = s.status := rfl
@[simp] theorem setDb_ctx : (s.setDb c x v).ctx = s.ctx := rfl
@[simp] theorem setDb_cfg : (s.setDb c x v).cfg = s.cfg := rfl
@[simp] theorem setDb_pos : (s.setDb c x v).pos = s.pos := rfl
@[simp] theorem setDb_ports : (s.setDb c x v).ports = s.ports := rfl
@[simp] theorem setDb_build : (s.setDb c x v).build = s.build := rfl
@[simp] theorem setDb_regs : (s.setDb c x v).regs = s.regs := rfl
@[simp] theorem setDb_marker : (s.setDb c x v).marker = s.marker := rfl
@[simp] theorem ctxAt_setDa (c' : Fin 4) (b : Nat) : (s.setDa c v).ctxAt c' b = s.ctxAt c' b := rfl
@[simp] theorem ctxAt_setDb (c' : Fin 4) (b : Nat) : (s.setDb c x v).ctxAt c' b = s.ctxAt c' b := rfl

end Differential

section Resets

@[simp] theorem resetCtx_status : s.resetCtx.status = s.status := rfl
@[simp] theorem resetCtx_regs : s.resetCtx.regs = s.regs := rfl
@[simp] theorem resetCtx_marker : s.resetCtx.marker = s.marker := rfl
@[simp] theorem resetCtx_cfg : s.resetCtx.cfg = s.cfg := rfl
@[simp] theorem resetCtx_eng : s.resetCtx.eng = s.eng := rfl
@[simp] theorem resetCtx_ctx : s.resetCtx.ctx = resetContexts := rfl
@[simp] theorem resetCtx_da : s.resetCtx.da = s.da := rfl
@[simp] theorem resetCtx_db : s.resetCtx.db = s.db := rfl
@[simp] theorem resetCtx_pos : s.resetCtx.pos = s.pos := rfl
@[simp] theorem resetCtx_build : s.resetCtx.build = s.build := rfl
@[simp] theorem resetCtx_ports : s.resetCtx.ports = s.ports := rfl
@[simp] theorem clearDiff_status : s.clearDiff.status = s.status := rfl
@[simp] theorem clearDiff_regs : s.clearDiff.regs = s.regs := rfl
@[simp] theorem clearDiff_marker : s.clearDiff.marker = s.marker := rfl
@[simp] theorem clearDiff_cfg : s.clearDiff.cfg = s.cfg := rfl
@[simp] theorem clearDiff_eng : s.clearDiff.eng = s.eng := rfl
@[simp] theorem clearDiff_ctx : s.clearDiff.ctx = s.ctx := rfl
@[simp] theorem clearDiff_da : s.clearDiff.da = Vector.replicate Config.nComp 0 := rfl
@[simp] theorem clearDiff_db : s.clearDiff.db = Vector.replicate Config.nComp [] := rfl
@[simp] theorem clearDiff_pos : s.clearDiff.pos = s.pos := rfl
@[simp] theorem clearDiff_build : s.clearDiff.build = s.build := rfl
@[simp] theorem clearDiff_ports : s.clearDiff.ports = s.ports := rfl
@[simp] theorem resetBlock_build : s.resetBlock.build = s.build := rfl
@[simp] theorem resetBlock_ports : s.resetBlock.ports = s.ports := rfl
@[simp] theorem resetBlock_status : s.resetBlock.status = Status.reset := rfl
@[simp] theorem resetBlock_eng : s.resetBlock.eng = Engine.reset := rfl
@[simp] theorem resetBlock_ctx : s.resetBlock.ctx = resetContexts := rfl

end Resets

section With

@[simp] theorem withEng_status (e : Engine) : (s.withEng e).status = s.status := rfl
@[simp] theorem withEng_regs (e : Engine) : (s.withEng e).regs = s.regs := rfl
@[simp] theorem withEng_marker (e : Engine) : (s.withEng e).marker = s.marker := rfl
@[simp] theorem withEng_cfg (e : Engine) : (s.withEng e).cfg = s.cfg := rfl
@[simp] theorem withEng_eng (e : Engine) : (s.withEng e).eng = e := rfl
@[simp] theorem withEng_ctx (e : Engine) : (s.withEng e).ctx = s.ctx := rfl
@[simp] theorem withEng_da (e : Engine) : (s.withEng e).da = s.da := rfl
@[simp] theorem withEng_db (e : Engine) : (s.withEng e).db = s.db := rfl
@[simp] theorem withEng_pos (e : Engine) : (s.withEng e).pos = s.pos := rfl
@[simp] theorem withEng_build (e : Engine) : (s.withEng e).build = s.build := rfl
@[simp] theorem withEng_ports (e : Engine) : (s.withEng e).ports = s.ports := rfl
@[simp] theorem withEng_self : s.withEng s.eng = s := rfl
@[simp] theorem withEng_withEng (e e' : Engine) : (s.withEng e).withEng e' = s.withEng e' := rfl
@[simp] theorem ctxAt_withEng (e : Engine) (c : Fin 4) (b : Nat) : (s.withEng e).ctxAt c b = s.ctxAt c b := rfl
@[simp] theorem withPos_status (p : Position) : (s.withPos p).status = s.status := rfl
@[simp] theorem withPos_regs (p : Position) : (s.withPos p).regs = s.regs := rfl
@[simp] theorem withPos_marker (p : Position) : (s.withPos p).marker = s.marker := rfl
@[simp] theorem withPos_cfg (p : Position) : (s.withPos p).cfg = s.cfg := rfl
@[simp] theorem withPos_eng (p : Position) : (s.withPos p).eng = s.eng := rfl
@[simp] theorem withPos_ctx (p : Position) : (s.withPos p).ctx = s.ctx := rfl
@[simp] theorem withPos_da (p : Position) : (s.withPos p).da = s.da := rfl
@[simp] theorem withPos_db (p : Position) : (s.withPos p).db = s.db := rfl
@[simp] theorem withPos_pos (p : Position) : (s.withPos p).pos = p := rfl
@[simp] theorem withPos_build (p : Position) : (s.withPos p).build = s.build := rfl
@[simp] theorem withPos_ports (p : Position) : (s.withPos p).ports = s.ports := rfl
@[simp] theorem withPos_self : s.withPos s.pos = s := rfl
@[simp] theorem withPos_withPos (p p' : Position) : (s.withPos p).withPos p' = s.withPos p' := rfl
@[simp] theorem ctxAt_withPos (p : Position) (c : Fin 4) (b : Nat) : (s.withPos p).ctxAt c b = s.ctxAt c b := rfl
@[simp] theorem withStatus_status (st : Status) : (s.withStatus st).status = st := rfl
@[simp] theorem withStatus_regs (st : Status) : (s.withStatus st).regs = s.regs := rfl
@[simp] theorem withStatus_marker (st : Status) : (s.withStatus st).marker = s.marker := rfl
@[simp] theorem withStatus_cfg (st : Status) : (s.withStatus st).cfg = s.cfg := rfl
@[simp] theorem withStatus_eng (st : Status) : (s.withStatus st).eng = s.eng := rfl
@[simp] theorem withStatus_ctx (st : Status) : (s.withStatus st).ctx = s.ctx := rfl
@[simp] theorem withStatus_da (st : Status) : (s.withStatus st).da = s.da := rfl
@[simp] theorem withStatus_db (st : Status) : (s.withStatus st).db = s.db := rfl
@[simp] theorem withStatus_pos (st : Status) : (s.withStatus st).pos = s.pos := rfl
@[simp] theorem withStatus_build (st : Status) : (s.withStatus st).build = s.build := rfl
@[simp] theorem withStatus_ports (st : Status) : (s.withStatus st).ports = s.ports := rfl
@[simp] theorem withStatus_self : s.withStatus s.status = s := rfl
@[simp] theorem withStatus_withStatus (st st' : Status) : (s.withStatus st).withStatus st' = s.withStatus st' := rfl
@[simp] theorem ctxAt_withStatus (st : Status) (c : Fin 4) (b : Nat) : (s.withStatus st).ctxAt c b = s.ctxAt c b := rfl

end With

section Log
variable (e : PortEvent)

@[simp] theorem log_status : (s.log e).status = s.status := rfl
@[simp] theorem log_regs : (s.log e).regs = s.regs := rfl
@[simp] theorem log_marker : (s.log e).marker = s.marker := rfl
@[simp] theorem log_cfg : (s.log e).cfg = s.cfg := rfl
@[simp] theorem log_eng : (s.log e).eng = s.eng := rfl
@[simp] theorem log_ctx : (s.log e).ctx = s.ctx := rfl
@[simp] theorem log_da : (s.log e).da = s.da := rfl
@[simp] theorem log_db : (s.log e).db = s.db := rfl
@[simp] theorem log_pos : (s.log e).pos = s.pos := rfl
@[simp] theorem log_build : (s.log e).build = s.build := rfl
@[simp] theorem log_trace : (s.log e).ports.trace = s.ports.trace ++ [e] := rfl
@[simp] theorem log_host : (s.log e).ports.host = s.ports.host := rfl
@[simp] theorem log_replies : (s.log e).ports.replies = s.ports.replies := rfl
@[simp] theorem log_sinkAnswers : (s.log e).ports.sinkAnswers = s.ports.sinkAnswers := rfl
@[simp] theorem log_emitAnswers : (s.log e).ports.emitAnswers = s.ports.emitAnswers := rfl
@[simp] theorem log_source : (s.log e).ports.source = s.ports.source := rfl
@[simp] theorem log_syncs : (s.log e).ports.syncs = s.ports.syncs := rfl
@[simp] theorem log_samples : (s.log e).ports.samples = s.ports.samples := rfl
@[simp] theorem ctxAt_log (c : Fin 4) (b : Nat) : (s.log e).ctxAt c b = s.ctxAt c b := rfl

end Log

end Sys2Proof.Machine
end

