-- ==== Sys2Proof/Laws/Cmd.lean ====
section
/-! SUPPORT. How a command's body runs: the equations of its sequencing, and the two judgments the other laws are
stated in: `Ends` (what holds at either end of a body) and `Runs` (the body completes). -/

namespace Sys2Proof.Machine

/-! ## Equations -/

section Equations
variable {α β : Type} (s : State)

@[simp] theorem cmd_pure (a : α) : (pure a : Cmd α) s = .ok a s := rfl

@[simp] theorem cmd_bind (m : Cmd α) (f : α → Cmd β) :
    (m >>= f) s = match m s with
      | .ok a t => f a t
      | .error e t => .error e t := by
  show EStateM.bind m f s = _
  unfold EStateM.bind
  cases m s <;> rfl

@[simp] theorem cmd_get : (get : Cmd State) s = .ok s s := rfl
@[simp] theorem cmd_modify (f : State → State) : (modify f : Cmd Unit) s = .ok () (f s) := rfl
@[simp] theorem cmd_modifyEng (f : Engine → Engine) : modifyEng f s = .ok () (s.withEng (f s.eng)) := rfl
@[simp] theorem cmd_modifyPos (f : Position → Position) : modifyPos f s = .ok () (s.withPos (f s.pos)) := rfl
@[simp] theorem cmd_modifyStatus (f : Status → Status) : modifyStatus f s = .ok () (s.withStatus (f s.status)) := rfl
@[simp] theorem cmd_raiseFatal (e : ErrCode) : (raiseFatal e : Cmd α) s = .error .fatal (s.enterFaulted e) := rfl
@[simp] theorem cmd_raiseNonFatal (e : ErrCode) : raiseNonFatal e s = .ok () (s.report e) := rfl
@[simp] theorem cmd_stuck (f : Fault) : (stuck f : Cmd α) s = .error (.stuck f) s := rfl
@[simp] theorem cmd_writeResult (v : Word) :
    writeResult v s = .ok () { s with regs := { s.regs with result := v } } := rfl

theorem cmd_ite {p : Prop} [Decidable p] (m n : Cmd α) : (if p then m else n) s = if p then m s else n s := by
  split <;> rfl

theorem assignA_ok (n : Nat) (h : n < 2 ^ 17) :
    assignA n s = .ok () (s.withEng { s.eng with a := BitVec.ofNat 17 n }) := by
  simp only [assignA, h, if_true, cmd_modifyEng]
theorem assignC_ok (n : Nat) (h : n < 2 ^ 32) :
    assignC n s = .ok () (s.withEng { s.eng with c := BitVec.ofNat 32 n }) := by
  simp only [assignC, h, if_true, cmd_modifyEng]
theorem assignCT_ok (n : Nat) (h : n < 2 ^ 4) :
    assignCT n s = .ok () (s.withEng { s.eng with ct := BitVec.ofNat 4 n }) := by
  simp only [assignCT, h, if_true, cmd_modifyEng]
theorem assignSC_ok (n : Nat) (h : n < 2 ^ 32) :
    assignSC n s = .ok () (s.withEng { s.eng with sc := BitVec.ofNat 32 n }) := by
  simp only [assignSC, h, if_true, cmd_modifyEng]
theorem assignZC_ok (n : Nat) (h : n < 2 ^ 32) :
    assignZC n s = .ok () (s.withEng { s.eng with zc := BitVec.ofNat 32 n }) := by
  simp only [assignZC, h, if_true, cmd_modifyEng]

end Equations

/-! ## What holds where a body ends -/

/-- Where the body completes, `good` holds of its result and state; where a fatal error `e` ends it, the state is a
Faulted entry (rule R226) with a fatal code from a state `u` with `bad e u`; and where a port never answers, `hang`
holds. -/
def Cmd.Ends {α : Type} (m : Cmd α) (s : State) (good : α → State → Prop) (bad : ErrCode → State → Prop)
    (hang : Prop) : Prop :=
  match m s with
  | .ok a t => good a t
  | .error .fatal t => ∃ (u : State) (e : ErrCode), e.isFatal = true ∧ bad e u ∧ t = u.enterFaulted e
  | .error (.stuck _) _ => hang

section Ends
variable {α β : Type} {s : State} {bad : ErrCode → State → Prop} {hang : Prop}

theorem Cmd.Ends.pure {a : α} {good : α → State → Prop} (h : good a s) : Cmd.Ends (pure a) s good bad hang := h

theorem Cmd.Ends.raise {e : ErrCode} {good : α → State → Prop} (he : e.isFatal = true) (h : bad e s) :
    Cmd.Ends (raiseFatal e) s good bad hang := ⟨s, e, he, h, rfl⟩

theorem Cmd.Ends.of_ok {m : Cmd α} {a : α} {t : State} {good : α → State → Prop} (h : m s = .ok a t)
    (hg : good a t) : Cmd.Ends m s good bad hang := by
  simpa only [Cmd.Ends, h] using hg

theorem Cmd.Ends.mono {m : Cmd α} {g g' : α → State → Prop} {b b' : ErrCode → State → Prop} {k k' : Prop}
    (h : Cmd.Ends m s g b k) (hg : ∀ a t, g a t → g' a t) (hb : ∀ e u, b e u → b' e u) (hk : k → k') :
    Cmd.Ends m s g' b' k' := by
  unfold Cmd.Ends at *
  split at h
  · exact hg _ _ h
  · obtain ⟨u, e, he, hu, ht⟩ := h
    exact ⟨u, e, he, hb e u hu, ht⟩
  · exact hk h

theorem Cmd.Ends.bind {m : Cmd α} {f : α → Cmd β} {g : α → State → Prop} {good : β → State → Prop}
    (hm : Cmd.Ends m s g bad hang) (hf : ∀ a t, g a t → Cmd.Ends (f a) t good bad hang) :
    Cmd.Ends (m >>= f) s good bad hang := by
  unfold Cmd.Ends at hm
  unfold Cmd.Ends
  rw [cmd_bind]
  split at hm
  · next a t h => rw [h]; exact hf a t hm
  · next t h => rw [h]; exact hm
  · next f t h => rw [h]; exact hm

/-- Sequencing after a body whose judgment is known, weakening both its exits. -/
theorem Cmd.Ends.seq {m : Cmd α} {f : α → Cmd β} {g : α → State → Prop} {good : β → State → Prop}
    {b : ErrCode → State → Prop} {k : Prop} (hm : Cmd.Ends m s g b k) (hb : ∀ e u, b e u → bad e u) (hk : k → hang)
    (hf : ∀ a t, g a t → Cmd.Ends (f a) t good bad hang) : Cmd.Ends (m >>= f) s good bad hang :=
  (hm.mono (fun _ _ h => h) hb hk).bind hf

/-- Sequencing after a step whose outcome is known. -/
theorem Cmd.Ends.bind_ok {m : Cmd α} {f : α → Cmd β} {a : α} {t : State} {good : β → State → Prop}
    (hm : m s = .ok a t) (hf : Cmd.Ends (f a) t good bad hang) : Cmd.Ends (m >>= f) s good bad hang :=
  Cmd.Ends.bind (g := fun a' t' => a' = a ∧ t' = t) (Cmd.Ends.of_ok hm ⟨rfl, rfl⟩) (by rintro _ _ ⟨rfl, rfl⟩; exact hf)

/-- The state read at the start of a body. -/
theorem Cmd.Ends.get_bind {f : State → Cmd β} {good : β → State → Prop} (h : Cmd.Ends (f s) s good bad hang) :
    Cmd.Ends ((get : Cmd State) >>= f) s good bad hang := Cmd.Ends.bind_ok rfl h

/-- A body that can neither end in an error nor wait completes. -/
theorem Cmd.Ends.completes {m : Cmd α} {good : α → State → Prop} (h : Cmd.Ends m s good bad hang)
    (hb : ∀ e u, ¬ bad e u) (hk : ¬ hang) : ∃ a t, m s = .ok a t ∧ good a t := by
  unfold Cmd.Ends at h
  split at h
  · next a t hm => exact ⟨a, t, hm, h⟩
  · obtain ⟨u, e, _, hu, _⟩ := h
    exact absurd hu (hb e u)
  · exact absurd h hk

/-- What the outcome of a body is, from what holds where it ends. -/
theorem Cmd.Ends.outcome {m : Cmd Unit} {good : Unit → State → Prop} {t : State} (h : Cmd.Ends m s good bad hang)
    (ht : Cmd.outcome m s = .next t) :
    good () t ∨ ∃ (u : State) (e : ErrCode), e.isFatal = true ∧ bad e u ∧ t = u.enterFaulted e := by
  unfold Cmd.outcome at ht
  unfold Cmd.Ends at h
  split at ht <;> simp_all

end Ends

/-! ## Commands -/

section Guarded
variable {body : Cmd Unit} {s : State} {operands precondition : Bool}

/-- A command that passes every check of rule R85 runs its body. -/
theorem guarded_runs (hf : s.status.fault = false) (ho : operands = true) (hp : precondition = true) :
    guarded operands precondition body s = Cmd.outcome body s := by
  simp [guarded, hf, ho, hp]

theorem guarded_fault (hf : s.status.fault = true) : guarded operands precondition body s = .next s := by
  simp [guarded, hf, State.report]

theorem guarded_illegal (hf : s.status.fault = false) (ho : operands = false) :
    guarded operands precondition body s = .next (s.report .illegalCommand) := by
  simp [guarded, hf, ho]

theorem guarded_sequence (hf : s.status.fault = false) (ho : operands = true) (hp : precondition = false) :
    guarded operands precondition body s = .next (s.report .sequenceError) := by
  simp [guarded, hf, ho, hp]

/-- Everything a checked command can do when it answers a next state: report and stop, or run its body. -/
theorem guarded_next {t : State} (h : guarded operands precondition body s = .next t) :
    (∃ e, t = s.report e ∧ (e = .sequenceError ∨ e = .illegalCommand)) ∨
      (s.status.fault = false ∧ operands = true ∧ precondition = true ∧ Cmd.outcome body s = .next t) := by
  unfold guarded at h
  split at h
  · exact .inl ⟨_, by simpa using h.symm, .inl rfl⟩
  · split at h
    · exact .inl ⟨_, by simpa using h.symm, .inr rfl⟩
    · split at h
      · exact .inl ⟨_, by simpa using h.symm, .inl rfl⟩
      · exact .inr ⟨by simp_all, by simp_all, by simp_all, h⟩

theorem outcome_ok {t : State} (h : body s = .ok () t) : Cmd.outcome body s = .next t := by
  simp [Cmd.outcome, h]

end Guarded

end Sys2Proof.Machine
end

