-- ==== Sys2Proof/Laws/Memory.lean ====
section
/-! SUPPORT. The laws of the sparse memories: a read after a write, and that every operation keeps the canonical
form `Memory.wf`. -/

namespace Sys2Proof.Machine

variable {w : Nat}

/-! ## Reads after writes -/

theorem lookup_insert (m : Memory w) (a : Nat) (v : BitVec w) (x : Nat) :
    Memory.lookup (Memory.insert m a v) x = if x = a then some v else Memory.lookup m x := by
  induction m with
  | nil => simp [Memory.insert, Memory.lookup, eq_comm]
  | cons e m ih =>
    obtain ⟨k, y⟩ := e
    simp only [Memory.insert]
    split
    · simp only [Memory.lookup, eq_comm]
    · split
      · next h => subst h; simp only [Memory.lookup, eq_comm]; split <;> simp_all
      · next h1 h2 =>
        simp only [Memory.lookup, ih]
        by_cases hx : x = a
        · subst hx; simp [Ne.symm h2]
        · simp [hx]

theorem lookup_remove (m : Memory w) (a x : Nat) :
    Memory.lookup (Memory.remove m a) x = if x = a then none else Memory.lookup m x := by
  induction m with
  | nil => simp [Memory.remove, Memory.lookup]
  | cons e m ih =>
    obtain ⟨k, y⟩ := e
    simp only [Memory.remove]
    split
    · next h => subst h; rw [ih]; simp only [Memory.lookup, eq_comm]; split <;> simp_all
    · next h =>
      simp only [Memory.lookup, ih]
      by_cases hx : x = a
      · subst hx; simp [h]
      · simp [hx]

/-- A read returns what was last written there, and what was there before everywhere else. -/
theorem read_write (blank : Option (BitVec w)) (m : Memory w) (a : Nat) (v : BitVec w) (x : Nat) :
    Memory.read blank (Memory.write blank m a v) x = if x = a then some v else Memory.read blank m x := by
  unfold Memory.read Memory.write
  by_cases hb : blank = some v
  · rw [if_pos hb, lookup_remove]
    by_cases hx : x = a <;> simp [hx, hb]
  · rw [if_neg hb, lookup_insert]
    by_cases hx : x = a <;> simp [hx]

@[simp] theorem read_nil (blank : Option (BitVec w)) (x : Nat) : Memory.read blank ([] : Memory w) x = blank := rfl

/-! ## The canonical form -/

theorem risesFrom_mono {m : Memory w} {lo lo' : Nat} (h : Memory.risesFrom lo m = true) (hl : lo' ≤ lo) :
    Memory.risesFrom lo' m = true := by
  cases m with
  | nil => rfl
  | cons e m =>
    simp only [Memory.risesFrom, Bool.and_eq_true, decide_eq_true_eq] at h ⊢
    exact ⟨by omega, h.2⟩

theorem risesFrom_insert {m : Memory w} {lo : Nat} (a : Nat) (v : BitVec w) (h : Memory.risesFrom lo m = true)
    (hl : lo ≤ a) : Memory.risesFrom lo (Memory.insert m a v) = true := by
  induction m generalizing lo with
  | nil => simpa [Memory.insert, Memory.risesFrom] using hl
  | cons e m ih =>
    obtain ⟨k, y⟩ := e
    simp only [Memory.risesFrom, Bool.and_eq_true, decide_eq_true_eq] at h
    simp only [Memory.insert]
    split
    · simp only [Memory.risesFrom, Bool.and_eq_true, decide_eq_true_eq]
      exact ⟨hl, by omega, h.2⟩
    · split
      · next hk => subst hk; simpa [Memory.risesFrom] using h
      · simp only [Memory.risesFrom, Bool.and_eq_true, decide_eq_true_eq]
        exact ⟨h.1, ih h.2 (by omega)⟩

theorem risesFrom_remove {m : Memory w} {lo : Nat} (a : Nat) (h : Memory.risesFrom lo m = true) :
    Memory.risesFrom lo (Memory.remove m a) = true := by
  induction m generalizing lo with
  | nil => rfl
  | cons e m ih =>
    obtain ⟨k, y⟩ := e
    simp only [Memory.risesFrom, Bool.and_eq_true, decide_eq_true_eq] at h
    simp only [Memory.remove]
    split
    · exact risesFrom_mono (ih h.2) (by omega)
    · simp only [Memory.risesFrom, Bool.and_eq_true, decide_eq_true_eq]
      exact ⟨h.1, ih h.2⟩

theorem mem_insert {m : Memory w} {a : Nat} {v : BitVec w} {e : Nat × BitVec w} (h : e ∈ Memory.insert m a v) :
    e = (a, v) ∨ e ∈ m := by
  induction m with
  | nil => simpa [Memory.insert] using h
  | cons x m ih =>
    obtain ⟨k, y⟩ := x
    simp only [Memory.insert] at h
    split at h
    · simpa using h
    · split at h
      · rcases List.mem_cons.1 h with h | h
        · exact .inl h
        · exact .inr (List.mem_cons_of_mem _ h)
      · rcases List.mem_cons.1 h with h | h
        · exact .inr (by simp [h])
        · rcases ih h with h | h
          · exact .inl h
          · exact .inr (List.mem_cons_of_mem _ h)

theorem mem_remove {m : Memory w} {a : Nat} {e : Nat × BitVec w} (h : e ∈ Memory.remove m a) : e ∈ m := by
  induction m with
  | nil => exact h
  | cons x m ih =>
    obtain ⟨k, y⟩ := x
    simp only [Memory.remove] at h
    split at h
    · exact List.mem_cons_of_mem _ (ih h)
    · rcases List.mem_cons.1 h with h | h
      · simp [h]
      · exact List.mem_cons_of_mem _ (ih h)

/-- A listed cell after a write is the one written or was listed before. -/
theorem mem_write {blank : Option (BitVec w)} {m : Memory w} {a : Nat} {v : BitVec w} {e : Nat × BitVec w}
    (h : e ∈ Memory.write blank m a v) : e = (a, v) ∨ e ∈ m := by
  unfold Memory.write at h
  split at h
  · exact .inr (mem_remove h)
  · exact mem_insert h

@[simp] theorem wf_nil (blank : Option (BitVec w)) : Memory.wf blank ([] : Memory w) = true := rfl

/-- A write keeps the canonical form. -/
theorem wf_write (blank : Option (BitVec w)) (m : Memory w) (a : Nat) (v : BitVec w) (h : Memory.wf blank m = true) :
    Memory.wf blank (Memory.write blank m a v) = true := by
  simp only [Memory.wf, Bool.and_eq_true, List.all_eq_true, decide_eq_true_eq] at h ⊢
  refine ⟨?_, fun e he => ?_⟩
  · unfold Memory.write
    split
    · exact risesFrom_remove a h.1
    · exact risesFrom_insert a v h.1 (Nat.zero_le a)
  · by_cases hb : blank = some v
    · simp only [Memory.write, hb, if_true] at he
      exact h.2 e (mem_remove he)
    · rcases mem_write he with rfl | he
      · exact hb
      · exact h.2 e he

/-- Distinct positions of the line/frame buffer have distinct keys. -/
theorem sampleKey_injective {c c' : Fin 4} {x x' y y' : Nat} (hx : x < 65536) (hx' : x' < 65536) (hy : y < 65536)
    (hy' : y' < 65536) (h : sampleKey c x y = sampleKey c' x' y') : c = c' ∧ x = x' ∧ y = y' := by
  unfold sampleKey at h
  refine ⟨Fin.ext ?_, ?_, ?_⟩ <;> omega

end Sys2Proof.Machine
end

