-- ==== Sys2Proof/Laws/Encoder.lean ====
section
/-! SUPPORT. The encoder procedures (spec/40_engine.md rules R105 to R113): what each writes to the sink and to the
engine registers when it completes, and how it can end otherwise. -/

namespace Sys2Proof.Machine

/-! ## Writing bytes -/

@[simp] theorem wrotes_nil : wrotes [] = [] := rfl
@[simp] theorem wrotes_append (a b : List Byte) : wrotes (a ++ b) = wrotes a ++ wrotes b := List.map_append
@[simp] theorem wrotes_cons (a : Byte) (b : List Byte) : wrotes (a :: b) = .sinkWrite a .ok :: wrotes b := rfl

theorem sunk_wrotes (bs : List Byte) : (wrotes bs).filterMap PortEvent.sunkByte = bs := by
  induction bs with
  | nil => rfl
  | cons b bs ih => simp [PortEvent.sunkByte, ih]

@[simp] theorem wrote_nil (s : State) : s.wrote [] = s := by simp [State.wrote]

theorem wrote_wrote (s : State) (a b : List Byte) : (s.wrote a).wrote b = s.wrote (a ++ b) := by
  simp [State.wrote, BitVec.ofNat_add, BitVec.add_assoc]

/-- What every encoder procedure leaves unchanged, and how the sink's side of it moved: `bs` was accepted and then
`failed` (a refused write, or nothing) came. The context RAM and the coder registers are not spoken of. -/
structure Coded (s t : State) (bs : List Byte) (failed : List PortEvent) : Prop where
  status : t.status = s.status
  regs : t.regs = s.regs
  marker : t.marker = s.marker
  cfg : t.cfg = s.cfg
  da : t.da = s.da
  db : t.db = s.db
  pos : t.pos = s.pos
  build : t.build = s.build
  eos : t.eng.eos = s.eng.eos
  mode : t.eng.mode = s.eng.mode
  nbytes : t.eng.nbytes = s.eng.nbytes + BitVec.ofNat 32 bs.length
  ports : t.ports = { s.ports with
    sinkAnswers := s.ports.sinkAnswers.drop (bs.length + failed.length)
    trace := s.ports.trace ++ wrotes bs ++ failed }

theorem Coded.refl (s : State) : Coded s s [] [] := by constructor <;> simp

theorem Coded.trans {s t u : State} {a b : List Byte} {f : List PortEvent} (h : Coded s t a []) (h' : Coded t u b f) :
    Coded s u (a ++ b) f where
  status := h'.status.trans h.status
  regs := h'.regs.trans h.regs
  marker := h'.marker.trans h.marker
  cfg := h'.cfg.trans h.cfg
  da := h'.da.trans h.da
  db := h'.db.trans h.db
  pos := h'.pos.trans h.pos
  build := h'.build.trans h.build
  eos := h'.eos.trans h.eos
  mode := h'.mode.trans h.mode
  nbytes := by rw [h'.nbytes, h.nbytes]; simp [BitVec.ofNat_add, BitVec.add_assoc]
  ports := by
    rw [h'.ports, h.ports]
    simp [Nat.add_assoc]

theorem Coded.accepts {s t : State} {a : List Byte} {f : List PortEvent} (h : Coded s t a f)
    (hs : s.ports.SinkAccepts) : t.ports.SinkAccepts := by
  rw [h.ports]
  exact fun x hx => hs x (List.mem_of_mem_drop hx)

theorem coded_wrote (s : State) (bs : List Byte) : Coded s (s.wrote bs) bs [] := by
  constructor <;> simp [State.wrote]

/-- How an encoder procedure started in `s` can end in a fatal error (rules R106, R110, R222): the sink refused a
byte; or, if `w`, a register would have passed its width. `u` is the state before the Faulted entry, and `K` what is
known of its context RAM. -/
inductive EncodeHalt (s : State) (K : State → Prop) (w : Prop) : ErrCode → State → Prop where
  | sink {u : State} {bs : List Byte} {b : Byte} (h : Coded s u bs [.sinkWrite b .fail]) (hc : K u)
      (hs : ¬ s.ports.SinkAccepts) : EncodeHalt s K w .sinkFailure u
  | width {u : State} {bs : List Byte} (h : Coded s u bs []) (hc : K u) (hw : w) :
      EncodeHalt s K w .stateCorruption u

/-- The context RAM is the one of `s`. -/
abbrev SameCtx (s : State) : State → Prop := fun u => u.ctx = s.ctx

theorem EncodeHalt.trans {s t u : State} {a : List Byte} {e : ErrCode} {K K' : State → Prop} {w w' : Prop}
    (h : Coded s t a []) (hK : ∀ v, K' v → K v) (hw : w' → w) (h' : EncodeHalt t K' w' e u) : EncodeHalt s K w e u := by
  cases h' with
  | sink hu hc hs => exact .sink (h.trans hu) (hK _ hc) fun hacc => hs (h.accepts hacc)
  | width hu hc hw' => exact .width (h.trans hu) (hK _ hc) (hw hw')

/-- With a sink that accepts and no register that could pass its width, no fatal error ends the procedure. -/
theorem EncodeHalt.absurd {s u : State} {e : ErrCode} {K : State → Prop} {w : Prop} (h : EncodeHalt s K w e u)
    (hs : s.ports.SinkAccepts) (hw : ¬ w) : False := by
  cases h with
  | sink _ _ h => exact h hs
  | width _ _ h => exact hw h

theorem hang_trans {s t : State} {a : List Byte} (h : Coded s t a []) (h' : ¬ t.ports.SinkAccepts) :
    ¬ s.ports.SinkAccepts := fun hacc => h' (h.accepts hacc)

/-- `Emit(b)` (rule R106). -/
theorem emit_ends (b : Byte) (s : State) :
    Cmd.Ends (emit b) s (fun _ t => t = s.wrote [b]) (EncodeHalt s (SameCtx s) False) (¬ s.ports.SinkAccepts) := by
  unfold Cmd.Ends emit
  rw [cmd_bind]
  unfold sinkWrite
  rcases hq : s.ports.sinkAnswers with _ | ⟨a, rest⟩
  · simp [State.wrote, State.log, State.withEng, hq]
  · rcases a with _ | r
    · simp only [cmd_stuck]
      intro h
      have := h none (by simp [hq])
      simp at this
    · cases r with
      | ok => simp [State.wrote, State.log, State.withEng, hq]
      | fail =>
        refine ⟨({ s with ports := { s.ports with sinkAnswers := rest } }).log (.sinkWrite b .fail), .sinkFailure, rfl,
          .sink (bs := []) (b := b) ?_ rfl ?_, rfl⟩
        · constructor <;> simp [State.log, hq]
        · intro h
          have := h (some .fail) (by simp [hq])
          simp at this

/-- Writing several bytes one after another. -/
def emitAll : List Byte → Cmd Unit
  | [] => pure ()
  | b :: bs => do
    emit b
    emitAll bs

theorem emitAll_ends (bs : List Byte) (s : State) :
    Cmd.Ends (emitAll bs) s (fun _ t => t = s.wrote bs) (EncodeHalt s (SameCtx s) False) (¬ s.ports.SinkAccepts) := by
  induction bs generalizing s with
  | nil => exact Cmd.Ends.pure (wrote_nil s).symm
  | cons b bs ih =>
    refine (emit_ends b s).bind fun _ t ht => ?_
    subst ht
    have hw := coded_wrote s [b]
    refine (ih _).mono (fun _ u hu => ?_) (fun e u hu => hu.trans hw (fun _ h => h) id) (hang_trans hw)
    rw [hu, wrote_wrote]
    rfl

theorem emitStuffed_eq (b : Byte) : emitStuffed b = emitAll (stuffed b) := by
  unfold emitStuffed stuffed
  split <;> simp [emitAll]

theorem emitAll_append (a b : List Byte) (s : State) :
    emitAll (a ++ b) s = (do emitAll a; emitAll b : Cmd Unit) s := by
  induction a generalizing s with
  | nil => simp [emitAll]
  | cons x a ih =>
    simp only [List.cons_append, emitAll, cmd_bind]
    cases emit x s with
    | ok _ t => simpa using ih t
    | error e t => rfl

/-- `repeat n times: Emit(0xFF); Emit(0x00)` writes n stuffed 0xFF bytes. -/
theorem emitStacked_eq (n : Nat) (s : State) :
    emitStacked n s = emitAll (List.replicate n (stuffed 0xFF)).flatten s := by
  induction n generalizing s with
  | zero => rfl
  | succ n ih =>
    rw [List.replicate_succ, List.flatten_cons, emitAll_append]
    simp only [emitStacked, emitStuffed_eq, cmd_bind, ih]

/-- `EmitZeros` (rule R106): the deferred zeros are written and ZC is 0. -/
theorem emitZeros_ends (s : State) :
    Cmd.Ends emitZeros s
      (fun _ t => t = (s.withEng { s.eng with zc := 0 }).wrote (List.replicate s.eng.zc.toNat 0x00))
      (EncodeHalt s (SameCtx s) False) (¬ s.ports.SinkAccepts) := by
  suffices h : ∀ (n : Nat) (s : State), n = s.eng.zc.toNat → Cmd.Ends (emitZerosN n) s
      (fun _ t => t = (s.withEng { s.eng with zc := 0 }).wrote (List.replicate n 0x00))
      (EncodeHalt s (SameCtx s) False) (¬ s.ports.SinkAccepts) by
    exact h _ s rfl
  intro n
  induction n with
  | zero =>
    intro s hn
    have hz : s.eng.zc = 0 := BitVec.eq_of_toNat_eq (by simpa using hn.symm)
    exact Cmd.Ends.pure (by simp [← hz, State.withEng])
  | succ n ih =>
    intro s hn
    have hlt := s.eng.zc.isLt
    refine (emit_ends 0x00 s).bind fun _ t ht => ?_
    subst ht
    refine Cmd.Ends.bind_ok (cmd_modifyEng _ _) ?_
    have hw : Coded s ((s.wrote [0x00]).withEng { (s.wrote [0x00]).eng with zc := s.eng.zc - 1 }) [0x00] [] := by
      constructor <;> simp [State.wrote]
    refine (ih _ ?_).mono (fun _ u hu => ?_) (fun e u hu => hu.trans hw (fun _ h => h) id) (hang_trans hw)
    · show n = (s.eng.zc - 1).toNat
      rw [BitVec.toNat_sub]
      simp
      omega
    · rw [hu]
      simp [State.wrote, State.withEng, BitVec.ofNat_add, BitVec.add_assoc, List.replicate_succ,
        BitVec.add_comm 1#32]

/-! ## Held bytes -/

theorem wrote_withEng (s : State) (f : Engine → Engine) (bs : List Byte)
    (hf : ∀ e n, f { e with nbytes := n } = { f e with nbytes := n }) :
    (s.wrote bs).withEng (f (s.wrote bs).eng) = (s.withEng (f s.eng)).wrote bs := by
  have h1 := hf s.eng (s.eng.nbytes + BitVec.ofNat 32 bs.length)
  have h2 := congrArg Engine.nbytes (hf s.eng s.eng.nbytes)
  simp only [State.wrote, State.withEng, State.mk.injEq, and_true, true_and]
  rw [h1]
  simp only at h2
  rw [show ({ s.eng with nbytes := s.eng.nbytes } : Engine) = s.eng from rfl] at h2
  rw [h2]

theorem coded_withEng (s : State) (e : Engine) (he : e.eos = s.eng.eos) (hm : e.mode = s.eng.mode)
    (hn : e.nbytes = s.eng.nbytes) : Coded s (s.withEng e) [] [] := by
  constructor <;> simp [he, hm, hn]

/-- The cause of a width error in `EmitHeld`: SC and ZC are too near 2^32, or the held byte is 0xFF. -/
abbrev Engine.heldFull (e : Engine) : Prop := ¬ (e.Room 1 ∧ e.b ≠ 0xFF)

theorem emitHeldCarry_ends (s : State) :
    Cmd.Ends emitHeldCarry s (fun _ t => t = (s.withEng (s.eng.afterHeld true)).wrote (s.eng.heldBytes true))
      (EncodeHalt s (SameCtx s) s.eng.heldFull) (¬ s.ports.SinkAccepts) := by
  have hlt := s.eng.zc.isLt
  unfold emitHeldCarry emitCarried
  have key : ∀ (t : State) (bs : List Byte), t.eng.sc = s.eng.sc →
      t = (s.withEng { s.eng with zc := t.eng.zc }).wrote bs → t.eng.zc = (if s.eng.bv then 0 else s.eng.zc) →
      bs = s.eng.heldBytes true →
      Cmd.Ends (do
        let e := (← get).eng
        assignZC (e.zc.toNat + e.sc.toNat)
        modifyEng fun e => { e with sc := 0 }) t
        (fun _ t => t = (s.withEng (s.eng.afterHeld true)).wrote (s.eng.heldBytes true))
        (EncodeHalt s (SameCtx s) s.eng.heldFull) (¬ s.ports.SinkAccepts) := by
    intro t bs hsc ht hzc hbs
    have hcod : Coded s t bs [] := by
      rw [ht]; constructor <;> simp [State.wrote]
    have hctx : t.ctx = s.ctx := by rw [ht]; rfl
    refine Cmd.Ends.get_bind ?_
    by_cases hov : t.eng.zc.toNat + t.eng.sc.toNat < 2 ^ 32
    · refine Cmd.Ends.bind_ok (assignZC_ok _ _ hov) (Cmd.Ends.of_ok (cmd_modifyEng _ _) ?_)
      rw [← hbs, hsc, hzc]
      rw [ht]
      simp only [State.wrote, State.withEng, Engine.afterHeld, if_true]
      congr 3
      split <;> rfl
    · have : assignZC (t.eng.zc.toNat + t.eng.sc.toNat) t = .error .fatal (t.enterFaulted .stateCorruption) := by
        unfold assignZC
        rw [if_neg hov]
        rfl
      refine Cmd.Ends.bind (g := fun _ _ => False) ?_ (fun _ _ h => h.elim)
      unfold Cmd.Ends
      rw [this]
      refine ⟨t, .stateCorruption, rfl, .width hcod hctx ?_, rfl⟩
      rw [hsc, hzc] at hov
      rintro ⟨hr, _⟩
      have : (if s.eng.bv then 0 else s.eng.zc : BitVec 32).toNat ≤ s.eng.zc.toNat := by split <;> simp
      unfold Engine.Room at hr
      omega
  by_cases hbv : s.eng.bv = true
  · by_cases hb : s.eng.b = 0xFF
    · refine Cmd.Ends.bind (g := fun _ _ => False) ?_ (fun _ _ h => h.elim)
      refine Cmd.Ends.get_bind ?_
      simp only [hbv, hb, if_true]
      exact Cmd.Ends.raise rfl (.width (Coded.refl s) rfl (by simp [hb]))
    · refine Cmd.Ends.bind (g := fun _ t => t = (s.withEng { s.eng with zc := 0 }).wrote (s.eng.heldBytes true)) ?_ ?_
      · refine Cmd.Ends.get_bind ?_
        simp only [hbv, hb, if_true, if_false]
        refine (emitZeros_ends s).seq (fun e u hu => hu.trans (Coded.refl s) (fun _ h => h) False.elim) id ?_
        rintro _ t rfl
        rw [emitStuffed_eq]
        have hw : Coded s ((s.withEng { s.eng with zc := 0 }).wrote (List.replicate s.eng.zc.toNat 0x00)) _ [] :=
          (coded_withEng s { s.eng with zc := 0 } rfl rfl rfl).trans (coded_wrote _ _)
        refine (emitAll_ends _ _).mono (fun _ u hu => ?_) (fun e u hu => hu.trans hw (fun _ h => h) False.elim)
          (hang_trans hw)
        rw [hu, wrote_wrote]
        simp [Engine.heldBytes, hbv]
      · rintro _ t rfl
        exact key _ _ rfl rfl (by simp [State.wrote, hbv]) rfl
  · simp only [Bool.not_eq_true] at hbv
    refine Cmd.Ends.bind_ok (a := ()) (t := s) (by simp [hbv]) ?_
    refine key s [] rfl (by simp [State.withEng]) (by simp [hbv]) (by simp [Engine.heldBytes, hbv])

theorem zcAfterHeld_zero {e : Engine} (hv : e.bv = true) (hb : e.b = 0) : e.zcAfterHeld = e.zc.toNat + 1 := by
  unfold Engine.zcAfterHeld
  rw [if_pos hv, if_pos hb]

theorem zcAfterHeld_byte {e : Engine} (hv : e.bv = true) (hb : e.b ≠ 0) : e.zcAfterHeld = 0 := by
  unfold Engine.zcAfterHeld
  rw [if_pos hv, if_neg hb]

theorem zcAfterHeld_none {e : Engine} (hv : e.bv = false) : e.zcAfterHeld = e.zc.toNat := by
  unfold Engine.zcAfterHeld
  rw [if_neg (by simp [hv])]

theorem emitHeldByte_ends (s : State) :
    Cmd.Ends emitHeldByte s
      (fun _ t => t = (s.withEng { s.eng with zc := BitVec.ofNat 32 s.eng.zcAfterHeld }).wrote
        (if s.eng.bv = true ∧ s.eng.b ≠ 0 then List.replicate s.eng.zc.toNat 0x00 ++ [s.eng.b] else [])
        ∧ s.eng.zcAfterHeld < 2 ^ 32)
      (EncodeHalt s (SameCtx s) s.eng.heldFull) (¬ s.ports.SinkAccepts) := by
  unfold emitHeldByte
  refine Cmd.Ends.get_bind ?_
  by_cases hbv : s.eng.bv = true
  · by_cases hb : s.eng.b = 0
    · rw [if_pos hbv, if_pos hb]
      by_cases hov : s.eng.zc.toNat + 1 < 2 ^ 32
      · refine Cmd.Ends.of_ok (assignZC_ok _ _ hov) ?_
        rw [zcAfterHeld_zero hbv hb, if_neg (fun h => h.2 hb), wrote_nil]
        exact ⟨rfl, hov⟩
      · unfold assignZC
        rw [if_neg hov]
        refine Cmd.Ends.raise rfl (.width (Coded.refl s) rfl ?_)
        rintro ⟨hr, _⟩
        unfold Engine.Room at hr
        omega
    · rw [if_pos hbv, if_neg hb]
      refine (emitZeros_ends s).seq (fun e u hu => hu.trans (Coded.refl s) (fun _ h => h) False.elim) id ?_
      rintro _ t rfl
      have hw : Coded s ((s.withEng { s.eng with zc := 0 }).wrote (List.replicate s.eng.zc.toNat 0x00)) _ [] :=
        (coded_withEng s { s.eng with zc := 0 } rfl rfl rfl).trans (coded_wrote _ _)
      refine (emit_ends _ _).mono (fun _ u hu => ?_) (fun e u hu => hu.trans hw (fun _ h => h) False.elim)
        (hang_trans hw)
      rw [hu, wrote_wrote, zcAfterHeld_byte hbv hb, if_pos ⟨hbv, hb⟩]
      exact ⟨rfl, by decide⟩
  · simp only [Bool.not_eq_true] at hbv
    rw [if_neg (by simp [hbv])]
    refine Cmd.Ends.pure ?_
    rw [zcAfterHeld_none hbv, if_neg (fun h => by simp [hbv] at h), wrote_nil, BitVec.ofNat_toNat]
    exact ⟨by simp [State.withEng], s.eng.zc.isLt⟩

theorem emitHeldStack_ends (s : State) :
    Cmd.Ends emitHeldStack s
      (fun _ t => t = (s.withEng { s.eng with zc := if s.eng.sc = 0 then s.eng.zc else 0, sc := 0 }).wrote
        (if s.eng.sc = 0 then []
          else List.replicate s.eng.zc.toNat 0x00 ++ (List.replicate s.eng.sc.toNat (stuffed 0xFF)).flatten))
      (EncodeHalt s (SameCtx s) False) (¬ s.ports.SinkAccepts) := by
  unfold emitHeldStack
  refine Cmd.Ends.get_bind ?_
  by_cases hsc : s.eng.sc = 0
  · simp only [hsc, if_true]
    refine Cmd.Ends.pure ?_
    simp [State.withEng, ← hsc]
  · simp only [hsc, if_false]
    refine (emitZeros_ends s).seq (fun e u hu => hu.trans (Coded.refl s) (fun _ h => h) False.elim) id ?_
    rintro _ t rfl
    have hw : Coded s ((s.withEng { s.eng with zc := 0 }).wrote (List.replicate s.eng.zc.toNat 0x00)) _ [] :=
      (coded_withEng s { s.eng with zc := 0 } rfl rfl rfl).trans (coded_wrote _ _)
    have hst := emitAll_ends (List.replicate s.eng.sc.toNat (stuffed 0xFF)).flatten
      ((s.withEng { s.eng with zc := 0 }).wrote (List.replicate s.eng.zc.toNat 0x00))
    rw [show emitAll (List.replicate s.eng.sc.toNat (stuffed 0xFF)).flatten = emitStacked s.eng.sc.toNat from
      funext fun x => (emitStacked_eq _ x).symm] at hst
    refine hst.seq (fun e u hu => hu.trans hw (fun _ h => h) False.elim) (hang_trans hw) ?_
    rintro _ t rfl
    refine Cmd.Ends.of_ok (cmd_modifyEng _ _) ?_
    rw [wrote_wrote, wrote_withEng _ (fun e => { e with sc := 0 }) _ (fun _ _ => rfl)]
    simp

theorem emitHeldPlain_ends (s : State) :
    Cmd.Ends emitHeldPlain s (fun _ t => t = (s.withEng (s.eng.afterHeld false)).wrote (s.eng.heldBytes false))
      (EncodeHalt s (SameCtx s) s.eng.heldFull) (¬ s.ports.SinkAccepts) := by
  unfold emitHeldPlain
  refine (emitHeldByte_ends s).bind ?_
  rintro _ t ⟨rfl, hlt⟩
  have hw : Coded s ((s.withEng { s.eng with zc := BitVec.ofNat 32 s.eng.zcAfterHeld }).wrote
      (if s.eng.bv = true ∧ s.eng.b ≠ 0 then List.replicate s.eng.zc.toNat 0x00 ++ [s.eng.b] else [])) _ [] :=
    (coded_withEng s { s.eng with zc := BitVec.ofNat 32 s.eng.zcAfterHeld } rfl rfl rfl).trans (coded_wrote _ _)
  refine (emitHeldStack_ends _).mono (fun _ u hu => ?_) (fun e u hu => hu.trans hw (fun _ h => h) False.elim)
    (hang_trans hw)
  have hz : (BitVec.ofNat 32 s.eng.zcAfterHeld).toNat = s.eng.zcAfterHeld := by
    rw [BitVec.toNat_ofNat, Nat.mod_eq_of_lt hlt]
  rw [hu, wrote_withEng _ (fun e => { e with zc := if e.sc = 0 then e.zc else 0, sc := 0 }) _ (fun _ _ => rfl),
    wrote_wrote]
  simp only [State.wrote, State.withEng, hz]
  rfl

/-- `EmitHeld(carry)` (rule R107). -/
theorem emitHeld_ends (carry : Bool) (s : State) :
    Cmd.Ends (emitHeld carry) s (fun _ t => t = (s.withEng (s.eng.afterHeld carry)).wrote (s.eng.heldBytes carry))
      (EncodeHalt s (SameCtx s) s.eng.heldFull) (¬ s.ports.SinkAccepts) := by
  cases carry
  · exact emitHeldPlain_ends s
  · exact emitHeldCarry_ends s

/-! ## ByteOut -/

theorem dropByte_ok (s : State) (h : s.eng.ct.toNat < 8) :
    dropByte s = .ok () (s.withEng
      { s.eng with c := BitVec.ofNat 32 (s.eng.c.toNat &&& 0x7FFFF), ct := BitVec.ofNat 4 (s.eng.ct.toNat + 8) }) := by
  have hc : s.eng.c.toNat &&& 0x7FFFF < 2 ^ 32 := lt_of_le_of_lt Nat.and_le_right (by decide)
  unfold dropByte
  rw [cmd_bind, cmd_get]
  simp only
  rw [cmd_bind, assignC_ok _ _ hc]
  simp only
  rw [assignCT_ok _ _ (by omega), withEng_withEng]
  rfl

theorem afterHeld_ct (e : Engine) (carry : Bool) : (e.afterHeld carry).ct = e.ct := by cases carry <;> rfl
theorem afterHeld_c (e : Engine) (carry : Bool) : (e.afterHeld carry).c = e.c := by cases carry <;> rfl
theorem afterHeld_a (e : Engine) (carry : Bool) : (e.afterHeld carry).a = e.a := by cases carry <;> rfl
theorem afterHeld_mode (e : Engine) (carry : Bool) : (e.afterHeld carry).mode = e.mode := by cases carry <;> rfl
theorem afterHeld_eos (e : Engine) (carry : Bool) : (e.afterHeld carry).eos = e.eos := by cases carry <;> rfl
theorem afterHeld_nbytes (e : Engine) (carry : Bool) : (e.afterHeld carry).nbytes = e.nbytes := by cases carry <;> rfl
theorem afterHeld_bytes (e : Engine) (n : BitVec 32) (carry : Bool) :
    ({ e with nbytes := n } : Engine).afterHeld carry = { e.afterHeld carry with nbytes := n } := by cases carry <;> rfl

/-- The end of `ByteOut` after `EmitHeld` (rule R110). -/
theorem holdDrop_ends (s : State) (carry : Bool) (n : Nat) (h : s.eng.ct.toNat < 8) :
    Cmd.Ends (do emitHeld carry; holdByte n; dropByte) s
      (fun _ t => t = (s.withEng { s.eng.afterHeld carry with
        b := BitVec.ofNat 8 n, bv := true, c := BitVec.ofNat 32 (s.eng.c.toNat &&& 0x7FFFF)
        ct := BitVec.ofNat 4 (s.eng.ct.toNat + 8) }).wrote (s.eng.heldBytes carry))
      (EncodeHalt s (SameCtx s) s.eng.heldFull) (¬ s.ports.SinkAccepts) := by
  refine (emitHeld_ends carry s).bind ?_
  rintro _ t rfl
  refine Cmd.Ends.bind_ok (cmd_modifyEng _ _) (Cmd.Ends.of_ok (dropByte_ok _ ?_) ?_)
  · simpa [State.wrote, afterHeld_ct] using h
  · cases carry <;> rfl

/-- `ByteOut` (rule R110). -/
theorem byteOut_ends (s : State) (h : s.eng.ct.toNat < 8) :
    Cmd.Ends byteOut s (fun _ t => t = (s.withEng s.eng.afterByteOut).wrote s.eng.byteOutBytes)
      (EncodeHalt s (SameCtx s) s.eng.heldFull) (¬ s.ports.SinkAccepts) := by
  have hsplit : byteOut s = (if s.eng.outByte > 0xFF then (do emitHeld true; holdByte s.eng.outByte; dropByte : Cmd Unit) s
      else if s.eng.outByte = 0xFF then (do assignSC (s.eng.sc.toNat + 1); dropByte : Cmd Unit) s
      else (do emitHeld false; holdByte s.eng.outByte; dropByte : Cmd Unit) s) := by
    unfold byteOut
    rw [cmd_bind, cmd_get]
    by_cases h1 : s.eng.outByte > 0xFF
    · simp only [if_pos h1]
    · by_cases h2 : s.eng.outByte = 0xFF
      · simp only [if_neg h1, if_pos h2]
      · simp only [if_neg h1, if_neg h2]
  unfold Cmd.Ends
  rw [hsplit]
  unfold Engine.afterByteOut Engine.byteOutBytes
  split_ifs with h1 h2
  · exact holdDrop_ends s true _ h
  · by_cases hov : s.eng.sc.toNat + 1 < 2 ^ 32
    · rw [cmd_bind, assignSC_ok _ _ hov]
      simp only
      rw [dropByte_ok _ (by simpa using h)]
      simp
    · have : assignSC (s.eng.sc.toNat + 1) s = .error .fatal (s.enterFaulted .stateCorruption) := by
        unfold assignSC
        rw [if_neg hov]
        rfl
      rw [cmd_bind, this]
      refine ⟨s, .stateCorruption, rfl, .width (Coded.refl s) rfl ?_, rfl⟩
      rintro ⟨hr, _⟩
      unfold Engine.Room at hr
      omega
  · exact holdDrop_ends s false _ h

end Sys2Proof.Machine
end

