-- ==== Sys2Proof/Laws/EncodeBit.lean ====
section
/-! SUPPORT. Coding one decision and flushing (spec/40_engine.md rules R108 to R113): the register bounds of rule R32
are kept, every written 0xFF is stuffed, and the procedures complete when the sink accepts and SC and ZC have room. -/

namespace Sys2Proof.Machine

/-! ## Stuffed bytes -/

theorem StuffedBytes.append {a b : List Byte} (ha : StuffedBytes a) (hb : StuffedBytes b) : StuffedBytes (a ++ b) := by
  induction a with
  | nil => exact hb
  | cons x a ih =>
    refine ⟨fun hx => ?_, ih ha.2⟩
    have := ha.1 hx
    cases a with
    | nil => simp at this
    | cons y a => simpa using this

theorem stuffedBytes_replicate {b : Byte} (hb : b ≠ 0xFF) (n : Nat) : StuffedBytes (List.replicate n b) := by
  induction n with
  | zero => trivial
  | succ n ih => exact ⟨fun h => absurd h hb, ih⟩

theorem stuffedBytes_stuffed (b : Byte) : StuffedBytes (stuffed b) := by
  unfold stuffed
  split
  · exact ⟨fun _ => rfl, fun h => absurd h (by decide), trivial⟩
  · next h => exact ⟨fun h' => absurd h' h, trivial⟩

theorem stuffedBytes_stack (n : Nat) : StuffedBytes (List.replicate n (stuffed 0xFF)).flatten := by
  induction n with
  | zero => trivial
  | succ n ih => exact (stuffedBytes_stuffed 0xFF).append ih

theorem stuffedBytes_held {e : Engine} (hb : e.b ≠ 0xFF) (carry : Bool) : StuffedBytes (e.heldBytes carry) := by
  have hz : ∀ n, StuffedBytes (List.replicate n 0x00) := stuffedBytes_replicate (by decide)
  unfold Engine.heldBytes
  split
  · split
    · exact (hz _).append (stuffedBytes_stuffed _)
    · trivial
  · refine StuffedBytes.append ?_ ?_
    · split
      · exact (hz _).append ⟨fun h => absurd h hb, trivial⟩
      · trivial
    · split
      · trivial
      · exact (hz _).append (stuffedBytes_stack _)

theorem stuffedBytes_byteOut {e : Engine} (hb : e.b ≠ 0xFF) : StuffedBytes e.byteOutBytes := by
  unfold Engine.byteOutBytes
  split
  · exact stuffedBytes_held hb true
  · split
    · trivial
    · exact stuffedBytes_held hb false

/-! ## The registers during a renormalization -/

/-- The bound on the code value between operations: `(C + A) * 2^CT` (rule R32). -/
abbrev codeLimit : Nat := 2 ^ 27 + 2 ^ 24

/-- The encoder registers while A is being shifted up (rule R109): `EncodeSound` but for the lower bound on A. -/
structure Engine.Shifting (e : Engine) : Prop where
  a_pos : 1 ≤ e.a.toNat
  a_lt : e.a.toNat < 0x10000
  code_le : (e.c.toNat + e.a.toNat) * 2 ^ e.ct.toNat ≤ codeLimit
  ct_ge : 1 ≤ e.ct.toNat
  ct_le : e.ct.toNat ≤ 11
  b_ne : e.b ≠ 0xFF
  b_zero : e.bv = false → e.b = 0

theorem Engine.Shifting.sound {e : Engine} (h : e.Shifting) (ha : 0x8000 ≤ e.a.toNat) : e.EncodeSound where
  a_ge := ha
  a_le := by have := h.a_lt; omega
  code_le := h.code_le
  ct_ge := h.ct_ge
  ct_le := h.ct_le
  b_ne := h.b_ne
  b_zero := h.b_zero

theorem Engine.Shifting.c_le {e : Engine} (h : e.Shifting) : 2 * (e.c.toNat + e.a.toNat) ≤ codeLimit := by
  have h1 := h.code_le
  have h2 : 2 ^ 1 ≤ 2 ^ e.ct.toNat := Nat.pow_le_pow_right (by decide) h.ct_ge
  have h3 : (e.c.toNat + e.a.toNat) * 2 ^ 1 ≤ (e.c.toNat + e.a.toNat) * 2 ^ e.ct.toNat := Nat.mul_le_mul_left _ h2
  omega

theorem shifted_a {e : Engine} (ha : e.a.toNat < 0x10000) : e.shifted.a.toNat = 2 * e.a.toNat := by
  simp only [Engine.shifted, BitVec.toNat_ofNat, Nat.shiftLeft_eq]
  rw [Nat.mod_eq_of_lt (by omega)]
  omega

theorem shifted_c {e : Engine} (h : 2 * (e.c.toNat + e.a.toNat) ≤ codeLimit) :
    e.shifted.c.toNat = 2 * e.c.toNat := by
  simp only [Engine.shifted, BitVec.toNat_ofNat, Nat.shiftLeft_eq]
  rw [Nat.mod_eq_of_lt (by unfold codeLimit at h; omega)]
  omega

theorem shifted_ct (e : Engine) : e.shifted.ct.toNat = e.ct.toNat - 1 := by
  have := e.ct.isLt
  simp only [Engine.shifted, BitVec.toNat_ofNat]
  rw [Nat.mod_eq_of_lt (by omega)]

theorem shiftE_ok (s : State) (h : s.eng.Shifting) : shiftE s = .ok () (s.withEng s.eng.shifted) := by
  have h1 := h.a_lt
  have h2 := h.c_le
  have h3 := s.eng.ct.isLt
  unfold shiftE
  rw [cmd_bind, cmd_get]
  simp only
  rw [cmd_bind, assignA_ok _ _ (by rw [Nat.shiftLeft_eq]; omega)]
  simp only
  rw [cmd_bind, assignC_ok _ _ (by rw [Nat.shiftLeft_eq]; unfold codeLimit at h2; omega)]
  simp only
  rw [assignCT_ok _ _ (by omega)]
  rfl

/-- The registers at a byte boundary (rule R110). -/
structure Engine.AtByte (e : Engine) : Prop where
  ct : e.ct.toNat = 0
  a_pos : 1 ≤ e.a.toNat
  a_lt : e.a.toNat < 0x10000
  c_le : e.c.toNat + e.a.toNat ≤ codeLimit
  b_ne : e.b ≠ 0xFF
  b_zero : e.bv = false → e.b = 0

theorem Engine.AtByte.outByte_lt {e : Engine} (h : e.AtByte) : e.outByte < 288 := by
  have h1 := h.c_le
  have h2 := h.a_pos
  unfold Engine.outByte
  rw [Nat.shiftRight_eq_div_pow]
  unfold codeLimit at h1
  omega

theorem afterByteOut_a (e : Engine) : e.afterByteOut.a = e.a := by
  unfold Engine.afterByteOut
  simp only
  split_ifs <;> simp [afterHeld_a]

theorem afterByteOut_mode (e : Engine) : e.afterByteOut.mode = e.mode := by
  unfold Engine.afterByteOut
  simp only
  split_ifs <;> simp [afterHeld_mode]

theorem afterByteOut_eos (e : Engine) : e.afterByteOut.eos = e.eos := by
  unfold Engine.afterByteOut
  simp only
  split_ifs <;> simp [afterHeld_eos]

theorem afterByteOut_nbytes (e : Engine) : e.afterByteOut.nbytes = e.nbytes := by
  unfold Engine.afterByteOut
  simp only
  split_ifs <;> simp [afterHeld_nbytes]

theorem afterByteOut_c (e : Engine) : e.afterByteOut.c.toNat = e.c.toNat % 2 ^ 19 := by
  unfold Engine.afterByteOut
  simp only [BitVec.toNat_ofNat]
  rw [show (0x7FFFF : Nat) = 2 ^ 19 - 1 from rfl, Nat.and_two_pow_sub_one_eq_mod, Nat.mod_eq_of_lt (by omega)]

theorem afterByteOut_ct {e : Engine} (h : e.ct.toNat = 0) : e.afterByteOut.ct.toNat = 8 := by
  unfold Engine.afterByteOut
  simp [h]

theorem afterByteOut_held {e : Engine} (h : e.AtByte) :
    e.afterByteOut.b ≠ 0xFF ∧ (e.afterByteOut.bv = false → e.afterByteOut.b = 0) := by
  have hlt := h.outByte_lt
  have key : ∀ n, n < 288 → n ≠ 255 → BitVec.ofNat 8 n ≠ 0xFF := by
    intro n hn hne heq
    have := congrArg BitVec.toNat heq
    simp only [BitVec.toNat_ofNat] at this
    have h255 : (0xFF : BitVec 8).toNat = 255 := rfl
    omega
  unfold Engine.afterByteOut
  split_ifs with h1 h2
  · exact ⟨key _ hlt (by omega), fun h' => by simp at h'⟩
  · exact ⟨h.b_ne, h.b_zero⟩
  · exact ⟨key _ hlt h2, fun h' => by simp at h'⟩

/-- One `ByteOut` adds at most one to SC and ZC together (rules R107, R110). -/
theorem afterByteOut_count {e : Engine} (h : e.Room 1) :
    e.afterByteOut.sc.toNat + e.afterByteOut.zc.toNat ≤ e.sc.toNat + e.zc.toNat + 1 := by
  unfold Engine.Room at h
  have hz : e.zcAfterHeld ≤ e.zc.toNat + 1 := by
    unfold Engine.zcAfterHeld
    split_ifs <;> omega
  unfold Engine.afterByteOut
  split_ifs with h1 h2
  · simp only [Engine.afterHeld, if_true, BitVec.toNat_ofNat]
    have : ((if e.bv = true then 0 else e.zc.toNat) + e.sc.toNat) % 2 ^ 32 ≤ e.zc.toNat + e.sc.toNat := by
      refine (Nat.mod_le _ _).trans ?_
      split <;> omega
    simp only [BitVec.ofNat_eq_ofNat, BitVec.toNat_ofNat, Nat.zero_mod]
    omega
  · simp only [BitVec.toNat_ofNat]
    rw [Nat.mod_eq_of_lt (by omega)]
    omega
  · simp only [Engine.afterHeld, Bool.false_eq_true, if_false]
    by_cases hs : e.sc = 0
    · simp only [hs, if_true, BitVec.toNat_ofNat]
      rw [Nat.mod_eq_of_lt (by omega)]
      simp only [BitVec.ofNat_eq_ofNat, BitVec.toNat_ofNat, Nat.zero_mod]
      omega
    · simp only [hs, if_false]
      simp

theorem Engine.AtByte.shifting {e : Engine} (h : e.AtByte) : e.afterByteOut.Shifting where
  a_pos := by rw [afterByteOut_a]; exact h.a_pos
  a_lt := by rw [afterByteOut_a]; exact h.a_lt
  code_le := by
    rw [afterByteOut_a, afterByteOut_c, afterByteOut_ct h.ct]
    have := h.a_lt
    have := Nat.mod_lt e.c.toNat (show 0 < 2 ^ 19 by decide)
    unfold codeLimit
    omega
  ct_ge := by rw [afterByteOut_ct h.ct]; decide
  ct_le := by rw [afterByteOut_ct h.ct]; decide
  b_ne := (afterByteOut_held h).1
  b_zero := (afterByteOut_held h).2

/-! ## Renormalization -/

/-- How many `ByteOut` calls n shifts can make from a given CT (rule R109). -/
abbrev byteOuts (n ct : Nat) : Nat := (n + 8 - ct) / 8

/-- What one turn of `RenormE` does (rule R109): `bs` written, A doubled, `k` more in SC and ZC. -/
structure Turned (s t : State) (k : Nat) : Prop where
  coded : ∃ bs, Coded s t bs [] ∧ StuffedBytes bs
  ctx : t.ctx = s.ctx
  a : t.eng.a.toNat = 2 * s.eng.a.toNat
  shifting : t.eng.Shifting
  count : s.eng.Room k → t.eng.sc.toNat + t.eng.zc.toNat ≤ s.eng.sc.toNat + s.eng.zc.toNat + k
  ct : t.eng.ct.toNat = if s.eng.ct.toNat = 1 then 8 else s.eng.ct.toNat - 1
  exact : t = (s.withEng s.eng.turn.1).wrote s.eng.turn.2

theorem turn_ends (s : State) (h : s.eng.Shifting) (ha : s.eng.a.toNat < 0x8000) :
    Cmd.Ends (do shiftE; byteOutIfDue) s
      (fun _ t => Turned s t (if s.eng.ct.toNat = 1 then 1 else 0))
      (EncodeHalt s (SameCtx s) (¬ s.eng.Room (if s.eng.ct.toNat = 1 then 1 else 0))) (¬ s.ports.SinkAccepts) := by
  refine Cmd.Ends.bind_ok (shiftE_ok s h) ?_
  have hcode := h.code_le
  have hge := h.ct_ge
  have hA := shifted_a (e := s.eng) h.a_lt
  have hC := shifted_c h.c_le
  have hT := shifted_ct s.eng
  have hcoded : Coded s (s.withEng s.eng.shifted) [] [] := coded_withEng s _ rfl rfl rfl
  unfold byteOutIfDue
  refine Cmd.Ends.get_bind ?_
  by_cases hct : s.eng.ct.toNat = 1
  · have h0 : s.eng.shifted.ct = 0 := BitVec.eq_of_toNat_eq (by rw [hT, hct]; rfl)
    simp only [withEng_eng, h0, if_true, hct]
    have hat : s.eng.shifted.AtByte :=
      { ct := by rw [hT, hct]
        a_pos := by rw [hA]; have := h.a_pos; omega
        a_lt := by rw [hA]; omega
        c_le := by rw [hA, hC]; have := h.c_le; omega
        b_ne := h.b_ne
        b_zero := h.b_zero }
    refine (byteOut_ends (s.withEng s.eng.shifted) (by simp [h0])).mono ?_ ?_ (hang_trans hcoded)
    · rintro _ t rfl
      refine
        { coded := ⟨s.eng.shifted.byteOutBytes, ?_, stuffedBytes_byteOut h.b_ne⟩
          ctx := rfl
          a := ?_, shifting := ?_, count := ?_, ct := ?_, exact := by simp only [Engine.turn, h0, if_true]; rfl }
      · exact (coded_withEng s s.eng.shifted.afterByteOut (afterByteOut_eos _) (afterByteOut_mode _)
          (afterByteOut_nbytes _)).trans (coded_wrote _ _)
      · show s.eng.shifted.afterByteOut.a.toNat = _
        rw [afterByteOut_a, hA]
      · have := hat.shifting
        exact ⟨this.a_pos, this.a_lt, this.code_le, this.ct_ge, this.ct_le, this.b_ne, this.b_zero⟩
      · exact fun hr => afterByteOut_count (e := s.eng.shifted) hr
      · show s.eng.shifted.afterByteOut.ct.toNat = _
        rw [afterByteOut_ct hat.ct, if_pos hct]
    · intro e u hu
      exact hu.trans hcoded (fun _ h => h) fun hw hr => hw ⟨hr, h.b_ne⟩
  · have h0 : s.eng.shifted.ct ≠ 0 := fun h0 => by
      have := congrArg BitVec.toNat h0
      rw [hT] at this
      have hz : (0 : BitVec 4).toNat = 0 := rfl
      omega
    simp only [withEng_eng, h0, if_false, hct]
    refine Cmd.Ends.pure
      { coded := ⟨[], hcoded, trivial⟩
        ctx := rfl
        a := hA
        shifting :=
          { a_pos := by rw [withEng_eng, hA]; have := h.a_pos; omega
            a_lt := by rw [withEng_eng, hA]; omega
            code_le := ?_
            ct_ge := by rw [withEng_eng, hT]; omega
            ct_le := by rw [withEng_eng, hT]; have := h.ct_le; omega
            b_ne := h.b_ne
            b_zero := h.b_zero }
        count := fun _ => Nat.le_refl _
        ct := by simpa [hct] using hT
        exact := by simp only [Engine.turn, h0, if_false, wrote_nil] }
    rw [withEng_eng, hA, hC, hT]
    obtain ⟨n, hn⟩ : ∃ n, s.eng.ct.toNat = n + 1 := ⟨s.eng.ct.toNat - 1, by omega⟩
    rw [hn, pow_succ] at hcode
    rw [hn]
    simp only [Nat.add_sub_cancel]
    nlinarith

theorem turn_nbytes (e : Engine) (n : BitVec 32) :
    ({ e with nbytes := n } : Engine).turn = ({ e.turn.1 with nbytes := n }, e.turn.2) := by
  have h1 : ({ e with nbytes := n } : Engine).shifted = { e.shifted with nbytes := n } := rfl
  have h2 : ∀ f : Engine, ({ f with nbytes := n } : Engine).afterByteOut = { f.afterByteOut with nbytes := n } := by
    intro f
    have ho : ({ f with nbytes := n } : Engine).outByte = f.outByte := rfl
    unfold Engine.afterByteOut
    rw [ho]
    simp only
    split_ifs <;> rfl
  have h3 : ∀ f : Engine, ({ f with nbytes := n } : Engine).byteOutBytes = f.byteOutBytes := fun f => rfl
  unfold Engine.turn
  rw [h1, h2, h3]
  simp only
  split_ifs <;> rfl

/-- NBYTES is counted by the sink's side of a write, not by the renormalization of the registers. -/
theorem renorm_nbytes (n : Nat) (e : Engine) (k : BitVec 32) :
    Engine.renorm n { e with nbytes := k } = ({ (Engine.renorm n e).1 with nbytes := k }, (Engine.renorm n e).2) := by
  induction n generalizing e with
  | zero => rfl
  | succ n ih =>
    unfold Engine.renorm
    rw [turn_nbytes]
    simp only [ih]
    split_ifs <;> rfl

theorem renorm_wrote {s t : State} {e : Engine} {bs : List Byte} (n : Nat) (h : t = (s.withEng e).wrote bs) :
    (t.withEng (Engine.renorm n t.eng).1).wrote (Engine.renorm n t.eng).2 =
      (s.withEng (Engine.renorm n e).1).wrote (bs ++ (Engine.renorm n e).2) := by
  subst h
  have he : ((s.withEng e).wrote bs).eng = { e with nbytes := e.nbytes + BitVec.ofNat 32 bs.length } := rfl
  have hn : ∀ n (e : Engine), (Engine.renorm n e).1.nbytes = e.nbytes := fun n e => by
    have := renorm_nbytes n e e.nbytes
    have h2 := congrArg (fun p => p.1.nbytes) this
    exact h2
  rw [he, renorm_nbytes]
  simp only [State.wrote, State.withEng, hn, List.length_append, BitVec.ofNat_add, BitVec.add_assoc, List.drop_drop,
    wrotes_append, List.append_assoc]

theorem renorm_stop {n : Nat} {e : Engine} (h : 0x8000 ≤ e.turn.1.a.toNat) : e.renorm (n + 1) = e.turn := by
  rw [Engine.renorm, if_pos h]

theorem renorm_go {n : Nat} {e : Engine} (h : ¬ 0x8000 ≤ e.turn.1.a.toNat) :
    e.renorm (n + 1) = ((Engine.renorm n e.turn.1).1, e.turn.2 ++ (Engine.renorm n e.turn.1).2) := by
  rw [Engine.renorm, if_neg h]

/-- What a renormalization does (rule R109): `bs` written, A shifted up to the first value that reaches 0x8000. -/
structure Renormed (n : Nat) (s t : State) (room : Nat) : Prop where
  coded : ∃ bs, Coded s t bs [] ∧ StuffedBytes bs
  ctx : t.ctx = s.ctx
  a : ∃ k, 1 ≤ k ∧ k ≤ 15 ∧ t.eng.a.toNat = s.eng.a.toNat * 2 ^ k
  sound : t.eng.EncodeSound
  a_lt : t.eng.a.toNat < 0x10000
  count : s.eng.Room room → t.eng.sc.toNat + t.eng.zc.toNat ≤ s.eng.sc.toNat + s.eng.zc.toNat + room
  exact : t = (s.withEng (s.eng.renorm n).1).wrote (s.eng.renorm n).2

theorem renormE_ends (n : Nat) (s : State) (h : s.eng.Shifting) (ha : s.eng.a.toNat < 0x8000) (hn : n ≤ 16)
    (hfuel : 0x10000 ≤ s.eng.a.toNat * 2 ^ n) :
    Cmd.Ends (renormE n) s (fun _ t => Renormed n s t (byteOuts n s.eng.ct.toNat))
      (EncodeHalt s (SameCtx s) (¬ s.eng.Room (byteOuts n s.eng.ct.toNat))) (¬ s.ports.SinkAccepts) := by
  induction n generalizing s with
  | zero => omega
  | succ n ih =>
    have hge := h.ct_ge
    have hle := h.ct_le
    have hbo : byteOuts (n + 1) s.eng.ct.toNat =
        (if s.eng.ct.toNat = 1 then 1 else 0) +
          byteOuts n (if s.eng.ct.toNat = 1 then 8 else s.eng.ct.toNat - 1) := by
      unfold byteOuts
      split <;> omega
    have hturn := turn_ends s h ha
    have hre : renormE (n + 1) = ((do shiftE; byteOutIfDue : Cmd Unit) >>= fun _ => do
        if 0x8000 ≤ (← get).eng.a.toNat then pure () else renormE n) := by
      simp only [renormE, bind_assoc]
    rw [hre]
    have hroom : s.eng.Room (byteOuts (n + 1) s.eng.ct.toNat) →
        s.eng.Room (if s.eng.ct.toNat = 1 then 1 else 0) := by
      unfold Engine.Room
      omega
    refine hturn.seq (fun e u hu => hu.trans (Coded.refl s) (fun _ h => h) fun hw hr => hw (hroom hr)) id ?_
    intro _ t ht
    obtain ⟨bs, hc, hst⟩ := ht.coded
    refine Cmd.Ends.get_bind ?_
    have hcnt := ht.count
    have hct := ht.ct
    have hta : t.eng.a = s.eng.turn.1.a := by rw [ht.exact]; rfl
    by_cases hA : 0x8000 ≤ t.eng.a.toNat
    · have ha2 : 0x8000 ≤ s.eng.turn.1.a.toNat := by rw [← hta]; exact hA
      simp only [hA, if_true]
      refine Cmd.Ends.pure
        { coded := ⟨bs, hc, hst⟩, ctx := ht.ctx, a := ⟨1, by omega, by omega, by rw [ht.a]; omega⟩
          sound := ht.shifting.sound hA, a_lt := ht.shifting.a_lt, count := fun hr => ?_
          exact := by rw [renorm_stop ha2]; exact ht.exact }
      unfold Engine.Room at hr hcnt
      have := hcnt (by omega)
      omega
    · simp only [hA, if_false]
      have hf' : 0x10000 ≤ t.eng.a.toNat * 2 ^ n := by
        rw [ht.a]
        rw [pow_succ] at hfuel
        nlinarith
      refine (ih t ht.shifting (by omega) (by omega) hf').mono ?_ ?_ (hang_trans hc)
      · rintro _ u hu
        obtain ⟨bs', hc', hst'⟩ := hu.coded
        obtain ⟨k, hk1, hk2, hk⟩ := hu.a
        have hk15 : k + 1 ≤ 15 := by
          by_contra hcon
          have hk' : k = 15 := by omega
          have h1 := hu.a_lt
          have h2 := ht.shifting.a_pos
          rw [hk, hk', ht.a] at h1
          have h3 := h.a_pos
          omega
        refine
          { coded := ⟨bs ++ bs', hc.trans hc', hst.append hst'⟩, ctx := hu.ctx.trans ht.ctx
            a := ⟨k + 1, by omega, hk15, by rw [hk, ht.a, pow_succ]; ring⟩
            sound := hu.sound, a_lt := hu.a_lt, count := fun hr => ?_
            exact := ?_ }
        rotate_left
        · rw [renorm_go (by rw [← hta]; exact hA), hu.exact, renorm_wrote n ht.exact]
        have h2 := hu.count
        unfold Engine.Room at hr hcnt h2
        rw [hbo] at hr ⊢
        rw [hct] at h2
        have h1 := hcnt (by omega)
        have h3 := h2 (by omega)
        omega
      · intro e u hu
        refine hu.trans hc (fun v hv => hv.trans ht.ctx) fun hw hr => hw ?_
        unfold Engine.Room at hr hcnt ⊢
        rw [hbo] at hr
        rw [hct]
        have h1 := hcnt (by omega)
        omega

/-! ## The interval step -/

/-- A sound interval and a legal Qe: the split keeps the code value's bound, and leaves a nonzero A below 0x8000
unless it needs no renormalization (rules R102, R108). -/
theorem encodeSplit_bounds {a c q : Nat} (isMps : Bool) (ha : 0x8000 ≤ a) (ha' : a ≤ 0x10000) (hq : 0 < q)
    (hq' : q < 0x8000) :
    1 ≤ (encodeSplit a c q isMps).1 ∧ (encodeSplit a c q isMps).2.1 + (encodeSplit a c q isMps).1 ≤ c + a ∧
      ((encodeSplit a c q isMps).2.2 = .keep → 0x8000 ≤ (encodeSplit a c q isMps).1 ∧
        (encodeSplit a c q isMps).2.1 = c) ∧
      ((encodeSplit a c q isMps).2.2 ≠ .keep → (encodeSplit a c q isMps).1 < 0x8000) ∧
      (encodeSplit a c q isMps).1 ≤ a := by
  unfold encodeSplit
  simp only
  split_ifs <;> simp <;> omega

theorem romLookup_of_legal {b : Build} (hb : b.Legal) {i : BitVec 7} (hi : i.toNat < Config.nRow) :
    ∃ r, romLookup b i = some r ∧ r.Legal := by
  have hlt : i.toNat < b.rom.length := by rw [hb.1]; exact hi
  have hget : b.rom[i.toNat]? = some b.rom[i.toNat] := List.getElem?_eq_getElem hlt
  have hleg : (b.rom[i.toNat]).Legal := hb.2 _ (List.getElem_mem hlt)
  refine ⟨b.rom[i.toNat], ?_, hleg⟩
  unfold romLookup
  rw [hget]
  exact if_pos hleg

theorem setCtx_self {s : State} {c : Fin 4} {b : Nat} (hb : b < Config.nBin) : s.setCtx c b (s.ctxAt c b) = s := by
  have h : (s.ctx[c])[b]? = some (s.ctx[c])[b] := Vector.getElem?_eq_getElem hb
  have h1 : (s.ctx[c]).setIfInBounds b (s.ctx[c])[b] = s.ctx[c] := by
    ext i hi
    by_cases hib : b = i
    · subst hib; simp
    · simp [hib]
  have h2 : s.ctx.set c s.ctx[c] = s.ctx := by
    ext1 i hi
    by_cases hic : c.val = i
    · subst hic; simp
    · simp
  unfold State.setCtx State.ctxAt
  rw [h, Option.getD_some, h1, h2]

/-- An entry after an estimate keeps a legal index (rules R102 to R104). -/
theorem adapt_legal {e : CtxEntry} {r : RomRow} (hr : r.Legal) (he : e.i.toNat < Config.nRow) (est : Estimate) :
    (e.adapt r est).i.toNat < Config.nRow := by
  cases est
  · exact he
  · exact hr.2.2.2
  · exact hr.2.2.1

/-- An entry a renormalization moves is legal whatever it was. -/
theorem adapt_moved_legal {e : CtxEntry} {r : RomRow} (hr : r.Legal) {est : Estimate} (h : est ≠ .keep) :
    (e.adapt r est).i.toNat < Config.nRow := by
  cases est
  · exact absurd rfl h
  · exact hr.2.2.2
  · exact hr.2.2.1

/-- What coding one decision does (rule R108): `row` is the ROM row of the entry, `step` the interval step. -/
structure CodedBit (s : State) (c : Fin 4) (b : Nat) (d : Bool) (t : State) : Prop where
  coded : ∃ bs, Coded s t bs [] ∧ StuffedBytes bs
  result : ∃ row, romLookup s.build (s.ctxAt c b).i = some row ∧
    t.ctx = (s.setCtx c b ((s.ctxAt c b).adapt row
      (encodeSplit s.eng.a.toNat s.eng.c.toNat row.qe.toNat (d == (s.ctxAt c b).mps)).2.2)).ctx ∧
    t = s.coded c b row (encodeSplit s.eng.a.toNat s.eng.c.toNat row.qe.toNat (d == (s.ctxAt c b).mps)) ∧
    ((encodeSplit s.eng.a.toNat s.eng.c.toNat row.qe.toNat (d == (s.ctxAt c b).mps)).2.2 ≠ .keep →
      ∃ k, 1 ≤ k ∧ k ≤ 15 ∧ t.eng.a.toNat =
        (encodeSplit s.eng.a.toNat s.eng.c.toNat row.qe.toNat (d == (s.ctxAt c b).mps)).1 * 2 ^ k)
  sound : t.eng.EncodeSound
  count : s.eng.Room 2 → t.eng.sc.toNat + t.eng.zc.toNat ≤ s.eng.sc.toNat + s.eng.zc.toNat + 2

/-- Only the entry (c, b) of the context RAM may differ from `s`, and legal indices stay legal. -/
structure CtxMoved (c : Fin 4) (s t : State) : Prop where
  other : ∀ c', c' ≠ c → t.ctx[c'] = s.ctx[c']
  legal : s.CtxLegal → t.CtxLegal

theorem CtxMoved.of_same {c : Fin 4} {s t : State} (h : t.ctx = s.ctx) : CtxMoved c s t where
  other := fun c' _ => by rw [h]
  legal := fun hs c' b hb => by
    have : t.ctxAt c' b = s.ctxAt c' b := by unfold State.ctxAt; rw [h]
    rw [this]
    exact hs c' b hb

theorem CtxMoved.trans {c : Fin 4} {s t u : State} (h : CtxMoved c s t) (h' : CtxMoved c t u) : CtxMoved c s u where
  other := fun c' hc => (h'.other c' hc).trans (h.other c' hc)
  legal := fun hs => h'.legal (h.legal hs)

theorem CtxMoved.of_set {s t : State} {c : Fin 4} {b : Nat} {e : CtxEntry} (h : t.ctx = (s.setCtx c b e).ctx)
    (hb : b < Config.nBin) (he : e.i.toNat < Config.nRow) : CtxMoved c s t where
  other := fun c' hc => by rw [h]; exact setCtx_other s c b e c' hc
  legal := fun hs c' b' hb' => by
    have : t.ctxAt c' b' = (s.setCtx c b e).ctxAt c' b' := by unfold State.ctxAt; rw [h]
    rw [this, ctxAt_setCtx _ _ _ _ _ _ hb]
    split
    · exact he
    · exact hs c' b' hb'

theorem encodeBounds_of_sound {e : Engine} (h : e.EncodeSound) : e.encodeBounds = true := by
  have h1 := h.code_le
  have h2 := h.a_ge
  have h3 := h.a_le
  have h4 := h.ct_ge
  have h5 := h.ct_le
  have hc : e.c.toNat <<< e.ct.toNat < 2 ^ 28 := by
    rw [Nat.shiftLeft_eq]
    have : e.c.toNat * 2 ^ e.ct.toNat ≤ (e.c.toNat + e.a.toNat) * 2 ^ e.ct.toNat :=
      Nat.mul_le_mul_right _ (Nat.le_add_right _ _)
    omega
  unfold Engine.encodeBounds
  simp only [Bool.and_eq_true, decide_eq_true_eq, Bool.or_eq_true]
  refine ⟨⟨⟨⟨⟨h2, h3⟩, hc⟩, h4⟩, h5⟩, ?_⟩
  rcases hb : e.bv with _ | _
  · exact .inr (h.b_zero hb)
  · exact .inl rfl

/-- `EncodeBit(ctx[c][b], d)` (rule R108) from a sound engine, where the entry selects a row of the ROM. -/
theorem encodeBit_rowEnds (s : State) (c : Fin 4) (b : Nat) (d : Bool) (hb : b < Config.nBin) (he : s.eng.EncodeSound)
    {row : RomRow} (hrow : romLookup s.build (s.ctxAt c b).i = some row) (hleg : row.Legal) :
    Cmd.Ends (encodeBit c b d) s (fun _ t => CodedBit s c b d t)
      (EncodeHalt s (CtxMoved c s) (¬ s.eng.Room 2)) (¬ s.ports.SinkAccepts) := by
  have hcode := he.code_le
  have hage := he.a_ge
  have hale := he.a_le
  have hctge := he.ct_ge
  obtain ⟨hq, hq', _, _⟩ := id hleg
  unfold encodeBit
  refine Cmd.Ends.bind_ok (a := ()) (t := s) (by simp [requireEncodeBounds, encodeBounds_of_sound he]) ?_
  refine Cmd.Ends.bind_ok (a := row) (t := s) (by simp [romRow, hrow]) ?_
  refine Cmd.Ends.get_bind ?_
  generalize hm : (d == (s.ctxAt c b).mps) = m
  obtain ⟨hs1, hs2, hs3, hs4, hs5⟩ := encodeSplit_bounds (c := s.eng.c.toNat) m hage hale hq hq'
  generalize hsp : encodeSplit s.eng.a.toNat s.eng.c.toNat row.qe.toNat m = sp at hs1 hs2 hs3 hs4 hs5
  obtain ⟨a', c', est⟩ := sp
  simp only at hs1 hs2 hs3 hs4 hs5 ⊢
  have h2le : 2 * (s.eng.c.toNat + s.eng.a.toNat) ≤ codeLimit := by
    have h2 : 2 ^ 1 ≤ 2 ^ s.eng.ct.toNat := Nat.pow_le_pow_right (by decide) hctge
    have h3 := Nat.mul_le_mul_left (s.eng.c.toNat + s.eng.a.toNat) h2
    unfold codeLimit
    omega
  unfold codeLimit at h2le
  refine Cmd.Ends.bind_ok (assignA_ok _ _ (by omega)) ?_
  refine Cmd.Ends.bind_ok (assignC_ok _ _ (by omega)) ?_
  rw [withEng_withEng]
  simp only [withEng_eng]
  have hat : (BitVec.ofNat 17 a').toNat = a' := by rw [BitVec.toNat_ofNat, Nat.mod_eq_of_lt (by omega)]
  have hct : (BitVec.ofNat 32 c').toNat = c' := by rw [BitVec.toNat_ofNat, Nat.mod_eq_of_lt (by omega)]
  have hcode' : (c' + a') * 2 ^ s.eng.ct.toNat ≤ codeLimit := (Nat.mul_le_mul_right _ hs2).trans hcode
  by_cases hk : est = .keep
  · obtain ⟨h8, hcc⟩ := hs3 hk
    have hval : a' = s.eng.a.toNat - row.qe.toNat := by
      have := congrArg Prod.fst hsp
      have h2 := congrArg (fun p => p.2.2) hsp
      simp only [hk] at this h2
      rw [← this]
      unfold encodeSplit at h2 ⊢
      simp only at h2 ⊢
      split_ifs at h2 ⊢
      simp_all
    simp only [hk, if_true]
    have ht : (s.withEng { s.eng with a := BitVec.ofNat 17 a', c := BitVec.ofNat 32 c' }) =
        s.withEng { s.eng with a := BitVec.ofNat 17 (s.eng.a.toNat - row.qe.toNat) } := by
      rw [hcc, hval]
      simp
    rw [ht]
    rw [hval] at hat h8 hcode' hs1 hs2
    rw [hcc] at hcode' hs2
    refine Cmd.Ends.pure
      { coded := ⟨[], coded_withEng s _ rfl rfl rfl, trivial⟩
        result := ⟨row, hrow, ?_, ?_, ?_⟩
        sound := ⟨by rw [withEng_eng]; simp only [hat]; exact h8, by rw [withEng_eng]; simp only [hat]; omega,
          by rw [withEng_eng]; simp only [hat]; exact hcode', he.ct_ge, he.ct_le, he.b_ne, he.b_zero⟩
        count := fun _ => Nat.le_add_right _ _ }
    · rw [hm, hsp]
      simp only [hk, CtxEntry.adapt, setCtx_self hb, withEng_ctx]
    · rw [hm, hsp, ← ht]
      simp [State.coded, hk]
    · rw [hm, hsp]
      exact fun h => absurd hk h
  · simp only [hk, if_false]
    have ha8 := hs4 hk
    refine Cmd.Ends.bind_ok (cmd_modify _ _) ?_
    generalize hs' : (s.withEng { s.eng with a := BitVec.ofNat 17 a', c := BitVec.ofNat 32 c' }).setCtx c b
      (((s.withEng { s.eng with a := BitVec.ofNat 17 a', c := BitVec.ofNat 32 c' }).ctxAt c b).adapt row est) = s'
    have heng : s'.eng = { s.eng with a := BitVec.ofNat 17 a', c := BitVec.ofNat 32 c' } := by rw [← hs']; rfl
    have hcoded : Coded s s' [] [] := by
      rw [← hs']
      constructor <;> simp
    have hctx : s'.ctx = (s.setCtx c b ((s.ctxAt c b).adapt row est)).ctx := by rw [← hs']; rfl
    have hmoved : CtxMoved c s s' := CtxMoved.of_set hctx hb (adapt_moved_legal hleg hk)
    have hshift : s'.eng.Shifting := by
      rw [heng]
      exact ⟨by simp only [hat]; exact hs1, by simp only [hat]; omega, by simp only [hat, hct]; exact hcode', he.ct_ge,
        he.ct_le, he.b_ne, he.b_zero⟩
    have hbo : byteOuts renormFuel s'.eng.ct.toNat ≤ 2 := by
      rw [heng]
      simp only [byteOuts, renormFuel]
      omega
    have hroom : ∀ {n}, n ≤ 2 → s.eng.Room 2 → s'.eng.Room n := by
      intro n hn hr
      rw [heng]
      unfold Engine.Room at hr ⊢
      simp only
      omega
    refine (renormE_ends renormFuel s' hshift (by rw [heng]; simp only [hat]; exact ha8) (by decide)
      (by rw [heng]; simp only [hat, renormFuel]; omega)).mono ?_ ?_ (hang_trans hcoded)
    · rintro _ t ht
      obtain ⟨bs, hc, hst⟩ := ht.coded
      obtain ⟨k, hk1, hk2, hka⟩ := ht.a
      refine
        { coded := ⟨bs, by simpa using hcoded.trans hc, hst⟩
          result := ⟨row, hrow, ?_, ?_, ?_⟩
          sound := ht.sound
          count := fun hr => ?_ }
      · rw [hm, hsp, ht.ctx, hctx]
      · rw [hm, hsp, ht.exact, ← hs']
        simp only [State.coded, hk, if_false]
        rfl
      · rw [hm, hsp]
        refine fun _ => ⟨k, hk1, hk2, ?_⟩
        rw [hka, heng]
        simp only [hat]
      · have := ht.count (hroom hbo hr)
        rw [heng] at this
        simp only at this
        rw [heng] at hbo
        simp only at hbo
        omega
    · intro e u hu
      exact hu.trans hcoded (fun v hv => hmoved.trans (CtxMoved.of_same hv)) fun hw hr => hw (hroom hbo hr)

/-- `EncodeBit(ctx[c][b], d)` (rule R108) from a sound engine, in a legal build. -/
theorem encodeBit_ends (s : State) (c : Fin 4) (b : Nat) (d : Bool) (hb : b < Config.nBin) (he : s.eng.EncodeSound)
    (hbuild : s.build.Legal) (hi : (s.ctxAt c b).i.toNat < Config.nRow) :
    Cmd.Ends (encodeBit c b d) s (fun _ t => CodedBit s c b d t)
      (EncodeHalt s (CtxMoved c s) (¬ s.eng.Room 2)) (¬ s.ports.SinkAccepts) := by
  obtain ⟨row, hrow, hleg⟩ := romLookup_of_legal hbuild hi
  exact encodeBit_rowEnds s c b d hb he hrow hleg

/-- A row the machine uses has the properties of rule R102. -/
theorem romLookup_legal {b : Build} {i : BitVec 7} {row : RomRow} (h : romLookup b i = some row) : row.Legal := by
  unfold romLookup at h
  split at h
  · split at h
    · cases h
      assumption
    · cases h
  · cases h

/-- A ROM row with the properties of rule R102 is the one the machine uses. -/
theorem romLookup_of_row {b : Build} {i : BitVec 7} {row : RomRow} (h : b.rom[i.toNat]? = some row) (hl : row.Legal) :
    romLookup b i = some row := by
  unfold romLookup
  rw [h]
  exact if_pos hl

/-- In a legal build every row has the properties of rule R102. -/
theorem Build.Legal.row {b : Build} (hb : b.Legal) {n : Nat} {row : RomRow} (h : b.rom[n]? = some row) : row.Legal :=
  hb.2 _ (List.mem_of_getElem? h)

/-- The context RAM after an interval step of the encoder: the entry adapted, every other one as it was. -/
theorem ctxAt_coded (s : State) {c : Fin 4} {b : Nat} (hb : b < Config.nBin) (row : RomRow) (step : Nat × Nat × Estimate)
    (c' : Fin 4) (b' : Nat) : (s.coded c b row step).ctxAt c' b' =
      if c' = c ∧ b' = b then (s.ctxAt c b).adapt row step.2.2 else s.ctxAt c' b' := by
  unfold State.coded
  by_cases hk : step.2.2 = .keep
  · rw [if_pos hk, hk]
    split
    · rename_i h
      rw [h.1, h.2]
      rfl
    · rfl
  · rw [if_neg hk]
    exact ctxAt_setCtx s c b _ c' b' hb

end Sys2Proof.Machine
end

