-- ==== Sys2Proof/Laws/Decoder.lean ====
section
/-! SUPPORT. The decoder procedures (spec/40_engine.md rules R114 to R117): what each reads from the source, which
registers it moves, and that the register bounds of rule R32 are kept. -/

namespace Sys2Proof.Machine

/-- What every decoder procedure leaves unchanged, and how far EXHAUSTED, ERR, EOS, MARKER and the source may move
(rules R46, R116). The context RAM and A, C, CT are not spoken of. -/
structure Fetched (s t : State) : Prop where
  dstate : t.status.dstate = s.status.dstate
  dmode : t.status.dmode = s.status.dmode
  fault : t.status.fault = s.status.fault
  err : t.status.err = s.status.err ∨ t.status.err = .streamExhausted
  exhausted : s.status.exhausted = true → t.status.exhausted = true
  regs : t.regs = s.regs
  cfg : t.cfg = s.cfg
  da : t.da = s.da
  db : t.db = s.db
  pos : t.pos = s.pos
  build : t.build = s.build
  held : t.eng.b = s.eng.b ∧ t.eng.bv = s.eng.bv ∧ t.eng.sc = s.eng.sc ∧ t.eng.zc = s.eng.zc
  nbytes : t.eng.nbytes = s.eng.nbytes
  mode : t.eng.mode = s.eng.mode
  eos : (s.eng.eos = true → s.status.exhausted = true) → t.eng.eos = true → t.status.exhausted = true
  marker : (s.marker.valid = false → s.marker.code = 0) → t.marker.valid = false → t.marker.code = 0
  silent : t.ports.source.silent = s.ports.source.silent
  ports : ∃ bytes trace, trace.filterMap PortEvent.sunkByte = s.ports.sinkBytes ∧
    t.ports = { s.ports with source := { s.ports.source with bytes := bytes }, trace := trace }

theorem sunk_append (tr : List PortEvent) (e : PortEvent) (h : e.sunkByte = none) :
    (tr ++ [e]).filterMap PortEvent.sunkByte = tr.filterMap PortEvent.sunkByte := by
  simp [h]

theorem Fetched.refl (s : State) : Fetched s s where
  dstate := rfl
  dmode := rfl
  fault := rfl
  err := .inl rfl
  exhausted := id
  regs := rfl
  cfg := rfl
  da := rfl
  db := rfl
  pos := rfl
  build := rfl
  held := ⟨rfl, rfl, rfl, rfl⟩
  nbytes := rfl
  mode := rfl
  eos := id
  marker := id
  silent := rfl
  ports := ⟨s.ports.source.bytes, s.ports.trace, rfl, rfl⟩

theorem Fetched.trans {s t u : State} (h : Fetched s t) (h' : Fetched t u) : Fetched s u where
  dstate := h'.dstate.trans h.dstate
  dmode := h'.dmode.trans h.dmode
  fault := h'.fault.trans h.fault
  err := h'.err.elim (fun e => h.err.imp (e.trans ·) (e.trans ·)) .inr
  exhausted := fun e => h'.exhausted (h.exhausted e)
  regs := h'.regs.trans h.regs
  cfg := h'.cfg.trans h.cfg
  da := h'.da.trans h.da
  db := h'.db.trans h.db
  pos := h'.pos.trans h.pos
  build := h'.build.trans h.build
  held := ⟨h'.held.1.trans h.held.1, h'.held.2.1.trans h.held.2.1, h'.held.2.2.1.trans h.held.2.2.1,
    h'.held.2.2.2.trans h.held.2.2.2⟩
  nbytes := h'.nbytes.trans h.nbytes
  mode := h'.mode.trans h.mode
  eos := fun e => h'.eos (h.eos e)
  marker := fun e => h'.marker (h.marker e)
  silent := h'.silent.trans h.silent
  ports := by
    obtain ⟨b, tr, h0, h1⟩ := h.ports
    obtain ⟨b', tr', h0', h2⟩ := h'.ports
    refine ⟨b', tr', ?_, by rw [h2, h1]⟩
    rw [h0', h1]
    exact h0

theorem Fetched.hang {s t : State} (h : Fetched s t) (h' : ¬ t.ports.SourceAnswers) : ¬ s.ports.SourceAnswers :=
  fun hs => h' (h.silent.trans hs)

/-- Only A, C, CT and the context RAM moved. -/
theorem fetched_withEng (s : State) (e : Engine)
    (hh : e.b = s.eng.b ∧ e.bv = s.eng.bv ∧ e.sc = s.eng.sc ∧ e.zc = s.eng.zc) (hn : e.nbytes = s.eng.nbytes)
    (hm : e.mode = s.eng.mode) (he : e.eos = s.eng.eos) : Fetched s (s.withEng e) :=
  { Fetched.refl s with
    held := hh
    nbytes := hn
    mode := hm
    eos := fun h h' => h (he ▸ h') }

theorem fetched_setCtx (s : State) (c : Fin 4) (b : Nat) (e : CtxEntry) : Fetched s (s.setCtx c b e) :=
  { Fetched.refl s with }

/-- The coder registers but EOS are those of `s`, and the context RAM is. -/
structure SameRegs (s t : State) : Prop where
  a : t.eng.a = s.eng.a
  c : t.eng.c = s.eng.c
  ct : t.eng.ct = s.eng.ct
  ctx : t.ctx = s.ctx

theorem SameRegs.refl (s : State) : SameRegs s s := ⟨rfl, rfl, rfl, rfl⟩

theorem SameRegs.trans {s t u : State} (h : SameRegs s t) (h' : SameRegs t u) : SameRegs s u :=
  ⟨h'.a.trans h.a, h'.c.trans h.c, h'.ct.trans h.ct, h'.ctx.trans h.ctx⟩

/-- No fatal error. -/
abbrev NoHalt : ErrCode → State → Prop := fun _ _ => False

/-- `SourceRead()` (rule R65). -/
theorem sourceRead_ends (s : State) :
    Cmd.Ends sourceRead s (fun _ t => Fetched s t ∧ SameRegs s t) NoHalt (¬ s.ports.SourceAnswers) := by
  rcases hb : s.ports.source.bytes with _ | ⟨b, rest⟩
  · by_cases hs : s.ports.source.silent = true
    · have : sourceRead s = .error (.stuck .sourceNeverAnswers) s := by simp [sourceRead, hb, hs]
      simp [Cmd.Ends, this, hs]
    · have : sourceRead s = .ok none (s.log (.sourceRead none)) := by simp [sourceRead, hb, hs]
      exact Cmd.Ends.of_ok this
        ⟨{ Fetched.refl s with ports := ⟨s.ports.source.bytes, _, sunk_append _ _ rfl, rfl⟩ }, ⟨rfl, rfl, rfl, rfl⟩⟩
  · have : sourceRead s = .ok (some b) (({ s with ports := { s.ports with
        source := { s.ports.source with bytes := rest } } } : State).log (.sourceRead (some b))) := by
      simp [sourceRead, hb]
    exact Cmd.Ends.of_ok this ⟨{ Fetched.refl s with ports := ⟨rest, _, sunk_append _ _ rfl, rfl⟩ }, ⟨rfl, rfl, rfl, rfl⟩⟩

/-- `SetExhausted` (rule R116). -/
theorem setExhausted_ends (s : State) :
    Cmd.Ends setExhausted s (fun _ t => Fetched s t ∧ SameRegs s t ∧ t.eng.eos = true ∧ t.status.exhausted = true)
      NoHalt False := by
  unfold setExhausted
  refine Cmd.Ends.bind_ok (cmd_modifyEng _ _) (Cmd.Ends.get_bind ?_)
  by_cases hx : s.status.exhausted = true
  · simp only [withEng_status, hx, if_true]
    exact Cmd.Ends.pure ⟨{ Fetched.refl s with eos := fun _ _ => hx }, ⟨rfl, rfl, rfl, rfl⟩, rfl, hx⟩
  · simp only [withEng_status, hx]
    refine Cmd.Ends.bind_ok (cmd_modifyStatus _ _) (Cmd.Ends.of_ok (cmd_raiseNonFatal _ _) ?_)
    unfold State.report
    split
    · exact ⟨{ Fetched.refl s with exhausted := fun _ => rfl, eos := fun _ _ => rfl }, ⟨rfl, rfl, rfl, rfl⟩, rfl, rfl⟩
    · exact ⟨{ Fetched.refl s with exhausted := fun _ => rfl, eos := fun _ _ => rfl, err := .inr rfl },
        ⟨rfl, rfl, rfl, rfl⟩, rfl, rfl⟩

theorem readPastFill_ends (n : Nat) (s : State) :
    Cmd.Ends (readPastFill n) s (fun _ t => Fetched s t ∧ SameRegs s t) NoHalt (¬ s.ports.SourceAnswers) := by
  induction n generalizing s with
  | zero => exact sourceRead_ends s
  | succ n ih =>
    refine (sourceRead_ends s).bind ?_
    rintro b t ⟨hf, hr⟩
    rcases b with _ | b
    · exact Cmd.Ends.pure ⟨hf, hr⟩
    · simp only
      split
      · exact (ih t).mono (fun _ u h => ⟨hf.trans h.1, hr.trans h.2⟩) (fun _ _ h => h) hf.hang
      · exact Cmd.Ends.pure ⟨hf, hr⟩

theorem afterFF_ends (b2 : Option Byte) (s : State) :
    Cmd.Ends (afterFF b2) s (fun _ t => Fetched s t ∧ SameRegs s t) NoHalt (¬ s.ports.SourceAnswers) := by
  unfold afterFF
  rcases b2 with _ | b
  · refine (setExhausted_ends s).seq (fun _ _ h => h) False.elim ?_
    rintro _ t ⟨hf, hr, _⟩
    exact Cmd.Ends.pure ⟨hf, hr⟩
  · simp only
    split
    · exact Cmd.Ends.pure ⟨Fetched.refl s, SameRegs.refl s⟩
    · refine Cmd.Ends.bind_ok (cmd_modify _ _) (Cmd.Ends.pure ?_)
      exact ⟨{ Fetched.refl s with marker := fun _ h => by simp at h }, ⟨rfl, rfl, rfl, rfl⟩⟩

/-- The byte `ByteIn` fetches (rule R116): nothing but the source, MARKER, EOS, EXHAUSTED and ERR can move. -/
theorem nextDataByte_ends (s : State) :
    Cmd.Ends nextDataByte s (fun _ t => Fetched s t ∧ SameRegs s t) NoHalt (¬ s.ports.SourceAnswers) := by
  unfold nextDataByte
  refine Cmd.Ends.get_bind ?_
  by_cases h : (s.marker.valid || s.eng.eos) = true
  · simp only [h, if_true]
    exact Cmd.Ends.pure ⟨Fetched.refl s, SameRegs.refl s⟩
  · simp only [h]
    refine (sourceRead_ends s).bind ?_
    rintro b t ⟨hf, hr⟩
    rcases b with _ | b
    · refine (setExhausted_ends t).seq (fun _ _ h => h) False.elim ?_
      rintro _ u ⟨hf', hr', _⟩
      exact Cmd.Ends.pure ⟨hf.trans hf', hr.trans hr'⟩
    · simp only
      split
      · refine Cmd.Ends.get_bind ?_
        refine (readPastFill_ends _ t).seq (fun _ _ h => h) hf.hang ?_
        rintro b2 u ⟨hf', hr'⟩
        exact (afterFF_ends b2 u).mono (fun _ v h => ⟨(hf.trans hf').trans h.1, (hr.trans hr').trans h.2⟩)
          (fun _ _ h => h) (hf.trans hf').hang
      · exact Cmd.Ends.pure ⟨hf, hr⟩

/-- `ByteIn` (rule R116): a byte below 2^8 is added at [15:8] of C. -/
theorem byteIn_ends (s : State) (hc : s.eng.c.toNat + 0xFF00 < 2 ^ 32) :
    Cmd.Ends byteIn s (fun _ t => Fetched s t ∧ t.ctx = s.ctx ∧ t.eng.a = s.eng.a ∧ t.eng.ct = s.eng.ct ∧
      ∃ b : Byte, t.eng.c.toNat = s.eng.c.toNat + b.toNat * 256) NoHalt (¬ s.ports.SourceAnswers) := by
  unfold byteIn
  refine (nextDataByte_ends s).bind ?_
  rintro b t ⟨hf, hr⟩
  have hb := b.isLt
  refine Cmd.Ends.get_bind (Cmd.Ends.of_ok (assignC_ok _ _ ?_) ?_)
  · rw [hr.c, Nat.shiftLeft_eq]; omega
  · refine ⟨hf.trans (fetched_withEng t _ ⟨rfl, rfl, rfl, rfl⟩ rfl rfl rfl), hr.ctx, hr.a, hr.ct, b, ?_⟩
    rw [withEng_eng]
    simp only [BitVec.toNat_ofNat]
    rw [hr.c, Nat.shiftLeft_eq, Nat.mod_eq_of_lt (by omega)]

/-! ## Decoding a decision -/

/-- The decoder registers while A is being shifted up (rule R117): `DecodeSound` but for the lower bound on A. -/
structure Engine.Lifting (e : Engine) : Prop where
  a_pos : 1 ≤ e.a.toNat
  a_le : e.a.toNat ≤ 0x10000
  cx_lt : e.c.toNat < e.a.toNat * 65536
  ct_le : e.ct.toNat ≤ 8
  low_zero : 2 ^ (16 - e.ct.toNat) ∣ e.c.toNat

theorem Engine.Lifting.sound {e : Engine} (h : e.Lifting) (ha : 0x8000 ≤ e.a.toNat) : e.DecodeSound where
  a_ge := ha
  a_le := h.a_le
  cx_lt := by rw [Nat.shiftRight_eq_div_pow]; have := h.cx_lt; omega
  ct_le := h.ct_le
  low_zero := Nat.mod_eq_zero_of_dvd h.low_zero

theorem Engine.DecodeSound.lifting {e : Engine} (h : e.DecodeSound) : e.Lifting where
  a_pos := by have := h.a_ge; omega
  a_le := h.a_le
  cx_lt := by have := h.cx_lt; rw [Nat.shiftRight_eq_div_pow] at this; omega
  ct_le := h.ct_le
  low_zero := Nat.dvd_of_mod_eq_zero h.low_zero

/-- `if CT = 0: ByteIn; CT <- 8` (rule R117). -/
theorem byteInIfDue_ends (s : State) (h : s.eng.Lifting) :
    Cmd.Ends byteInIfDue s (fun _ t => Fetched s t ∧ t.ctx = s.ctx ∧ t.eng.a = s.eng.a ∧ t.eng.Lifting ∧
      1 ≤ t.eng.ct.toNat) NoHalt (¬ s.ports.SourceAnswers) := by
  unfold byteInIfDue
  refine Cmd.Ends.get_bind ?_
  by_cases hct : s.eng.ct = 0
  · simp only [hct, if_true]
    have hct' : s.eng.ct.toNat = 0 := by rw [hct]; rfl
    have hlow := h.low_zero
    have hcx := h.cx_lt
    have hale := h.a_le
    rw [hct'] at hlow
    obtain ⟨k, hk⟩ := hlow
    simp only [Nat.sub_zero] at hk
    have hk' : k < s.eng.a.toNat := by omega
    refine (byteIn_ends s (by omega)).bind ?_
    rintro _ t ⟨hf, hctx, ha, _, b, hc⟩
    have hb := b.isLt
    refine Cmd.Ends.of_ok (assignCT_ok _ _ (by decide)) ?_
    refine ⟨hf.trans (fetched_withEng t _ ⟨rfl, rfl, rfl, rfl⟩ rfl rfl rfl), hctx, ha, ?_, show 1 ≤ (8#4).toNat by decide⟩
    refine ⟨by rw [withEng_eng]; simp only [ha]; exact h.a_pos, by rw [withEng_eng]; simp only [ha]; exact h.a_le,
      ?_, show (8#4).toNat ≤ 8 by decide, ?_⟩
    · rw [withEng_eng]
      simp only [ha, hc]
      omega
    · rw [withEng_eng]
      simp only [hc]
      show 2 ^ 8 ∣ _
      exact Nat.dvd_add (hk ▸ Dvd.dvd.mul_right (by decide) k) ⟨b.toNat, by ring⟩
  · simp only [hct]
    refine Cmd.Ends.pure ⟨Fetched.refl s, rfl, rfl, h, ?_⟩
    have : s.eng.ct.toNat ≠ 0 := fun h0 => hct (BitVec.eq_of_toNat_eq h0)
    omega

theorem shiftD_ok (s : State) (h : s.eng.Lifting) (ha : s.eng.a.toNat < 0x8000) (hct : 1 ≤ s.eng.ct.toNat) :
    ∃ e : Engine, shiftD s = .ok () (s.withEng e) ∧ Fetched s (s.withEng e) ∧ e.Lifting ∧
      e.a.toNat = 2 * s.eng.a.toNat := by
  have h1 := h.cx_lt
  have h2 := s.eng.ct.isLt
  have hct' := h.ct_le
  have hA : (BitVec.ofNat 17 (s.eng.a.toNat <<< 1)).toNat = 2 * s.eng.a.toNat := by
    rw [BitVec.toNat_ofNat, Nat.shiftLeft_eq, Nat.mod_eq_of_lt (by omega)]; omega
  have hC : (BitVec.ofNat 32 ((s.eng.c.toNat <<< 1) % 2 ^ 32)).toNat = 2 * s.eng.c.toNat := by
    rw [BitVec.toNat_ofNat, Nat.shiftLeft_eq, Nat.mod_mod, Nat.mod_eq_of_lt (by omega)]; omega
  have hT : (BitVec.ofNat 4 (s.eng.ct.toNat - 1)).toNat = s.eng.ct.toNat - 1 := by
    rw [BitVec.toNat_ofNat, Nat.mod_eq_of_lt (by omega)]
  refine ⟨{ s.eng with
      a := BitVec.ofNat 17 (s.eng.a.toNat <<< 1), c := BitVec.ofNat 32 ((s.eng.c.toNat <<< 1) % 2 ^ 32)
      ct := BitVec.ofNat 4 (s.eng.ct.toNat - 1) }, ?_, fetched_withEng s _ ⟨rfl, rfl, rfl, rfl⟩ rfl rfl rfl, ?_, hA⟩
  · unfold shiftD
    rw [cmd_bind, cmd_get]
    simp only
    rw [cmd_bind, assignA_ok _ _ (by rw [Nat.shiftLeft_eq]; omega)]
    simp only
    rw [cmd_bind, assignC_ok _ _ (Nat.mod_lt _ (by decide))]
    simp only
    rw [assignCT_ok _ _ (by omega)]
    rfl
  · have h3 := h.a_pos
    refine ⟨by simp only [hA]; omega, by simp only [hA]; omega, by simp only [hA, hC]; omega, by simp only [hT]; omega, ?_⟩
    simp only [hC, hT]
    have h4 : 16 - (s.eng.ct.toNat - 1) = (16 - s.eng.ct.toNat) + 1 := by omega
    rw [h4, pow_succ, Nat.mul_comm 2]
    exact Nat.mul_dvd_mul_right h.low_zero 2

/-- What a decoder renormalization does (rule R117). -/
structure RenormedD (s t : State) : Prop where
  fetched : Fetched s t
  ctx : t.ctx = s.ctx
  a : ∃ k, 1 ≤ k ∧ k ≤ 15 ∧ t.eng.a.toNat = s.eng.a.toNat * 2 ^ k
  sound : t.eng.DecodeSound
  a_le : t.eng.a.toNat < 0x10000

theorem renormD_ends (n : Nat) (s : State) (h : s.eng.Lifting) (ha : s.eng.a.toNat < 0x8000)
    (hfuel : 0x10000 ≤ s.eng.a.toNat * 2 ^ n) :
    Cmd.Ends (renormD n) s (fun _ t => RenormedD s t) NoHalt (¬ s.ports.SourceAnswers) := by
  induction n generalizing s with
  | zero => omega
  | succ n ih =>
    unfold renormD
    refine (byteInIfDue_ends s h).bind ?_
    rintro _ t ⟨hf, hctx, hta, hl, hct⟩
    obtain ⟨e, hok, hfe, hle, hea⟩ := shiftD_ok t hl (by rw [hta]; exact ha) hct
    refine Cmd.Ends.bind_ok hok (Cmd.Ends.get_bind ?_)
    have hfe' := hf.trans hfe
    rw [hta] at hea
    simp only [withEng_eng]
    by_cases hA : 0x8000 ≤ e.a.toNat
    · simp only [hA, if_true]
      exact Cmd.Ends.pure
        { fetched := hfe', ctx := hctx, a := ⟨1, by omega, by omega, by rw [withEng_eng]; omega⟩
          sound := hle.sound hA, a_le := by rw [withEng_eng]; omega }
    · simp only [hA, if_false]
      refine (ih (t.withEng e) hle (by rw [withEng_eng]; omega) ?_).mono ?_ (fun _ _ h => h) hfe'.hang
      · rw [withEng_eng, hea]
        rw [pow_succ] at hfuel
        nlinarith
      · rintro _ u hu
        obtain ⟨k, hk1, hk2, hk⟩ := hu.a
        rw [withEng_eng, hea] at hk
        have hk15 : k + 1 ≤ 15 := by
          by_contra hcon
          have hk' : k = 15 := by omega
          have h1 := hu.a_le
          rw [hk, hk'] at h1
          have h3 := h.a_pos
          omega
        exact
          { fetched := hfe'.trans hu.fetched, ctx := hu.ctx.trans hctx
            a := ⟨k + 1, by omega, hk15, by rw [hk, pow_succ]; ring⟩, sound := hu.sound, a_le := hu.a_le }

/-- A sound interval and a legal Qe: the split keeps the code register inside the new interval, and leaves a nonzero A
below 0x8000 unless it needs no renormalization (rules R102, R115). -/
theorem decodeSplit_bounds {a c q : Nat} (ha : 0x8000 ≤ a) (ha' : a ≤ 0x10000) (hq : 0 < q) (hq' : q < 0x8000)
    (hc : c < a * 65536) :
    1 ≤ (decodeSplit a c q).1 ∧ (decodeSplit a c q).1 ≤ a ∧
      (decodeSplit a c q).2.1 < (decodeSplit a c q).1 * 65536 ∧
      (∀ n, n ≤ 16 → 2 ^ n ∣ c → 2 ^ n ∣ (decodeSplit a c q).2.1) ∧
      ((decodeSplit a c q).2.2.2 = .keep → 0x8000 ≤ (decodeSplit a c q).1) ∧
      ((decodeSplit a c q).2.2.2 ≠ .keep → (decodeSplit a c q).1 < 0x8000) := by
  have hdvd : ∀ n, n ≤ 16 → 2 ^ n ∣ c → 2 ^ n ∣ c - (a - q) * 2 ^ 16 := fun n hn h =>
    Nat.dvd_sub h (Dvd.dvd.mul_left (Nat.pow_dvd_pow 2 hn) _)
  replace hc : c < a * 2 ^ 16 := hc
  show _ ∧ _ ∧ _ < _ * 2 ^ 16 ∧ _
  unfold decodeSplit
  simp only [Nat.shiftRight_eq_div_pow, Nat.shiftLeft_eq]
  have hpos : 0 < 2 ^ 16 := by norm_num
  generalize 2 ^ 16 = w at hdvd hc hpos ⊢
  have hr : a - q + q = a := by omega
  generalize a - q = r at hr hdvd ⊢
  subst hr
  simp only [Nat.div_lt_iff_lt_mul hpos]
  rw [Nat.add_mul] at hc
  generalize hk : r * w = k at *
  generalize hkq : q * w = kq at *
  split_ifs
  all_goals dsimp only
  all_goals simp only [hk, hkq]
  all_goals refine ⟨?_, ?_, ?_, ?_, ?_, ?_⟩
  all_goals first | exact hdvd | exact fun _ _ h => h | assumption | omega | exact fun h => absurd h (by simp)

/-- What decoding one decision does (rule R115). -/
structure DecodedBit (s : State) (c : Fin 4) (b : Nat) (d : Bool) (t : State) : Prop where
  fetched : Fetched s t
  result : ∃ row, romLookup s.build (s.ctxAt c b).i = some row ∧
    d = ((decodeSplit s.eng.a.toNat s.eng.c.toNat row.qe.toNat).2.2.1 == (s.ctxAt c b).mps) ∧
    t.ctx = (s.setCtx c b ((s.ctxAt c b).adapt row
      (decodeSplit s.eng.a.toNat s.eng.c.toNat row.qe.toNat).2.2.2)).ctx ∧
    ((decodeSplit s.eng.a.toNat s.eng.c.toNat row.qe.toNat).2.2.2 = .keep →
      t = s.withEng { s.eng with
        a := BitVec.ofNat 17 (decodeSplit s.eng.a.toNat s.eng.c.toNat row.qe.toNat).1
        c := BitVec.ofNat 32 (decodeSplit s.eng.a.toNat s.eng.c.toNat row.qe.toNat).2.1 }) ∧
    ((decodeSplit s.eng.a.toNat s.eng.c.toNat row.qe.toNat).2.2.2 ≠ .keep →
      ∃ k, 1 ≤ k ∧ k ≤ 15 ∧ t.eng.a.toNat =
        (decodeSplit s.eng.a.toNat s.eng.c.toNat row.qe.toNat).1 * 2 ^ k)
  sound : t.eng.DecodeSound
  moved : CtxMoved c s t

theorem decodeBounds_of_sound {e : Engine} (h : e.DecodeSound) : e.decodeBounds = true := by
  unfold Engine.decodeBounds
  simp only [Bool.and_eq_true, decide_eq_true_eq]
  exact ⟨⟨⟨h.a_ge, h.a_le⟩, h.cx_lt⟩, h.ct_le⟩

/-- `DecodeBit(ctx[c][b])` (rule R115) from a sound engine. -/
theorem decodeBit_ends (s : State) (c : Fin 4) (b : Nat) (hb : b < Config.nBin) (he : s.eng.DecodeSound)
    (hbuild : s.build.Legal) (hi : (s.ctxAt c b).i.toNat < Config.nRow) :
    Cmd.Ends (decodeBit c b) s (fun d t => DecodedBit s c b d t) NoHalt (¬ s.ports.SourceAnswers) := by
  obtain ⟨row, hrow, hleg⟩ := romLookup_of_legal hbuild hi
  obtain ⟨hq, hq', _, _⟩ := id hleg
  have hl := he.lifting
  unfold decodeBit
  refine Cmd.Ends.bind_ok (a := ()) (t := s) (by simp [requireDecodeBounds, decodeBounds_of_sound he]) ?_
  refine Cmd.Ends.bind_ok (a := row) (t := s) (by simp [romRow, hrow]) ?_
  refine Cmd.Ends.get_bind ?_
  obtain ⟨hs1, hs2, hs3, hs4, hs5, hs6⟩ := decodeSplit_bounds he.a_ge he.a_le hq hq' hl.cx_lt
  have hdvd := hs4 (16 - s.eng.ct.toNat) (by omega) hl.low_zero
  have hale := he.a_le
  generalize hsp : decodeSplit s.eng.a.toNat s.eng.c.toNat row.qe.toNat = sp at hs1 hs2 hs3 hs5 hs6 hdvd
  obtain ⟨a', c', m, est⟩ := sp
  simp only at hs1 hs2 hs3 hs5 hs6 hdvd ⊢
  refine Cmd.Ends.bind_ok (assignA_ok _ _ (by omega)) ?_
  refine Cmd.Ends.bind_ok (assignC_ok _ _ (by omega)) ?_
  rw [withEng_withEng]
  simp only [withEng_eng]
  have hat : (BitVec.ofNat 17 a').toNat = a' := by rw [BitVec.toNat_ofNat, Nat.mod_eq_of_lt (by omega)]
  have hct : (BitVec.ofNat 32 c').toNat = c' := by rw [BitVec.toNat_ofNat, Nat.mod_eq_of_lt (by omega)]
  have hl' : ({ s.eng with a := BitVec.ofNat 17 a', c := BitVec.ofNat 32 c' } : Engine).Lifting :=
    ⟨by simp only [hat]; exact hs1, by simp only [hat]; omega, by simp only [hat, hct]; exact hs3, he.ct_le,
      by simp only [hct]; exact hdvd⟩
  by_cases hk : est = .keep
  · simp only [hk, if_true]
    refine Cmd.Ends.pure
      { fetched := fetched_withEng s _ ⟨rfl, rfl, rfl, rfl⟩ rfl rfl rfl
        result := ⟨row, hrow, ?_⟩
        sound := hl'.sound (by simp only [hat]; exact hs5 hk)
        moved := CtxMoved.of_same rfl }
    rw [hsp]
    refine ⟨rfl, ?_, fun _ => rfl, fun h => absurd hk h⟩
    simp only [hk, CtxEntry.adapt, setCtx_self hb, withEng_ctx]
  · simp only [hk, if_false]
    have ha8 := hs6 hk
    refine Cmd.Ends.bind_ok (cmd_modify _ _) ?_
    generalize hs' : (s.withEng { s.eng with a := BitVec.ofNat 17 a', c := BitVec.ofNat 32 c' }).setCtx c b
      (((s.withEng { s.eng with a := BitVec.ofNat 17 a', c := BitVec.ofNat 32 c' }).ctxAt c b).adapt row est) = s'
    have heng : s'.eng = { s.eng with a := BitVec.ofNat 17 a', c := BitVec.ofNat 32 c' } := by rw [← hs']; rfl
    have hf : Fetched s s' := by
      rw [← hs']
      exact (fetched_withEng s { s.eng with a := BitVec.ofNat 17 a', c := BitVec.ofNat 32 c' } ⟨rfl, rfl, rfl, rfl⟩ rfl
        rfl rfl).trans (fetched_setCtx _ _ _ _)
    have hctx : s'.ctx = (s.setCtx c b ((s.ctxAt c b).adapt row est)).ctx := by rw [← hs']; rfl
    refine (renormD_ends renormFuel s' (by rw [heng]; exact hl') (by rw [heng]; simp only [hat]; exact ha8)
      (by rw [heng]; simp only [hat, renormFuel]; omega)).seq (fun _ _ h => h) hf.hang ?_
    rintro _ t ht
    obtain ⟨k, hk1, hk2, hka⟩ := ht.a
    refine Cmd.Ends.pure
      { fetched := hf.trans ht.fetched
        result := ⟨row, hrow, ?_⟩
        sound := ht.sound
        moved := CtxMoved.of_set (ht.ctx.trans hctx) hb (adapt_legal hleg hi est) }
    rw [hsp]
    refine ⟨rfl, ht.ctx.trans hctx, fun h => absurd h hk, fun _ => ⟨k, hk1, hk2, ?_⟩⟩
    rw [hka, heng]
    simp only [hat]

end Sys2Proof.Machine
end

