-- ==== Sys2Proof/Laws/Flush.lean ====
section
/-! SUPPORT. The flush of the encoder (spec/40_engine.md rules R112, R113): where its value lies, the bytes it
writes, and how it can end. -/

namespace Sys2Proof.Machine

/-- The bits above the low 16 (rule R112). -/
theorem and_high {n : Nat} (hn : n < 2 ^ 32) : n &&& 0xFFFF0000 = n / 65536 * 65536 := by
  have h1 : n &&& 0xFFFF0000 = (n >>> 16 &&& 0xFFFF) <<< 16 := by
    apply Nat.eq_of_testBit_eq
    intro i
    simp only [Nat.testBit_and, Nat.testBit_shiftLeft, Nat.testBit_shiftRight]
    by_cases hi : 16 ≤ i
    · have : 16 + (i - 16) = i := by omega
      rw [this]
      simp only [hi, decide_true, Bool.true_and]
      congr 1
      rw [show (0xFFFF0000 : Nat) = 0xFFFF <<< 16 from rfl, Nat.testBit_shiftLeft]
      simp [hi]
    · rw [show (0xFFFF0000 : Nat) = 0xFFFF <<< 16 from rfl, Nat.testBit_shiftLeft]
      simp [hi]
  rw [h1, show (0xFFFF : Nat) = 2 ^ 16 - 1 from rfl, Nat.and_two_pow_sub_one_eq_mod, Nat.shiftRight_eq_div_pow,
    Nat.shiftLeft_eq]
  norm_num
  omega

/-- The value of the flush lies in the final interval (rule R112). -/
theorem clearFinalBits_bounds {a c : Nat} (ha : 0x8000 ≤ a) (ha' : a ≤ 0x10000) (hc : c + a < 2 ^ 32) :
    c ≤ clearFinalBits a c ∧ clearFinalBits a c + 1 ≤ c + a := by
  unfold clearFinalBits
  rw [and_high (by omega)]
  simp only
  split <;> omega

theorem flushC_lt {e : Engine} (h : e.EncodeSound) : e.flushC < 2 ^ 32 := by
  have h1 := h.code_le
  have h2 := h.a_ge
  have h3 := h.a_le
  have hp : 1 ≤ 2 ^ e.ct.toNat := Nat.one_le_two_pow
  have h4 : e.c.toNat + e.a.toNat < 2 ^ 32 := by nlinarith
  have h5 := (clearFinalBits_bounds h2 h3 h4).2
  unfold Engine.flushC
  rw [Nat.shiftLeft_eq]
  have h6 : clearFinalBits e.a.toNat e.c.toNat * 2 ^ e.ct.toNat ≤ (e.c.toNat + e.a.toNat) * 2 ^ e.ct.toNat :=
    Nat.mul_le_mul_right _ (by omega)
  omega

theorem stuffedBytes_final (z c : Nat) : StuffedBytes (finalBytes z c) := by
  unfold finalBytes
  split
  · trivial
  · refine ((stuffedBytes_replicate (by decide) z).append (stuffedBytes_stuffed _)).append ?_
    split
    · trivial
    · exact stuffedBytes_stuffed _

theorem stuffedBytes_flush {e : Engine} (h : e.EncodeSound) : StuffedBytes e.flushBytes :=
  (stuffedBytes_held h.b_ne _).append (stuffedBytes_final _ _)

theorem emitFinal_ends (s : State) (c : Nat) :
    Cmd.Ends (emitFinal c) s
      (fun _ t => t = (s.withEng { s.eng with zc := t.eng.zc }).wrote (finalBytes s.eng.zc.toNat c))
      (EncodeHalt s (SameCtx s) False) (¬ s.ports.SinkAccepts) := by
  unfold emitFinal finalBytes
  by_cases h : c &&& 0x07FFF800 = 0
  · simp only [h, if_true]
    exact Cmd.Ends.pure (by simp [State.withEng])
  · simp only [h, if_false]
    refine (emitZeros_ends s).seq (fun e u hu => hu.trans (Coded.refl s) (fun _ h => h) False.elim) id ?_
    rintro _ t rfl
    rw [emitStuffed_eq]
    have hw : Coded s ((s.withEng { s.eng with zc := 0 }).wrote (List.replicate s.eng.zc.toNat 0x00)) _ [] :=
      (coded_withEng s { s.eng with zc := 0 } rfl rfl rfl).trans (coded_wrote _ _)
    refine (emitAll_ends _ _).seq (fun e u hu => hu.trans hw (fun _ h => h) False.elim) (hang_trans hw) ?_
    rintro _ t rfl
    rw [wrote_wrote]
    have hw' := (coded_withEng s { s.eng with zc := 0 } rfl rfl rfl).trans (coded_wrote
      (s.withEng { s.eng with zc := 0 })
      (List.replicate s.eng.zc.toNat (0x00 : Byte) ++ stuffed (BitVec.ofNat 8 (c >>> 19))))
    by_cases h' : c &&& 0x0007F800 = 0
    · simp only [h', if_true, List.append_nil]
      exact Cmd.Ends.pure rfl
    · simp only [h', if_false]
      rw [emitStuffed_eq]
      refine (emitAll_ends _ _).mono (fun _ u hu => ?_) (fun e u hu => hu.trans hw' (fun _ h => h) False.elim)
        (hang_trans hw')
      rw [hu, wrote_wrote]
      simp [State.wrote]

/-- `EncFlush` (rules R112, R113) from a sound engine. -/
theorem encFlush_ends (s : State) (he : s.eng.EncodeSound) :
    Cmd.Ends encFlush s (fun _ t => t = (s.withEng s.eng.flushed).wrote s.eng.flushBytes)
      (EncodeHalt s (SameCtx s) (¬ s.eng.Room 1)) (¬ s.ports.SinkAccepts) := by
  have hfc := flushC_lt he
  unfold encFlush
  refine Cmd.Ends.bind_ok (a := ()) (t := s) (by simp [requireEncodeBounds, encodeBounds_of_sound he]) ?_
  have hfv : flushValue s = .ok () (s.withEng { s.eng with c := BitVec.ofNat 32 s.eng.flushC }) := by
    unfold flushValue
    rw [cmd_bind, cmd_get]
    exact assignC_ok _ _ hfc
  refine Cmd.Ends.bind_ok hfv (Cmd.Ends.get_bind ?_)
  have hC : (BitVec.ofNat 32 s.eng.flushC).toNat = s.eng.flushC := by
    rw [BitVec.toNat_ofNat, Nat.mod_eq_of_lt hfc]
  rw [withEng_eng]
  simp only [hC]
  have hheld : ∀ carry, ({ s.eng with c := BitVec.ofNat 32 s.eng.flushC } : Engine).heldBytes carry =
      s.eng.heldBytes carry := fun carry => by cases carry <;> rfl
  have hafter : ∀ carry, ({ s.eng with c := BitVec.ofNat 32 s.eng.flushC } : Engine).afterHeld carry =
      { s.eng.afterHeld carry with c := BitVec.ofNat 32 s.eng.flushC } := fun carry => by cases carry <;> rfl
  generalize hcarry : (decide (s.eng.flushC &&& 0xF8000000 ≠ 0)) = carry
  have hw1 : Coded s (s.withEng { s.eng with c := BitVec.ofNat 32 s.eng.flushC }) [] [] :=
    coded_withEng s _ rfl rfl rfl
  refine (emitHeld_ends carry _).seq (fun e u hu => hu.trans hw1 (fun _ h => h) fun hw hr => hw ⟨hr, he.b_ne⟩)
    (hang_trans hw1) ?_
  rintro _ t ht
  rw [withEng_eng, hheld, hafter, withEng_withEng] at ht
  subst ht
  have hw2 : Coded s ((s.withEng { s.eng.afterHeld carry with c := BitVec.ofNat 32 s.eng.flushC }).wrote
      (s.eng.heldBytes carry)) _ [] :=
    (coded_withEng s { s.eng.afterHeld carry with c := BitVec.ofNat 32 s.eng.flushC } (afterHeld_eos _ _)
      (afterHeld_mode _ _) (afterHeld_nbytes _ _)).trans (coded_wrote _ _)
  refine (emitFinal_ends _ _).seq (fun e u hu => hu.trans hw2 (fun _ h => h) False.elim) (hang_trans hw2) ?_
  rintro _ t ht
  refine Cmd.Ends.of_ok (cmd_modifyEng _ _) ?_
  have hfb : s.eng.flushBytes = s.eng.heldBytes carry ++ finalBytes (s.eng.afterHeld carry).zc.toNat s.eng.flushC := by
    unfold Engine.flushBytes
    rw [hcarry]
  rw [ht, hfb]
  cases carry <;>
    simp [State.wrote, State.withEng, Engine.flushed, Engine.discardHeld, Engine.afterHeld, BitVec.ofNat_add,
      BitVec.add_assoc]

end Sys2Proof.Machine
end

