-- ==== Sys2Proof/Laws/Residual.lean ====
section
/-! SUPPORT. The coding of one residual (spec/41_context.md rules R151 to R158): the bins a residual uses, how many
decisions it takes, and what `EncodeV` and `DecodeV` do. -/

namespace Sys2Proof.Machine

/-! ## Bins -/

theorem classify_range (d : Int) (l u : Nat) : -2 ≤ classify d l u ∧ classify d l u ≤ 2 := by
  unfold classify
  split_ifs <;> omega

theorem selectZeroSign_le (da db : Int) (l u : Nat) : selectZeroSign da db l u ≤ 24 := by
  have h1 := classify_range da l u
  have h2 := classify_range db l u
  unfold selectZeroSign
  omega

theorem binZero_lt {z : Nat} (h : z ≤ 24) : binZero z < Config.nBin := by unfold binZero Config.nBin; omega
theorem binSign_lt {z : Nat} (h : z ≤ 24) : binSign z < Config.nBin := by unfold binSign Config.nBin; omega
theorem binFirst_lt {z : Nat} (h : z ≤ 24) (n : Bool) : binFirst z n < Config.nBin := by
  unfold binFirst Config.nBin
  split <;> omega
theorem binX_lt {k : Nat} (h : k ≤ 15) (g : Bool) : binX g k < Config.nBin := by
  unfold binX Config.nBin
  split <;> omega
theorem binM_lt {k : Nat} (h : k ≤ 15) (g : Bool) : binM g k < Config.nBin := by
  unfold binM Config.nBin
  split <;> omega

theorem magnitudeCategory_le {sz : Nat} (h : sz < 32768) : magnitudeCategory sz ≤ 15 := by
  unfold magnitudeCategory
  rcases Nat.eq_zero_or_pos sz with rfl | hp
  · decide
  · have : Nat.log2 sz < 15 := (Nat.log2_lt (by omega)).2 (by omega)
    omega

/-- The decisions of a legal residual: their bins, and that there are at most 32 (rules R152 to R156). -/
theorem residualDecisions_bounds {v : Int} (hv : -32768 ≤ v ∧ v ≤ 32768) (da db : Int) (l u : Nat) :
    (∀ p ∈ residualDecisions v da db l u, p.1 < Config.nBin) ∧ (residualDecisions v da db l u).length ≤ 32 := by
  have hz := selectZeroSign_le da db l u
  unfold residualDecisions
  simp only
  split
  · simp [binZero_lt hz]
  · next hne =>
    have hk : magnitudeCategory (v.natAbs - 1) ≤ 15 := magnitudeCategory_le (by omega)
    unfold magnitudeDecisions
    split
    · simp [binZero_lt hz, binSign_lt hz, binFirst_lt hz]
    · unfold exponentDecisions mantissaDecisions
      constructor
      · intro p hp
        simp only [List.mem_cons, List.mem_append, List.mem_map, List.mem_range, List.mem_reverse, List.not_mem_nil,
          or_false] at hp
        rcases hp with rfl | rfl | rfl | (⟨i, hi, rfl⟩ | rfl) | ⟨i, hi, rfl⟩
        · exact binZero_lt hz
        · exact binSign_lt hz
        · exact binFirst_lt hz _
        · exact binX_lt (by omega) _
        · exact binX_lt hk _
        · exact binM_lt hk _
      · simp only [List.length_cons, List.length_append, List.length_map, List.length_range, List.length_reverse,
          List.length_nil]
        omega

/-! ## EncodeV -/

/-- Component c's bins outside the decisions `ds` are as before. -/
def OtherBins (c : Fin 4) (ds : List (Nat × Bool)) (s t : State) : Prop :=
  ∀ b, (∀ p ∈ ds, p.1 ≠ b) → t.ctxAt c b = s.ctxAt c b

/-- What coding a list of decisions with the contexts of component c does. -/
structure CodedBits (s : State) (c : Fin 4) (n : Nat) (t : State) : Prop where
  coded : ∃ bs, Coded s t bs [] ∧ StuffedBytes bs
  moved : CtxMoved c s t
  sound : t.eng.EncodeSound
  count : s.eng.Room (2 * n) → t.eng.sc.toNat + t.eng.zc.toNat ≤ s.eng.sc.toNat + s.eng.zc.toNat + 2 * n

theorem CodedBit.moved {s t : State} {c : Fin 4} {b : Nat} {d : Bool} (h : CodedBit s c b d t) (hb : b < Config.nBin)
    (hbuild : s.build.Legal) (hi : (s.ctxAt c b).i.toNat < Config.nRow) : CtxMoved c s t := by
  obtain ⟨row, hrow, hctx, _⟩ := h.result
  obtain ⟨row', hrow', hleg⟩ := romLookup_of_legal hbuild hi
  rw [hrow] at hrow'
  cases hrow'
  exact CtxMoved.of_set hctx hb (adapt_legal hleg hi _)

theorem CodedBit.otherBin {s t : State} {c : Fin 4} {b b' : Nat} {d : Bool} (h : CodedBit s c b d t)
    (hb : b < Config.nBin) (hne : b' ≠ b) : t.ctxAt c b' = s.ctxAt c b' := by
  obtain ⟨row, hrow, hctx, _⟩ := h.result
  have : t.ctxAt c b' = (s.setCtx c b ((s.ctxAt c b).adapt row
      (encodeSplit s.eng.a.toNat s.eng.c.toNat row.qe.toNat (d == (s.ctxAt c b).mps)).2.2)).ctxAt c b' := by
    exact congrArg (fun m => ((m[c])[b']?).getD CtxEntry.init) hctx
  rw [this, ctxAt_setCtx _ _ _ _ _ _ hb, if_neg fun h => hne h.2]

theorem encodeDecisions_ends (c : Fin 4) (ds : List (Nat × Bool)) (s : State)
    (hbins : ∀ p ∈ ds, p.1 < Config.nBin) (he : s.eng.EncodeSound) (hbuild : s.build.Legal) (hctx : s.CtxLegal) :
    Cmd.Ends (encodeDecisions c ds) s (fun _ t => CodedBits s c ds.length t ∧ OtherBins c ds s t)
      (EncodeHalt s (CtxMoved c s) (¬ s.eng.Room (2 * ds.length))) (¬ s.ports.SinkAccepts) := by
  induction ds generalizing s with
  | nil =>
    exact Cmd.Ends.pure ⟨⟨⟨[], Coded.refl s, trivial⟩, CtxMoved.of_same rfl, he, fun _ => Nat.le_refl _⟩, fun _ _ => rfl⟩
  | cons p ds ih =>
    obtain ⟨b, d⟩ := p
    have hb : b < Config.nBin := hbins (b, d) (by simp)
    have hi := hctx c b hb
    unfold encodeDecisions
    refine (encodeBit_ends s c b d hb he hbuild hi).seq (fun e u hu => hu.trans (Coded.refl s) (fun _ h => h)
      fun hw hr => hw (by unfold Engine.Room at *; simp only [List.length_cons] at hr; omega)) id ?_
    intro _ t ht
    obtain ⟨bs, hc, hst⟩ := ht.coded
    have hmv := ht.moved hb hbuild hi
    have hcnt := ht.count
    refine (ih t (fun p hp => hbins p (by simp [hp])) ht.sound (hc.build ▸ hbuild) (hmv.legal hctx)).mono ?_ ?_
      (hang_trans hc)
    · rintro _ u ⟨hu, hbin⟩
      obtain ⟨bs', hc', hst'⟩ := hu.coded
      have hcnt' := hu.count
      refine ⟨⟨⟨bs ++ bs', hc.trans hc', hst.append hst'⟩, hmv.trans hu.moved, hu.sound, fun hr => ?_⟩, fun b' hb' =>
        (hbin b' fun p hp => hb' p (by simp [hp])).trans (ht.otherBin hb (hb' (b, d) (by simp)).symm)⟩
      unfold Engine.Room at *
      simp only [List.length_cons] at hr ⊢
      have h1 := hcnt (by omega)
      have h2 := hcnt' (by omega)
      omega
    · intro e u hu
      refine hu.trans hc (fun v hv => hmv.trans hv) fun hw hr => hw ?_
      unfold Engine.Room at *
      simp only [List.length_cons] at hr
      have h1 := hcnt (by omega)
      omega

/-- `EncodeV` of a legal residual (rules R156, R158): at most 32 decisions, so SC and ZC grow by at most 64. -/
theorem encodeV_ends (c : Fin 4) (v da db : Int) (l u : Nat) (s : State) (hv : -32768 ≤ v ∧ v ≤ 32768)
    (he : s.eng.EncodeSound) (hbuild : s.build.Legal) (hctx : s.CtxLegal) :
    Cmd.Ends (encodeV c v da db l u) s (fun _ t => CodedBits s c 32 t)
      (EncodeHalt s (CtxMoved c s) (¬ s.eng.Room 64)) (¬ s.ports.SinkAccepts) := by
  obtain ⟨hb, hlen⟩ := residualDecisions_bounds hv da db l u
  refine (encodeDecisions_ends c _ s hb he hbuild hctx).mono ?_ ?_ id
  · rintro _ t ⟨⟨h1, h2, h3, h4⟩, _⟩
    refine ⟨h1, h2, h3, fun hr => ?_⟩
    unfold Engine.Room at *
    have := h4 (by omega)
    omega
  · intro e t ht
    refine ht.trans (Coded.refl s) (fun _ h => h) fun hw hr => hw ?_
    unfold Engine.Room at *
    omega

/-! ## DecodeV -/

/-- What decoding with the contexts of component c does to the state. -/
structure DecodedBits (s : State) (c : Fin 4) (t : State) : Prop where
  fetched : Fetched s t
  moved : CtxMoved c s t
  sound : t.eng.DecodeSound

theorem DecodedBits.trans {s t u : State} {c : Fin 4} (h : DecodedBits s c t) (h' : DecodedBits t c u) :
    DecodedBits s c u := ⟨h.fetched.trans h'.fetched, h.moved.trans h'.moved, h'.sound⟩

/-- How decoding a residual can end in a fatal error: a category that would exceed 15 (rule R157). -/
structure DecodeHalt (s : State) (c : Fin 4) (e : ErrCode) (u : State) : Prop where
  code : e = .stateCorruption
  bits : DecodedBits s c u

theorem DecodeHalt.trans {s t u : State} {c : Fin 4} {e : ErrCode} (h : DecodedBits s c t) (h' : DecodeHalt t c e u) :
    DecodeHalt s c e u := ⟨h'.code, h.trans h'.bits⟩

/-- What a decoding body started in `s` needs. -/
structure Decodable (s : State) : Prop where
  sound : s.eng.DecodeSound
  build : s.build.Legal
  ctx : s.CtxLegal

theorem Decodable.next {s t : State} {c : Fin 4} (h : Decodable s) (h' : DecodedBits s c t) : Decodable t :=
  ⟨h'.sound, h'.fetched.build ▸ h.build, h'.moved.legal h.ctx⟩

/-- One decision of a residual, then the rest. -/
theorem decodeBit_then {α : Type} {s : State} {c : Fin 4} {b : Nat} {f : Bool → Cmd α} {good : α → State → Prop}
    (hs : Decodable s) (hb : b < Config.nBin)
    (hf : ∀ d t, DecodedBits s c t → Decodable t →
      Cmd.Ends (f d) t good (DecodeHalt s c) (¬ s.ports.SourceAnswers)) :
    Cmd.Ends (decodeBit c b >>= f) s good (DecodeHalt s c) (¬ s.ports.SourceAnswers) := by
  refine (decodeBit_ends s c b hb hs.sound hs.build (hs.ctx c b hb)).seq (fun _ _ h => h.elim) id ?_
  intro d t ht
  have h : DecodedBits s c t := ⟨ht.fetched, ht.moved, ht.sound⟩
  exact hf d t h (hs.next h)

theorem decodeExponent_ends (c : Fin 4) (g : Bool) (fuel k : Nat) (s : State) (hs : Decodable s) (hk : 1 ≤ k)
    (hfuel : fuel + k = 16) :
    Cmd.Ends (decodeExponent c g fuel k) s (fun j t => DecodedBits s c t ∧ k ≤ j ∧ j ≤ 15) (DecodeHalt s c)
      (¬ s.ports.SourceAnswers) := by
  induction fuel generalizing k s with
  | zero => exact Cmd.Ends.raise rfl ⟨rfl, Fetched.refl s, CtxMoved.of_same rfl, hs.sound⟩
  | succ fuel ih =>
    unfold decodeExponent
    refine decodeBit_then hs (binX_lt (by omega) g) ?_
    intro d t ht hd
    cases d
    · exact Cmd.Ends.pure ⟨ht, by omega, by omega⟩
    · exact (ih (k + 1) t hd (by omega) (by omega)).mono (fun j u h => ⟨ht.trans h.1, by omega, h.2.2⟩)
        (fun e u h => DecodeHalt.trans ht h) ht.fetched.hang

theorem decodeMantissa_ends (c : Fin 4) (b : Nat) (hb : b < Config.nBin) (n sz : Nat) (s : State) (hs : Decodable s) :
    Cmd.Ends (decodeMantissa c b n sz) s
      (fun r t => DecodedBits s c t ∧ sz ≤ r ∧ ∀ k, n ≤ k → sz < 2 ^ k → r < 2 ^ k)
      (DecodeHalt s c) (¬ s.ports.SourceAnswers) := by
  induction n generalizing sz s with
  | zero =>
    exact Cmd.Ends.pure ⟨⟨Fetched.refl s, CtxMoved.of_same rfl, hs.sound⟩, Nat.le_refl _, fun _ _ h => h⟩
  | succ n ih =>
    unfold decodeMantissa
    refine decodeBit_then hs hb ?_
    intro d t ht hd
    cases d
    · refine (ih sz t hd).mono (fun r u h => ⟨ht.trans h.1, h.2.1, fun k hk => h.2.2 k (by omega)⟩)
        (fun e u h => DecodeHalt.trans ht h) ht.fetched.hang
    · refine (ih (sz ||| 2 ^ n) t hd).mono (fun r u h => ⟨ht.trans h.1, Nat.left_le_or.trans h.2.1, fun k hk hlt =>
        h.2.2 k (by omega) (Nat.or_lt_two_pow hlt (Nat.pow_lt_pow_right (by decide) (by omega)))⟩)
        (fun e u h => DecodeHalt.trans ht h) ht.fetched.hang

theorem decodeMagnitude_ends (c : Fin 4) (g : Bool) (s : State) (hs : Decodable s) :
    Cmd.Ends (decodeMagnitude c g) s (fun sz t => DecodedBits s c t ∧ 1 ≤ sz ∧ sz < 32768) (DecodeHalt s c)
      (¬ s.ports.SourceAnswers) := by
  unfold decodeMagnitude
  refine (decodeExponent_ends c g 15 1 s hs (by omega) (by omega)).bind ?_
  rintro k t ⟨ht, hk1, hk2⟩
  refine (decodeMantissa_ends c _ (binM_lt hk2 g) (k - 1) (2 ^ (k - 1)) t (hs.next ht)).mono ?_
    (fun e u h => DecodeHalt.trans ht h) ht.fetched.hang
  rintro r u ⟨hu, hr1, hr2⟩
  refine ⟨ht.trans hu, Nat.one_le_two_pow.trans hr1, ?_⟩
  have h1 := hr2 k (by omega) (Nat.pow_lt_pow_right (by decide) (by omega))
  have h2 : 2 ^ k ≤ 2 ^ 15 := Nat.pow_le_pow_right (by decide) hk2
  omega

theorem decodeNonzero_ends (c : Fin 4) (z : Nat) (hz : z ≤ 24) (g : Bool) (s : State) (hs : Decodable s) :
    Cmd.Ends (decodeNonzero c z g) s (fun v t => DecodedBits s c t ∧ -32768 ≤ v ∧ v ≤ 32768) (DecodeHalt s c)
      (¬ s.ports.SourceAnswers) := by
  unfold decodeNonzero
  refine decodeBit_then hs (binSign_lt hz) ?_
  intro negative t ht hd
  refine Cmd.Ends.mono (b := DecodeHalt t c) (k := ¬ t.ports.SourceAnswers)
    (g := fun v u => DecodedBits t c u ∧ -32768 ≤ v ∧ v ≤ 32768) ?_
    (fun v u h => ⟨ht.trans h.1, h.2⟩) (fun e u h => DecodeHalt.trans ht h) ht.fetched.hang
  refine decodeBit_then hd (binFirst_lt hz negative) ?_
  intro m u hu hd'
  cases m
  · refine Cmd.Ends.pure ⟨hu, ?_⟩
    cases negative <;> simp [signedResidual]
  · simp only [if_true]
    refine (decodeMagnitude_ends c g u hd').seq (fun e v h => DecodeHalt.trans hu h) hu.fetched.hang ?_
    rintro sz v ⟨hv, h1, h2⟩
    refine Cmd.Ends.pure ⟨hu.trans hv, ?_⟩
    cases negative <;> simp [signedResidual] <;> omega

/-- `DecodeV` from a sound engine (rules R157, R158). -/
theorem decodeV_ends (c : Fin 4) (da db : Int) (l u : Nat) (s : State) (hs : Decodable s) :
    Cmd.Ends (decodeV c da db l u) s (fun v t => DecodedBits s c t ∧ -32768 ≤ v ∧ v ≤ 32768) (DecodeHalt s c)
      (¬ s.ports.SourceAnswers) := by
  have hz := selectZeroSign_le da db l u
  unfold decodeV
  refine decodeBit_then hs (binZero_lt hz) ?_
  intro d t ht hd
  cases d
  · exact Cmd.Ends.pure ⟨ht, by omega, by omega⟩
  · exact (decodeNonzero_ends c _ hz _ t hd).mono (fun v u h => ⟨ht.trans h.1, h.2⟩)
      (fun e u h => DecodeHalt.trans ht h) ht.fetched.hang

/-! ## DecInit -/

/-- `DecInit` (rule R114): MARKER, EOS, A, C, CT, B, BV, SC and ZC are set, and two bytes are fetched into C. -/
theorem decInit_ends (s : State) :
    Cmd.Ends decInit s (fun _ t =>
        Fetched ({ s with
          marker := { code := 0, valid := false }
          eng := { s.eng with eos := false, b := 0, bv := false, sc := 0, zc := 0, mode := .decode } }) t ∧
        t.ctx = s.ctx ∧ t.eng.DecodeSound ∧ t.eng.a = 0x10000 ∧ t.eng.ct = 0 ∧ t.eng.NothingHeld)
      NoHalt (¬ s.ports.SourceAnswers) := by
  unfold decInit
  refine Cmd.Ends.bind_ok (cmd_modify _ _) (Cmd.Ends.bind_ok (cmd_modifyEng _ _) ?_)
  generalize hs1 : (({ s with marker := { code := 0, valid := false } } : State).withEng
    { s.eng with eos := false, a := 0x10000, c := 0 }) = s1
  have hp : s1.ports = s.ports := by rw [← hs1]; rfl
  have hc1 : s1.eng.c = 0 := by rw [← hs1]; rfl
  have ha1 : s1.eng.a = 0x10000 := by rw [← hs1]; rfl
  have hctx1 : s1.ctx = s.ctx := by rw [← hs1]; rfl
  refine (byteIn_ends s1 (by rw [hc1]; decide)).seq (fun _ _ h => h) (by rw [hp]; exact id) ?_
  rintro _ t2 ⟨hf2, hctx2, ha2, _, b2, hc2⟩
  have hb2 := b2.isLt
  have hc1' : s1.eng.c.toNat = 0 := by rw [hc1]; rfl
  rw [hc1'] at hc2
  have hsh2 : shiftInit t2 = .ok () (t2.withEng { t2.eng with c := BitVec.ofNat 32 (t2.eng.c.toNat <<< 8) }) := by
    unfold shiftInit
    rw [cmd_bind, cmd_get]
    exact assignC_ok _ _ (by rw [Nat.shiftLeft_eq]; omega)
  refine Cmd.Ends.bind_ok hsh2 ?_
  have hC2 : (BitVec.ofNat 32 (t2.eng.c.toNat <<< 8)).toNat = b2.toNat * 65536 := by
    rw [BitVec.toNat_ofNat, Nat.shiftLeft_eq, Nat.mod_eq_of_lt (by omega)]; omega
  generalize hs3 : (t2.withEng { t2.eng with c := BitVec.ofNat 32 (t2.eng.c.toNat <<< 8) }) = s3
  have hf3 : Fetched s1 s3 := by
    rw [← hs3]
    exact hf2.trans (fetched_withEng t2 _ ⟨rfl, rfl, rfl, rfl⟩ rfl rfl rfl)
  have hc3 : s3.eng.c.toNat = b2.toNat * 65536 := by rw [← hs3]; exact hC2
  have ha3 : s3.eng.a = 0x10000 := by rw [← hs3]; exact ha2.trans ha1
  have hctx3 : s3.ctx = s.ctx := by rw [← hs3]; exact hctx2.trans hctx1
  refine (byteIn_ends s3 (by rw [hc3]; omega)).seq (fun _ _ h => h)
    (fun h => by have := hf3.hang h; rwa [hp] at this) ?_
  rintro _ t4 ⟨hf4, hctx4, ha4, _, b4, hc4⟩
  have hb4 := b4.isLt
  rw [hc3] at hc4
  have hsh4 : shiftInit t4 = .ok () (t4.withEng { t4.eng with c := BitVec.ofNat 32 (t4.eng.c.toNat <<< 8) }) := by
    unfold shiftInit
    rw [cmd_bind, cmd_get]
    exact assignC_ok _ _ (by rw [Nat.shiftLeft_eq]; omega)
  refine Cmd.Ends.bind_ok hsh4 (Cmd.Ends.of_ok (cmd_modifyEng _ _) ?_)
  have hC4 : (BitVec.ofNat 32 (t4.eng.c.toNat <<< 8)).toNat = (b2.toNat * 256 + b4.toNat) * 65536 := by
    rw [BitVec.toNat_ofNat, Nat.shiftLeft_eq, Nat.mod_eq_of_lt (by omega)]; omega
  have hf := hf3.trans hf4
  have ha : t4.eng.a = 0x10000 := ha4.trans ha3
  have hat : t4.eng.a.toNat = 0x10000 := by rw [ha]; rfl
  rw [← hs1] at hf
  refine ⟨{ hf with held := ⟨rfl, rfl, rfl, rfl⟩, nbytes := hf.nbytes, mode := rfl, eos := hf.eos }, hctx4.trans hctx3,
    ?_, ha, rfl, ⟨rfl, rfl, rfl, rfl⟩⟩
  refine ⟨?_, ?_, ?_, ?_, ?_⟩
  · show 0x8000 ≤ t4.eng.a.toNat
    omega
  · show t4.eng.a.toNat ≤ 0x10000
    omega
  · show (BitVec.ofNat 32 (t4.eng.c.toNat <<< 8)).toNat >>> 16 < t4.eng.a.toNat
    rw [hC4, Nat.shiftRight_eq_div_pow, hat]
    omega
  · show (0#4).toNat ≤ 8
    decide
  · show (BitVec.ofNat 32 (t4.eng.c.toNat <<< 8)).toNat % 2 ^ (16 - (0#4).toNat) = 0
    rw [hC4]
    exact Nat.mul_mod_left _ _

end Sys2Proof.Machine
end

