-- ==== Sys2Proof/Laws/Kept.lean ====
section
/-! SUPPORT. What the bodies of the driver commands keep from one moment to the next, and the judgments of the
engine's procedures restated in those terms. -/

namespace Sys2Proof.Machine

/-- The part of the invariant that holds at every moment of a command. -/
structure State.Steady (s : State) : Prop where
  build : s.build.Legal
  ctx : s.CtxLegal
  diff : s.DiffSound
  marker : s.marker.valid = false → s.marker.code = 0
  eos : s.eng.eos = true → s.status.exhausted = true
  samples : Memory.wf sampleBlank s.ports.samples = true
  fault : s.status.fault = false

/-- What no part of a walk changes, and what it keeps. -/
structure Kept (s t : State) : Prop where
  dstate : t.status.dstate = s.status.dstate
  dmode : t.status.dmode = s.status.dmode
  exhausted : s.status.exhausted = true → t.status.exhausted = true
  regs : t.regs = s.regs
  cfg : t.cfg = s.cfg
  build : t.build = s.build
  host : t.ports.host = s.ports.host
  replies : t.ports.replies = s.ports.replies
  sink : s.ports.SinkAccepts → t.ports.SinkAccepts
  writer : s.ports.WriterAccepts → t.ports.WriterAccepts
  source : s.ports.SourceAnswers → s.ports.ReaderAnswers → t.ports.SourceAnswers ∧ t.ports.ReaderAnswers
  samples : ∀ c x y, s.ports.has c x y → t.ports.has c x y
  steady : s.Steady → t.Steady

theorem Kept.refl (s : State) : Kept s s where
  dstate := rfl
  dmode := rfl
  exhausted := id
  regs := rfl
  cfg := rfl
  build := rfl
  host := rfl
  replies := rfl
  sink := id
  writer := id
  source := fun a b => ⟨a, b⟩
  samples := fun _ _ _ => id
  steady := id

theorem Kept.trans {s t u : State} (h : Kept s t) (h' : Kept t u) : Kept s u where
  dstate := h'.dstate.trans h.dstate
  dmode := h'.dmode.trans h.dmode
  exhausted := fun e => h'.exhausted (h.exhausted e)
  regs := h'.regs.trans h.regs
  cfg := h'.cfg.trans h.cfg
  build := h'.build.trans h.build
  host := h'.host.trans h.host
  replies := h'.replies.trans h.replies
  sink := fun e => h'.sink (h.sink e)
  writer := fun e => h'.writer (h.writer e)
  source := fun a b => h'.source (h.source a b).1 (h.source a b).2
  samples := fun c x y e => h'.samples c x y (h.samples c x y e)
  steady := fun e => h'.steady (h.steady e)

theorem Kept.components {s t : State} (h : Kept s t) : t.components = s.components := by
  unfold State.components
  rw [h.cfg]

theorem Kept.thresholds {s t : State} (h : Kept s t) (c : Fin 4) :
    t.lowThreshold c = s.lowThreshold c ∧ t.highThreshold c = s.highThreshold c := by
  unfold State.lowThreshold State.highThreshold
  rw [h.cfg]
  exact ⟨rfl, rfl⟩

theorem Kept.of_coded {s t : State} {c : Fin 4} {bs : List Byte} {f : List PortEvent} (h : Coded s t bs f)
    (hm : CtxMoved c s t) : Kept s t where
  dstate := by rw [h.status]
  dmode := by rw [h.status]
  exhausted := by rw [h.status]; exact id
  regs := h.regs
  cfg := h.cfg
  build := h.build
  host := by rw [h.ports]
  replies := by rw [h.ports]
  sink := h.accepts
  writer := by rw [h.ports]; exact id
  source := by rw [h.ports]; exact fun a b => ⟨a, b⟩
  samples := by rw [h.ports]; exact fun _ _ _ => id
  steady := fun hs =>
    { build := h.build ▸ hs.build
      ctx := hm.legal hs.ctx
      diff := ⟨by rw [h.da]; exact hs.diff.da, by rw [h.db, h.build]; exact hs.diff.db, by rw [h.db]; exact hs.diff.wf⟩
      marker := by rw [h.marker]; exact hs.marker
      eos := by rw [h.eos, h.status]; exact hs.eos
      samples := by rw [h.ports]; exact hs.samples
      fault := by rw [h.status]; exact hs.fault }

theorem Kept.of_fetched {s t : State} {c : Fin 4} (h : Fetched s t) (hm : CtxMoved c s t) : Kept s t := by
  obtain ⟨bytes, tr, _, hp⟩ := h.ports
  exact
  { dstate := h.dstate
    dmode := h.dmode
    exhausted := h.exhausted
    regs := h.regs
    cfg := h.cfg
    build := h.build
    host := by rw [hp]
    replies := by rw [hp]
    sink := by rw [hp]; exact id
    writer := by rw [hp]; exact id
    source := by rw [hp]; exact fun a b => ⟨a, b⟩
    samples := by rw [hp]; exact fun _ _ _ => id
    steady := fun hs =>
      { build := h.build ▸ hs.build
        ctx := hm.legal hs.ctx
        diff := ⟨by rw [h.da]; exact hs.diff.da, by rw [h.db, h.build]; exact hs.diff.db,
          by rw [h.db]; exact hs.diff.wf⟩
        marker := h.marker hs.marker
        eos := h.eos hs.eos
        samples := by rw [hp]; exact hs.samples
        fault := h.fault.trans hs.fault } }

/-! ## Port transactions that change nothing else -/

/-- The state with another trace. -/
def State.withTrace (s : State) (tr : List PortEvent) : State := { s with ports := { s.ports with trace := tr } }

theorem Kept.withTrace (s : State) (tr : List PortEvent) : Kept s (s.withTrace tr) :=
  { Kept.refl s with
    sink := id
    writer := id
    source := fun a b => ⟨a, b⟩
    samples := fun _ _ _ => id
    steady := fun h => ⟨h.build, h.ctx, ⟨h.diff.da, h.diff.db, h.diff.wf⟩, h.marker, h.eos, h.samples, h.fault⟩ }

theorem withTrace_withTrace (s : State) (a b : List PortEvent) : (s.withTrace a).withTrace b = s.withTrace b := rfl

/-- Only the trace of port transactions grew. -/
def Logged (s t : State) : Prop :=
  ∃ tr, t = s.withTrace tr ∧ tr.filterMap PortEvent.sunkByte = s.ports.sinkBytes

theorem Logged.refl (s : State) : Logged s s := ⟨s.ports.trace, rfl, rfl⟩

theorem Logged.trans {s t u : State} (h : Logged s t) (h' : Logged t u) : Logged s u := by
  obtain ⟨a, rfl, ha⟩ := h
  obtain ⟨b, rfl, hb⟩ := h'
  exact ⟨b, rfl, hb.trans ha⟩

theorem Logged.kept {s t : State} (h : Logged s t) : Kept s t := by
  obtain ⟨tr, rfl, _⟩ := h
  exact Kept.withTrace s tr

theorem Logged.has {s t : State} (h : Logged s t) (c : Fin 4) (x y : Nat) : t.ports.has c x y ↔ s.ports.has c x y := by
  obtain ⟨tr, rfl, _⟩ := h
  exact Iff.rfl

/-- `LineRead` (rule R68). -/
theorem lineRead_ends (c : Fin 4) (x y : Nat) (s : State) :
    Cmd.Ends (lineRead c x y) s (fun _ t => Logged s t ∧ s.ports.has c x y) NoHalt (¬ s.ports.has c x y) := by
  rcases h : Memory.read sampleBlank s.ports.samples (sampleKey c x y) with _ | v
  · have : lineRead c x y s = .error (.stuck .lineBufferNeverAnswers) s := by unfold lineRead; rw [h]; rfl
    unfold Cmd.Ends Ports.has
    rw [this, h]
    simp
  · have : lineRead c x y s = .ok v (s.log (.lineRead c x y v)) := by unfold lineRead; rw [h]
    exact Cmd.Ends.of_ok this ⟨⟨s.ports.trace ++ [.lineRead c x y v], rfl, sunk_append _ _ rfl⟩, by unfold Ports.has; rw [h]; rfl⟩

theorem readMasked_ends (c : Fin 4) (x y : Nat) (s : State) :
    Cmd.Ends (readMasked c x y) s (fun _ t => Logged s t ∧ s.ports.has c x y) NoHalt (¬ s.ports.has c x y) := by
  unfold readMasked
  refine (lineRead_ends c x y s).bind fun v t ht => ?_
  exact Cmd.Ends.get_bind (Cmd.Ends.pure ht)

/-- The samples the predictor reads (rule R185). -/
def State.neighboursPresent (s : State) (c : Fin 4) : Prop :=
  (s.pos.x ≠ 0 → s.ports.has c (s.pos.x.toNat - 1) s.pos.y.toNat) ∧
    (s.pos.y ≠ s.pos.rl → s.ports.has c s.pos.x.toNat (s.pos.y.toNat - 1) ∧
      (s.pos.x ≠ 0 → s.ports.has c (s.pos.x.toNat - 1) (s.pos.y.toNat - 1)))

theorem predict_isSome {sel : Nat} (h : 1 ≤ sel) (h' : sel ≤ 7) (ra rb rc : Int) :
    ∃ p, predict sel ra rb rc = some p := by
  obtain rfl | rfl | rfl | rfl | rfl | rfl | rfl : sel = 1 ∨ sel = 2 ∨ sel = 3 ∨ sel = 4 ∨ sel = 5 ∨ sel = 6 ∨ sel = 7 := by
    omega
  all_goals exact ⟨_, rfl⟩

/-- `Px(c, x, y)` of a valid configuration only reads samples (rule R185). -/
theorem prediction_ends (c : Fin 4) (s : State) (hp : s.cfg.pred.toNat ≤ 7) :
    Cmd.Ends (prediction c) s (fun _ t => Logged s t) NoHalt
      (¬ (s.cfg.pred ≠ 0 → s.neighboursPresent c)) := by
  unfold prediction
  refine Cmd.Ends.get_bind ?_
  by_cases h0 : s.cfg.pred = 0
  · simp only [h0, if_true]
    exact Cmd.Ends.pure (Logged.refl s)
  simp only [h0, if_false]
  have hp1 : 1 ≤ s.cfg.pred.toNat := by
    by_contra hlt
    exact h0 (BitVec.eq_of_toNat_eq (by rw [show s.cfg.pred.toNat = 0 by omega]; rfl))
  by_cases hy : s.pos.y = s.pos.rl
  · simp only [hy, if_true]
    by_cases hx : s.pos.x = 0
    · simp only [hx, if_true]
      exact Cmd.Ends.pure (Logged.refl s)
    · simp only [hx, if_false]
      rw [← hy]
      exact (readMasked_ends _ _ _ _).mono (fun _ _ h => h.1) (fun _ _ h => h) fun h hn => h ((hn h0).1 hx)
  · simp only [hy, if_false]
    by_cases hx : s.pos.x = 0
    · simp only [hx, if_true]
      exact (readMasked_ends _ _ _ _).mono (fun _ _ h => h.1) (fun _ _ h => h) fun h hn => h (hx ▸ ((hn h0).2 hy).1)
    · simp only [hx, if_false]
      unfold predictInner
      refine (readMasked_ends c _ _ s).seq (fun _ _ h => h) (fun h hn => h ((hn h0).1 hx)) ?_
      rintro ra t1 ⟨h1, _⟩
      refine (readMasked_ends c _ _ t1).seq (fun _ _ h => h)
        (fun h hn => h ((h1.has _ _ _).2 ((hn h0).2 hy).1)) ?_
      rintro rb t2 ⟨h2, _⟩
      refine (readMasked_ends c _ _ t2).seq (fun _ _ h => h)
        (fun h hn => h ((h2.has _ _ _).2 ((h1.has _ _ _).2 (((hn h0).2 hy).2 hx)))) ?_
      rintro rc t3 ⟨h3, _⟩
      obtain ⟨p, hp'⟩ := predict_isSome hp1 hp ra rb rc
      rw [hp']
      exact Cmd.Ends.pure ((h1.trans h2).trans h3)

/-- No byte was written, no sample changed, and the ports of the other direction were left alone. -/
structure SamePorts (dir : Dir) (p q : Ports) : Prop where
  sunk : q.sinkBytes = p.sinkBytes
  samples : q.samples = p.samples
  encode : dir = .encode → q.source = p.source ∧ q.syncs = p.syncs
  decode : dir = .decode → q.sinkAnswers = p.sinkAnswers ∧ q.emitAnswers = p.emitAnswers

theorem SamePorts.of_eq {dir : Dir} {p q : Ports} (h : q = p) : SamePorts dir p q := by
  subst h
  exact ⟨rfl, rfl, fun _ => ⟨rfl, rfl⟩, fun _ => ⟨rfl, rfl⟩⟩

theorem SamePorts.withTrace {dir : Dir} {s : State} {tr : List PortEvent}
    (h : tr.filterMap PortEvent.sunkByte = s.ports.sinkBytes) : SamePorts dir s.ports (s.withTrace tr).ports :=
  ⟨h, rfl, fun _ => ⟨rfl, rfl⟩, fun _ => ⟨rfl, rfl⟩⟩

/-- A marker-writer call (rules R69, R181). -/
theorem emitMarker_ends (k : MarkerKind) (s : State) :
    Cmd.Ends (emitMarker k) s
      (fun _ t => ∃ p, t = { s with ports := p } ∧ Kept s t ∧ SamePorts .encode s.ports p)
      (fun e u => e = .sinkFailure ∧ Kept s u ∧ u.ports.samples = s.ports.samples ∧
        (u.status = s.status ∧ u.marker = s.marker ∧ u.ports.source = s.ports.source ∧ u.ports.syncs = s.ports.syncs) ∧
        ¬ s.ports.WriterAccepts) (¬ s.ports.WriterAccepts) := by
  have kept : ∀ (n : Nat) (tr : List PortEvent), Kept s ({ s with ports := { s.ports with
      emitAnswers := s.ports.emitAnswers.drop n, trace := tr } }) := fun n tr =>
    { Kept.refl s with
      sink := id
      writer := fun h a ha => h a (List.mem_of_mem_drop ha)
      source := fun a b => ⟨a, b⟩
      samples := fun _ _ _ => id
      steady := fun h => ⟨h.build, h.ctx, ⟨h.diff.da, h.diff.db, h.diff.wf⟩, h.marker, h.eos, h.samples, h.fault⟩ }
  rcases hq : s.ports.emitAnswers with _ | ⟨a, rest⟩
  · have hm : markerEmit k s = .ok .ok (s.log (.markerEmit k .ok)) := by simp [markerEmit, hq]
    refine Cmd.Ends.bind_ok hm (Cmd.Ends.pure ⟨_, rfl, ?_, sunk_append _ _ rfl, rfl,
      fun _ => ⟨rfl, rfl⟩, fun h => by cases h⟩)
    exact kept 0 (s.ports.trace ++ [.markerEmit k .ok])
  · rcases a with _ | r
    · have hm : emitMarker k s = .error (.stuck .markerNeverAnswers) s := by
        unfold emitMarker
        rw [cmd_bind]
        simp [markerEmit, hq]
      unfold Cmd.Ends
      rw [hm]
      intro h
      have := h none (by simp [hq])
      simp at this
    · have hm : markerEmit k s = .ok r (({ s with ports := { s.ports with emitAnswers := rest } } : State).log
          (.markerEmit k r)) := by simp [markerEmit, hq]
      have hk : Kept s (({ s with ports := { s.ports with emitAnswers := rest } } : State).log (.markerEmit k r)) := by
        have := kept 1 (s.ports.trace ++ [.markerEmit k r])
        rw [hq, List.drop_one, List.tail_cons] at this
        exact this
      refine Cmd.Ends.bind_ok hm ?_
      cases r
      · exact Cmd.Ends.pure ⟨_, rfl, hk, sunk_append _ _ rfl, rfl, fun _ => ⟨rfl, rfl⟩, fun h => by cases h⟩
      · refine Cmd.Ends.raise rfl ⟨rfl, hk, rfl, ⟨rfl, rfl, rfl, rfl⟩, fun h => ?_⟩
        have := h (some .fail) (by simp [hq])
        simp at this

/-- A marker-reader call (rule R69). -/
theorem markerSync_ends (k : MarkerKind) (l : Option Byte) (s : State) :
    Cmd.Ends (markerSync k l) s (fun _ t => ∃ p, t = { s with ports := p } ∧ Kept s t ∧ SamePorts .decode s.ports p) NoHalt
      (¬ s.ports.ReaderAnswers) := by
  rcases hq : s.ports.syncs with _ | ⟨a, rest⟩
  · have hm : markerSync k l s = .ok () (s.log (.markerSync k l)) := by simp [markerSync, hq]
    exact Cmd.Ends.of_ok hm ⟨_, rfl, (Kept.withTrace s _), sunk_append _ _ rfl, rfl, (fun h => by cases h), fun _ => ⟨rfl, rfl⟩⟩
  · rcases a with _ | src
    · have hm : markerSync k l s = .error (.stuck .markerNeverAnswers) s := by simp [markerSync, hq]
      unfold Cmd.Ends
      rw [hm]
      intro h
      have := h none (by simp [hq])
      simp at this
    · have hm : markerSync k l s = .ok () (({ s with ports := { s.ports with syncs := rest, source := src } } : State).log
          (.markerSync k l)) := by simp [markerSync, hq]
      refine Cmd.Ends.of_ok hm ⟨_, rfl, ?_, sunk_append _ _ rfl, rfl, (fun h => by cases h), fun _ => ⟨rfl, rfl⟩⟩
      exact
        { Kept.refl s with
          sink := id
          writer := id
          source := fun _ hr => by
            refine ⟨?_, fun a ha => hr a (by rw [hq]; exact List.mem_cons_of_mem _ ha)⟩
            have := hr (some src) (by simp [hq])
            show src.silent = false
            simpa using this
          samples := fun _ _ _ => id
          steady := fun h =>
            ⟨h.build, h.ctx, ⟨h.diff.da, h.diff.db, h.diff.wf⟩, h.marker, h.eos, h.samples, h.fault⟩ }

/-! ## Residual registers -/

theorem ofInt17_toInt {v : Int} (h : -32768 ≤ v ∧ v ≤ 32768) : (BitVec.ofInt 17 v).toInt = v := by
  rw [BitVec.toInt_ofInt]
  exact Int.bmod_eq_of_le (by norm_num; omega) (by norm_num; omega)

theorem s16_range (v : Int) : -32768 ≤ s16 v ∧ s16 v ≤ 32767 := by
  unfold s16
  have h1 := BitVec.toInt_lt (x := BitVec.ofInt 16 v)
  have h2 := BitVec.le_toInt (x := BitVec.ofInt 16 v)
  simp only [Nat.add_one_sub_one] at h1 h2
  norm_num only at h1 h2
  omega

/-- Storing a residual in range at a column below XMAX keeps the differential state sound (rule R40). -/
theorem DiffSound.setDa {s : State} (h : s.DiffSound) (c : Fin 4) {v : Residual} (hv : residualInRange v) :
    (s.setDa c v).DiffSound where
  da := fun c' => by
    show residualInRange (s.da.set c v)[c']
    by_cases hc : c = c'
    · subst hc; simpa using hv
    · have hc' : c.val ≠ c'.val := fun h => hc (Fin.ext h)
      simpa [Vector.getElem_set, hc'] using h.da c'
  db := h.db
  wf := h.wf

theorem DiffSound.setDb {s : State} (h : s.DiffSound) (c : Fin 4) {x : Nat} {v : Residual} (hv : residualInRange v)
    (hx : x < s.build.xmax) : (s.setDb c x v).DiffSound where
  da := h.da
  db := fun c' e he => by
    change e ∈ (s.db.set c (Memory.write dbBlank s.db[c] x v))[c'] at he
    show residualInRange e.2 ∧ e.1 < s.build.xmax
    by_cases hc : c = c'
    · subst hc
      simp only [Fin.getElem_fin, Vector.getElem_set_self] at he
      rcases mem_write he with rfl | he
      · exact ⟨hv, hx⟩
      · exact h.db c e he
    · have hc' : c.val ≠ c'.val := fun h => hc (Fin.ext h)
      simp only [Fin.getElem_fin, Vector.getElem_set, hc', if_false] at he
      exact h.db c' e he
  wf := fun c' => by
    show Memory.wf dbBlank (s.db.set c (Memory.write dbBlank s.db[c] x v))[c'] = true
    by_cases hc : c = c'
    · subst hc
      simp only [Fin.getElem_fin, Vector.getElem_set_self]
      exact wf_write _ _ _ _ (h.wf c)
    · have hc' : c.val ≠ c'.val := fun h => hc (Fin.ext h)
      simpa [Vector.getElem_set, hc'] using h.wf c'

theorem DiffSound.clear (s : State) : s.clearDiff.DiffSound where
  da := fun c => by
    show residualInRange (Vector.replicate Config.nComp (0 : Residual))[c]
    simp only [Fin.getElem_fin, Vector.getElem_replicate]
    decide
  db := fun c e he => by
    change e ∈ (Vector.replicate Config.nComp ([] : Memory 17))[c] at he
    simp at he
  wf := fun c => by
    show Memory.wf dbBlank (Vector.replicate Config.nComp ([] : Memory 17))[c] = true
    simp

theorem ctxLegal_reset {s : State} (h : s.ctx = resetContexts) : s.CtxLegal := fun c b _ => by
  rw [ctxAt_resetContexts (h := h)]
  decide

end Sys2Proof.Machine
end

