-- ==== Sys2Proof/Laws/Walk.lean ====
section
/-! SUPPORT. The walk of a row group (spec/42_driver.md rules R180 to R188): what one sample, one column, one line and
the whole walk do, and how each can end. -/

namespace Sys2Proof.Machine

/-! ## Judgments -/

/-- The engine runs in a direction, with sound registers. -/
structure Ready (dir : Dir) (s : State) : Prop where
  mode : s.eng.mode = dirMode dir
  encoder : dir = .encode → s.eng.EncodeSound
  decoder : dir = .decode → s.eng.DecodeSound ∧ s.eng.NothingHeld

/-- SC + ZC. -/
abbrev Engine.deferred (e : Engine) : Nat := e.sc.toNat + e.zc.toNat

/-- A set of positions of the line/frame buffer: component, column, line. -/
abbrev Region := Fin 4 → Nat → Nat → Prop

/-- Outside a region no sample changed; encoding, none did at all. -/
def Untouched (dir : Dir) (P : Region) (s t : State) : Prop :=
  ∀ c x y, x < 65536 → y < 65536 → (dir = .decode → ¬ P c x y) →
    Memory.read sampleBlank t.ports.samples (sampleKey c x y) =
      Memory.read sampleBlank s.ports.samples (sampleKey c x y)

theorem Untouched.of_same {dir : Dir} {P : Region} {s t : State} (h : t.ports.samples = s.ports.samples) :
    Untouched dir P s t := fun _ _ _ _ _ _ => by rw [h]

theorem Untouched.trans {dir : Dir} {P Q R : Region} {s t u : State} (h : Untouched dir P s t)
    (h' : Untouched dir Q t u) (hP : ∀ c x y, P c x y → R c x y) (hQ : ∀ c x y, Q c x y → R c x y) :
    Untouched dir R s u := fun c x y hx hy hR =>
  (h' c x y hx hy fun hd hq => hR hd (hQ c x y hq)).trans (h c x y hx hy fun hd hp => hR hd (hP c x y hp))

theorem Untouched.weaken {dir : Dir} {P R : Region} {s t : State} (h : Untouched dir P s t)
    (hP : ∀ c x y, P c x y → R c x y) : Untouched dir R s t := fun c x y hx hy hR =>
  h c x y hx hy fun hd hp => hR hd (hP c x y hp)

/-- The bytes written from `s` to `t` are stuffed (rule R67) and counted in NBYTES (rule R106). -/
def Sunk (s t : State) : Prop :=
  ∃ bs, t.ports.sinkBytes = s.ports.sinkBytes ++ bs ∧ StuffedBytes bs ∧
    t.eng.nbytes = s.eng.nbytes + BitVec.ofNat 32 bs.length

theorem Sunk.of_same {s t : State} (h : t.ports.sinkBytes = s.ports.sinkBytes) (hn : t.eng.nbytes = s.eng.nbytes) :
    Sunk s t := ⟨[], by simp [h], trivial, by simp [hn]⟩

theorem Sunk.trans {s t u : State} (h : Sunk s t) (h' : Sunk t u) : Sunk s u := by
  obtain ⟨a, ha, hsa, hna⟩ := h
  obtain ⟨b, hb, hsb, hnb⟩ := h'
  exact ⟨a ++ b, by rw [hb, ha, List.append_assoc], hsa.append hsb,
    by rw [hnb, hna, List.length_append, BitVec.ofNat_add, BitVec.add_assoc]⟩

theorem Sunk.of_coded {s t : State} {bs : List Byte} (h : Coded s t bs []) (hs : StuffedBytes bs) : Sunk s t := by
  refine ⟨bs, ?_, hs, h.nbytes⟩
  rw [h.ports]
  simp [Ports.sinkBytes, List.filterMap_append, sunk_wrotes]

theorem Sunk.of_fetched {s t : State} (h : Fetched s t) : Sunk s t := by
  obtain ⟨b, tr, h0, hp⟩ := h.ports
  exact Sunk.of_same (by rw [hp]; exact h0) h.nbytes

theorem Coded.samples {s t : State} {bs : List Byte} {f : List PortEvent} (h : Coded s t bs f) :
    t.ports.samples = s.ports.samples := by rw [h.ports]

theorem Fetched.samples {s t : State} (h : Fetched s t) : t.ports.samples = s.ports.samples := by
  obtain ⟨b, tr, _, hp⟩ := h.ports
  rw [hp]

/-- What a walk leaves alone besides what `Kept` says: encoding, STATUS, MARKER, the source and the marker reader;
decoding, the sink, the marker writer and NBYTES. -/
structure Quiet (dir : Dir) (s t : State) : Prop where
  encode : dir = .encode → t.status = s.status ∧ t.marker = s.marker ∧ t.ports.source = s.ports.source ∧
    t.ports.syncs = s.ports.syncs
  decode : dir = .decode → t.ports.sinkAnswers = s.ports.sinkAnswers ∧ t.ports.emitAnswers = s.ports.emitAnswers ∧
    t.ports.sinkBytes = s.ports.sinkBytes ∧ t.eng.nbytes = s.eng.nbytes

theorem Quiet.refl (dir : Dir) (s : State) : Quiet dir s s :=
  ⟨fun _ => ⟨rfl, rfl, rfl, rfl⟩, fun _ => ⟨rfl, rfl, rfl, rfl⟩⟩

theorem Quiet.trans {dir : Dir} {s t u : State} (h : Quiet dir s t) (h' : Quiet dir t u) : Quiet dir s u where
  encode := fun hd => by
    obtain ⟨a, b, c, d⟩ := h.encode hd
    obtain ⟨a', b', c', d'⟩ := h'.encode hd
    exact ⟨a'.trans a, b'.trans b, c'.trans c, d'.trans d⟩
  decode := fun hd => by
    obtain ⟨a, b, c, d⟩ := h.decode hd
    obtain ⟨a', b', c', d'⟩ := h'.decode hd
    exact ⟨a'.trans a, b'.trans b, c'.trans c, d'.trans d⟩

theorem Quiet.of_ports {dir : Dir} {s t : State} (h : SamePorts dir s.ports t.ports)
    (hs : dir = .encode → t.status = s.status ∧ t.marker = s.marker) (hn : t.eng.nbytes = s.eng.nbytes) :
    Quiet dir s t where
  encode := fun hd => ⟨(hs hd).1, (hs hd).2, (h.encode hd).1, (h.encode hd).2⟩
  decode := fun hd => ⟨(h.decode hd).1, (h.decode hd).2, h.sunk, hn⟩

theorem Quiet.of_coded {s t : State} {bs : List Byte} {f : List PortEvent} (h : Coded s t bs f) : Quiet .encode s t where
  encode := fun _ => ⟨h.status, h.marker, by rw [h.ports], by rw [h.ports]⟩
  decode := fun hd => by cases hd

theorem Quiet.of_fetched {s t : State} (h : Fetched s t) : Quiet .decode s t where
  encode := fun hd => by cases hd
  decode := fun _ => by
    obtain ⟨b, tr, h0, hp⟩ := h.ports
    rw [hp]
    exact ⟨rfl, rfl, h0, h.nbytes⟩

/-- A part of a walk: `n` bounds the growth of SC + ZC, `P` holds the samples written. -/
structure Walked (dir : Dir) (n : Nat) (P : Region) (s t : State) : Prop where
  kept : Kept s t
  ready : Ready dir t
  count : s.eng.Room n → t.eng.deferred ≤ s.eng.deferred + n
  stores : Untouched dir P s t
  sunk : Sunk s t
  quiet : Quiet dir s t

/-- Why a fatal error can end a part of a walk (rules R110, R157, R221): encoding, a refusing sink or marker writer or
a counter without room; decoding, only `StateCorruption`. -/
def haltCause (dir : Dir) (s : State) (n : Nat) (e : ErrCode) : Prop :=
  match dir with
  | .encode => (e = .sinkFailure ∨ e = .stateCorruption) ∧
      (¬ s.ports.SinkAccepts ∨ ¬ s.ports.WriterAccepts ∨ ¬ s.eng.Room n)
  | .decode => e = .stateCorruption

/-- The state in which a fatal error ends a part of a walk. -/
structure WalkHalt (dir : Dir) (s : State) (n : Nat) (P : Region) (e : ErrCode) (u : State) : Prop where
  kept : Kept s u
  cause : haltCause dir s n e
  stores : Untouched dir P s u
  quiet : Quiet dir s u

/-- Why a part of a walk can wait forever: a port that may not answer, or a sample that is not supplied. -/
def hangCause (dir : Dir) (s : State) (supply : Prop) : Prop :=
  match dir with
  | .encode => ¬ s.ports.SinkAccepts ∨ ¬ s.ports.WriterAccepts ∨ ¬ supply
  | .decode => ¬ (s.ports.SourceAnswers ∧ s.ports.ReaderAnswers) ∨ ¬ supply

theorem hangCause.back {dir : Dir} {s t : State} {p q : Prop} (h : hangCause dir t q) (hk : Kept s t) (hp : p → q) :
    hangCause dir s p := by
  cases dir
  · exact h.imp (fun a b => a (hk.sink b)) (Or.imp (fun a b => a (hk.writer b)) fun a b => a (hp b))
  · exact h.imp (fun a b => a (hk.source b.1 b.2)) fun a b => a (hp b)

theorem hangCause.of_supply {dir : Dir} {s : State} {p : Prop} (h : ¬ p) : hangCause dir s p := by
  cases dir
  · exact .inr (.inr h)
  · exact .inr h

theorem WalkHalt.back {dir : Dir} {s t u : State} {n m k : Nat} {P Q R : Region} {e : ErrCode}
    (h : WalkHalt dir t m Q e u) (hw : Walked dir n P s t) (hk : n + m ≤ k) (hP : ∀ c x y, P c x y → R c x y)
    (hQ : ∀ c x y, Q c x y → R c x y) : WalkHalt dir s k R e u where
  kept := hw.kept.trans h.kept
  stores := hw.stores.trans h.stores hP hQ
  quiet := hw.quiet.trans h.quiet
  cause := by
    have hc := h.cause
    cases dir
    · refine hc.imp id <| Or.imp (fun a b => a (hw.kept.sink b)) (Or.imp (fun a b => a (hw.kept.writer b)) fun a b => a ?_)
      have := hw.count
      unfold Engine.Room at *
      have := this (by omega)
      unfold Engine.deferred at this
      omega
    · exact hc

theorem WalkHalt.weaken {dir : Dir} {s u : State} {n k : Nat} {P R : Region} {e : ErrCode}
    (h : WalkHalt dir s n P e u) (hk : n ≤ k) (hP : ∀ c x y, P c x y → R c x y) : WalkHalt dir s k R e u where
  kept := h.kept
  stores := h.stores.weaken hP
  quiet := h.quiet
  cause := by
    have hc := h.cause
    cases dir
    · refine hc.imp id <| Or.imp id (Or.imp id fun a b => a ?_)
      unfold Engine.Room at *
      omega
    · exact hc

theorem Walked.trans {dir : Dir} {s t u : State} {n m : Nat} {P Q : Region} (h : Walked dir n P s t)
    (h' : Walked dir m Q t u) : Walked dir (n + m) (fun c x y => P c x y ∨ Q c x y) s u where
  kept := h.kept.trans h'.kept
  ready := h'.ready
  stores := h.stores.trans h'.stores (fun _ _ _ => .inl) (fun _ _ _ => .inr)
  sunk := h.sunk.trans h'.sunk
  quiet := h.quiet.trans h'.quiet
  count := fun hr => by
    have h1 := h.count
    have h2 := h'.count
    unfold Engine.Room at *
    unfold Engine.deferred at *
    have h3 := h1 (by omega)
    have h4 := h2 (by omega)
    omega

/-- No position. -/
abbrev Region.none : Region := fun _ _ _ => False

theorem Region.none_le {P : Region} : ∀ c x y, Region.none c x y → P c x y := fun _ _ _ h => h.elim

theorem Walked.refl {dir : Dir} {s : State} (h : Ready dir s) : Walked dir 0 Region.none s s :=
  ⟨Kept.refl s, h, fun _ => Nat.le_refl _, .of_same rfl, .of_same rfl rfl, Quiet.refl dir s⟩

/-- A part of a walk that leaves the engine alone. -/
theorem Walked.of_kept {dir : Dir} {s t : State} (h : Ready dir s) (hk : Kept s t) (he : t.eng = s.eng)
    (hp : SamePorts dir s.ports t.ports) (hs : t.status = s.status) (hm : t.marker = s.marker) : Walked dir 0 Region.none s t :=
  ⟨hk, ⟨he ▸ h.mode, he ▸ h.encoder, he ▸ h.decoder⟩, fun _ => by rw [he]; exact Nat.le_refl _, .of_same hp.samples,
    .of_same hp.sunk (by rw [he]), .of_ports hp (fun _ => ⟨hs, hm⟩) (by rw [he])⟩

theorem Walked.weaken {dir : Dir} {s t : State} {n k : Nat} {P R : Region} (h : Walked dir n P s t) (hk : n ≤ k)
    (hP : ∀ c x y, P c x y → R c x y) : Walked dir k R s t :=
  ⟨h.kept, h.ready, fun hr => by
    have := h.count
    unfold Engine.Room at *
    have := this (by omega)
    omega, h.stores.weaken hP, h.sunk, h.quiet⟩

/-- The position of the next sample of component c. -/
abbrev State.regionHere (s : State) (c : Fin 4) : Region := fun c' x y => c' = c ∧ x = s.pos.x.toNat ∧ y = s.pos.y.toNat

/-! ## One sample -/

/-- The configuration bounds the walk uses (rule R177). -/
structure State.Walkable (s : State) : Prop where
  steady : s.Steady
  pred : s.cfg.pred.toNat ≤ 7
  width : 1 ≤ s.cfg.width.toNat
  xmax : s.cfg.width.toNat ≤ s.build.xmax
  ri : s.cfg.ri.toNat = 0 ∨ s.cfg.ri.toNat % s.cfg.width.toNat = 0

theorem State.Walkable.of_valid {s : State} (h : s.Steady) (hv : s.configValid = true) : s.Walkable := by
  simp only [State.configValid, Bool.and_eq_true, decide_eq_true_eq] at hv
  obtain ⟨⟨⟨⟨⟨⟨⟨⟨⟨⟨h1, -⟩, -⟩, -⟩, -⟩, h2⟩, h3⟩, -⟩, -⟩, h4⟩, -⟩ := hv
  exact ⟨h, h1, h2, h3, h4⟩

theorem State.Walkable.next {s t : State} (h : s.Walkable) (hk : Kept s t) : t.Walkable :=
  ⟨hk.steady h.steady, hk.cfg ▸ h.pred, hk.cfg ▸ h.width, hk.cfg ▸ hk.build ▸ h.xmax, hk.cfg ▸ h.ri⟩

/-- The samples coding one sample reads (rules R185, R187). -/
def State.sampleSupply (s : State) (dir : Dir) (c : Fin 4) : Prop :=
  (s.cfg.pred ≠ 0 → s.neighboursPresent c) ∧ (dir = .encode → s.ports.has c s.pos.x.toNat s.pos.y.toNat)

/-- The current sample of component c can be read. -/
abbrev State.hasHere (s : State) (c : Fin 4) : Prop := s.ports.has c s.pos.x.toNat s.pos.y.toNat

theorem storeResidual_ok (c : Fin 4) (v : Int) (s : State) :
    storeResidual c v s = .ok () ((s.setDa c (BitVec.ofInt 17 v)).setDb c s.pos.x.toNat (BitVec.ofInt 17 v)) := rfl

theorem Kept.store (s : State) (c : Fin 4) {v : Int} (hv : -32768 ≤ v ∧ v ≤ 32768)
    (hx : s.pos.x.toNat < s.build.xmax) :
    Kept s ((s.setDa c (BitVec.ofInt 17 v)).setDb c s.pos.x.toNat (BitVec.ofInt 17 v)) :=
  { Kept.refl s with
    sink := id
    writer := id
    source := fun a b => ⟨a, b⟩
    samples := fun _ _ _ => id
    steady := fun h =>
      { build := h.build
        ctx := h.ctx
        diff := DiffSound.setDb (DiffSound.setDa h.diff c (by unfold residualInRange; rw [ofInt17_toInt hv]; exact hv)) c
          (by unfold residualInRange; rw [ofInt17_toInt hv]; exact hv) hx
        marker := h.marker
        eos := h.eos
        samples := h.samples
        fault := h.fault } }

theorem Ready.withTrace {dir : Dir} {s t : State} (h : Ready dir s) (hl : Logged s t) : Ready dir t := by
  obtain ⟨tr, rfl, _⟩ := hl
  exact ⟨h.mode, h.encoder, h.decoder⟩

theorem codeSampleEncode_ends (c : Fin 4) (s : State) (hs : s.Walkable) (hr : Ready .encode s)
    (hx : s.pos.x.toNat < s.cfg.width.toNat) :
    Cmd.Ends (codeSampleEncode c) s
      (fun _ t => Walked .encode 64 (s.regionHere c) s t ∧ t.pos = s.pos ∧ t.hasHere c)
      (WalkHalt .encode s 64 (s.regionHere c)) (hangCause .encode s (s.sampleSupply .encode c)) := by
  unfold codeSampleEncode
  refine (prediction_ends c s hs.pred).seq (fun _ _ h => h.elim) (fun h => .of_supply fun hp => h hp.1) ?_
  intro px t1 h1
  obtain ⟨tr1, rfl, htr1⟩ := id h1
  refine Cmd.Ends.get_bind ?_
  refine (readMasked_ends c _ _ _).seq (fun _ _ h => h.elim) (fun h => .of_supply fun hp => h (hp.2 rfl)) ?_
  rintro v t2 ⟨h2, hhas⟩
  refine Cmd.Ends.get_bind ?_
  have h12 := h1.trans h2
  obtain ⟨tr2, rfl, htr2⟩ := h12
  have hk2 := Kept.withTrace s tr2
  have hw2 : Walked .encode 0 Region.none s (s.withTrace tr2) := Walked.of_kept hr hk2 rfl (.withTrace htr2) rfl rfl
  have hst := hk2.steady hs.steady
  have hv : -32768 ≤ s16 (v - px) ∧ s16 (v - px) ≤ 32768 := by have := s16_range (v - px); omega
  refine (encodeV_ends c _ _ _ _ _ _ hv (hw2.ready.encoder rfl) hst.build hst.ctx).seq ?_ ?_ ?_
  · intro e u hu
    cases hu with
    | sink hc hm hacc =>
      exact ⟨hk2.trans (Kept.of_coded hc hm), ⟨.inl rfl, .inl fun h => hacc (hk2.sink h)⟩, .of_same hc.samples, hw2.quiet.trans (.of_coded hc)⟩
    | width hc hm hw =>
      exact ⟨hk2.trans (Kept.of_coded hc hm), ⟨.inr rfl, .inr (.inr hw)⟩, .of_same hc.samples, hw2.quiet.trans (.of_coded hc)⟩
  · exact fun h => .inl fun h' => h (hk2.sink h')
  · intro _ t3 h3
    obtain ⟨bs, hc, hst3⟩ := h3.coded
    have hk3 := hk2.trans (Kept.of_coded hc h3.moved)
    have hpos : t3.pos = s.pos := hc.pos
    have hw3 : Walked .encode 64 Region.none s t3 :=
      ⟨hk3, ⟨hc.mode.trans hr.mode, fun _ => h3.sound, fun h => by cases h⟩, h3.count, .of_same hc.samples,
        hw2.sunk.trans (.of_coded hc hst3), hw2.quiet.trans (.of_coded hc)⟩
    refine Cmd.Ends.of_ok (storeResidual_ok _ _ _) ?_
    have hx3 : t3.pos.x.toNat < t3.build.xmax := by
      rw [hpos, hk3.build]
      have := hs.xmax
      omega
    have hk4 := Kept.store t3 c hv hx3
    refine ⟨(hw3.trans (Walked.of_kept hw3.ready hk4 rfl (.of_eq rfl) rfl rfl)).weaken (by omega)
      (fun _ _ _ h => h.elim False.elim False.elim), hpos, ?_⟩
    show t3.ports.has c t3.pos.x.toNat t3.pos.y.toNat
    rw [hpos]
    exact hk3.samples _ _ _ hhas

theorem Kept.lineWrite (s : State) (c : Fin 4) (x y : Nat) (v : Sample) :
    Kept s (({ s with ports := { s.ports with
      samples := Memory.write sampleBlank s.ports.samples (sampleKey c x y) v } } : State).log (.lineWrite c x y v)) :=
  { Kept.refl s with
    sink := id
    writer := id
    source := fun a b => ⟨a, b⟩
    samples := fun c' x' y' h => by
      show (Memory.read sampleBlank (Memory.write sampleBlank s.ports.samples (sampleKey c x y) v)
        (sampleKey c' x' y')).isSome = true
      rw [read_write]
      split
      · rfl
      · exact h
    steady := fun h => ⟨h.build, h.ctx, ⟨h.diff.da, h.diff.db, h.diff.wf⟩, h.marker, h.eos,
      wf_write _ _ _ _ h.samples, h.fault⟩ }

theorem codeSampleDecode_ends (c : Fin 4) (s : State) (hs : s.Walkable) (hr : Ready .decode s)
    (hx : s.pos.x.toNat < s.cfg.width.toNat) :
    Cmd.Ends (codeSampleDecode c) s
      (fun _ t => Walked .decode 64 (s.regionHere c) s t ∧ t.pos = s.pos ∧ t.hasHere c)
      (WalkHalt .decode s 64 (s.regionHere c)) (hangCause .decode s (s.sampleSupply .decode c)) := by
  unfold codeSampleDecode
  refine (prediction_ends c s hs.pred).seq (fun _ _ h => h.elim) (fun h => .of_supply fun hp => h hp.1) ?_
  intro px t1 h1
  obtain ⟨tr1, rfl, htr1⟩ := id h1
  refine Cmd.Ends.get_bind ?_
  have hk1 := Kept.withTrace s tr1
  have hst := hk1.steady hs.steady
  have hr1 := hr.withTrace h1
  refine (decodeV_ends c _ _ _ _ _ ⟨(hr1.decoder rfl).1, hst.build, hst.ctx⟩).seq ?_ ?_ ?_
  · intro e u hu
    exact ⟨hk1.trans (Kept.of_fetched hu.bits.fetched hu.bits.moved), hu.code, .of_same hu.bits.fetched.samples,
      (Quiet.of_ports (.withTrace htr1) (fun _ => ⟨rfl, rfl⟩) rfl).trans (.of_fetched hu.bits.fetched)⟩
  · exact fun h => .inl fun h' => h h'.1
  · rintro v t2 ⟨h2, hv⟩
    have hf := h2.fetched
    have hk2 := hk1.trans (Kept.of_fetched hf h2.moved)
    have hpos : t2.pos = s.pos := hf.pos
    have hheld := (hr1.decoder rfl).2
    have hnh : t2.eng.NothingHeld :=
      ⟨hf.held.1.trans hheld.b, hf.held.2.1.trans hheld.bv, hf.held.2.2.1.trans hheld.sc, hf.held.2.2.2.trans hheld.zc⟩
    have hready : Ready .decode t2 := ⟨hf.mode.trans hr.mode, fun h => (by cases h), fun _ => ⟨h2.sound, hnh⟩⟩
    have hw2 : Walked .decode 64 Region.none s t2 := ⟨hk2, hready, fun _ => by
      rw [show t2.eng.deferred = 0 by unfold Engine.deferred; rw [hnh.sc, hnh.zc]; rfl]
      omega, .of_same hf.samples, (Sunk.of_same (s := s) (t := s.withTrace tr1) htr1 rfl).trans (.of_fetched hf),
      (Quiet.of_ports (.withTrace htr1) (fun _ => ⟨rfl, rfl⟩) rfl).trans (.of_fetched hf)⟩
    generalize hrec : (s.withTrace tr1).reconstruct px v = sample
    refine Cmd.Ends.bind_ok (a := ()) rfl (Cmd.Ends.of_ok (storeResidual_ok _ _ _) ?_)
    have hk3 := Kept.lineWrite t2 c (s.withTrace tr1).pos.x.toNat (s.withTrace tr1).pos.y.toNat sample
    have hx3 : t2.pos.x.toNat < t2.build.xmax := by
      rw [hpos, hk2.build]
      have := hs.xmax
      omega
    have hk4 := Kept.store (({ t2 with ports := { t2.ports with
      samples := Memory.write sampleBlank t2.ports.samples
        (sampleKey c (s.withTrace tr1).pos.x.toNat (s.withTrace tr1).pos.y.toNat) sample } } : State).log
        (.lineWrite c (s.withTrace tr1).pos.x.toNat (s.withTrace tr1).pos.y.toNat sample)) c hv hx3
    refine ⟨⟨hk2.trans (hk3.trans hk4), ⟨hready.mode, fun h => (by cases h), fun _ => ⟨h2.sound, hnh⟩⟩, fun hroom => hw2.count hroom,
      ?_, hw2.sunk.trans (.of_same (sunk_append _ _ rfl) rfl), hw2.quiet.trans ⟨(fun h => by cases h), fun _ =>
      ⟨rfl, rfl, sunk_append _ _ rfl, rfl⟩⟩⟩, hpos, ?_⟩
    · intro c' x' y' hx' hy' hreg
      show Memory.read sampleBlank (Memory.write sampleBlank t2.ports.samples
        (sampleKey c s.pos.x.toNat s.pos.y.toNat) sample) (sampleKey c' x' y') = _
      rw [read_write, hf.samples]
      have hne : ¬ sampleKey c s.pos.x.toNat s.pos.y.toNat = sampleKey c' x' y' := fun heq => by
        obtain ⟨h1, h2, h3⟩ := sampleKey_injective s.pos.x.isLt hx' s.pos.y.isLt hy' heq
        exact hreg rfl ⟨h1.symm, h2.symm, h3.symm⟩
      first | rw [if_neg hne] | rw [if_neg (fun h => hne h.symm)]
      rfl
    show (Memory.read sampleBlank (Memory.write sampleBlank t2.ports.samples
      (sampleKey c s.pos.x.toNat s.pos.y.toNat) sample) (sampleKey c t2.pos.x.toNat t2.pos.y.toNat)).isSome = true
    rw [hpos, read_write]
    simp

/-- `CodeSample(dir, c, x, y)` (rules R185 to R188). -/
theorem codeSample_ends (dir : Dir) (c : Fin 4) (s : State) (hs : s.Walkable) (hr : Ready dir s)
    (hx : s.pos.x.toNat < s.cfg.width.toNat) :
    Cmd.Ends (codeSample dir c) s (fun _ t => Walked dir 64 (s.regionHere c) s t ∧ t.pos = s.pos ∧ t.hasHere c)
      (WalkHalt dir s 64 (s.regionHere c)) (hangCause dir s (s.sampleSupply dir c)) := by
  cases dir
  · exact codeSampleEncode_ends c s hs hr hx
  · exact codeSampleDecode_ends c s hs hr hx

theorem sampleSupply_next {dir : Dir} {s t : State} {c : Fin 4} (h : s.sampleSupply dir c) (hk : Kept s t)
    (hx : t.pos.x = s.pos.x) (hy : t.pos.y = s.pos.y) (hrl : t.pos.rl = s.pos.rl ∨ t.pos.rl = s.pos.y) :
    t.sampleSupply dir c := by
  refine ⟨fun hp => ⟨fun h0 => ?_, fun hne => ?_⟩, fun hd => ?_⟩
  · rw [hx, hy]
    exact hk.samples _ _ _ ((h.1 (hk.cfg ▸ hp)).1 (hx ▸ h0))
  · have hne' : s.pos.y ≠ s.pos.rl := by
      rcases hrl with hrl | hrl
      · rw [← hy, ← hrl]; exact hne
      · exact absurd (hy.trans hrl.symm) hne
    have h2 := (h.1 (hk.cfg ▸ hp)).2 hne'
    rw [hx, hy]
    exact ⟨hk.samples _ _ _ h2.1, fun h0 => hk.samples _ _ _ (h2.2 h0)⟩
  · rw [hx, hy]
    exact hk.samples _ _ _ (h.2 hd)

/-- The positions of the next samples of some components. -/
abbrev State.regionOf (s : State) (cs : List (Fin 4)) : Region :=
  fun c x y => c ∈ cs ∧ x = s.pos.x.toNat ∧ y = s.pos.y.toNat

theorem codeComponents_ends (dir : Dir) (cs : List (Fin 4)) (s : State) (hs : s.Walkable) (hr : Ready dir s)
    (hx : s.pos.x.toNat < s.cfg.width.toNat) :
    Cmd.Ends (codeComponents dir cs) s
      (fun _ t => Walked dir (64 * cs.length) (s.regionOf cs) s t ∧ t.pos = s.pos ∧ ∀ c ∈ cs, t.hasHere c)
      (WalkHalt dir s (64 * cs.length) (s.regionOf cs)) (hangCause dir s (∀ c ∈ cs, s.sampleSupply dir c)) := by
  induction cs generalizing s with
  | nil => exact Cmd.Ends.pure ⟨(Walked.refl hr).weaken (Nat.le_refl _) Region.none_le, rfl, fun _ h => by cases h⟩
  | cons c cs ih =>
    unfold codeComponents
    have hP : ∀ c' x y, s.regionHere c c' x y → s.regionOf (c :: cs) c' x y := fun c' x y h =>
      ⟨h.1 ▸ List.mem_cons_self .., h.2⟩
    refine (codeSample_ends dir c s hs hr hx).seq
      (fun e u h => h.weaken (by simp only [List.length_cons]; omega) hP)
      (fun h => h.back (Kept.refl s) fun hp => hp c (List.mem_cons_self ..)) ?_
    rintro _ t ⟨hw, hpos, hh⟩
    have hQ : ∀ c' x y, t.regionOf cs c' x y → s.regionOf (c :: cs) c' x y := fun c' x y h => by
      unfold State.regionOf at h ⊢
      rw [hpos] at h
      exact ⟨List.mem_cons_of_mem _ h.1, h.2⟩
    refine (ih t (hs.next hw.kept) hw.ready (by rw [hpos, hw.kept.cfg]; exact hx)).mono ?_ ?_ ?_
    · rintro _ u ⟨hw', hpos', hh'⟩
      refine ⟨(hw.trans hw').weaken (by simp only [List.length_cons]; omega)
        (fun c' x y h => h.elim (hP c' x y) (hQ c' x y)), hpos'.trans hpos, ?_⟩
      intro c' hc'
      rcases List.mem_cons.1 hc' with rfl | hc'
      · have := hw'.kept.samples _ _ _ hh
        rw [← hpos'] at this
        exact this
      · exact hh' c' hc'
    · exact fun e u h => h.back hw (by simp only [List.length_cons]; omega) hP hQ
    · exact fun h => h.back hw.kept fun hp c' hc' =>
        sampleSupply_next (hp c' (List.mem_cons_of_mem _ hc')) hw.kept (by rw [hpos]) (by rw [hpos]) (.inl (by rw [hpos]))

/-! ## Restart -/

/-- The position after a restart (rules R181 to R183). -/
def Position.restarted (p : Position) : Position := { p with m := p.m + 1, rl := p.y, mcucnt := 0 }

/-- The state `RestartReset` leaves (rule R183). -/
theorem Kept.restartReset (s : State) (p : Position) (e : Engine) (he : s.Steady → e.eos = true → s.status.exhausted = true) :
    Kept s { s.resetCtx.clearDiff with pos := p, eng := e } :=
  { Kept.refl s with
    sink := id
    writer := id
    source := fun a b => ⟨a, b⟩
    samples := fun _ _ _ => id
    steady := fun h => ⟨h.build, ctxLegal_reset rfl, ⟨(DiffSound.clear s).da, (DiffSound.clear s).db,
      (DiffSound.clear s).wf⟩, h.marker, he h, h.samples, h.fault⟩ }

/-- The registers `EncInit` sets are sound (rule R105). -/
theorem encInit_sound (e : Engine) : Engine.EncodeSound { e with
    a := 0x10000, c := 0, ct := 11, b := 0, bv := false, sc := 0, zc := 0, eos := false, mode := .encode } where
  a_ge := by show 0x8000 ≤ (0x10000#17).toNat; decide
  a_le := by show (0x10000#17).toNat ≤ 0x10000; decide
  code_le := by show ((0#32).toNat + (0x10000#17).toNat) * 2 ^ (11#4).toNat ≤ _; decide
  ct_ge := by show 1 ≤ (11#4).toNat; decide
  ct_le := by show (11#4).toNat ≤ 11; decide
  b_ne := by show (0#8) ≠ 0xFF; decide
  b_zero := fun _ => rfl

theorem restartEncode_ends (s : State) (hr : Ready .encode s) :
    Cmd.Ends restartEncode s (fun _ t => Walked .encode 1 Region.none s t ∧ t.pos = s.pos.restarted)
      (WalkHalt .encode s 1 Region.none)
      (hangCause .encode s True) := by
  unfold restartEncode
  refine (encFlush_ends s (hr.encoder rfl)).seq ?_ (fun h => .inl h) ?_
  · intro e u hu
    cases hu with
    | sink hc hm hacc => exact ⟨Kept.of_coded hc (CtxMoved.of_same (c := 0) hm), ⟨.inl rfl, .inl hacc⟩, .of_same hc.samples, .of_coded hc⟩
    | width hc hm hw => exact ⟨Kept.of_coded hc (CtxMoved.of_same (c := 0) hm), ⟨.inr rfl, .inr (.inr hw)⟩, .of_same hc.samples, .of_coded hc⟩
  · rintro _ t1 rfl
    refine Cmd.Ends.get_bind ?_
    have hk1 : Kept s ((s.withEng s.eng.flushed).wrote s.eng.flushBytes) :=
      { Kept.refl s with
        sink := fun h a ha => h a (List.mem_of_mem_drop ha)
        writer := id
        source := fun a b => ⟨a, b⟩
        samples := fun _ _ _ => id
        steady := fun h => ⟨h.build, h.ctx, ⟨h.diff.da, h.diff.db, h.diff.wf⟩, h.marker, h.eos, h.samples, h.fault⟩ }
    have hq1 : Quiet .encode s ((s.withEng s.eng.flushed).wrote s.eng.flushBytes) :=
      ⟨fun _ => ⟨rfl, rfl, rfl, rfl⟩, fun h => by cases h⟩
    refine (emitMarker_ends _ _).seq
      (fun e u hu => ⟨hk1.trans hu.2.1, ⟨.inl hu.1, .inr (.inl fun h => hu.2.2.2.2 (hk1.writer h))⟩, .of_same hu.2.2.1, hq1.trans ⟨fun _ => hu.2.2.2.1, fun h => by cases h⟩⟩)
      (fun h => .inr (.inl fun h' => h (hk1.writer h'))) ?_
    rintro _ t2 ⟨p, ht2, hk2, hp2⟩
    have hsunk1 : Sunk s ((s.withEng s.eng.flushed).wrote s.eng.flushBytes) := by
      refine ⟨s.eng.flushBytes, ?_, stuffedBytes_flush (hr.encoder rfl), rfl⟩
      simp [State.wrote, Ports.sinkBytes, List.filterMap_append, sunk_wrotes]
    have hsunk2 : Sunk s t2 := hsunk1.trans (.of_same (by rw [ht2]; exact hp2.sunk) (by rw [ht2]))
    have hq2 : Quiet .encode s t2 := hq1.trans (.of_ports (by rw [ht2]; exact hp2) (fun _ => by rw [ht2]; exact ⟨rfl, rfl⟩)
      (by rw [ht2]))
    have hsamp2 : t2.ports.samples = s.ports.samples := by rw [ht2]; exact hp2.samples
    refine Cmd.Ends.bind_ok (cmd_modifyPos _ _) (Cmd.Ends.bind_ok (cmd_modify _ _)
      (Cmd.Ends.of_ok (cmd_modifyEng _ _) ?_))
    have hk := hk1.trans hk2
    have hk3 := hk.trans (Kept.restartReset t2 s.pos.restarted { t2.eng with
      a := 0x10000, c := 0, ct := 11, b := 0, bv := false, sc := 0, zc := 0, eos := false, mode := .encode }
      (fun _ h => by cases h))
    have hpos : t2.pos = s.pos := by rw [ht2]; rfl
    have hst : ∀ q : Position, q = s.pos → State.withEng
        ({ (t2.withPos { q with m := q.m + 1 }).resetCtx.clearDiff with
          pos := { (t2.withPos { q with m := q.m + 1 }).resetCtx.clearDiff.pos with
            rl := (t2.withPos { q with m := q.m + 1 }).resetCtx.clearDiff.pos.y, mcucnt := 0 } }) { t2.eng with
        a := 0x10000, c := 0, ct := 11, b := 0, bv := false, sc := 0, zc := 0, eos := false, mode := .encode } =
        { t2.resetCtx.clearDiff with pos := s.pos.restarted, eng := { t2.eng with
      a := 0x10000, c := 0, ct := 11, b := 0, bv := false, sc := 0, zc := 0, eos := false, mode := .encode } } := by
      rintro q rfl
      rfl
    have hgoal := hst t2.pos hpos
    rw [← hgoal] at hk3
    refine ⟨⟨hk3, ⟨rfl, fun _ => encInit_sound t2.eng, fun h => by cases h⟩, fun _ => Nat.zero_le _,
      .of_same hsamp2, hsunk2, hq2.trans ⟨fun _ => ⟨rfl, rfl, rfl, rfl⟩, fun h => by cases h⟩⟩, ?_⟩
    show { t2.pos with m := t2.pos.m + 1, rl := t2.pos.y, mcucnt := 0 } = s.pos.restarted
    rw [hpos]
    rfl

/-- The registers `DecInit` clears before it fetches (rule R114). -/
theorem Kept.decInit (s : State) : Kept s { s with
    marker := { code := 0, valid := false }
    eng := { s.eng with eos := false, b := 0, bv := false, sc := 0, zc := 0, mode := .decode } } :=
  { Kept.refl s with
    sink := id
    writer := id
    source := fun a b => ⟨a, b⟩
    samples := fun _ _ _ => id
    steady := fun h => ⟨h.build, h.ctx, ⟨h.diff.da, h.diff.db, h.diff.wf⟩, fun _ => rfl, (fun e => by cases e), h.samples,
      h.fault⟩ }

/-- `DecInit` as a part of a walk (rule R114). -/
theorem decInit_walked (s : State) :
    Cmd.Ends decInit s (fun _ t => Kept s t ∧ Ready .decode t ∧ t.pos = s.pos ∧ t.ctx = s.ctx ∧
      SamePorts .decode s.ports t.ports ∧ t.eng.nbytes = s.eng.nbytes) NoHalt (¬ s.ports.SourceAnswers) := by
  refine (decInit_ends s).mono ?_ (fun _ _ h => h) id
  rintro _ t ⟨hf, hctx, hsound, _, _, hheld⟩
  obtain ⟨_, _, h0, hp⟩ := hf.ports
  exact ⟨(Kept.decInit s).trans (Kept.of_fetched hf (CtxMoved.of_same (c := 0) hctx)),
    ⟨hf.mode, (fun e => by cases e), fun _ => ⟨hsound, hheld⟩⟩, hf.pos, hctx, 
    ⟨by rw [hp]; exact h0, by rw [hp], (fun h => by cases h), fun _ => by rw [hp]; exact ⟨rfl, rfl⟩⟩, hf.nbytes⟩

theorem NothingHeld.deferred {e : Engine} (h : e.NothingHeld) : e.deferred = 0 := by
  unfold Engine.deferred
  rw [h.sc, h.zc]
  rfl

theorem restartDecode_ends (s : State) :
    Cmd.Ends restartDecode s (fun _ t => Walked .decode 1 Region.none s t ∧ t.pos = s.pos.restarted)
      (WalkHalt .decode s 1 Region.none)
      (hangCause .decode s True) := by
  unfold restartDecode
  refine Cmd.Ends.get_bind ?_
  refine (markerSync_ends _ _ s).seq (fun _ _ h => h.elim) (fun h => .inl fun h' => h h'.2) ?_
  rintro _ t1 ⟨p, ht1, hk1, hp1⟩
  refine Cmd.Ends.bind_ok (cmd_modifyPos _ _) (Cmd.Ends.bind_ok (cmd_modify _ _) ?_)
  have hpos : t1.pos = s.pos := by rw [ht1]
  generalize ht2 : ({ (t1.withPos { t1.pos with m := t1.pos.m + 1 }).resetCtx.clearDiff with
          pos := { (t1.withPos { t1.pos with m := t1.pos.m + 1 }).resetCtx.clearDiff.pos with
            rl := (t1.withPos { t1.pos with m := t1.pos.m + 1 }).resetCtx.clearDiff.pos.y, mcucnt := 0 } } : State) = t2
  have hk2 : Kept t1 t2 := by
    rw [← ht2]
    exact Kept.restartReset t1 t1.pos.restarted t1.eng fun h => h.eos
  have hpos2 : t2.pos = s.pos.restarted := by rw [← ht2, ← hpos]; rfl
  have hk := hk1.trans hk2
  have hports : SamePorts .decode s.ports t2.ports := by
    rw [← ht2, ht1]
    exact hp1
  have hnb : t2.eng.nbytes = s.eng.nbytes := by
    rw [← ht2, ht1]
    rfl
  refine (decInit_walked t2).mono ?_ (fun _ _ h => h.elim) (fun h => .inl fun h' => h (hk.source h'.1 h'.2).1)
  rintro _ t3 ⟨hk3, hr3, hpos3, _, hp3, hn3⟩
  refine ⟨⟨hk.trans hk3, hr3, fun _ => ?_, .of_same (hp3.samples.trans hports.samples),
    .of_same (hp3.sunk.trans hports.sunk) (hn3.trans hnb), (Quiet.of_ports hports (fun h => by cases h) hnb).trans
      (.of_ports hp3 (fun h => by cases h) hn3)⟩, hpos3.trans hpos2⟩
  rw [NothingHeld.deferred (hr3.decoder rfl).2]
  omega

/-- `if RI > 0 and MCUCNT = RI: Restart(dir)` (rules R180 to R183). -/
theorem restartIfDue_ends (dir : Dir) (s : State) (hr : Ready dir s) :
    Cmd.Ends (restartIfDue dir) s
      (fun _ t => Walked dir 1 Region.none s t ∧ t.pos = if s.restartDue then s.pos.restarted else s.pos)
      (WalkHalt dir s 1 Region.none) (hangCause dir s True) := by
  unfold restartIfDue
  refine Cmd.Ends.get_bind ?_
  by_cases h : s.restartDue = true
  · simp only [h, if_true]
    cases dir
    · exact restartEncode_ends s hr
    · exact restartDecode_ends s
  · simp only [h]
    exact Cmd.Ends.pure ⟨(Walked.refl hr).weaken (by omega) Region.none_le, rfl⟩

/-! ## Columns and lines -/

theorem toNat_succ {w : Nat} (x : BitVec w) (h : x.toNat + 1 < 2 ^ w) : (x + 1).toNat = x.toNat + 1 := by
  rcases Nat.eq_zero_or_pos w with rfl | hw
  · have := x.isLt
    omega
  · have h1 : (1 : BitVec w).toNat = 1 := by
      rw [show (1 : BitVec w) = BitVec.ofNat w 1 from rfl, BitVec.toNat_ofNat]
      exact Nat.mod_eq_of_lt (Nat.one_lt_two_pow (by omega))
    rw [BitVec.toNat_add, h1]
    exact Nat.mod_eq_of_lt h

/-- The growth of SC + ZC one column allows. -/
abbrev State.columnRoom (s : State) : Nat := 64 * s.components.length + 1

theorem Kept.columnRoom {s t : State} (h : Kept s t) : t.columnRoom = s.columnRoom := by
  unfold State.columnRoom
  rw [h.components]

theorem restartDue_false {s : State} (hc : s.CountSound) (h : s.restartDue = false) (hri : 0 < s.cfg.ri.toNat) :
    s.pos.mcucnt.toNat < s.cfg.ri.toNat := by
  have := (hc hri).1
  unfold State.restartDue at h
  simp only [Bool.and_eq_false_iff, decide_eq_false_iff_not] at h
  omega

/-- One turn of the column loop (rule R180). -/
theorem walkColumn_ends (dir : Dir) (s : State) (hs : s.Walkable) (hr : Ready dir s)
    (hx : s.pos.x.toNat < s.cfg.width.toNat) (hc : s.CountSound) :
    Cmd.Ends (walkColumn dir) s
      (fun _ t => Walked dir s.columnRoom (s.regionOf s.components) s t ∧ t.pos.x.toNat = s.pos.x.toNat + 1 ∧ t.pos.y = s.pos.y ∧
        t.pos.yend = s.pos.yend ∧ (t.pos.rl = s.pos.rl ∨ t.pos.rl = s.pos.y) ∧ t.CountSound ∧
        ∀ c ∈ s.components, t.ports.has c s.pos.x.toNat s.pos.y.toNat)
      (WalkHalt dir s s.columnRoom (s.regionOf s.components)) (hangCause dir s (∀ c ∈ s.components, s.sampleSupply dir c)) := by
  have hwlt := s.cfg.width.isLt
  unfold walkColumn
  refine (restartIfDue_ends dir s hr).seq
    (fun e u h => h.weaken (by unfold State.columnRoom; omega) Region.none_le)
    (fun h => h.back (Kept.refl s) fun _ => trivial) ?_
  rintro _ t1 ⟨hw1, hpos1⟩
  have hx1 : t1.pos.x = s.pos.x := by rw [hpos1]; split <;> rfl
  have hy1 : t1.pos.y = s.pos.y := by rw [hpos1]; split <;> rfl
  have hye1 : t1.pos.yend = s.pos.yend := by rw [hpos1]; split <;> rfl
  have hrl1 : t1.pos.rl = s.pos.rl ∨ t1.pos.rl = s.pos.y := by
    rw [hpos1]; split
    · exact .inr rfl
    · exact .inl rfl
  have hcount1 : 0 < s.cfg.ri.toNat → t1.pos.mcucnt.toNat < s.cfg.ri.toNat ∧
      t1.pos.mcucnt.toNat % s.cfg.width.toNat = s.pos.x.toNat % s.cfg.width.toNat := by
    intro hri
    have h1 := hc hri
    rw [hpos1]
    by_cases hd : s.restartDue = true
    · simp only [hd, if_true]
      have hm : s.pos.mcucnt.toNat = s.cfg.ri.toNat := by
        unfold State.restartDue at hd
        simp only [Bool.and_eq_true, decide_eq_true_eq] at hd
        exact hd.2
      have h0 : s.cfg.ri.toNat % s.cfg.width.toNat = 0 := hs.ri.resolve_left (by omega)
      refine ⟨hri, ?_⟩
      rw [← h1.2, hm, h0]
      exact Nat.zero_mod _
    · simp only [hd]
      exact ⟨restartDue_false hc (by simpa using hd) hri, h1.2⟩
  refine Cmd.Ends.get_bind ?_
  rw [hw1.kept.components]
  have hs1 := hs.next hw1.kept
  have hQ : ∀ c x y, t1.regionOf s.components c x y → s.regionOf s.components c x y := fun c x y h => by
    unfold State.regionOf at h ⊢
    rw [hx1, hy1] at h
    exact h
  refine (codeComponents_ends dir s.components t1 hs1 hw1.ready (by rw [hx1, hw1.kept.cfg]; exact hx)).seq
    (fun e u h => h.back hw1 (by unfold State.columnRoom; omega) Region.none_le hQ)
    (fun h => h.back hw1.kept fun hp c hc => sampleSupply_next (hp c hc) hw1.kept hx1 hy1 hrl1) ?_
  rintro _ t2 ⟨hw2, hpos2, hh2⟩
  refine Cmd.Ends.of_ok (cmd_modifyPos _ _) ?_
  have hk3 : Kept t2 (t2.withPos { t2.pos with mcucnt := t2.pos.mcucnt + 1, x := t2.pos.x + 1 }) :=
    { Kept.refl t2 with
      sink := id
      writer := id
      source := fun a b => ⟨a, b⟩
      samples := fun _ _ _ => id
      steady := fun h => ⟨h.build, h.ctx, ⟨h.diff.da, h.diff.db, h.diff.wf⟩, h.marker, h.eos, h.samples, h.fault⟩ }
  have hw := (hw1.trans hw2).trans (Walked.of_kept hw2.ready hk3 rfl (.of_eq rfl) rfl rfl)
  have hX : (t2.pos.x + 1).toNat = s.pos.x.toNat + 1 := by
    rw [hpos2, hx1]
    exact toNat_succ _ (by omega)
  refine ⟨hw.weaken (by unfold State.columnRoom; omega)
    (fun c x y h => h.elim (fun h => h.elim False.elim (hQ c x y)) False.elim), hX, ?_, ?_, ?_, ?_, ?_⟩
  · show t2.pos.y = s.pos.y
    rw [hpos2, hy1]
  · show t2.pos.yend = s.pos.yend
    rw [hpos2, hye1]
  · show t2.pos.rl = s.pos.rl ∨ t2.pos.rl = s.pos.y
    rw [hpos2]
    exact hrl1
  · intro hri
    have hcfg : (t2.withPos { t2.pos with mcucnt := t2.pos.mcucnt + 1, x := t2.pos.x + 1 }).cfg = s.cfg :=
      hw.kept.cfg
    rw [hcfg] at hri ⊢
    have h1 := hcount1 hri
    have hrilt := s.cfg.ri.isLt
    have hM : (t2.pos.mcucnt + 1).toNat = t1.pos.mcucnt.toNat + 1 := by
      rw [hpos2]
      exact toNat_succ _ (by omega)
    show (t2.pos.mcucnt + 1).toNat ≤ s.cfg.ri.toNat ∧
      (t2.pos.mcucnt + 1).toNat % s.cfg.width.toNat = (t2.pos.x + 1).toNat % s.cfg.width.toNat
    rw [hM, hX]
    refine ⟨by omega, ?_⟩
    rw [Nat.add_mod, h1.2, ← Nat.add_mod]
  · intro c hc
    have := hh2 c hc
    unfold State.hasHere at this
    rw [hpos2, hx1, hy1] at this
    exact this

/-- The samples the columns from the current one on read (rules R185, R187). -/
structure State.LineSupply (s : State) (dir : Dir) : Prop where
  here : dir = .encode → ∀ c ∈ s.components, ∀ x, x < s.cfg.width.toNat → s.ports.has c x s.pos.y.toNat
  above : s.cfg.pred ≠ 0 → s.pos.y ≠ s.pos.rl →
    ∀ c ∈ s.components, ∀ x, x < s.cfg.width.toNat → s.ports.has c x (s.pos.y.toNat - 1)
  left : s.cfg.pred ≠ 0 → s.pos.x ≠ 0 → ∀ c ∈ s.components, s.ports.has c (s.pos.x.toNat - 1) s.pos.y.toNat

theorem LineSupply.sample {s : State} {dir : Dir} (h : s.LineSupply dir) (hx : s.pos.x.toNat < s.cfg.width.toNat)
    (c : Fin 4) (hc : c ∈ s.components) : s.sampleSupply dir c :=
  ⟨fun hp => ⟨fun h0 => h.left hp h0 c hc, fun hy => ⟨h.above hp hy c hc _ hx, fun _ => h.above hp hy c hc _ (by omega)⟩⟩,
    fun hd => h.here hd c hc _ hx⟩

/-- The positions the next `n` columns write. -/
abbrev State.regionColumns (s : State) (n : Nat) : Region :=
  fun c x y => c ∈ s.components ∧ s.pos.x.toNat ≤ x ∧ x < s.pos.x.toNat + n ∧ y = s.pos.y.toNat

/-- The turns of the column loop that are left (rule R180). -/
theorem walkColumns_ends (dir : Dir) (n : Nat) (s : State) (hs : s.Walkable) (hr : Ready dir s)
    (hx : s.pos.x.toNat + n = s.cfg.width.toNat) (hc : s.CountSound) (hrl : s.pos.rl.toNat ≤ s.pos.y.toNat) :
    Cmd.Ends (walkColumns dir n) s
      (fun _ t => Walked dir (s.columnRoom * n) (s.regionColumns n) s t ∧ t.pos.x.toNat = s.cfg.width.toNat ∧ t.pos.y = s.pos.y ∧
        t.pos.yend = s.pos.yend ∧ (t.pos.rl = s.pos.rl ∨ t.pos.rl = s.pos.y) ∧ t.CountSound ∧
        ∀ c ∈ s.components, ∀ x, s.pos.x.toNat ≤ x → x < s.cfg.width.toNat → t.ports.has c x s.pos.y.toNat)
      (WalkHalt dir s (s.columnRoom * n) (s.regionColumns n)) (hangCause dir s (s.LineSupply dir)) := by
  induction n generalizing s with
  | zero =>
    exact Cmd.Ends.pure ⟨(Walked.refl hr).weaken (by omega) Region.none_le, by omega, rfl, rfl, .inl rfl, hc,
      fun _ _ _ h1 h2 => by omega⟩
  | succ n ih =>
    unfold walkColumns
    have hxlt : s.pos.x.toNat < s.cfg.width.toNat := by omega
    have hroom : s.columnRoom * (n + 1) = s.columnRoom + s.columnRoom * n := by ring
    have hP : ∀ c x y, s.regionOf s.components c x y → s.regionColumns (n + 1) c x y := fun c x y h =>
      ⟨h.1, by omega, by omega, h.2.2⟩
    refine (walkColumn_ends dir s hs hr hxlt hc).seq (fun e u h => h.weaken (by omega) hP)
      (fun h => h.back (Kept.refl s) fun hp c hc => LineSupply.sample hp hxlt c hc) ?_
    rintro _ t ⟨hw, htx, hty, htye, htrl, htc, hth⟩
    have hQ : ∀ c x y, t.regionColumns n c x y → s.regionColumns (n + 1) c x y := fun c x y h => by
      unfold State.regionColumns at h ⊢
      rw [hw.kept.components, htx, hty] at h
      exact ⟨h.1, by omega, by omega, h.2.2.2⟩
    have hrl' : t.pos.rl.toNat ≤ t.pos.y.toNat := by
      rw [hty]
      rcases htrl with h | h <;> rw [h]
      exact hrl
    refine (ih t (hs.next hw.kept) hw.ready (by rw [htx, hw.kept.cfg]; omega) htc hrl').mono ?_ ?_ ?_
    · rintro _ u ⟨hw', hux, huy, huye, hurl, huc, huh⟩
      rw [hw.kept.columnRoom] at hw'
      rw [hw.kept.cfg] at hux huh
      rw [hw.kept.components] at huh
      refine ⟨(hw.trans hw').weaken (by omega) (fun c x y h => h.elim (hP c x y) (hQ c x y)), hux, huy.trans hty,
        huye.trans htye, ?_, huc, ?_⟩
      · rcases hurl with h | h
        · exact htrl.imp (h.trans ·) (h.trans ·)
        · exact .inr (h.trans hty)
      · intro c hc x hx1 hx2
        by_cases hx3 : x = s.pos.x.toNat
        · rw [hx3]
          exact hw'.kept.samples _ _ _ (hth c hc)
        · rw [← hty]
          exact huh c hc x (by omega) hx2
    · intro e u h
      rw [hw.kept.columnRoom] at h
      exact h.back hw (by omega) hP hQ
    · intro h
      refine h.back hw.kept fun hp => ⟨fun hd c hc x hx => ?_, fun hpr hne c hc x hx => ?_, fun hpr _ c hc => ?_⟩
      · rw [hw.kept.components] at hc
        rw [hw.kept.cfg] at hx
        rw [hty]
        exact hw.kept.samples _ _ _ (hp.here hd c hc x hx)
      · rw [hw.kept.components] at hc
        rw [hw.kept.cfg] at hx hpr
        rw [hty]
        refine hw.kept.samples _ _ _ (hp.above hpr ?_ c hc x hx)
        rcases htrl with h | h
        · rw [← hty, ← h]; exact hne
        · exact absurd (hty.trans h.symm) hne
      · rw [hw.kept.components] at hc
        rw [hty, htx, Nat.add_sub_cancel]
        exact hth c hc

theorem clearLeft_ends (cs : List (Fin 4)) (s : State) :
    Cmd.Ends (clearLeft cs) s (fun _ t => Kept s t ∧ t.eng = s.eng ∧ t.pos = s.pos ∧ t.ports = s.ports ∧
      t.status = s.status ∧ t.marker = s.marker) NoHalt False := by
  induction cs generalizing s with
  | nil => exact Cmd.Ends.pure ⟨Kept.refl s, rfl, rfl, rfl, rfl, rfl⟩
  | cons c cs ih =>
    refine Cmd.Ends.bind_ok (cmd_modify _ _) ?_
    have hk : Kept s (s.setDa c 0) :=
      { Kept.refl s with
        sink := id
        writer := id
        source := fun a b => ⟨a, b⟩
        samples := fun _ _ _ => id
        steady := fun h => ⟨h.build, h.ctx, DiffSound.setDa h.diff c (by decide), h.marker, h.eos, h.samples, h.fault⟩ }
    exact (ih (s.setDa c 0)).mono (fun _ u h => ⟨hk.trans h.1, h.2.1, h.2.2⟩) (fun _ _ h => h) id

/-- The growth of SC + ZC one line allows. -/
abbrev State.lineRoom (s : State) : Nat := s.columnRoom * s.cfg.width.toNat

/-- The positions the next `n` lines write. -/
abbrev State.regionLines (s : State) (n : Nat) : Region :=
  fun c x y => c ∈ s.components ∧ x < s.cfg.width.toNat ∧ s.pos.y.toNat ≤ y ∧ y < s.pos.y.toNat + n

/-- One turn of the line loop (rule R180). -/
theorem walkLine_ends (dir : Dir) (s : State) (hs : s.Walkable) (hr : Ready dir s)
    (hx : s.pos.x.toNat % s.cfg.width.toNat = 0) (hc : s.CountSound) (hrl : s.pos.rl.toNat ≤ s.pos.y.toNat)
    (hy : s.pos.y.toNat < s.pos.yend.toNat) :
    Cmd.Ends (walkLine dir) s
      (fun _ t => Walked dir s.lineRoom (s.regionLines 1) s t ∧ t.pos.x.toNat = s.cfg.width.toNat ∧
        t.pos.y.toNat = s.pos.y.toNat + 1 ∧ t.pos.yend = s.pos.yend ∧ t.pos.rl.toNat ≤ s.pos.y.toNat ∧
        t.CountSound ∧ ∀ c ∈ s.components, ∀ x, x < s.cfg.width.toNat → t.ports.has c x s.pos.y.toNat)
      (WalkHalt dir s s.lineRoom (s.regionLines 1)) (hangCause dir s (s.GroupSupply dir)) := by
  unfold walkLine
  refine Cmd.Ends.get_bind ?_
  refine (clearLeft_ends s.components s).seq (fun _ _ h => h.elim) False.elim ?_
  rintro _ t1 ⟨hk1, he1, hpos1, hp1, hs1, hm1⟩
  refine Cmd.Ends.bind_ok (cmd_modifyPos _ _) (Cmd.Ends.get_bind ?_)
  have hk2' : Kept t1 (t1.withPos { t1.pos with x := 0 }) :=
    { Kept.refl t1 with
      sink := id
      writer := id
      source := fun a b => ⟨a, b⟩
      samples := fun _ _ _ => id
      steady := fun h => ⟨h.build, h.ctx, ⟨h.diff.da, h.diff.db, h.diff.wf⟩, h.marker, h.eos, h.samples, h.fault⟩ }
  generalize ht2 : t1.withPos { t1.pos with x := 0 } = t2 at hk2'
  have hk2 := hk1.trans hk2'
  have hpos2 : t2.pos = { s.pos with x := 0 } := by rw [← ht2, ← hpos1]; rfl
  have he2 : t2.eng = s.eng := by rw [← ht2]; exact he1
  have hp2 : t2.ports = s.ports := by rw [← ht2]; exact hp1
  have hw2 : Walked dir 0 Region.none s t2 := Walked.of_kept hr hk2 he2 (.of_eq hp2) (by rw [← ht2]; exact hs1)
    (by rw [← ht2]; exact hm1)
  have hQ : ∀ c x y, t2.regionColumns s.cfg.width.toNat c x y → s.regionLines 1 c x y := fun c x y h => by
    unfold State.regionColumns at h
    rw [hk2.components, hpos2] at h
    have h1 : (0#16).toNat = 0 := rfl
    have h2 := h.2.2.1
    have h3 := h.2.2.2
    simp only at h2 h3
    unfold State.regionLines
    exact ⟨h.1, by change x < (0#16).toNat + _ at h2; omega, by omega, by omega⟩
  have hc2 : t2.CountSound := by
    intro hri
    rw [hk2.cfg] at hri ⊢
    rw [hpos2]
    have := hc hri
    refine ⟨this.1, this.2.trans (hx.trans (Nat.zero_mod _).symm)⟩
  rw [hk2.cfg]
  have hcr := hk2.columnRoom
  refine (walkColumns_ends dir s.cfg.width.toNat t2 (hs.next hk2) hw2.ready (by rw [hk2.cfg, hpos2]; exact Nat.zero_add _)
    hc2 (by rw [hpos2]; exact hrl)).seq ?_ ?_ ?_
  · intro e u h
    rw [hcr] at h
    exact h.back hw2 (by unfold State.lineRoom; omega) Region.none_le hQ
  · intro h
    refine h.back hk2 fun hp => ⟨fun hd c hc x hx => ?_, fun hpr hne c hc x hx => ?_, fun _ h0 => ?_⟩
    · rw [hk2.components] at hc
      rw [hk2.cfg] at hx
      rw [hpos2]
      exact hk2.samples _ _ _ (hp.here hd c hc x hx _ (Nat.le_refl _) hy)
    · rw [hk2.components] at hc
      rw [hk2.cfg] at hx hpr
      rw [hpos2] at hne ⊢
      exact hk2.samples _ _ _ (hp.above hpr hne c hc x hx)
    · rw [hpos2] at h0
      exact absurd rfl h0
  · rintro _ t3 ⟨hw3, h3x, h3y, h3ye, h3rl, h3c, h3h⟩
    rw [hcr] at hw3
    rw [hk2.cfg] at h3x h3h
    rw [hk2.components] at h3h
    rw [hpos2] at h3y h3ye h3rl h3h
    refine Cmd.Ends.of_ok (cmd_modifyPos _ _) ?_
    have hk4 : Kept t3 (t3.withPos { t3.pos with y := t3.pos.y + 1 }) :=
      { Kept.refl t3 with
        sink := id
        writer := id
        source := fun a b => ⟨a, b⟩
        samples := fun _ _ _ => id
        steady := fun h => ⟨h.build, h.ctx, ⟨h.diff.da, h.diff.db, h.diff.wf⟩, h.marker, h.eos, h.samples, h.fault⟩ }
    have hw4 := (hw2.trans hw3).trans (Walked.of_kept hw3.ready hk4 rfl (.of_eq rfl) rfl rfl)
    have hylt := s.pos.yend.isLt
    have hY : (t3.pos.y + 1).toNat = s.pos.y.toNat + 1 := by
      rw [show t3.pos.y = s.pos.y from h3y]
      exact toNat_succ _ (by omega)
    refine ⟨hw4.weaken (by rw [Nat.zero_add, Nat.add_zero])
      (fun c x y h => h.elim (fun h => h.elim False.elim (hQ c x y)) False.elim), h3x, hY, h3ye, ?_, h3c, fun c hc x hx => ?_⟩
    · show t3.pos.rl.toNat ≤ s.pos.y.toNat
      rcases h3rl with h | h <;> rw [h]
      exact hrl
    · exact h3h c hc x (Nat.zero_le _) hx

/-- The turns of the line loop that are left (rule R180). -/
theorem walkLines_ends (dir : Dir) (n : Nat) (s : State) (hs : s.Walkable) (hr : Ready dir s)
    (hx : s.pos.x.toNat % s.cfg.width.toNat = 0) (hc : s.CountSound) (hrl : s.pos.rl.toNat ≤ s.pos.y.toNat)
    (hn : s.pos.y.toNat + n = s.pos.yend.toNat) :
    Cmd.Ends (walkLines dir n) s
      (fun _ t => Walked dir (s.lineRoom * n) (s.regionLines n) s t ∧ t.pos.x.toNat % s.cfg.width.toNat = 0 ∧ t.pos.y = s.pos.yend ∧
        t.pos.yend = s.pos.yend ∧ t.pos.rl.toNat ≤ t.pos.y.toNat ∧ t.CountSound)
      (WalkHalt dir s (s.lineRoom * n) (s.regionLines n)) (hangCause dir s (s.GroupSupply dir)) := by
  induction n generalizing s with
  | zero =>
    exact Cmd.Ends.pure ⟨(Walked.refl hr).weaken (by omega) Region.none_le, hx, BitVec.eq_of_toNat_eq (by omega), rfl, hrl, hc⟩
  | succ n ih =>
    unfold walkLines
    have hroom : s.lineRoom * (n + 1) = s.lineRoom + s.lineRoom * n := by ring
    have hP : ∀ c x y, s.regionLines 1 c x y → s.regionLines (n + 1) c x y := fun c x y h =>
      ⟨h.1, h.2.1, h.2.2.1, by have := h.2.2.2; omega⟩
    refine (walkLine_ends dir s hs hr hx hc hrl (by omega)).seq (fun e u h => h.weaken (by omega) hP) id ?_
    rintro _ t ⟨hw, htx, hty, htye, htrl, htc, hth⟩
    have hQ : ∀ c x y, t.regionLines n c x y → s.regionLines (n + 1) c x y := fun c x y h => by
      unfold State.regionLines at h ⊢
      rw [hw.kept.components, hw.kept.cfg, hty] at h
      exact ⟨h.1, h.2.1, by omega, by omega⟩
    have hlr : t.lineRoom = s.lineRoom := by
      unfold State.lineRoom
      rw [hw.kept.columnRoom, hw.kept.cfg]
    refine (ih t (hs.next hw.kept) hw.ready (by rw [htx, hw.kept.cfg]; exact Nat.mod_self _) htc (by omega)
      (by rw [htye]; omega)).mono ?_ ?_ ?_
    · rintro _ u ⟨hw', hux, huy, huye, hurl, huc⟩
      rw [hlr] at hw'
      rw [hw.kept.cfg] at hux
      exact ⟨(hw.trans hw').weaken (by omega) (fun c x y h => h.elim (hP c x y) (hQ c x y)), hux, huy.trans htye, huye.trans htye, hurl, huc⟩
    · intro e u h
      rw [hlr] at h
      exact h.back hw (by omega) hP hQ
    · intro h
      refine h.back hw.kept fun hp => ⟨fun hd c hc x hx y hy1 hy2 => ?_, fun _ _ c hc x hx => ?_⟩
      · rw [hw.kept.components] at hc
        rw [hw.kept.cfg] at hx
        rw [htye] at hy2
        exact hw.kept.samples _ _ _ (hp.here hd c hc x hx y (by omega) hy2)
      · rw [hw.kept.components] at hc
        rw [hw.kept.cfg] at hx
        rw [hty, Nat.add_sub_cancel]
        exact hth c hc x hx

/-- The positions the walk of the row group writes. -/
abbrev State.regionGroup (s : State) : Region := s.regionLines (s.pos.yend.toNat - s.pos.y.toNat)

/-- `Walk(dir)` (rule R180). -/
theorem walk_ends (dir : Dir) (s : State) (hs : s.Walkable) (hr : Ready dir s) (hx : s.pos.x = 0)
    (hc : s.CountSound) (hrl : s.pos.rl.toNat ≤ s.pos.y.toNat) (hy : s.pos.y.toNat ≤ s.pos.yend.toNat) :
    Cmd.Ends (walk dir) s
      (fun _ t => Walked dir s.groupRoom s.regionGroup s t ∧ t.pos.x = 0 ∧ t.pos.y = s.pos.yend ∧
        t.pos.yend = s.pos.yend ∧ t.pos.rl.toNat ≤ t.pos.y.toNat ∧ t.CountSound)
      (WalkHalt dir s s.groupRoom s.regionGroup) (hangCause dir s (s.GroupSupply dir)) := by
  unfold walk
  refine Cmd.Ends.get_bind ?_
  refine (walkLines_ends dir _ s hs hr (by rw [hx]; exact Nat.zero_mod _) hc hrl (by omega)).bind ?_
  rintro _ t ⟨hw, htx, hty, htye, htrl, htc⟩
  refine Cmd.Ends.of_ok (cmd_modifyPos _ _) ?_
  have hk : Kept t (t.withPos { t.pos with x := 0 }) :=
    { Kept.refl t with
      sink := id
      writer := id
      source := fun a b => ⟨a, b⟩
      samples := fun _ _ _ => id
      steady := fun h => ⟨h.build, h.ctx, ⟨h.diff.da, h.diff.db, h.diff.wf⟩, h.marker, h.eos, h.samples, h.fault⟩ }
  refine ⟨(hw.trans (Walked.of_kept hw.ready hk rfl (.of_eq rfl) rfl rfl)).weaken (Nat.le_refl _)
    (fun c x y h => h.elim id False.elim), rfl, hty, htye, htrl, fun hri => ?_⟩
  have h1 := htc hri
  refine ⟨h1.1, h1.2.trans ?_⟩
  show t.pos.x.toNat % t.cfg.width.toNat = 0 % t.cfg.width.toNat
  rw [hw.kept.cfg, htx]
  exact (Nat.zero_mod _).symm

end Sys2Proof.Machine
end

