-- ==== Sys2Proof/Laws/Commands.lean ====
section
/-! SUPPORT. What each command does to the invariant and how its body can end: one lemma per command, over the
judgments of Laws/Walk.lean. -/

namespace Sys2Proof.Machine

/-! ## The invariant and its parts -/

theorem State.Inv.steady {s : State} (h : s.Inv) (hf : s.status.fault = false) : s.Steady :=
  ⟨h.build, h.ctx, h.diff, h.marker, h.eos, h.samples, hf⟩

/-- The invariant speaks of these fields only. -/
theorem State.Inv.congr {s t : State} (h : s.Inv) (h1 : t.status = s.status) (h2 : t.marker = s.marker)
    (h3 : t.cfg = s.cfg) (h4 : t.eng = s.eng) (h5 : t.ctx = s.ctx) (h6 : t.da = s.da) (h7 : t.db = s.db)
    (h8 : t.pos = s.pos) (h9 : t.build = s.build) (h10 : t.ports.samples = s.ports.samples) : t.Inv := by
  obtain ⟨st, rg, mk, cf, en, cx, da, db, ps, bd, pt⟩ := s
  obtain ⟨st', rg', mk', cf', en', cx', da', db', ps', bd', pt'⟩ := t
  simp only at h1 h2 h3 h4 h5 h6 h7 h8 h9 h10
  subst h1 h2 h3 h4 h5 h6 h7 h8 h9
  refine ⟨h.build, h.ctx, h.encoder, h.decoder, h.held, h.faulted, h.fault, ?_, ⟨h.diff.da, h.diff.db, h.diff.wf⟩,
    h.marker, h.eos, ?_⟩
  · intro hs
    have h' := h.scan hs
    exact ⟨h'.mode, h'.config, h'.x_zero, h'.y_le, h'.yend_le, h'.rl_le, h'.ready, h'.consumed, h'.count⟩
  · show Memory.wf sampleBlank pt'.samples = true
    rw [h10]
    exact h.samples

/-- A Faulted entry (rule R226) from a steady state meets the invariant. -/
theorem State.Steady.enterFaulted {u : State} (h : u.Steady) {e : ErrCode} (he : e.isFatal = true) :
    (u.enterFaulted e).Inv where
  build := by rw [enterFaulted_build]; exact h.build
  ctx := fun c b hb => by rw [ctxAt_enterFaulted]; exact h.ctx c b hb
  encoder := fun hm => by rw [enterFaulted_eng] at hm; cases hm
  decoder := fun hm => by rw [enterFaulted_eng] at hm; cases hm
  held := fun hf => by rw [enterFaulted_fault] at hf; cases hf
  faulted := by simp
  fault := fun _ => by
    rw [enterFaulted_err _ _ h.fault]
    exact ⟨by rw [enterFaulted_eng], he⟩
  scan := fun hs => by
    unfold State.scanning at hs
    simp at hs
  diff := ⟨by rw [enterFaulted_da]; exact h.diff.da, by rw [enterFaulted_db, enterFaulted_build]; exact h.diff.db,
    by rw [enterFaulted_db]; exact h.diff.wf⟩
  marker := by rw [enterFaulted_marker]; exact h.marker
  eos := by rw [enterFaulted_eng, enterFaulted_exhausted]; exact h.eos
  samples := by rw [enterFaulted_ports]; exact h.samples

/-- A report of a non-fatal error (rule R227) keeps the invariant. -/
theorem State.Inv.report {s : State} (h : s.Inv) (e : ErrCode) : (s.report e).Inv := by
  by_cases hf : s.status.fault = true
  · rw [report_of_fault _ _ hf]
    exact h
  · have hf' : s.status.fault = false := by simpa using hf
    rw [report_of_not_fault _ _ hf']
    refine ⟨h.build, h.ctx, h.encoder, h.decoder, h.held, h.faulted, fun h' => ?_, fun hs => ?_,
      ⟨h.diff.da, h.diff.db, h.diff.wf⟩, h.marker, h.eos, h.samples⟩
    · exact absurd h' hf
    · have h' := h.scan hs
      exact ⟨h'.mode, h'.config, h'.x_zero, h'.y_le, h'.yend_le, h'.rl_le, h'.ready, h'.consumed, h'.count⟩

/-- The invariant of a state in which no scan runs. -/
theorem Inv.of_raw {t : State} (h : t.Steady) (hraw : t.raw = true) (he : t.eng.mode = .encode → t.eng.EncodeSound)
    (hd : t.eng.mode = .decode → t.eng.DecodeSound) (hh : t.eng.mode ≠ .encode → t.eng.NothingHeld) : t.Inv where
  build := h.build
  ctx := h.ctx
  encoder := he
  decoder := hd
  held := fun _ => hh
  faulted := by
    unfold State.raw at hraw
    simp only [Bool.or_eq_true, decide_eq_true_eq] at hraw
    constructor
    · intro hf; rw [h.fault] at hf; cases hf
    · intro hf; rw [hf] at hraw; rcases hraw with h | h <;> cases h
  fault := fun hf => by rw [h.fault] at hf; cases hf
  scan := fun hs => by
    unfold State.raw at hraw
    simp only [Bool.or_eq_true, decide_eq_true_eq] at hraw
    unfold State.scanning at hs
    rcases hraw with h | h <;> rw [h] at hs <;> simp at hs
  diff := h.diff
  marker := h.marker
  eos := h.eos
  samples := h.samples

theorem Ready.engine {dir : Dir} {t : State} (h : Ready dir t) :
    (t.eng.mode = .encode → t.eng.EncodeSound) ∧ (t.eng.mode = .decode → t.eng.DecodeSound) ∧
      (t.eng.mode ≠ .encode → t.eng.NothingHeld) := by
  have hm := h.mode
  cases dir
  · exact ⟨fun _ => h.encoder rfl, (fun h' => by rw [hm] at h'; cases h'), fun h' => absurd hm h'⟩
  · exact ⟨(fun h' => by rw [hm] at h'; cases h'), fun _ => (h.decoder rfl).1, fun _ => (h.decoder rfl).2⟩

/-- The invariant of a state in which a scan runs. -/
theorem Inv.of_scanning {t : State} (h : t.Steady) (hr : Ready t.status.dmode t) (hsc : t.scanning)
    (hs : t.ScanSound) : t.Inv where
  build := h.build
  ctx := h.ctx
  encoder := hr.engine.1
  decoder := hr.engine.2.1
  held := fun _ => hr.engine.2.2
  faulted := by
    constructor
    · intro hf; rw [h.fault] at hf; cases hf
    · intro hf
      unfold State.scanning at hsc
      rw [hf] at hsc
      simp at hsc
  fault := fun hf => by rw [h.fault] at hf; cases hf
  scan := fun _ => hs
  diff := h.diff
  marker := h.marker
  eos := h.eos
  samples := h.samples

theorem State.Inv.ready {s : State} (h : s.Inv) (hf : s.status.fault = false) {dir : Dir}
    (hm : s.eng.mode = dirMode dir) : Ready dir s where
  mode := hm
  encoder := fun hd => h.encoder (by rw [hm, hd]; rfl)
  decoder := fun hd => ⟨h.decoder (by rw [hm, hd]; rfl), h.held hf (by rw [hm, hd]; simp [dirMode])⟩

theorem rawIn_true {s : State} {m : EngMode} (h : s.rawIn m = true) : s.raw = true ∧ s.eng.mode = m := by
  unfold State.rawIn at h
  simpa using h

theorem raw_of_dstate {s t : State} (h : s.raw = true) (hd : t.status.dstate = s.status.dstate) : t.raw = true := by
  unfold State.raw at *
  rw [hd]
  exact h

/-- A checked command keeps the invariant if its body does. -/
theorem guarded_inv {operands precondition : Bool} {body : Cmd Unit} {s t : State} {hang : Prop} (hi : s.Inv)
    (h : guarded operands precondition body s = .next t)
    (hb : s.status.fault = false → operands = true → precondition = true →
      Cmd.Ends body s (fun _ t => t.Inv) (fun _ u => u.Steady) hang) : t.Inv := by
  rcases guarded_next h with ⟨e, rfl, _⟩ | ⟨hf, ho, hp, ht⟩
  · exact hi.report e
  · rcases (hb hf ho hp).outcome ht with h' | ⟨u, e, he, hu, rfl⟩
    · exact h'
    · exact hu.enterFaulted he

/-! ## Engine commands -/

/-- A change of the engine registers alone. -/
theorem Kept.of_eng (s : State) (e : Engine) (he : s.Steady → e.eos = true → s.status.exhausted = true) :
    Kept s (s.withEng e) :=
  { Kept.refl s with
    sink := id
    writer := id
    source := fun a b => ⟨a, b⟩
    samples := fun _ _ _ => id
    steady := fun h => ⟨h.build, h.ctx, ⟨h.diff.da, h.diff.db, h.diff.wf⟩, h.marker, he h, h.samples, h.fault⟩ }

/-- A steady state with other registers and another RESULT, DSTATE and ERR is steady. -/
theorem State.Steady.with {s : State} (h : s.Steady) (r : HostRegs) (d : DState) (e : ErrCode) (p : Position) :
    State.Steady { s with regs := r, status := { s.status with dstate := d, err := e }, pos := p } :=
  ⟨h.build, h.ctx, ⟨h.diff.da, h.diff.db, h.diff.wf⟩, h.marker, h.eos, h.samples, h.fault⟩

theorem execEncInit_inv {s t : State} (hi : s.Inv) (h : execEncInit s = .next t) : t.Inv := by
  refine guarded_inv (hang := False) hi h fun hf _ hp => ?_
  refine Cmd.Ends.bind_ok (cmd_modifyEng _ _) (Cmd.Ends.of_ok (cmd_modifyEng _ _) ?_)
  have hs := (Kept.of_eng s { s.eng with
    a := 0x10000, c := 0, ct := 11, b := 0, bv := false, sc := 0, zc := 0, eos := false, mode := .encode, nbytes := 0 }
    (fun _ h => by cases h)).steady (hi.steady hf)
  exact Inv.of_raw hs hp (fun _ => encInit_sound { s.eng with nbytes := 0 }) (fun h => by cases h)
    (fun h => absurd rfl h)

theorem encodeHalt_steady {s u : State} {c : Fin 4} {e : ErrCode} {w : Prop} (hs : s.Steady)
    (h : EncodeHalt s (CtxMoved c s) w e u) : u.Steady := by
  cases h with
  | sink hc hm _ => exact (Kept.of_coded hc hm).steady hs
  | width hc hm _ => exact (Kept.of_coded hc hm).steady hs

theorem execEncBit_inv {c : Fin 4} {bin : Byte} {d : Bool} {s t : State} (hi : s.Inv)
    (h : execEncBit c bin d s = .next t) : t.Inv := by
  refine guarded_inv (hang := ¬ s.ports.SinkAccepts) hi h fun hf ho hp => ?_
  obtain ⟨hraw, hm⟩ := rawIn_true hp
  have hs := hi.steady hf
  have hb : bin.toNat < Config.nBin := by simpa [binLegal] using ho
  refine (encodeBit_ends s c bin.toNat d hb (hi.encoder hm) hs.build (hs.ctx c _ hb)).mono ?_
    (fun e u hu => encodeHalt_steady hs hu) id
  rintro _ t ht
  obtain ⟨bs, hc, _⟩ := ht.coded
  have hk := Kept.of_coded hc (ht.moved hb hs.build (hs.ctx c _ hb))
  have hmt : t.eng.mode = .encode := hc.mode.trans hm
  exact Inv.of_raw (hk.steady hs) (raw_of_dstate hraw hk.dstate) (fun _ => ht.sound)
    (fun h => by rw [hmt] at h; cases h) (fun h => absurd hmt h)

theorem execEncDiff_inv {c : Fin 4} {s t : State} (hi : s.Inv) (h : execEncDiff c s = .next t) : t.Inv := by
  refine guarded_inv (hang := ¬ s.ports.SinkAccepts) hi h fun hf ho hp => ?_
  obtain ⟨hraw, hm⟩ := rawIn_true hp
  have hs := hi.steady hf
  have hv : -32768 ≤ s.arg0 ∧ s.arg0 ≤ 32768 := by
    simp only [Bool.and_eq_true, residualLegal, decide_eq_true_eq] at ho
    exact ho.1
  refine (encodeV_ends c _ _ _ _ _ s hv (hi.encoder hm) hs.build hs.ctx).mono ?_
    (fun e u hu => encodeHalt_steady hs hu) id
  rintro _ t ht
  obtain ⟨bs, hc, _⟩ := ht.coded
  have hk := Kept.of_coded hc ht.moved
  have hmt : t.eng.mode = .encode := hc.mode.trans hm
  exact Inv.of_raw (hk.steady hs) (raw_of_dstate hraw hk.dstate) (fun _ => ht.sound)
    (fun h => by rw [hmt] at h; cases h) (fun h => absurd hmt h)

/-- How the flush as a part of a command can end in a fatal error (rules R106, R110). -/
structure FlushHalt (s : State) (room : Prop) (e : ErrCode) (u : State) : Prop where
  code : e = .sinkFailure ∨ e = .stateCorruption
  kept : Kept s u
  quiet : Quiet .encode s u
  samples : u.ports.samples = s.ports.samples
  cause : ¬ s.ports.SinkAccepts ∨ ¬ s.ports.WriterAccepts ∨ ¬ room

/-- The flush as a part of a command: nothing is held and the engine is idle (rule R113). -/
theorem encFlush_steady (s : State) (he : s.eng.EncodeSound) :
    Cmd.Ends encFlush s
      (fun _ t => Kept s t ∧ t.pos = s.pos ∧ t.eng.NothingHeld ∧ t.eng.mode = .idle ∧ Sunk s t ∧ Quiet .encode s t ∧
        t.ports.samples = s.ports.samples)
      (FlushHalt s (s.eng.Room 1)) (¬ s.ports.SinkAccepts) := by
  refine (encFlush_ends s he).mono ?_ ?_ id
  · rintro _ t rfl
    have hk : Kept s ((s.withEng s.eng.flushed).wrote s.eng.flushBytes) :=
      { Kept.refl s with
        sink := fun h a ha => h a (List.mem_of_mem_drop ha)
        writer := id
        source := fun a b => ⟨a, b⟩
        samples := fun _ _ _ => id
        steady := fun h => ⟨h.build, h.ctx, ⟨h.diff.da, h.diff.db, h.diff.wf⟩, h.marker, h.eos, h.samples, h.fault⟩ }
    refine ⟨hk, rfl, ⟨rfl, rfl, rfl, rfl⟩, rfl, ⟨s.eng.flushBytes, ?_, stuffedBytes_flush he, rfl⟩,
      ⟨fun _ => ⟨rfl, rfl, rfl, rfl⟩, fun h => by cases h⟩, rfl⟩
    simp [State.wrote, Ports.sinkBytes, List.filterMap_append, sunk_wrotes]
  · intro e u hu
    cases hu with
    | sink hc hm h =>
      exact ⟨.inl rfl, Kept.of_coded hc (CtxMoved.of_same (c := 0) hm), .of_coded hc, hc.samples, .inl h⟩
    | width hc hm h =>
      exact ⟨.inr rfl, Kept.of_coded hc (CtxMoved.of_same (c := 0) hm), .of_coded hc, hc.samples, .inr (.inr h)⟩

theorem execEncFlush_inv {s t : State} (hi : s.Inv) (h : execEncFlush s = .next t) : t.Inv := by
  refine guarded_inv (hang := ¬ s.ports.SinkAccepts) hi h fun hf _ hp => ?_
  obtain ⟨hraw, hm⟩ := rawIn_true hp
  have hs := hi.steady hf
  refine (encFlush_steady s (hi.encoder hm)).mono ?_ (fun _ _ h => h.kept.steady hs) id
  rintro _ t ⟨hk, _, hh, hmt, _⟩
  exact Inv.of_raw (hk.steady hs) (raw_of_dstate hraw hk.dstate) (fun h => by rw [hmt] at h; cases h)
    (fun h => by rw [hmt] at h; cases h) (fun _ => hh)

theorem execDecInit_inv {s t : State} (hi : s.Inv) (h : execDecInit s = .next t) : t.Inv := by
  refine guarded_inv (hang := ¬ s.ports.SourceAnswers) hi h fun hf _ hp => ?_
  refine (decInit_walked s).mono ?_ (fun _ _ h => h.elim) id
  rintro _ t ⟨hk, hr, _⟩
  exact Inv.of_raw (hk.steady (hi.steady hf)) (raw_of_dstate hp hk.dstate) hr.engine.1 hr.engine.2.1 hr.engine.2.2

/-- Where decoding with the contexts of one component ends, the invariant holds. -/
theorem DecodedBits.inv {s t : State} {c : Fin 4} (hi : s.Inv) (hf : s.status.fault = false) (hraw : s.raw = true)
    (hm : s.eng.mode = .decode) (h : DecodedBits s c t) (r : HostRegs) : State.Inv { t with regs := r } := by
  have hk := Kept.of_fetched h.fetched h.moved
  have hst := hk.steady (hi.steady hf)
  have hmt : t.eng.mode = .decode := h.fetched.mode.trans hm
  have hh := hi.held hf (by rw [hm]; simp)
  have hfh := h.fetched.held
  have hnh : t.eng.NothingHeld :=
    ⟨hfh.1.trans hh.b, hfh.2.1.trans hh.bv, hfh.2.2.1.trans hh.sc, hfh.2.2.2.trans hh.zc⟩
  refine Inv.of_raw (t := { t with regs := r })
    ⟨hst.build, hst.ctx, ⟨hst.diff.da, hst.diff.db, hst.diff.wf⟩, hst.marker, hst.eos, hst.samples, hst.fault⟩
    (raw_of_dstate hraw hk.dstate) (fun h' => ?_) (fun _ => h.sound) (fun _ => hnh)
  have h'' : t.eng.mode = .encode := h'
  rw [hmt] at h''
  cases h''

theorem decodable_of_inv {s : State} (hi : s.Inv) (hm : s.eng.mode = .decode) : Decodable s :=
  ⟨hi.decoder hm, hi.build, hi.ctx⟩

theorem execDecBit_inv {c : Fin 4} {bin : Byte} {s t : State} (hi : s.Inv)
    (h : execDecBit c bin s = .next t) : t.Inv := by
  refine guarded_inv (hang := ¬ s.ports.SourceAnswers) hi h fun hf ho hp => ?_
  obtain ⟨hraw, hm⟩ := rawIn_true hp
  have hb : bin.toNat < Config.nBin := by simpa [binLegal] using ho
  refine (decodeBit_ends s c bin.toNat hb (hi.decoder hm) hi.build (hi.ctx c _ hb)).seq (fun _ _ h => h.elim) id ?_
  rintro d t ht
  exact Cmd.Ends.of_ok (cmd_writeResult _ _) (DecodedBits.inv hi hf hraw hm ⟨ht.fetched, ht.moved, ht.sound⟩ _)

theorem execDecDiff_inv {c : Fin 4} {s t : State} (hi : s.Inv) (h : execDecDiff c s = .next t) : t.Inv := by
  refine guarded_inv (hang := ¬ s.ports.SourceAnswers) hi h fun hf ho hp => ?_
  obtain ⟨hraw, hm⟩ := rawIn_true hp
  refine (decodeV_ends c _ _ _ _ s (decodable_of_inv hi hm)).seq (fun e u hu =>
    (Kept.of_fetched hu.bits.fetched hu.bits.moved).steady (hi.steady hf)) id ?_
  rintro v t ⟨ht, _⟩
  exact Cmd.Ends.of_ok (cmd_writeResult _ _) (DecodedBits.inv hi hf hraw hm ht _)

theorem resetMasked_legal {s : State} (h : s.CtxLegal) (mask : BitVec 4) : (s.resetMasked mask).CtxLegal := by
  intro c b hb
  have := h c b hb
  unfold State.ctxAt State.resetMasked at *
  simp only [Fin.getElem_fin, Vector.getElem_ofFn]
  split
  · rw [Vector.getElem?_replicate]
    simp only [hb, if_true, Option.getD_some]
    decide
  · exact this

theorem execCtxReset_inv {mask : BitVec 4} {s t : State} (hi : s.Inv) (h : execCtxReset mask s = .next t) : t.Inv := by
  refine guarded_inv (hang := False) hi h fun hf _ hp => Cmd.Ends.of_ok (cmd_modify _ _) ?_
  have hs := hi.steady hf
  exact Inv.of_raw ⟨hs.build, resetMasked_legal hs.ctx mask, ⟨hs.diff.da, hs.diff.db, hs.diff.wf⟩, hs.marker, hs.eos,
    hs.samples, hs.fault⟩ hp hi.encoder hi.decoder (hi.held hf)

/-! ## The other commands outside a scan -/

theorem execClearErr_inv {s t : State} (hi : s.Inv) (h : execClearErr s = .next t) : t.Inv := by
  refine guarded_inv (hang := False) hi h fun hf _ _ => Cmd.Ends.of_ok (cmd_modifyStatus _ _) ?_
  have := hi.report .none
  rw [report_of_not_fault _ _ hf] at this
  exact this

theorem execClassify_inv {l u : BitVec 4} {s t : State} (hi : s.Inv) (h : execClassify l u s = .next t) : t.Inv := by
  refine guarded_inv (hang := False) hi h fun hf _ _ => Cmd.Ends.of_ok (cmd_writeResult _ _) ?_
  exact hi.congr rfl rfl rfl rfl rfl rfl rfl rfl rfl rfl

theorem State.Inv.resetBlock {s : State} (hi : s.Inv) : s.resetBlock.Inv where
  build := hi.build
  ctx := ctxLegal_reset rfl
  encoder := fun h => by cases h
  decoder := fun h => by cases h
  held := fun _ _ => ⟨rfl, rfl, rfl, rfl⟩
  faulted := by constructor <;> intro h <;> cases h
  fault := fun h => by cases h
  scan := fun h => by rcases h with h | h | h <;> cases h
  diff := ⟨(DiffSound.clear s).da, (DiffSound.clear s).db, (DiffSound.clear s).wf⟩
  marker := fun _ => rfl
  eos := fun h => by cases h
  samples := hi.samples

theorem execAbort_inv {s t : State} (hi : s.Inv) (h : execAbort s = .next t) : t.Inv := by
  refine guarded_inv (hang := False) hi h fun hf _ hp => ?_
  refine Cmd.Ends.bind_ok (cmd_modifyEng _ _) (Cmd.Ends.of_ok (cmd_modifyStatus _ _) ?_)
  have hs := hi.steady hf
  exact Inv.of_raw ⟨hs.build, hs.ctx, ⟨hs.diff.da, hs.diff.db, hs.diff.wf⟩, hs.marker, hs.eos, hs.samples, hs.fault⟩
    rfl (fun h => by cases h) (fun h => by cases h) (fun _ => ⟨rfl, rfl, rfl, rfl⟩)

/-! ## The scan commands -/

theorem engineInit_ends (dir : Dir) (s : State) :
    Cmd.Ends (engineInit dir) s (fun _ t => Kept s t ∧ Ready dir t ∧ t.pos = s.pos) NoHalt
      (dir = .decode ∧ ¬ s.ports.SourceAnswers) := by
  cases dir
  · refine Cmd.Ends.of_ok (m := encInit) (cmd_modifyEng _ _) ⟨Kept.of_eng s _ (fun _ h => by cases h),
      ⟨rfl, fun _ => encInit_sound s.eng, fun h => by cases h⟩, rfl⟩
  · exact (decInit_walked s).mono (fun _ t h => ⟨h.1, h.2.1, h.2.2.1⟩) (fun _ _ h => h) (fun h => ⟨rfl, h⟩)

/-- The engine's start does not read EOS (rules R105, R114). -/
theorem engineInit_eos (dir : Dir) (s : State) :
    engineInit dir s = engineInit dir (s.withEng { s.eng with eos := false }) := by
  cases dir <;> rfl

/-- The state the resets of START_SCAN leave (rule R171), with EOS cleared. -/
theorem scanReset_steady {s : State} (hs : s.Steady) (dir : Dir) :
    State.Steady { s.resetCtx.clearDiff with
      status := { s.status with dmode := dir, exhausted := false }
      pos := Position.reset
      eng := { s.eng with nbytes := 0, eos := false } } :=
  ⟨hs.build, ctxLegal_reset rfl, ⟨(DiffSound.clear s).da, (DiffSound.clear s).db, (DiffSound.clear s).wf⟩, hs.marker,
    (fun h => by cases h), hs.samples, hs.fault⟩

/-- STATUS after START_SCAN: EXHAUSTED and ERR are those of `t`, which the engine's start may have moved. -/
def Status.started (s : Status) (dir : Dir) (t : Status) : Status :=
  { s with dstate := .scanStarted, dmode := dir, exhausted := t.exhausted, err := t.err }

/-- The body of START_SCAN on a valid configuration (rule R171). -/
theorem startScan_ends (dir : Dir) (s : State) (hs : s.Steady) (hv : s.configValid = true) :
    Cmd.Ends (startScan dir) s
      (fun _ t => t.Inv ∧ t.status = s.status.started dir t.status ∧ t.pos = Position.reset ∧ t.cfg = s.cfg ∧ Ready dir t)
      NoHalt (dir = .decode ∧ ¬ s.ports.SourceAnswers) := by
  unfold startScan
  refine Cmd.Ends.get_bind ?_
  simp only [hv, if_true]
  refine Cmd.Ends.bind_ok (cmd_modify _ _) ?_
  refine Cmd.Ends.mono (g := fun _ t => t.Inv ∧ t.status = s.status.started dir t.status ∧ t.pos = Position.reset ∧
      t.cfg = s.cfg ∧ Ready dir t) (b := NoHalt) (k := dir = .decode ∧ ¬ s.ports.SourceAnswers) ?_ (fun _ _ h => h)
    (fun _ _ h => h) id
  have hst := scanReset_steady hs dir
  generalize hs1 : ({ s.resetCtx.clearDiff with
      status := { s.status with dmode := dir, exhausted := false }
      pos := Position.reset
      eng := { s.eng with nbytes := 0, eos := false } } : State) = s1 at hst
  have hcfg1 : s1.cfg = s.cfg := by rw [← hs1]; rfl
  have hbuild1 : s1.build = s.build := by rw [← hs1]; rfl
  have hpos1 : s1.pos = Position.reset := by rw [← hs1]
  have hstat1 : s1.status = { s.status with dmode := dir, exhausted := false } := by rw [← hs1]
  have hports1 : s1.ports = s.ports := by rw [← hs1]; rfl
  refine Cmd.Ends.bind (g := fun _ t => Kept s1 t ∧ Ready dir t ∧ t.pos = s1.pos ∧ t.status.fault = s1.status.fault)
    ?_ ?_
  · have hrun := (engineInit_ends dir s1).mono (g' := fun _ t => Kept s1 t ∧ Ready dir t ∧ t.pos = s1.pos ∧
      t.status.fault = s1.status.fault) (b' := NoHalt) (k' := dir = .decode ∧ ¬ s.ports.SourceAnswers)
      (fun _ t h => ⟨h.1, h.2.1, h.2.2, ((h.1.steady hst).fault).trans hst.fault.symm⟩) (fun _ _ h => h)
      (by rw [hports1]; exact id)
    unfold Cmd.Ends at hrun ⊢
    rw [engineInit_eos]
    rw [← hs1] at hrun ⊢
    exact hrun
  · rintro _ t ⟨hk, hr, hpos, hfault⟩
    refine Cmd.Ends.of_ok (cmd_modifyStatus _ _) ?_
    have hst' := hk.steady hst
    have hstat : (t.withStatus { t.status with dstate := .scanStarted }).status =
        s.status.started dir t.status := by
      have h1 := hk.dmode
      rw [hstat1] at h1 hfault
      show ({ t.status with dstate := .scanStarted } : Status) = _
      unfold Status.started
      cases hts : t.status
      rw [hts] at h1 hfault
      simp only at h1 hfault
      simp [h1, hfault]
    have hdm : (t.withStatus { t.status with dstate := .scanStarted }).status.dmode = dir := by rw [hstat]; rfl
    have hready : Ready dir (t.withStatus { t.status with dstate := .scanStarted }) := ⟨hr.mode, hr.encoder, hr.decoder⟩
    have hcfg : t.cfg = s.cfg := hk.cfg.trans hcfg1
    have hposr : t.pos = Position.reset := hpos.trans hpos1
    have hvalid : t.configValid = true := by
      unfold State.configValid State.components State.thresholdsOrdered State.lowThreshold State.highThreshold at *
      rw [hcfg, hk.build, hbuild1]
      exact hv
    refine ⟨Inv.of_scanning ⟨hst'.build, hst'.ctx, ⟨hst'.diff.da, hst'.diff.db, hst'.diff.wf⟩, hst'.marker, hst'.eos,
      hst'.samples, hst'.fault⟩ (by rw [hdm]; exact hready) (.inl rfl) ?_, hstat, hposr, hcfg, hready⟩
    refine ⟨by rw [hdm]; exact hready.mode, hvalid, ?_, ?_, ?_, ?_, ?_, ?_, ?_⟩
    · show t.pos.x = 0
      rw [hposr]; rfl
    · show t.pos.y.toNat ≤ _
      rw [hposr]; exact Nat.zero_le _
    · show t.pos.yend.toNat ≤ _
      rw [hposr]; exact Nat.zero_le _
    · show t.pos.rl.toNat ≤ _
      rw [hposr]; exact Nat.zero_le _
    · intro h; cases h
    · intro h; cases h
    · intro _
      show t.pos.mcucnt.toNat ≤ _ ∧ t.pos.mcucnt.toNat % _ = t.pos.x.toNat % _
      rw [hposr]
      exact ⟨Nat.zero_le _, rfl⟩

theorem execStartScan_inv {dir : Dir} {s t : State} (hi : s.Inv) (h : execStartScan dir s = .next t) : t.Inv := by
  refine guarded_inv (hang := dir = .decode ∧ ¬ s.ports.SourceAnswers) hi h fun hf _ _ => ?_
  by_cases hv : s.configValid = true
  · exact (startScan_ends dir s (hi.steady hf) hv).mono (fun _ t h => h.1) (fun _ _ h => h.elim) id
  · unfold startScan
    refine Cmd.Ends.get_bind ?_
    simp only [hv]
    exact Cmd.Ends.raise rfl (hi.steady hf)

theorem rowGroupEnd_bounds {s : State} (hy : s.pos.y.toNat < s.cfg.height.toNat) (hg : 1 ≤ s.cfg.rowgrp.toNat) :
    s.pos.y.toNat < s.rowGroupEnd ∧ s.rowGroupEnd ≤ s.cfg.height.toNat := by
  unfold State.rowGroupEnd
  omega

theorem execStartMcuRow_inv {s t : State} (hi : s.Inv) (h : execStartMcuRow s = .next t) : t.Inv := by
  refine guarded_inv (hang := False) hi h fun hf _ hp => ?_
  refine Cmd.Ends.bind_ok (cmd_modifyPos _ _) (Cmd.Ends.of_ok (cmd_modifyStatus _ _) ?_)
  have hs := hi.steady hf
  simp only [State.rowStartable, Bool.and_eq_true, Bool.or_eq_true, decide_eq_true_eq] at hp
  have hsc : s.scanning := hp.1.imp id .inr
  have hss := hi.scan hsc
  have hg : 1 ≤ s.cfg.rowgrp.toNat := by
    have := hss.config
    simp only [State.configValid, Bool.and_eq_true, decide_eq_true_eq] at this
    exact this.1.1.2
  obtain ⟨h1, h2⟩ := rowGroupEnd_bounds hp.2 hg
  have hY : (BitVec.ofNat 16 s.rowGroupEnd).toNat = s.rowGroupEnd := by
    rw [BitVec.toNat_ofNat, Nat.mod_eq_of_lt]
    have := s.cfg.height.isLt
    omega
  have hready := hi.ready hf hss.mode
  refine Inv.of_scanning ⟨hs.build, hs.ctx, ⟨hs.diff.da, hs.diff.db, hs.diff.wf⟩, hs.marker, hs.eos, hs.samples,
    hs.fault⟩ ⟨hready.mode, hready.encoder, hready.decoder⟩ (.inr (.inl rfl)) ?_
  refine ⟨hss.mode, hss.config, hss.x_zero, hss.y_le, ?_, hss.rl_le, fun _ => ?_, (fun h => by cases h), hss.count⟩
  · show (BitVec.ofNat 16 s.rowGroupEnd).toNat ≤ s.cfg.height.toNat
    rw [hY]; exact h2
  · show s.pos.y.toNat < (BitVec.ofNat 16 s.rowGroupEnd).toNat
    rw [hY]; exact h1

/-- The body of WRITE_MCU and PARSE_MCU in a sound state (rules R173, R174). -/
theorem codeGroup_ends (dir : Dir) (s : State) (hi : s.Inv) (hf : s.status.fault = false)
    (hp : s.rowReadyFor dir = true) :
    Cmd.Ends (do walk dir; setDState .rowConsumed) s
      (fun _ t => t.Inv ∧ t.status.dstate = .rowConsumed ∧ t.status.fault = false ∧ t.pos.x = 0 ∧ t.pos.y = s.pos.yend ∧
        t.pos.yend = s.pos.yend ∧ ∃ u, Walked dir s.groupRoom s.regionGroup s u ∧ t = u.withStatus { u.status with dstate := .rowConsumed })
      (WalkHalt dir s s.groupRoom s.regionGroup) (hangCause dir s (s.GroupSupply dir)) := by
  simp only [State.rowReadyFor, Bool.and_eq_true, decide_eq_true_eq] at hp
  have hs := hi.steady hf
  have hss := hi.scan (.inr (.inl hp.1))
  have hready : Ready dir s := hi.ready hf (by rw [hss.mode, hp.2])
  have hlt := hss.ready hp.1
  refine (walk_ends dir s (State.Walkable.of_valid hs hss.config) hready hss.x_zero hss.count hss.rl_le
    (Nat.le_of_lt hlt)).bind ?_
  rintro _ t ⟨hw, htx, hty, htye, htrl, htc⟩
  refine Cmd.Ends.of_ok (cmd_modifyStatus _ _) ?_
  have hst := hw.kept.steady hs
  have hdm : t.status.dmode = dir := hw.kept.dmode.trans hp.2
  refine ⟨?_, rfl, hst.fault, htx, hty, htye, t, hw, rfl⟩
  refine Inv.of_scanning ⟨hst.build, hst.ctx, ⟨hst.diff.da, hst.diff.db, hst.diff.wf⟩, hst.marker, hst.eos,
    hst.samples, hst.fault⟩ ?_ (.inr (.inr rfl)) ?_
  · show Ready t.status.dmode _
    rw [hdm]
    exact ⟨hw.ready.mode, hw.ready.encoder, hw.ready.decoder⟩
  · have hvalid : t.configValid = true := by
      have := hss.config
      unfold State.configValid State.components State.thresholdsOrdered State.lowThreshold State.highThreshold at *
      rw [hw.kept.cfg, hw.kept.build]
      exact this
    refine ⟨?_, hvalid, htx, ?_, ?_, htrl, (fun h => by cases h), fun _ => hty.trans htye.symm, htc⟩
    · show t.eng.mode = dirMode t.status.dmode
      rw [hdm]
      exact hw.ready.mode
    · show t.pos.y.toNat ≤ t.cfg.height.toNat
      rw [hty, hw.kept.cfg]
      exact hss.yend_le
    · show t.pos.yend.toNat ≤ t.cfg.height.toNat
      rw [htye, hw.kept.cfg]
      exact hss.yend_le

theorem codeGroup_inv {dir : Dir} {s t : State} (hi : s.Inv)
    (h : guarded true (s.rowReadyFor dir) (do walk dir; setDState .rowConsumed) s = .next t) : t.Inv := by
  refine guarded_inv (hang := hangCause dir s (s.GroupSupply dir)) hi h fun hf _ hp => ?_
  exact (codeGroup_ends dir s hi hf hp).mono (fun _ t h => h.1) (fun e u h => h.kept.steady (hi.steady hf)) id

theorem execWriteMcu_inv {s t : State} (hi : s.Inv) (h : execWriteMcu s = .next t) : t.Inv := codeGroup_inv hi h
theorem execParseMcu_inv {s t : State} (hi : s.Inv) (h : execParseMcu s = .next t) : t.Inv := codeGroup_inv hi h

/-- The end of a scan in a sound state (rule R175). -/
theorem finishScan_ends (s : State) (hi : s.Inv) (hf : s.status.fault = false) (hp : s.scanDone = true) :
    Cmd.Ends (do finishScan s.status.dmode; setDState .scanFlushed) s
      (fun _ t => t.Inv ∧ t.status.dstate = .scanFlushed ∧ t.eng.mode = .idle ∧ t.eng.NothingHeld ∧
        ∃ u, Kept s u ∧ u.pos = s.pos ∧ Sunk s u ∧ Quiet s.status.dmode s u ∧ u.ports.samples = s.ports.samples ∧
          t = u.withStatus { u.status with dstate := .scanFlushed })
      (fun e u => s.status.dmode = .encode ∧ FlushHalt s (s.eng.Room 1) e u)
      (match s.status.dmode with
        | .encode => ¬ s.ports.SinkAccepts ∨ ¬ s.ports.WriterAccepts
        | .decode => ¬ s.ports.ReaderAnswers) := by
  simp only [State.scanDone, Bool.and_eq_true, decide_eq_true_eq] at hp
  have hs := hi.steady hf
  have hss := hi.scan (.inr (.inr hp.1))
  have hready : Ready s.status.dmode s := hi.ready hf hss.mode
  have hlast : ∀ u : State, Kept s u → u.pos = s.pos → u.eng.NothingHeld → u.eng.mode = .idle →
      (u.withStatus { u.status with dstate := .scanFlushed }).Inv := by
    intro u hk _ hh hm
    have hst := hk.steady hs
    exact Inv.of_raw ⟨hst.build, hst.ctx, ⟨hst.diff.da, hst.diff.db, hst.diff.wf⟩, hst.marker, hst.eos, hst.samples,
      hst.fault⟩ rfl (fun h => by have h' : u.eng.mode = .encode := h; rw [hm] at h'; cases h')
      (fun h => by have h' : u.eng.mode = .decode := h; rw [hm] at h'; cases h') (fun _ => hh)
  cases hd : s.status.dmode
  · simp only [finishScan, finishEncode, bind_assoc]
    rw [hd] at hready
    refine (encFlush_steady s (hready.encoder rfl)).seq (fun e u hu => ⟨trivial, hu⟩) .inl ?_
    rintro _ t1 ⟨hk1, hpos1, hh1, hm1, hsk1, hq1, hsm1⟩
    refine (emitMarker_ends _ t1).seq (fun e u hu => ⟨trivial, .inl hu.1, hk1.trans hu.2.1,
      hq1.trans ⟨fun _ => hu.2.2.2.1, fun h => by cases h⟩, hu.2.2.1.trans hsm1,
      .inr (.inl fun h => hu.2.2.2.2 (hk1.writer h))⟩)
      (fun h => .inr fun h' => h (hk1.writer h')) ?_
    rintro _ t2 ⟨p, ht2, hk2, hp2⟩
    refine Cmd.Ends.of_ok (cmd_modifyStatus _ _) ?_
    have hk := hk1.trans hk2
    have hm2 : t2.eng.mode = .idle := by rw [ht2]; exact hm1
    have hh2 : t2.eng.NothingHeld := by rw [ht2]; exact hh1
    have hpos2 : t2.pos = s.pos := by rw [ht2]; exact hpos1
    refine ⟨hlast t2 hk hpos2 hh2 hm2, rfl, hm2, hh2, t2, hk, hpos2,
      hsk1.trans (.of_same (by rw [ht2]; exact hp2.sunk) (by rw [ht2])), ?_, (by rw [ht2]; exact hp2.samples.trans hsm1), rfl⟩
    rw [ht2]
    exact hq1.trans (.of_ports hp2 (fun _ => ⟨rfl, rfl⟩) rfl)
  · simp only [finishScan, finishDecode, bind_assoc]
    rw [hd] at hready
    refine Cmd.Ends.get_bind ?_
    refine (markerSync_ends _ _ s).seq (fun _ _ h => h.elim) id ?_
    rintro _ t1 ⟨p, ht1, hk1, hp1⟩
    refine Cmd.Ends.bind_ok (cmd_modifyEng _ _) (Cmd.Ends.of_ok (cmd_modifyStatus _ _) ?_)
    have hk := hk1.trans (Kept.of_eng t1 { t1.eng with mode := .idle } (fun h => h.eos))
    have hh : ({ t1.eng with mode := .idle } : Engine).NothingHeld := by
      rw [ht1]
      have := (hready.decoder rfl).2
      exact ⟨this.b, this.bv, this.sc, this.zc⟩
    have hpos : (t1.withEng { t1.eng with mode := .idle }).pos = s.pos := by rw [ht1]; rfl
    refine ⟨hlast _ hk hpos hh rfl, rfl, rfl, hh, _, hk, hpos, ?_, ?_, (by rw [ht1]; exact hp1.samples), rfl⟩
    · rw [ht1]
      exact .of_same hp1.sunk rfl
    · rw [ht1]
      exact .of_ports hp1 (fun h => by cases h) rfl

theorem execFlush_inv {s t : State} (hi : s.Inv) (h : execFlush s = .next t) : t.Inv :=
  guarded_inv hi h fun hf _ hp =>
    (finishScan_ends s hi hf hp).mono (fun _ _ h => h.1) (fun _ _ h => h.2.kept.steady (hi.steady hf)) id

/-! ## Host writes -/

theorem State.Inv.writeCfg {s : State} (hi : s.Inv) (f : ScanConfig → ScanConfig) : (s.writeCfg f).Inv := by
  unfold State.writeCfg
  split
  · next hw =>
    refine ⟨hi.build, hi.ctx, hi.encoder, hi.decoder, hi.held, hi.faulted, hi.fault, fun hs => ?_,
      ⟨hi.diff.da, hi.diff.db, hi.diff.wf⟩, hi.marker, hi.eos, hi.samples⟩
    unfold State.cfgWritable at hw
    simp only [Bool.or_eq_true, decide_eq_true_eq] at hw
    change s.scanning at hs
    unfold State.scanning at hs
    rcases hw with h | h <;> rw [h] at hs <;> simp at hs
  · exact hi

theorem State.Inv.regWrite {s : State} (hi : s.Inv) (off : Nat) (v : Word) : (s.regWrite off v).Inv := by
  unfold State.regWrite
  split
  · next r _ =>
    unfold State.writeReg
    cases r <;> first
      | exact hi
      | exact hi.writeCfg _
      | exact hi.congr rfl rfl rfl rfl rfl rfl rfl rfl rfl rfl
  · exact hi

end Sys2Proof.Machine
end

