-- ==== Sys2Proof/Laws/Exact.lean ====
section
/-! SUPPORT. The decoder's procedures equal the plain functions of Safety.lean (spec/40_engine.md rules R114 to R117),
for a source that answers. -/

namespace Sys2Proof.Machine

/-! ## Fetching a byte -/

theorem setExhausted_exact (s : State) : setExhausted s = .ok () s.sourceEnded := by
  unfold setExhausted
  rw [cmd_bind, cmd_modifyEng]
  simp only
  rw [cmd_bind, cmd_get]
  by_cases hx : s.status.exhausted = true
  · simp only [withEng_status, hx, if_true]
    rw [cmd_pure]
    simp only [State.sourceEnded, hx, if_true]
    rfl
  · have hx' : s.status.exhausted = false := by simpa using hx
    by_cases hf : s.status.fault = true
    · simp [hx', hf, State.sourceEnded, State.withEng, State.withStatus, State.report]
    · simp [hx', hf, State.sourceEnded, State.withEng, State.withStatus, State.report]

/-- The state after `SourceRead` returned a byte. -/
def State.took (s : State) (b : Byte) (rest : List Byte) : State :=
  ({ s with ports := { s.ports with source := { s.ports.source with bytes := rest } } } : State).log (.sourceRead (some b))

theorem sourceRead_cons {s : State} {b : Byte} {rest : List Byte} (h : s.ports.source.bytes = b :: rest) :
    sourceRead s = .ok (some b) (s.took b rest) := by
  simp [sourceRead, h, State.took]

theorem sourceRead_nil {s : State} (h : s.ports.source.bytes = []) (hs : s.ports.SourceAnswers) :
    sourceRead s = .ok none (s.log (.sourceRead none)) := by
  simp [sourceRead, h, hs]

theorem afterFF_none (s : State) : afterFF none s = .ok 0x00 s.sourceEnded := by
  unfold afterFF
  simp only
  rw [cmd_bind, setExhausted_exact]
  rfl

theorem afterFetch_atEnd {s : State} (h : s.ports.source.bytes = []) :
    s.afterFetch Fetch.atEnd = (s.log (.sourceRead none)).sourceEnded := by
  simp [State.afterFetch, Fetch.atEnd, State.log, ← h]

theorem afterFetch_took {s : State} {b : Byte} {rest : List Byte} (f : Fetch) :
    (s.took b rest).afterFetch f = s.afterFetch { f with reads := some b :: f.reads } := by
  simp [State.afterFetch, State.took, State.log, List.append_assoc]

theorem readPastFill_exact (bytes : List Byte) (n : Nat) (s : State) (hn : bytes.length ≤ n)
    (hb : s.ports.source.bytes = bytes) (hs : s.ports.SourceAnswers) :
    (readPastFill n >>= afterFF) s = .ok (fetchPastFF bytes).t (s.afterFetch (fetchPastFF bytes)) := by
  induction bytes generalizing n s with
  | nil =>
    have hr : readPastFill n s = .ok none (s.log (.sourceRead none)) := by
      cases n
      · exact sourceRead_nil hb hs
      · unfold readPastFill
        rw [cmd_bind, sourceRead_nil hb hs]
        rfl
    rw [cmd_bind, hr]
    simp only
    rw [afterFF_none, show fetchPastFF [] = Fetch.atEnd from rfl, afterFetch_atEnd hb]
    rfl
  | cons b rest ih =>
    obtain ⟨m, rfl⟩ : ∃ m, n = m + 1 := ⟨n - 1, by simp at hn; omega⟩
    unfold readPastFill
    rw [bind_assoc, cmd_bind, sourceRead_cons hb]
    simp only
    by_cases hff : b = 0xFF
    · simp only [hff, if_true]
      rw [ih m (s.took 0xFF rest) (by simpa using hn) rfl hs, afterFetch_took]
      simp [fetchPastFF]
    · simp only [hff, if_false, pure_bind, afterFF]
      by_cases h0 : b = 0
      · rw [if_pos h0, show fetchPastFF (b :: rest) =
          { t := 0xFF, marker := none, ended := false, rest := rest, reads := [some b] } by
            simp [fetchPastFF, h0]]
        rfl
      · rw [if_neg h0, show fetchPastFF (b :: rest) =
          { t := 0x00, marker := some b, ended := false, rest := rest, reads := [some b] } by
            simp only [fetchPastFF, if_neg hff, if_neg h0]]
        rfl

theorem nextDataByte_exact (s : State) (hs : s.ports.SourceAnswers) :
    nextDataByte s = .ok s.dataByte
      (if s.inputStopped then s else s.afterFetch (fetchData s.ports.source.bytes)) := by
  unfold nextDataByte State.dataByte
  rw [cmd_bind, cmd_get]
  simp only [State.inputStopped]
  by_cases h : (s.marker.valid || s.eng.eos) = true
  · simp [h]
  · simp only [h]
    rw [if_neg (by simp), if_neg (by simp), if_neg (by simp)]
    rw [cmd_bind]
    rcases hb : s.ports.source.bytes with _ | ⟨b, rest⟩
    · rw [sourceRead_nil hb hs]
      simp only
      rw [cmd_bind, setExhausted_exact]
      simp only
      rw [show fetchData [] = Fetch.atEnd from rfl, afterFetch_atEnd hb]
      rfl
    · rw [sourceRead_cons hb]
      simp only
      by_cases hff : b = 0xFF
      · simp only [hff, if_true]
        rw [cmd_bind, cmd_get]
        simp only
        have := readPastFill_exact rest rest.length (s.took 0xFF rest) (Nat.le_refl _) rfl hs
        rw [show (s.took 0xFF rest).ports.source.bytes = rest from rfl, this, afterFetch_took]
        simp [fetchData]
      · rw [if_neg hff, show fetchData (b :: rest) =
          { t := b, marker := none, ended := false, rest := rest, reads := [some b] } by
            simp only [fetchData, if_neg hff]]
        rfl

theorem byteIn_exact (s : State) (hs : s.ports.SourceAnswers) (hc : s.eng.c.toNat + 0xFF00 < 2 ^ 32) :
    byteIn s = .ok () s.byteFed := by
  have hc' : (if s.inputStopped then s else s.afterFetch (fetchData s.ports.source.bytes)).eng.c = s.eng.c := by
    split
    · rfl
    · simp only [State.afterFetch, State.sourceEnded]
      split <;> rfl
  have hb := s.dataByte.isLt
  unfold byteIn
  rw [cmd_bind, nextDataByte_exact s hs]
  simp only
  rw [cmd_bind, cmd_get]
  simp only
  rw [hc', assignC_ok _ _ (by rw [Nat.shiftLeft_eq]; omega), Nat.shiftLeft_eq]
  rfl

/-! ## Renormalization -/

theorem turnD_exact (s : State) (hs : s.ports.SourceAnswers) (h : s.eng.Lifting) (ha : s.eng.a.toNat < 0x8000) :
    (do byteInIfDue; shiftD : Cmd Unit) s = .ok () s.turnD := by
  have hin : byteInIfDue s = .ok ()
      (if s.eng.ct = 0 then s.byteFed.withEng { s.byteFed.eng with ct := 8 } else s) := by
    unfold byteInIfDue
    rw [cmd_bind, cmd_get]
    simp only
    by_cases hct : s.eng.ct = 0
    · have hlow := h.low_zero
      have hcx := h.cx_lt
      have hale := h.a_le
      rw [show s.eng.ct.toNat = 0 by rw [hct]; rfl] at hlow
      obtain ⟨k, hk⟩ := hlow
      simp only [Nat.sub_zero] at hk
      simp only [hct, if_true]
      rw [cmd_bind, byteIn_exact s hs (by omega)]
      simp only
      rw [assignCT_ok _ _ (by decide)]
      rfl
    · simp only [hct, if_false, cmd_pure]
  have hl := byteInIfDue_ends s h
  unfold Cmd.Ends at hl
  rw [hin] at hl
  simp only at hl
  rw [cmd_bind, hin]
  simp only
  unfold State.turnD
  generalize (if s.eng.ct = 0 then s.byteFed.withEng { s.byteFed.eng with ct := 8 } else s) = t at hl
  obtain ⟨_, _, hta, hl, hct⟩ := hl
  have h1 := hl.cx_lt
  have h2 := t.eng.ct.isLt
  have hta' : t.eng.a.toNat < 0x8000 := by rw [hta]; exact ha
  unfold shiftD
  rw [cmd_bind, cmd_get]
  simp only
  rw [cmd_bind, assignA_ok _ _ (by rw [Nat.shiftLeft_eq]; omega)]
  simp only
  rw [cmd_bind, assignC_ok _ _ (Nat.mod_lt _ (by decide))]
  simp only
  rw [assignCT_ok _ _ (by omega)]
  have hA : t.eng.a.toNat <<< 1 = 2 * t.eng.a.toNat := by rw [Nat.shiftLeft_eq]; omega
  have hC : (t.eng.c.toNat <<< 1) % 2 ^ 32 = 2 * t.eng.c.toNat := by
    rw [Nat.shiftLeft_eq, Nat.mod_eq_of_lt (by omega)]; omega
  rw [hA, hC]
  rfl

theorem renormD_exact (n : Nat) (s : State) (hs : s.ports.SourceAnswers) (h : s.eng.Lifting)
    (ha : s.eng.a.toNat < 0x8000) (hfuel : 0x10000 ≤ s.eng.a.toNat * 2 ^ n) :
    renormD n s = .ok () (s.renormedD n) := by
  induction n generalizing s with
  | zero => omega
  | succ n ih =>
    have hre : renormD (n + 1) = ((do byteInIfDue; shiftD : Cmd Unit) >>= fun _ => do
        if 0x8000 ≤ (← get).eng.a.toNat then pure () else renormD n) := by
      simp only [renormD, bind_assoc]
    rw [hre, cmd_bind, turnD_exact s hs h ha]
    simp only
    rw [cmd_bind, cmd_get]
    simp only
    have hturn : Cmd.Ends (do byteInIfDue; shiftD : Cmd Unit) s
        (fun _ t => Fetched s t ∧ t.eng.Lifting ∧ t.eng.a.toNat = 2 * s.eng.a.toNat) NoHalt False := by
      refine (byteInIfDue_ends s h).seq (fun _ _ h => h) (fun h => h hs) ?_
      rintro _ t ⟨hf, _, hta, hl, hct⟩
      obtain ⟨e, hok, hfe, hle, hea⟩ := shiftD_ok t hl (by rw [hta]; exact ha) hct
      exact Cmd.Ends.of_ok hok ⟨hf.trans hfe, hle, by rw [withEng_eng, hea, hta]⟩
    unfold Cmd.Ends at hturn
    rw [turnD_exact s hs h ha] at hturn
    obtain ⟨hf, hl, ha2⟩ := hturn
    by_cases hA : 0x8000 ≤ s.turnD.eng.a.toNat
    · rw [if_pos hA, State.renormedD, if_pos hA, cmd_pure]
    · rw [if_neg hA, State.renormedD, if_neg hA]
      refine ih s.turnD ?_ hl (by omega) ?_
      · show s.turnD.ports.source.silent = false
        rw [hf.silent]; exact hs
      · rw [ha2]
        rw [pow_succ] at hfuel
        nlinarith

/-! ## Decoding a decision -/

/-- `DecodeBit(ctx[c][b])` (rule R115) computes the interval step and the state of `State.decoded`. -/
theorem decodeBit_exact (s : State) (c : Fin 4) (b : Nat) (he : s.eng.DecodeSound) (hs : s.ports.SourceAnswers)
    {row : RomRow} (hrow : romLookup s.build (s.ctxAt c b).i = some row) (hleg : row.Legal) :
    decodeBit c b s = .ok
      ((decodeSplit s.eng.a.toNat s.eng.c.toNat row.qe.toNat).2.2.1 == (s.ctxAt c b).mps)
      (s.decoded c b row (decodeSplit s.eng.a.toNat s.eng.c.toNat row.qe.toNat)) := by
  obtain ⟨hq, hq', _, _⟩ := id hleg
  have hl := he.lifting
  obtain ⟨hs1, hs2, hs3, hs4, hs5, hs6⟩ := decodeSplit_bounds he.a_ge he.a_le hq hq' hl.cx_lt
  have hdvd := hs4 (16 - s.eng.ct.toNat) (by omega) hl.low_zero
  have hale := he.a_le
  unfold decodeBit
  rw [cmd_bind, show requireDecodeBounds s = .ok () s by simp [requireDecodeBounds, decodeBounds_of_sound he]]
  simp only
  rw [cmd_bind, show romRow c b s = .ok row s by simp [romRow, hrow]]
  simp only
  rw [cmd_bind, cmd_get]
  simp only
  generalize hsp : decodeSplit s.eng.a.toNat s.eng.c.toNat row.qe.toNat = sp at hs1 hs2 hs3 hs5 hs6 hdvd
  obtain ⟨a', c', m, est⟩ := sp
  simp only at hs1 hs2 hs3 hs5 hs6 hdvd ⊢
  have hat : (BitVec.ofNat 17 a').toNat = a' := by rw [BitVec.toNat_ofNat, Nat.mod_eq_of_lt (by omega)]
  have hct : (BitVec.ofNat 32 c').toNat = c' := by rw [BitVec.toNat_ofNat, Nat.mod_eq_of_lt (by omega)]
  rw [cmd_bind, assignA_ok _ _ (by omega)]
  simp only
  rw [cmd_bind, assignC_ok _ _ (by omega), withEng_withEng]
  simp only [withEng_eng]
  unfold State.decoded
  by_cases hk : est = .keep
  · simp [hk]
  · have ha8 := hs6 hk
    have hl' : ({ s.eng with a := BitVec.ofNat 17 a', c := BitVec.ofNat 32 c' } : Engine).Lifting :=
      ⟨by simp only [hat]; exact hs1, by simp only [hat]; omega, by simp only [hat, hct]; exact hs3, he.ct_le,
        by simp only [hct]; exact hdvd⟩
    simp only [hk, if_false]
    have hp' : ((s.withEng { s.eng with a := BitVec.ofNat 17 a', c := BitVec.ofNat 32 c' }).setCtx c b
        ((s.ctxAt c b).adapt row est)).ports.SourceAnswers := hs
    have hadapt : adaptCtx c b row est (s.withEng { s.eng with a := BitVec.ofNat 17 a', c := BitVec.ofNat 32 c' }) =
        .ok () ((s.withEng { s.eng with a := BitVec.ofNat 17 a', c := BitVec.ofNat 32 c' }).setCtx c b
          ((s.ctxAt c b).adapt row est)) := rfl
    rw [cmd_bind, hadapt]
    simp only
    rw [cmd_bind, renormD_exact renormFuel _ hp' hl' (by show (BitVec.ofNat 17 a').toNat < _; rw [hat]; exact ha8)
      (by show _ ≤ (BitVec.ofNat 17 a').toNat * _; rw [hat]; simp only [renormFuel]; omega)]
    simp

/-- `DecInit` (rule R114). -/
theorem decInit_exact (s : State) (hs : s.ports.SourceAnswers) : decInit s = .ok () s.decInited := by
  have hbf : ∀ t : State, t.eng.c.toNat + 0xFF00 < 2 ^ 32 →
      t.byteFed.eng.c.toNat = t.eng.c.toNat + t.dataByte.toNat * 256 := by
    intro t ht
    have := t.dataByte.isLt
    show (BitVec.ofNat 32 _).toNat = _
    rw [BitVec.toNat_ofNat, Nat.mod_eq_of_lt (by omega)]
  have hsil : ∀ t : State, t.byteFed.ports.source.silent = t.ports.source.silent := by
    intro t
    unfold State.byteFed
    simp only
    split
    · rfl
    · simp only [State.afterFetch, State.sourceEnded, withEng_ports]
      split <;> rfl
  have hsh : ∀ t : State, t.eng.c.toNat * 256 < 2 ^ 32 →
      shiftInit t = .ok () (t.withEng { t.eng with c := BitVec.ofNat 32 (t.eng.c.toNat * 256) }) := by
    intro t ht
    unfold shiftInit
    rw [cmd_bind, cmd_get]
    simp only
    rw [Nat.shiftLeft_eq]
    exact assignC_ok _ _ ht
  unfold decInit State.decInited
  rw [cmd_bind, cmd_modify]
  simp only
  rw [cmd_bind, cmd_modifyEng]
  simp only
  generalize hs0 : (({ s with marker := { code := 0, valid := false } } : State).withEng
    { s.eng with eos := false, a := 0x10000, c := 0 }) = s0
  have hp0 : s0.ports.SourceAnswers := by rw [← hs0]; exact hs
  have hc0 : s0.eng.c.toNat = 0 := by rw [← hs0]; rfl
  rw [cmd_bind, byteIn_exact s0 hp0 (by omega)]
  simp only
  have hb0 := s0.dataByte.isLt
  have h1 := hbf s0 (by omega)
  rw [cmd_bind, hsh _ (by omega)]
  simp only
  generalize hs1 : s0.byteFed.withEng { s0.byteFed.eng with c := BitVec.ofNat 32 (s0.byteFed.eng.c.toNat * 256) } = s1
  have hp1 : s1.ports.SourceAnswers := by
    rw [← hs1]
    show s0.byteFed.ports.source.silent = false
    rw [hsil]; exact hp0
  have hc1 : s1.eng.c.toNat = s0.dataByte.toNat * 65536 := by
    rw [← hs1]
    show (BitVec.ofNat 32 _).toNat = _
    rw [BitVec.toNat_ofNat, h1, Nat.mod_eq_of_lt (by omega)]
    omega
  rw [cmd_bind, byteIn_exact s1 hp1 (by omega)]
  simp only
  have hb1 := s1.dataByte.isLt
  have h2 := hbf s1 (by omega)
  rw [cmd_bind, hsh _ (by omega)]
  rfl

/-! ## The context RAM after a decision -/

@[simp] theorem ctx_afterFetch (s : State) (f : Fetch) : (s.afterFetch f).ctx = s.ctx := by
  cases h : f.ended <;> simp [State.afterFetch, State.sourceEnded, h]

@[simp] theorem ctx_byteFed (s : State) : s.byteFed.ctx = s.ctx := by
  cases h : s.inputStopped <;> simp [State.byteFed, h]

@[simp] theorem ctx_turnD (s : State) : s.turnD.ctx = s.ctx := by
  unfold State.turnD
  by_cases h : s.eng.ct = 0
  · rw [if_pos h]
    exact ctx_byteFed s
  · rw [if_neg h]
    rfl

@[simp] theorem ctx_renormedD (n : Nat) (s : State) : (s.renormedD n).ctx = s.ctx := by
  induction n generalizing s with
  | zero => rfl
  | succ n ih =>
    unfold State.renormedD
    split
    · exact ctx_turnD s
    · rw [ih, ctx_turnD]

/-- The context RAM after an interval step of the decoder: the entry adapted, every other one as it was. -/
theorem ctxAt_decoded (s : State) {c : Fin 4} {b : Nat} (hb : b < Config.nBin) (row : RomRow)
    (step : Nat × Nat × Bool × Estimate) (c' : Fin 4) (b' : Nat) : (s.decoded c b row step).ctxAt c' b' =
      if c' = c ∧ b' = b then (s.ctxAt c b).adapt row step.2.2.2 else s.ctxAt c' b' := by
  unfold State.decoded
  by_cases hk : step.2.2.2 = .keep
  · rw [if_pos hk, hk]
    split
    · rename_i h
      rw [h.1, h.2]
      rfl
    · rfl
  · rw [if_neg hk, ← ctxAt_setCtx s c b ((s.ctxAt c b).adapt row step.2.2.2) c' b' hb]
    unfold State.ctxAt
    rw [ctx_renormedD]
    rfl

end Sys2Proof.Machine
end

