-- ==== Sys2Proof/Laws/PerInstr.lean ====
section
/-! SUPPORT. One lemma per command: the word `encode` gives it lies in its row of spec/30_encoding.md rule R83. -/

namespace Sys2Proof.Laws.EncodedRow

/-- The command's word selects its own row of rule R83. -/
def Statement (i : Instr) : Prop := encode i &&& i.row.1 = i.row.2

theorem nop : Statement .nop := rfl

theorem encInit : Statement .encInit := rfl

theorem encBit (c : Fin 4) (bin : Byte) (d : Bool) : Statement (.encBit c bin d) := by
  unfold Statement
  revert c bin d
  decide +kernel

theorem encFlush : Statement .encFlush := rfl

theorem decInit : Statement .decInit := rfl

theorem decBit (c : Fin 4) (bin : Byte) : Statement (.decBit c bin) := by
  unfold Statement
  revert c bin
  decide +kernel

theorem ctxReset (mask : BitVec 4) : Statement (.ctxReset mask) := by
  unfold Statement
  revert mask
  decide +kernel

theorem clearErr : Statement .clearErr := rfl

theorem classify (l u : BitVec 4) : Statement (.classify l u) := by
  unfold Statement
  revert l u
  decide +kernel

theorem encDiff (c : Fin 4) : Statement (.encDiff c) := by
  unfold Statement
  revert c
  decide +kernel

theorem decDiff (c : Fin 4) : Statement (.decDiff c) := by
  unfold Statement
  revert c
  decide +kernel

theorem startScan (dir : Dir) : Statement (.startScan dir) := by cases dir <;> rfl

theorem startMcuRow : Statement .startMcuRow := rfl

theorem writeMcu : Statement .writeMcu := rfl

theorem parseMcu : Statement .parseMcu := rfl

theorem flush : Statement .flush := rfl

theorem abort : Statement .abort := rfl

theorem reset : Statement .reset := rfl

end Sys2Proof.Laws.EncodedRow
end

