-- ==== Sys2Proof/Laws/Position.lean ====
section
/-! SUPPORT. However it ends, no procedure below the walk moves x, y or YEND or touches the configuration: one lemma per
procedure. The loops of rule R180 rest on it. -/

namespace Sys2Proof.Machine

variable {α β : Type}

/-- x, y, YEND and the configuration are as they were. -/
structure SamePlace (s t : State) : Prop where
  x : t.pos.x = s.pos.x
  y : t.pos.y = s.pos.y
  yend : t.pos.yend = s.pos.yend
  cfg : t.cfg = s.cfg

theorem SamePlace.refl (s : State) : SamePlace s s := ⟨rfl, rfl, rfl, rfl⟩

theorem SamePlace.trans {s t u : State} (h : SamePlace s t) (h' : SamePlace t u) : SamePlace s u :=
  ⟨h'.x.trans h.x, h'.y.trans h.y, h'.yend.trans h.yend, h'.cfg.trans h.cfg⟩

/-- The state a body ends in, completed or halted. -/
def endState : EStateM.Result Halt State α → State
  | .ok _ t => t
  | .error _ t => t

/-- However it ends, it stays at its place. -/
def Stays (m : Cmd α) : Prop := ∀ s, SamePlace s (endState (m s))

theorem Stays.ok {m : Cmd α} (h : Stays m) {s t : State} {a : α} (he : m s = .ok a t) : SamePlace s t := by
  have h0 := h s
  rw [he] at h0
  exact h0

theorem Stays.pure (a : α) : Stays (Pure.pure a) := fun s => SamePlace.refl s

theorem Stays.bind {m : Cmd α} {f : α → Cmd β} (h : Stays m) (h' : ∀ a, Stays (f a)) : Stays (m >>= f) := fun s => by
  have h0 := h s
  rw [cmd_bind]
  rcases hm : m s with ⟨a, t⟩ | ⟨e, t⟩
  · rw [hm] at h0
    exact h0.trans (h' a t)
  · rw [hm] at h0
    exact h0

theorem Stays.get {f : State → Cmd β} (h : ∀ s, Stays (f s)) : Stays (MonadState.get >>= f) := fun s => h s s

theorem Stays.ite {p : Prop} [Decidable p] {m n : Cmd α} (h : Stays m) (h' : Stays n) : Stays (if p then m else n) := by
  split
  · exact h
  · exact h'

theorem Stays.modify {f : State → State} (h : ∀ s, SamePlace s (f s)) : Stays (modify f : Cmd Unit) := h

theorem Stays.modifyEng (f : Engine → Engine) : Stays (modifyEng f) := fun _ => ⟨rfl, rfl, rfl, rfl⟩

theorem SamePlace.report (s : State) (e : ErrCode) : SamePlace s (s.report e) := by
  unfold State.report
  split <;> exact ⟨rfl, rfl, rfl, rfl⟩

theorem Stays.raiseFatal (e : ErrCode) : Stays (raiseFatal e : Cmd α) := fun s =>
  have h := SamePlace.report s e
  ⟨h.x, h.y, h.yend, h.cfg⟩

theorem Stays.stuck (f : Fault) : Stays (stuck f : Cmd α) := fun _ => ⟨rfl, rfl, rfl, rfl⟩

theorem Stays.assignA (n : Nat) : Stays (assignA n) := .ite (.modifyEng _) (.raiseFatal _)

theorem Stays.assignC (n : Nat) : Stays (assignC n) := .ite (.modifyEng _) (.raiseFatal _)

theorem Stays.assignCT (n : Nat) : Stays (assignCT n) := .ite (.modifyEng _) (.raiseFatal _)

theorem Stays.assignSC (n : Nat) : Stays (assignSC n) := .ite (.modifyEng _) (.raiseFatal _)

theorem Stays.assignZC (n : Nat) : Stays (assignZC n) := .ite (.modifyEng _) (.raiseFatal _)

/-! ## Ports -/

theorem Stays.sinkWrite (b : Byte) : Stays (sinkWrite b) := fun s => by
  unfold Machine.sinkWrite
  split <;> exact ⟨rfl, rfl, rfl, rfl⟩

theorem Stays.sourceRead : Stays sourceRead := fun s => by
  unfold Machine.sourceRead
  split
  · exact ⟨rfl, rfl, rfl, rfl⟩
  · split <;> exact ⟨rfl, rfl, rfl, rfl⟩

theorem Stays.lineRead (c : Fin 4) (x y : Nat) : Stays (lineRead c x y) := fun s => by
  unfold Machine.lineRead
  split <;> exact ⟨rfl, rfl, rfl, rfl⟩

theorem Stays.lineWrite (c : Fin 4) (x y : Nat) (v : Sample) : Stays (lineWrite c x y v) := fun _ => ⟨rfl, rfl, rfl, rfl⟩

theorem Stays.markerSync (k : MarkerKind) (l : Option Byte) : Stays (markerSync k l) := fun s => by
  unfold Machine.markerSync
  split <;> exact ⟨rfl, rfl, rfl, rfl⟩

theorem Stays.emitMarker (k : MarkerKind) : Stays (emitMarker k) := by
  refine .bind (fun s => ?_) fun r => ?_
  · unfold markerEmit
    split <;> exact ⟨rfl, rfl, rfl, rfl⟩
  · cases r
    · exact .pure _
    · exact .raiseFatal _

/-! ## The encoder -/

theorem Stays.emit (b : Byte) : Stays (emit b) := by
  refine .bind (.sinkWrite b) fun r => ?_
  cases r
  · exact .modifyEng _
  · exact .raiseFatal _

theorem Stays.emitStuffed (b : Byte) : Stays (emitStuffed b) :=
  .bind (.emit b) fun _ => .ite (.emit _) (.pure _)

theorem Stays.emitZeros : Stays emitZeros := by
  have h : ∀ n, Stays (emitZerosN n) := fun n => by
    induction n with
    | zero => exact .pure _
    | succ n ih => exact .bind (.emit _) fun _ => .bind (.modifyEng _) fun _ => ih
  exact fun s => h _ s

theorem Stays.emitStacked (n : Nat) : Stays (emitStacked n) := by
  induction n with
  | zero => exact .pure _
  | succ n ih => exact .bind (.emitStuffed _) fun _ => ih

theorem Stays.emitHeld (carry : Bool) : Stays (emitHeld carry) := by
  unfold Machine.emitHeld
  refine .ite ?_ ?_
  · refine .bind ?_ fun _ => .get fun _ => .bind (.assignZC _) fun _ => .modifyEng _
    exact .get fun _ => .ite (.ite (.raiseFatal _) (.bind .emitZeros fun _ => .emitStuffed _)) (.pure _)
  · refine .bind ?_ fun _ => ?_
    · exact .get fun _ => .ite (.ite (.assignZC _) (.bind .emitZeros fun _ => .emit _)) (.pure _)
    · exact .get fun _ => .ite (.pure _) (.bind .emitZeros fun _ => .bind (.emitStacked _) fun _ => .modifyEng _)

theorem Stays.byteOut : Stays byteOut := by
  have hd : Stays dropByte := .get fun _ => .bind (.assignC _) fun _ => .assignCT _
  exact .get fun _ => .ite (.bind (.emitHeld _) fun _ => .bind (.modifyEng _) fun _ => hd)
    (.ite (.bind (.assignSC _) fun _ => hd) (.bind (.emitHeld _) fun _ => .bind (.modifyEng _) fun _ => hd))

theorem Stays.renormE (n : Nat) : Stays (renormE n) := by
  induction n with
  | zero => exact .raiseFatal _
  | succ n ih =>
    refine .bind ?_ fun _ => .bind ?_ fun _ => .get fun _ => .ite (.pure _) ih
    · exact .get fun _ => .bind (.assignA _) fun _ => .bind (.assignC _) fun _ => .assignCT _
    · exact .get fun _ => .ite .byteOut (.pure _)

theorem Stays.romRow (c : Fin 4) (b : Nat) : Stays (romRow c b) := fun s => by
  unfold Machine.romRow
  split
  · exact ⟨rfl, rfl, rfl, rfl⟩
  · exact Stays.raiseFatal _ s

theorem Stays.adaptCtx (c : Fin 4) (b : Nat) (r : RomRow) (e : Estimate) : Stays (adaptCtx c b r e) := fun _ => ⟨rfl, rfl, rfl, rfl⟩

theorem Stays.requireEncodeBounds : Stays requireEncodeBounds := fun s => by
  unfold Machine.requireEncodeBounds
  split
  · exact ⟨rfl, rfl, rfl, rfl⟩
  · exact Stays.raiseFatal _ s

theorem Stays.encodeBit (c : Fin 4) (b : Nat) (d : Bool) : Stays (encodeBit c b d) :=
  .bind .requireEncodeBounds fun _ => .bind (.romRow c b) fun _ => .get fun _ => .bind (.assignA _) fun _ =>
    .bind (.assignC _) fun _ => .ite (.pure _) (.bind (.adaptCtx _ _ _ _) fun _ => .renormE _)

theorem Stays.encodeV (c : Fin 4) (v da db : Int) (l u : Nat) : Stays (encodeV c v da db l u) := by
  have h : ∀ ds, Stays (encodeDecisions c ds) := fun ds => by
    induction ds with
    | nil => exact .pure _
    | cons p rest ih => exact .bind (.encodeBit _ _ _) fun _ => ih
  exact h _

theorem Stays.encFlush : Stays encFlush := by
  refine .bind .requireEncodeBounds fun _ => .bind ?_ fun _ => .get fun _ => .bind (.emitHeld _) fun _ =>
    .bind ?_ fun _ => .modifyEng _
  · exact .get fun _ => .assignC _
  · exact .ite (.pure _) (.bind .emitZeros fun _ => .bind (.emitStuffed _) fun _ => .ite (.pure _) (.emitStuffed _))

/-! ## The decoder -/

theorem Stays.setExhausted : Stays setExhausted :=
  .bind (.modifyEng _) fun _ => .get fun _ => .ite (.pure _)
    (.bind (.modify fun _ => ⟨rfl, rfl, rfl, rfl⟩) fun _ => fun s => SamePlace.report s _)

theorem Stays.readPastFill (n : Nat) : Stays (readPastFill n) := by
  induction n with
  | zero => exact .sourceRead
  | succ n ih =>
    refine .bind .sourceRead fun b => ?_
    cases b
    · exact .pure _
    · exact .ite ih (.pure _)

theorem Stays.nextDataByte : Stays nextDataByte := by
  refine .get fun s => .ite (.pure _) (.bind .sourceRead fun b => ?_)
  cases b with
  | none => exact .bind .setExhausted fun _ => .pure _
  | some b =>
    refine .ite (.get fun _ => .bind (.readPastFill _) fun b2 => ?_) (.pure _)
    cases b2 with
    | none => exact .bind .setExhausted fun _ => .pure _
    | some b2 => exact .ite (.pure _) (.bind (.modify fun _ => ⟨rfl, rfl, rfl, rfl⟩) fun _ => .pure _)

theorem Stays.byteIn : Stays byteIn := .bind .nextDataByte fun _ => .get fun _ => .assignC _

theorem Stays.decInit : Stays decInit :=
  .bind (.modify fun _ => ⟨rfl, rfl, rfl, rfl⟩) fun _ => .bind (.modifyEng _) fun _ => .bind .byteIn fun _ =>
    .bind (.get fun _ => .assignC _) fun _ => .bind .byteIn fun _ => .bind (.get fun _ => .assignC _) fun _ =>
      .modifyEng _

theorem Stays.renormD (n : Nat) : Stays (renormD n) := by
  induction n with
  | zero => exact .raiseFatal _
  | succ n ih =>
    refine .bind ?_ fun _ => .bind ?_ fun _ => .get fun _ => .ite (.pure _) ih
    · exact .get fun _ => .ite (.bind .byteIn fun _ => .assignCT _) (.pure _)
    · exact .get fun _ => .bind (.assignA _) fun _ => .bind (.assignC _) fun _ => .assignCT _

theorem Stays.requireDecodeBounds : Stays requireDecodeBounds := fun s => by
  unfold Machine.requireDecodeBounds
  split
  · exact ⟨rfl, rfl, rfl, rfl⟩
  · exact Stays.raiseFatal _ s

theorem Stays.decodeBit (c : Fin 4) (b : Nat) : Stays (decodeBit c b) :=
  .bind .requireDecodeBounds fun _ => .bind (.romRow c b) fun _ => .get fun _ => .bind (.assignA _) fun _ =>
    .bind (.assignC _) fun _ => .ite (.pure _) (.bind (.adaptCtx _ _ _ _) fun _ => .bind (.renormD _) fun _ => .pure _)

theorem Stays.decodeMagnitude (c : Fin 4) (g : Bool) : Stays (decodeMagnitude c g) := by
  have hx : ∀ n k, Stays (decodeExponent c g n k) := fun n => by
    induction n with
    | zero => exact fun _ => .raiseFatal _
    | succ n ih => exact fun k => .bind (.decodeBit _ _) fun _ => .ite (ih _) (.pure _)
  have hm : ∀ b n sz, Stays (decodeMantissa c b n sz) := fun b n => by
    induction n with
    | zero => exact fun _ => .pure _
    | succ n ih => exact fun sz => .bind (.decodeBit _ _) fun _ => .ite (ih _) (ih _)
  exact .bind (hx _ _) fun _ => hm _ _ _

theorem Stays.decodeV (c : Fin 4) (da db : Int) (l u : Nat) : Stays (decodeV c da db l u) := by
  refine .bind (.decodeBit _ _) fun _ => .ite ?_ (.pure _)
  exact .bind (.decodeBit _ _) fun _ => .bind (.decodeBit _ _) fun _ =>
    .ite (.bind (.decodeMagnitude _ _) fun _ => .pure _) (.pure _)

/-! ## One sample and a restart -/

theorem Stays.readMasked (c : Fin 4) (x y : Nat) : Stays (readMasked c x y) :=
  .bind (.lineRead c x y) fun _ => .get fun _ => .pure _

theorem Stays.prediction (c : Fin 4) : Stays (prediction c) := by
  refine .get fun s => .ite (.pure _) (.ite (.ite (.pure _) (.readMasked _ _ _)) (.ite (.readMasked _ _ _) ?_))
  refine .bind (.readMasked _ _ _) fun _ => .bind (.readMasked _ _ _) fun _ => .bind (.readMasked _ _ _) fun _ => ?_
  split
  · exact .pure _
  · exact .raiseFatal _

theorem Stays.storeResidual (c : Fin 4) (v : Int) : Stays (storeResidual c v) := fun _ => ⟨rfl, rfl, rfl, rfl⟩

theorem Stays.codeSample (dir : Dir) (c : Fin 4) : Stays (codeSample dir c) := by
  cases dir
  · exact .bind (.prediction c) fun _ => .get fun _ => .bind (.readMasked _ _ _) fun _ => .get fun _ =>
      .bind (.encodeV _ _ _ _ _ _) fun _ => .storeResidual _ _
  · exact .bind (.prediction c) fun _ => .get fun _ => .bind (.decodeV _ _ _ _ _) fun _ =>
      .bind (.lineWrite _ _ _ _) fun _ => .storeResidual _ _

theorem Stays.codeComponents (dir : Dir) (cs : List (Fin 4)) : Stays (codeComponents dir cs) := by
  induction cs with
  | nil => exact .pure _
  | cons c rest ih => exact .bind (.codeSample dir c) fun _ => ih

theorem Stays.restartReset : Stays restartReset := fun _ => ⟨rfl, rfl, rfl, rfl⟩

theorem Stays.nextMarkerNumber : Stays nextMarkerNumber := fun _ => ⟨rfl, rfl, rfl, rfl⟩

theorem Stays.restart (dir : Dir) : Stays (restart dir) := by
  cases dir
  · exact .bind .encFlush fun _ => .get fun _ => .bind (.emitMarker _) fun _ => .bind .nextMarkerNumber fun _ =>
      .bind .restartReset fun _ => .modifyEng _
  · exact .get fun _ => .bind (.markerSync _ _) fun _ => .bind .nextMarkerNumber fun _ =>
      .bind .restartReset fun _ => .decInit

theorem Stays.restartIfDue (dir : Dir) : Stays (restartIfDue dir) := .get fun _ => .ite (.restart dir) (.pure _)

/-! ## What a prediction and the start of a line change -/

/-- `readMasked` changes nothing but the record of transactions. -/
theorem readMasked_logged {c : Fin 4} {x y : Nat} {s u : State} {p : Int} (h : readMasked c x y s = .ok p u) :
    Logged s u := by
  simp only [readMasked, cmd_bind, lineRead] at h
  cases hm : Memory.read sampleBlank s.ports.samples (sampleKey c x y) with
  | none =>
    rw [hm] at h
    cases h
  | some v =>
    rw [hm] at h
    cases h
    exact ⟨_, rfl, by simp [PortEvent.sunkByte, Ports.sinkBytes]⟩

/-- A prediction changes nothing but the record of transactions. -/
theorem prediction_logged {c : Fin 4} {s u : State} {p : Int} (h : prediction c s = .ok p u) : Logged s u := by
  unfold prediction at h
  simp only [cmd_bind, cmd_get] at h
  split at h
  · cases h
    exact .refl s
  · split at h
    · split at h
      · cases h
        exact .refl s
      · exact readMasked_logged h
    · split at h
      · exact readMasked_logged h
      · simp only [predictInner, cmd_bind] at h
        rcases h1 : readMasked c (s.pos.x.toNat - 1) s.pos.y.toNat s with ⟨ra, t1⟩ | ⟨e, t1⟩
        · rw [h1] at h
          simp only at h
          rcases h2 : readMasked c s.pos.x.toNat (s.pos.y.toNat - 1) t1 with ⟨rb, t2⟩ | ⟨e, t2⟩
          · rw [h2] at h
            simp only at h
            rcases h3 : readMasked c (s.pos.x.toNat - 1) (s.pos.y.toNat - 1) t2 with ⟨rc, t3⟩ | ⟨e, t3⟩
            · rw [h3] at h
              simp only at h
              have hl := ((readMasked_logged h1).trans (readMasked_logged h2)).trans (readMasked_logged h3)
              cases hq : predict s.cfg.pred.toNat ra rb rc <;> rw [hq] at h <;> cases h
              exact hl
            · rw [h3] at h
              cases h
          · rw [h2] at h
            cases h
        · rw [h1] at h
          cases h

/-- The start of a line: DA is 0 for the listed components. -/
theorem clearLeft_eq (cs : List (Fin 4)) (s : State) : clearLeft cs s =
    .ok () { s with da := Vector.ofFn fun c => if c ∈ cs then 0 else s.da[c] } := by
  induction cs generalizing s with
  | nil => simp [clearLeft]
  | cons c rest ih =>
    simp only [clearLeft, cmd_bind, cmd_modify, ih]
    congr 2
    refine Vector.ext fun i hi => ?_
    simp only [Vector.getElem_ofFn, State.setDa]
    by_cases h1 : (⟨i, hi⟩ : Fin 4) ∈ rest
    · simp [h1]
    · by_cases h2 : c = ⟨i, hi⟩
      · subst h2
        simp [h1]
      · have h3 : c.val ≠ i := fun h => h2 (Fin.ext h)
        simp [h1, Ne.symm h2, h3]

end Sys2Proof.Machine
end

