-- ==== Sys2Proof/Laws/Step.lean ====
section
/-! SUPPORT. Once for all commands: what one can do when it answers a next state in a sound machine. It reports an
error, completes, or ends in the Faulted entry; and what it keeps in each case. -/

namespace Sys2Proof.Machine

/-- The commands that write to the byte sink. -/
def encodes : Instr → Bool
  | .encBit _ _ _ | .encFlush | .encDiff _ | .writeMcu | .flush => true
  | .nop | .encInit | .decInit | .decBit _ _ | .ctxReset _ | .clearErr | .classify _ _ | .decDiff _ | .startScan _
  | .startMcuRow | .parseMcu | .abort | .reset => false

/-- The commands that write RESULT (rule R82). -/
def answers : Instr → Bool
  | .decBit _ _ | .decDiff _ | .classify _ _ => true
  | .nop | .encInit | .encBit _ _ _ | .encFlush | .decInit | .ctxReset _ | .clearErr | .encDiff _ | .startScan _
  | .startMcuRow | .writeMcu | .parseMcu | .flush | .abort | .reset => false

/-- The fatal errors a command can end in (rule R221). -/
def canRaise (i : Instr) (e : ErrCode) : Prop :=
  match i with
  | .startScan _ => e = .configurationError
  | .encBit _ _ _ | .encFlush | .encDiff _ | .writeMcu | .flush => e = .sinkFailure ∨ e = .stateCorruption
  | .decDiff _ | .parseMcu => e = .stateCorruption
  | .nop | .encInit | .decInit | .decBit _ _ | .ctxReset _ | .clearErr | .classify _ _ | .startMcuRow | .abort
  | .reset => False

/-- DSTATE after a command completes (rule R170). -/
def dstateAfter (i : Instr) (s : State) : DState :=
  match i with
  | .startScan _ => .scanStarted
  | .startMcuRow => .rowReady
  | .writeMcu | .parseMcu => .rowConsumed
  | .flush => .scanFlushed
  | .abort | .reset => .uninitialized
  | .nop | .encInit | .encBit _ _ _ | .encFlush | .decInit | .decBit _ _ | .ctxReset _ | .clearErr | .classify _ _
  | .encDiff _ | .decDiff _ => s.status.dstate

/-- DMODE after a command completes: START_SCAN sets it (rule R171). -/
def dmodeAfter (i : Instr) (s : State) : Dir :=
  match i with
  | .startScan dir => dir
  | .reset => .encode
  | .nop | .encInit | .encBit _ _ _ | .encFlush | .decInit | .decBit _ _ | .ctxReset _ | .clearErr | .classify _ _
  | .encDiff _ | .decDiff _ | .startMcuRow | .writeMcu | .parseMcu | .flush | .abort => s.status.dmode

/-- How much SC + ZC may grow by in a command (rules R110, R156, R180). -/
def roomOf (i : Instr) (s : State) : Nat := 64 + if i = .writeMcu then s.groupRoom else 0

/-- What a command other than RESET keeps of `s`, wherever it ends. -/
structure Common (i : Instr) (s t : State) : Prop where
  cfg : t.cfg = s.cfg
  build : t.build = s.build
  host : t.ports.host = s.ports.host
  replies : t.ports.replies = s.ports.replies
  args : t.regs = { s.regs with result := t.regs.result }
  fault : t.status.fault = s.status.fault
  exhausted : s.status.exhausted = true → (∀ dir, i ≠ .startScan dir) → t.status.exhausted = true
  samples : i ≠ .parseMcu → ∀ (c : Fin 4) (x y : Nat), x < 65536 → y < 65536 →
    Memory.read sampleBlank t.ports.samples (sampleKey c x y) = Memory.read sampleBlank s.ports.samples (sampleKey c x y)
  sink : encodes i = false → t.ports.sinkBytes = s.ports.sinkBytes

/-- A command that completed. -/
structure Completed (i : Instr) (s t : State) : Prop extends Common i s t where
  result : answers i = false → t.regs.result = s.regs.result
  dstate : t.status.dstate = dstateAfter i s
  dmode : t.status.dmode = dmodeAfter i s
  sunk : i ≠ .encInit → (∀ dir, i ≠ .startScan dir) → Sunk s t

/-- A command that ended in the fatal error `e` from the state `u` (rule R226). -/
structure Halted (i : Instr) (s : State) (e : ErrCode) (u : State) : Prop extends Common i s u where
  code : canRaise i e
  result : u.regs.result = s.regs.result
  dmode : u.status.dmode = s.status.dmode
  nbytes : encodes i = false → u.eng.nbytes = s.eng.nbytes
  cause : encodes i = true → ¬ s.ports.SinkAccepts ∨ ¬ s.ports.WriterAccepts ∨ ¬ s.eng.Room (roomOf i s)

/-- Everything a command other than NOP and RESET can do when it answers the next state `t`. -/
inductive Did (i : Instr) (s t : State) : Prop where
  | reported (e : ErrCode) (h : t = s.report e) (he : e = .sequenceError ∨ e = .illegalCommand)
  | completed (hf : s.status.fault = false) (ho : operandsLegal i s) (ha : allowedIn i s) (h : Completed i s t)
  | halted (hf : s.status.fault = false) (ho : operandsLegal i s) (ha : allowedIn i s) (u : State) (e : ErrCode)
      (he : e.isFatal = true) (h : Halted i s e u) (ht : t = u.enterFaulted e)

theorem Did.of_guarded {i : Instr} {o p : Bool} {body : Cmd Unit} {s t : State} {hang : Prop}
    (h : guarded o p body s = .next t) (ho : o = true → operandsLegal i s) (hp : p = true → allowedIn i s)
    (hb : s.status.fault = false → o = true → p = true →
      Cmd.Ends body s (fun _ t => Completed i s t) (Halted i s) hang) : Did i s t := by
  rcases guarded_next h with ⟨e, ht, he⟩ | ⟨hf, ho', hp', ht⟩
  · exact .reported e ht he
  · rcases (hb hf ho' hp').outcome ht with h' | ⟨u, e, he, hu, ht⟩
    · exact .completed hf (ho ho') (hp hp') h'
    · exact .halted hf (ho ho') (hp hp') u e he hu ht

/-- A command that changes only registers of the block. -/
theorem Common.of_ports {i : Instr} {s t : State} (h1 : t.cfg = s.cfg) (h2 : t.build = s.build)
    (h3 : t.ports = s.ports) (h4 : t.regs = { s.regs with result := t.regs.result })
    (h5 : t.status.fault = s.status.fault)
    (h6 : s.status.exhausted = true → (∀ dir, i ≠ .startScan dir) → t.status.exhausted = true) : Common i s t :=
  ⟨h1, h2, by rw [h3], by rw [h3], h4, h5, h6, fun _ _ _ _ _ _ => by rw [h3], fun _ => by rw [h3]⟩

/-- A command that does what a part of a walk may do. -/
theorem Common.of_kept {i : Instr} {s t : State} (hk : Kept s t) (hs : s.Steady)
    (hsm : i ≠ .parseMcu → ∀ (c : Fin 4) (x y : Nat), x < 65536 → y < 65536 →
      Memory.read sampleBlank t.ports.samples (sampleKey c x y) =
        Memory.read sampleBlank s.ports.samples (sampleKey c x y))
    (hsink : encodes i = false → t.ports.sinkBytes = s.ports.sinkBytes) : Common i s t :=
  ⟨hk.cfg, hk.build, hk.host, hk.replies, by rw [hk.regs], (hk.steady hs).fault.trans hs.fault.symm,
    fun h _ => hk.exhausted h, hsm, hsink⟩

theorem Common.of_coded {i : Instr} {s u : State} {bs : List Byte} {f : List PortEvent} (h : Coded s u bs f)
    (hi : encodes i = true) : Common i s u :=
  ⟨h.cfg, h.build, by rw [h.ports], by rw [h.ports], by rw [h.regs], by rw [h.status], fun hx _ => by rw [h.status]; exact hx,
    fun _ _ _ _ _ _ => by rw [h.samples], fun hn => by rw [hi] at hn; cases hn⟩

/-- The end of an encoding command outside a scan in a fatal error. -/
theorem Halted.of_encodeHalt {i : Instr} {s u : State} {K : State → Prop} {n : Nat} {e : ErrCode}
    (h : EncodeHalt s K (¬ s.eng.Room n) e u) (hi : encodes i = true)
    (hc : e = .sinkFailure ∨ e = .stateCorruption → canRaise i e) (hn : n ≤ roomOf i s) : Halted i s e u := by
  have room : ∀ {p : Prop}, p ∨ ¬ s.eng.Room n → p ∨ ¬ s.eng.Room (roomOf i s) := fun hp => hp.imp id fun hr h' => hr (by
    unfold Engine.Room at *
    omega)
  cases h with
  | sink h _ hs =>
    exact ⟨.of_coded h hi, hc (.inl rfl), by rw [h.regs], by rw [h.status],
      (fun hx => by rw [hi] at hx; cases hx), fun _ => .inl hs⟩
  | width h _ hw =>
    exact ⟨.of_coded h hi, hc (.inr rfl), by rw [h.regs], by rw [h.status],
      (fun hx => by rw [hi] at hx; cases hx), fun _ => .inr (room (.inr hw))⟩

theorem Completed.of_coded {i : Instr} {s t : State} {bs : List Byte} (h : Coded s t bs []) (hst : StuffedBytes bs)
    (hi : encodes i = true) (hd : dstateAfter i s = s.status.dstate) (hm : dmodeAfter i s = s.status.dmode) :
    Completed i s t :=
  ⟨.of_coded h hi, fun _ => by rw [h.regs], by rw [h.status, hd], by rw [h.status, hm], fun _ _ => .of_coded h hst⟩

/-- A fetch moves no port but the source. -/
theorem Fetched.portsKept {s t : State} (h : Fetched s t) : t.ports.host = s.ports.host ∧
    t.ports.replies = s.ports.replies ∧ t.ports.samples = s.ports.samples ∧ t.ports.sinkBytes = s.ports.sinkBytes := by
  obtain ⟨b, tr, h0, hp⟩ := h.ports
  rw [hp]
  exact ⟨rfl, rfl, rfl, h0⟩

theorem Common.of_fetched {i : Instr} {s t : State} (h : Fetched s t) (v : Word) :
    Common i s { t with regs := { t.regs with result := v } } := by
  obtain ⟨hh, hrp, hsm, hsk⟩ := h.portsKept
  refine ⟨h.cfg, h.build, hh, hrp, ?_, h.fault, fun hx _ => h.exhausted hx, fun _ _ _ _ _ _ => ?_, fun _ => hsk⟩
  · show ({ t.regs with result := v } : HostRegs) = _
    rw [h.regs]
  · show Memory.read _ t.ports.samples _ = _
    rw [hsm]

theorem Completed.of_fetched {i : Instr} {s t : State} (h : Fetched s t) (v : Word) (hr : answers i = true)
    (hd : dstateAfter i s = s.status.dstate) (hm : dmodeAfter i s = s.status.dmode) :
    Completed i s { t with regs := { t.regs with result := v } } :=
  ⟨.of_fetched h v, (fun hx => by rw [hr] at hx; cases hx), h.dstate.trans hd.symm, h.dmode.trans hm.symm,
    fun _ _ => .of_same h.portsKept.2.2.2 h.nbytes⟩

/-! ## Each command -/

theorem execEncInit_did {s t : State} (h : execEncInit s = .next t) : Did .encInit s t :=
  .of_guarded (hang := False) h (fun _ => trivial) (fun hp => by simpa [State.raw, allowedIn] using hp) fun _ _ _ =>
    Cmd.Ends.bind_ok (cmd_modifyEng _ _) (Cmd.Ends.of_ok (cmd_modifyEng _ _)
      ⟨.of_ports rfl rfl rfl rfl rfl fun hx _ => hx, fun _ => rfl, rfl, rfl, fun hx => absurd rfl hx⟩)

theorem rawIn_allowed {s : State} {m : EngMode} (h : s.rawIn m = true) :
    (s.status.dstate = .uninitialized ∨ s.status.dstate = .scanFlushed) ∧ s.eng.mode = m := by
  simpa [State.rawIn, State.raw] using h

theorem execEncBit_did {c : Fin 4} {bin : Byte} {d : Bool} {s t : State} (hi : s.Inv)
    (h : execEncBit c bin d s = .next t) : Did (.encBit c bin d) s t := by
  refine .of_guarded (hang := ¬ s.ports.SinkAccepts) h (fun ho => by simpa [binLegal, operandsLegal] using ho)
    (fun hp => rawIn_allowed hp) fun hf ho hp => ?_
  have hb : bin.toNat < Config.nBin := by simpa [binLegal] using ho
  refine (encodeBit_ends s c bin.toNat d hb (hi.encoder (rawIn_true hp).2) hi.build (hi.ctx c _ hb)).mono ?_ ?_ id
  · rintro _ t ht
    obtain ⟨bs, hc, hst⟩ := ht.coded
    exact .of_coded hc hst rfl rfl rfl
  · exact fun e u hu => .of_encodeHalt hu rfl id (by unfold roomOf; omega)

theorem execEncDiff_did {c : Fin 4} {s t : State} (hi : s.Inv) (h : execEncDiff c s = .next t) : Did (.encDiff c) s t := by
  refine .of_guarded (hang := ¬ s.ports.SinkAccepts) h ?_ (fun hp => rawIn_allowed hp) fun hf ho hp => ?_
  · intro ho
    simpa [residualLegal, State.thresholdsOrdered, operandsLegal, and_assoc] using ho
  · have hv : -32768 ≤ s.arg0 ∧ s.arg0 ≤ 32768 := by
      simp only [Bool.and_eq_true, residualLegal, decide_eq_true_eq] at ho
      exact ho.1
    refine (encodeV_ends c _ _ _ _ _ s hv (hi.encoder (rawIn_true hp).2) hi.build hi.ctx).mono ?_ ?_ id
    · rintro _ t ht
      obtain ⟨bs, hc, hst⟩ := ht.coded
      exact .of_coded hc hst rfl rfl rfl
    · exact fun e u hu => .of_encodeHalt hu rfl id (by unfold roomOf; omega)

theorem Halted.of_flush {i : Instr} {s u : State} {e : ErrCode} (hs : s.Steady) (h : FlushHalt s (s.eng.Room 1) e u)
    (hi : encodes i = true) (hc : e = .sinkFailure ∨ e = .stateCorruption → canRaise i e) : Halted i s e u :=
  ⟨.of_kept h.kept hs (fun _ _ _ _ _ _ => by rw [h.samples]) (fun hx => by rw [hi] at hx; cases hx), hc h.code,
    by rw [h.kept.regs], h.kept.dmode, (fun hx => by rw [hi] at hx; cases hx),
    fun _ => h.cause.imp id (Or.imp id fun hr h' => hr (by
      unfold Engine.Room roomOf at *
      omega))⟩

theorem execEncFlush_did {s t : State} (hi : s.Inv) (h : execEncFlush s = .next t) : Did .encFlush s t := by
  refine .of_guarded (hang := ¬ s.ports.SinkAccepts) h (fun _ => trivial) (fun hp => rawIn_allowed hp) fun hf _ hp => ?_
  have hs := hi.steady hf
  refine (encFlush_steady s (hi.encoder (rawIn_true hp).2)).mono ?_ (fun e u hu => .of_flush hs hu rfl id) id
  rintro _ t ⟨hk, _, _, _, hsk, _, hsm⟩
  exact ⟨.of_kept hk hs (fun _ _ _ _ _ _ => by rw [hsm]) (fun hx => by cases hx), fun _ => by rw [hk.regs], hk.dstate,
    hk.dmode, fun _ _ => hsk⟩

theorem execDecInit_did {s t : State} (hi : s.Inv) (h : execDecInit s = .next t) : Did .decInit s t := by
  refine .of_guarded (hang := ¬ s.ports.SourceAnswers) h (fun _ => trivial)
    (fun hp => by simpa [State.raw, allowedIn] using hp) fun hf _ _ => ?_
  refine (decInit_walked s).mono ?_ (fun _ _ h => h.elim) id
  rintro _ t ⟨hk, _, _, _, hp, hn⟩
  exact ⟨.of_kept hk (hi.steady hf) (fun _ _ _ _ _ _ => by rw [hp.samples]) (fun _ => hp.sunk),
    fun _ => by rw [hk.regs], hk.dstate, hk.dmode, fun _ _ => .of_same hp.sunk hn⟩

theorem execDecBit_did {c : Fin 4} {bin : Byte} {s t : State} (hi : s.Inv) (h : execDecBit c bin s = .next t) :
    Did (.decBit c bin) s t := by
  refine .of_guarded (hang := ¬ s.ports.SourceAnswers) h (fun ho => by simpa [binLegal, operandsLegal] using ho)
    (fun hp => rawIn_allowed hp) fun hf ho hp => ?_
  have hb : bin.toNat < Config.nBin := by simpa [binLegal] using ho
  refine (decodeBit_ends s c bin.toNat hb (hi.decoder (rawIn_true hp).2) hi.build (hi.ctx c _ hb)).seq
    (fun _ _ h => h.elim) id ?_
  rintro d t ht
  exact Cmd.Ends.of_ok (cmd_writeResult _ _) (.of_fetched ht.fetched _ rfl rfl rfl)

theorem execDecDiff_did {c : Fin 4} {s t : State} (hi : s.Inv) (h : execDecDiff c s = .next t) :
    Did (.decDiff c) s t := by
  refine .of_guarded (hang := ¬ s.ports.SourceAnswers) h
    (fun ho => by simpa [State.thresholdsOrdered, operandsLegal] using ho) (fun hp => rawIn_allowed hp) fun hf _ hp => ?_
  refine (decodeV_ends c _ _ _ _ s (decodable_of_inv hi (rawIn_true hp).2)).seq (fun e u hu => ?_) id ?_
  · have hf := hu.bits.fetched
    exact ⟨Common.of_fetched hf u.regs.result, hu.code, by rw [hf.regs], hf.dmode, fun _ => hf.nbytes,
      fun hx => by cases hx⟩
  · rintro v t ⟨ht, _⟩
    exact Cmd.Ends.of_ok (cmd_writeResult _ _) (.of_fetched ht.fetched _ rfl rfl rfl)

theorem execCtxReset_did {mask : BitVec 4} {s t : State} (h : execCtxReset mask s = .next t) : Did (.ctxReset mask) s t :=
  .of_guarded (hang := False) h (fun _ => trivial) (fun hp => by simpa [State.raw, allowedIn] using hp) fun _ _ _ =>
    Cmd.Ends.of_ok (cmd_modify _ _)
      ⟨.of_ports rfl rfl rfl rfl rfl fun hx _ => hx, fun _ => rfl, rfl, rfl, fun _ _ => .of_same rfl rfl⟩

theorem execClearErr_did {s t : State} (h : execClearErr s = .next t) : Did .clearErr s t :=
  .of_guarded (hang := False) h (fun _ => trivial) (fun _ => trivial) fun _ _ _ =>
    Cmd.Ends.of_ok (cmd_modifyStatus _ _)
      ⟨.of_ports rfl rfl rfl rfl rfl fun hx _ => hx, fun _ => rfl, rfl, rfl, fun _ _ => .of_same rfl rfl⟩

theorem execClassify_did {l u : BitVec 4} {s t : State} (h : execClassify l u s = .next t) : Did (.classify l u) s t :=
  .of_guarded (hang := False) h (fun _ => trivial) (fun _ => trivial) fun _ _ _ =>
    Cmd.Ends.of_ok (cmd_writeResult _ _)
      ⟨.of_ports rfl rfl rfl rfl rfl fun hx _ => hx, (fun hx => by cases hx), rfl, rfl, fun _ _ => .of_same rfl rfl⟩

theorem execAbort_did {s t : State} (h : execAbort s = .next t) : Did .abort s t :=
  .of_guarded (hang := False) h (fun _ => trivial) (fun hp => by simpa [allowedIn] using hp) fun _ _ _ =>
    Cmd.Ends.bind_ok (cmd_modifyEng _ _) (Cmd.Ends.of_ok (cmd_modifyStatus _ _)
      ⟨.of_ports rfl rfl rfl rfl rfl fun hx _ => hx, fun _ => rfl, rfl, rfl, fun _ _ => .of_same rfl rfl⟩)

theorem execStartMcuRow_did {s t : State} (h : execStartMcuRow s = .next t) : Did .startMcuRow s t :=
  .of_guarded (hang := False) h (fun _ => trivial) (fun hp => by simpa [State.rowStartable, allowedIn] using hp)
    fun _ _ _ => Cmd.Ends.bind_ok (cmd_modifyPos _ _) (Cmd.Ends.of_ok (cmd_modifyStatus _ _)
      ⟨.of_ports rfl rfl rfl rfl rfl fun hx _ => hx, fun _ => rfl, rfl, rfl, fun _ _ => .of_same rfl rfl⟩)

theorem execStartScan_did {dir : Dir} {s t : State} (h : execStartScan dir s = .next t) : Did (.startScan dir) s t := by
  refine .of_guarded (hang := dir = .decode ∧ ¬ s.ports.SourceAnswers) h (fun _ => trivial)
    (fun hp => by simpa [State.raw, allowedIn] using hp) fun hf _ _ => ?_
  unfold startScan
  refine Cmd.Ends.get_bind ?_
  by_cases hv : s.configValid = true
  · simp only [hv, if_true]
    refine Cmd.Ends.bind_ok (cmd_modify _ _) ?_
    cases dir
    · refine Cmd.Ends.bind_ok (m := encInit) (cmd_modifyEng _ _) (Cmd.Ends.of_ok (cmd_modifyStatus _ _) ?_)
      exact ⟨.of_ports rfl rfl rfl rfl rfl fun _ hx => absurd rfl (hx .encode), fun _ => rfl, rfl, rfl,
        fun _ hx => absurd rfl (hx .encode)⟩
    · refine Cmd.Ends.seq (decInit_ends _) (fun _ _ h => h.elim) (fun h => ⟨rfl, h⟩) ?_
      rintro _ t ⟨hf', _⟩
      refine Cmd.Ends.of_ok (cmd_modifyStatus _ _) ?_
      obtain ⟨hh, hrp, hsm, hsk⟩ := hf'.portsKept
      exact ⟨⟨hf'.cfg, hf'.build, hh, hrp,
          (by show t.regs = { s.regs with result := t.regs.result }; rw [hf'.regs]; rfl), hf'.fault,
          fun _ hx => absurd rfl (hx .decode),
          (fun _ _ _ _ _ _ => by show Memory.read sampleBlank t.ports.samples _ = _; rw [hsm]; rfl), fun _ => hsk⟩,
        fun _ => congrArg HostRegs.result hf'.regs, rfl, hf'.dmode, fun _ hx => absurd rfl (hx .decode)⟩
  · simp only [hv]
    exact Cmd.Ends.raise rfl ⟨.of_ports rfl rfl rfl rfl rfl fun hx _ => hx, rfl, rfl, rfl, fun _ => rfl, fun hx => by cases hx⟩

theorem codeGroup_did {dir : Dir} {i : Instr} {s t : State} (hi : s.Inv)
    (h : guarded true (s.rowReadyFor dir) (do walk dir; setDState .rowConsumed) s = .next t)
    (hd : (dir = .encode ∧ i = .writeMcu) ∨ (dir = .decode ∧ i = .parseMcu)) : Did i s t := by
  refine .of_guarded (hang := hangCause dir s (s.GroupSupply dir)) h ?_ ?_ fun hf _ hp => ?_
  · rcases hd with ⟨rfl, rfl⟩ | ⟨rfl, rfl⟩ <;> exact fun _ => trivial
  · rcases hd with ⟨rfl, rfl⟩ | ⟨rfl, rfl⟩ <;> exact fun hp => by simpa [State.rowReadyFor, allowedIn] using hp
  · have hs := hi.steady hf
    refine (codeGroup_ends dir s hi hf hp).mono ?_ ?_ id
    · rintro _ t ⟨_, _, _, _, _, _, u, hw, rfl⟩
      have hc : Common i s u := by
        refine .of_kept hw.kept hs (fun hne c x y hx hy => hw.stores c x y hx hy fun h' => ?_) fun hn => ?_
        · rcases hd with ⟨rfl, rfl⟩ | ⟨rfl, rfl⟩
          · cases h'
          · exact absurd rfl hne
        · rcases hd with ⟨rfl, rfl⟩ | ⟨rfl, rfl⟩
          · cases hn
          · exact (hw.quiet.decode rfl).2.2.1
      refine ⟨⟨hc.cfg, hc.build, hc.host, hc.replies, hc.args, hc.fault, hc.exhausted, hc.samples, hc.sink⟩,
        fun _ => congrArg HostRegs.result hw.kept.regs, ?_, ?_, fun _ _ => hw.sunk⟩
      · rcases hd with ⟨rfl, rfl⟩ | ⟨rfl, rfl⟩ <;> rfl
      · rcases hd with ⟨rfl, rfl⟩ | ⟨rfl, rfl⟩ <;> exact hw.kept.dmode
    · intro e u hu
      have hcause := hu.cause
      rcases hd with ⟨rfl, rfl⟩ | ⟨rfl, rfl⟩
      · refine ⟨.of_kept hu.kept hs (fun _ c x y hx hy => hu.stores c x y hx hy (fun h => by cases h)) (fun hx => by cases hx),
          hcause.1, by rw [hu.kept.regs], hu.kept.dmode, (fun hx => by cases hx), fun _ => ?_⟩
        refine hcause.2.imp id (Or.imp id fun hr h' => hr ?_)
        unfold Engine.Room roomOf at *
        simp only [if_true] at h'
        omega
      · exact ⟨.of_kept hu.kept hs (fun hx => absurd rfl hx) (fun _ => (hu.quiet.decode rfl).2.2.1),
          hcause, by rw [hu.kept.regs], hu.kept.dmode, fun _ => (hu.quiet.decode rfl).2.2.2, fun hx => by cases hx⟩

theorem execFlush_did {s t : State} (hi : s.Inv) (h : execFlush s = .next t) : Did .flush s t := by
  refine .of_guarded (hang := match s.status.dmode with
    | .encode => ¬ s.ports.SinkAccepts ∨ ¬ s.ports.WriterAccepts
    | .decode => ¬ s.ports.ReaderAnswers) h (fun _ => trivial)
    (fun hp => by simpa [State.scanDone, allowedIn] using hp) fun hf _ hp => ?_
  have hs := hi.steady hf
  refine (finishScan_ends s hi hf hp).mono ?_ (fun e u hu => .of_flush hs hu.2 rfl id) id
  rintro _ t ⟨_, _, _, _, u, hk, _, hsk, _, hsm, rfl⟩
  have hc : Common .flush s u := .of_kept hk hs (fun _ _ _ _ _ _ => by rw [hsm]) (fun hx => by cases hx)
  exact ⟨⟨hc.cfg, hc.build, hc.host, hc.replies, hc.args, hc.fault, hc.exhausted, hc.samples, hc.sink⟩,
    fun _ => congrArg HostRegs.result hk.regs, rfl, hk.dmode, fun _ _ => hsk⟩

/-- Everything a command other than NOP and RESET can do. -/
theorem exec_did {i : Instr} {s t : State} (hi : s.Inv) (h : exec i s = .next t) (hn : i ≠ .nop) (hr : i ≠ .reset) :
    Did i s t := by
  cases i with
  | nop => exact absurd rfl hn
  | reset => exact absurd rfl hr
  | encInit => exact execEncInit_did h
  | encBit => exact execEncBit_did hi h
  | encFlush => exact execEncFlush_did hi h
  | decInit => exact execDecInit_did hi h
  | decBit => exact execDecBit_did hi h
  | ctxReset => exact execCtxReset_did h
  | clearErr => exact execClearErr_did h
  | classify => exact execClassify_did h
  | encDiff => exact execEncDiff_did hi h
  | decDiff => exact execDecDiff_did hi h
  | startScan => exact execStartScan_did h
  | startMcuRow => exact execStartMcuRow_did h
  | writeMcu => exact codeGroup_did hi h (.inl ⟨rfl, rfl⟩)
  | parseMcu => exact codeGroup_did hi h (.inr ⟨rfl, rfl⟩)
  | flush => exact execFlush_did hi h
  | abort => exact execAbort_did h

/-! ## The encoder's registers in the window -/

@[simp] theorem encoderRegister_encode {s : State} (h : s.eng.mode = .encode) (v : Word) : s.encoderRegister v = v := by
  simp [State.encoderRegister, h]

@[simp] theorem encoderRegister_not_encode {s : State} (h : s.eng.mode ≠ .encode) (v : Word) :
    s.encoderRegister v = 0 := by
  simp [State.encoderRegister, h]

/-- In a sound state with FAULT = 0 a read of ENG_B, ENG_SC and ENG_ZC is the register's value in every mode: rule R25
and 93_implementation_defined.md I21 agree there. -/
theorem State.Inv.heldRegisters_read {s : State} (hi : s.Inv) (hf : s.status.fault = false) :
    s.regValue .engB = BitVec.ofNat 32 (s.eng.b.toNat + flagAt s.eng.bv 8) ∧ s.regValue .engSC = s.eng.sc ∧
      s.regValue .engZC = s.eng.zc := by
  by_cases hm : s.eng.mode = .encode
  · simp [State.regValue, hm]
  · have h := hi.held hf hm
    simp [State.regValue, hm, h.b, h.bv, h.sc, h.zc, flagAt]

/-- A read of ENG_B, ENG_SC and ENG_ZC after a fatal error (rule R226; 93_implementation_defined.md I21). -/
theorem enterFaulted_heldRegisters_read (s : State) (e : ErrCode) :
    (s.enterFaulted e).regValue .engB = 0 ∧ (s.enterFaulted e).regValue .engSC = 0 ∧
      (s.enterFaulted e).regValue .engZC = 0 := by
  simp [State.regValue]

end Sys2Proof.Machine
end

