-- ==== Sys2Proof/WellFormed.lean ====
section
/-! DEFINITION. The check of a command's own operands (spec/30_encoding.md rule R84). The other field widths of rule
R81 are in the types of `Instr`. -/

namespace Sys2Proof

/-- BIN of ENC_BIT and DEC_BIT lies in 0..159; every other field of a command is legal at every value its bits
spell (rule R84). The operand ranges that depend on registers (V, and L > U in CFG_LU) are checked by the machine. -/
def Instr.wellFormed : Instr → Bool
  | .encBit _ bin _ => decide (bin.toNat < Config.nBin)
  | .decBit _ bin => decide (bin.toNat < Config.nBin)
  | .nop | .encInit | .encFlush | .decInit | .ctxReset _ | .clearErr | .classify _ _ | .encDiff _ | .decDiff _
  | .startScan _ | .startMcuRow | .writeMcu | .parseMcu | .flush | .abort | .reset => true

end Sys2Proof
end

