-- ==== Sys2Proof/Tests/Slice0.lean ====
section
/-! SUPPORT. The model's own tests: the operand check, one hand-written word per command, one or two steps per command
with results from spec/95_test_vectors.md and the rules' examples, and for each statement with hypotheses a concrete
case that meets them. -/

set_option Elab.async false

namespace Sys2Proof.Tests

open Sys2Proof.Machine

/-! ## Well-formed commands (rule R84) -/

theorem test_wellFormed_bin : (Instr.encBit 3 159 true).wellFormed = true ∧ (Instr.encBit 3 160 true).wellFormed = false ∧
    (Instr.decBit 3 159).wellFormed = true ∧ (Instr.decBit 3 255).wellFormed = false := by decide

/-! ## Decoding: words written out from rules R80 to R82 and R88 -/

theorem test_decode_nop : decode 0x00000000#32 = .ok .nop := by rfl

theorem test_decode_encInit : decode 0x01000000#32 = .ok .encInit := by rfl

/-- OP 0x02, C = 2, BIN = 159, D = 0 (rule R88). -/
theorem test_decode_encBit : decode 0b00000010_000000_10_10011111_0000000_0#32 = .ok (.encBit 2 159 false) := by rfl

theorem test_decode_encFlush : decode 0x03000000#32 = .ok .encFlush := by rfl

theorem test_decode_decInit : decode 0x04000000#32 = .ok .decInit := by rfl

/-- OP 0x05, C = 1, BIN = 100 (rule R88). -/
theorem test_decode_decBit : decode 0b00000101_000000_01_01100100_00000000#32 = .ok (.decBit 1 100) := by rfl

/-- OP 0x06, MASK = 0b1010. -/
theorem test_decode_ctxReset : decode 0b00000110_0000000000000000_0000_1010#32 = .ok (.ctxReset 10) := by rfl

theorem test_decode_clearErr : decode 0x07000000#32 = .ok .clearErr := by rfl

/-- OP 0x10, U = 6, L = 2 (rule R88). -/
theorem test_decode_classify : decode 0b00010000_0000000000000000_0110_0010#32 = .ok (.classify 2 6) := by rfl

/-- OP 0x11, C = 3 (rule R88). -/
theorem test_decode_encDiff : decode 0b00010001_000000_11_0000000000000000#32 = .ok (.encDiff 3) := by rfl

/-- OP 0x12, C = 1. -/
theorem test_decode_decDiff : decode 0b00010010_000000_01_0000000000000000#32 = .ok (.decDiff 1) := by rfl

/-- OP 0x20, DIR = 1 (rule R88). -/
theorem test_decode_startScan : decode 0x20000001#32 = .ok (.startScan .decode) := by rfl

theorem test_decode_startMcuRow : decode 0x21000000#32 = .ok .startMcuRow := by rfl

theorem test_decode_writeMcu : decode 0x22000000#32 = .ok .writeMcu := by rfl

theorem test_decode_parseMcu : decode 0x23000000#32 = .ok .parseMcu := by rfl

theorem test_decode_flush : decode 0x24000000#32 = .ok .flush := by rfl

theorem test_decode_abort : decode 0x2F000000#32 = .ok .abort := by rfl

theorem test_decode_reset : decode 0x7F000000#32 = .ok .reset := by rfl

/-- Vector E11, and a refused neighbour of each one-bit field. -/
theorem test_decode_illegal : decode 0x02000002#32 = .error .reservedBits ∧ decode 0x08000000#32 = .error .unknownOpcode ∧
    decode 0x20000002#32 = .error .reservedBits ∧ decode 0x06000010#32 = .error .reservedBits := by decide

theorem test_decodeTableWord : decodeTableWord 32 0x05016400 = some (.decBit 1 100) ∧
    decodeTableWord 32 0x02000002 = none := by decide

/-! ## Small states -/

/-- The state an outcome goes on with. -/
def nextState : Host.Outcome State Fault Refusal → Option State
  | .next t => some t
  | .fault _ => none
  | .refused _ => none

/-- The outcome is a next state with a decidable property. -/
def goesTo (o : Host.Outcome State Fault Refusal) (p : State → Bool) : Bool :=
  match nextState o with
  | some t => p t
  | none => false

theorem exists_next {o : Host.Outcome State Fault Refusal} {p : State → Bool} (h : goesTo o p = true) :
    ∃ t, o = .next t ∧ p t = true := by
  cases o with
  | next t => exact ⟨t, rfl, h⟩
  | fault f => cases h
  | refused r => cases h

/-- The encoder registers after ENC_INIT (rule R105). -/
def encStart : Engine :=
  { a := 0x10000, c := 0, ct := 11, b := 0, bv := false, sc := 0, zc := 0, nbytes := 0, eos := false, mode := .encode }

/-- The encoder registers after the example of rule R121. -/
def encOne : Engine := { encStart with a := 0xB43A, c := 0x14BC6, ct := 10 }

/-- The encoder registers after bit 26 of vector E7. -/
def encHeld : Engine :=
  { encStart with a := 0xDC70, c := 0x3DB0, ct := 8, b := 0x07, bv := true, zc := 1, nbytes := 1 }

/-- The decoder registers after DEC_INIT, with the data bytes fetched in C. -/
def decStart (c : Word) : Engine := { encStart with c := c, ct := 0, mode := .decode }

/-- The configuration of program P2: PRED 4, N 1, P 8, X 4, Y 4, RI 0, G 8, LU0 0x62. -/
def cfgP2 : ScanConfig :=
  { pred := 4, ncomp := 1, prec := 8, width := 4, height := 4, ri := 0, rowgrp := 8
    lu := Vector.replicate 4 { l := 2, u := 6 } }

/-- The configuration of vector D3, with both lines in one row group. -/
def cfgD3 : ScanConfig := { cfgP2 with pred := 1, height := 2, ri := 4, rowgrp := 2 }

/-- A configuration of one sample. -/
def cfgOne : ScanConfig := { cfgP2 with width := 1, height := 1, rowgrp := 1 }

/-- No scan in progress, the engine at `e`. -/
def raw (e : Engine) : State := { State.reset with eng := e, cfg := cfgP2 }

/-- The samples of component 0, line by line. -/
def image (lines : List (List Nat)) : Memory 16 :=
  (lines.zipIdx.map fun l => l.1.zipIdx.map fun v => (sampleKey 0 v.2 l.2, BitVec.ofNat 16 v.1)).flatten

/-- The image of program P2. -/
def image128 : Memory 16 := image (List.replicate 4 (List.replicate 4 128))

/-- The image of vector D3. -/
def imageD3 : Memory 16 := image [[10, 12, 12, 9], [11, 11, 40, 200]]

/-- A scan at a driver state, its row group reaching from line 0 to `yend`. -/
def scan (dir : Dir) (d : DState) (cfg : ScanConfig) (yend : BitVec 16) (e : Engine) : State :=
  { State.reset with
    status := { Status.reset with dstate := d, dmode := dir }
    cfg := cfg
    pos := { Position.reset with yend := yend }
    eng := e }

/-- With samples in the line/frame buffer. -/
def withImage (s : State) (m : Memory 16) : State := { s with ports := { s.ports with samples := m } }

/-- With bytes in the source. -/
def withBytes (s : State) (bs : List Byte) : State :=
  { s with ports := { s.ports with source := { bytes := bs, silent := false } } }

/-- With signed operands. -/
def withArgs (s : State) (x y z : Int) : State :=
  { s with regs := { s.regs with arg0 := BitVec.ofInt 32 x, arg1 := BitVec.ofInt 32 y, arg2 := BitVec.ofInt 32 z } }

/-- Faulted after a sink failure. -/
def faulted : State :=
  { State.reset with status := { Status.reset with dstate := .faulted, fault := true, err := .sinkFailure } }

/-- The block waiting with an operand in ARG0. -/
def idle : State := withArgs State.reset 3 0 0

/-- Encoding with a sink that will fail. -/
def failing : State :=
  { raw { encHeld with ct := 1 } with ports := { Ports.empty with sinkAnswers := [some .fail] } }

/-! ## One step each -/

theorem test_nop : nextState (exec .nop faulted) = some faulted := by decide +kernel

/-- Rule R120. -/
theorem test_encInit : goesTo (exec .encInit (raw encHeld)) (fun t => t.eng = encStart ∧ t.ports.trace = []) := by
  decide +kernel

/-- Rule R121. -/
theorem test_encBit_lps : goesTo (exec (.encBit 0 0 true) (raw encStart)) (fun t =>
    t.eng = encOne ∧ t.ctxAt 0 0 = { i := 1, mps := true } ∧ t.ports.trace = []) := by decide +kernel

/-- Vector E1: only A changes. -/
theorem test_encBit_mps : nextState (exec (.encBit 0 0 false) (raw encStart)) =
    some (raw { encStart with a := 0xA5E3 }) := by decide +kernel

/-- Rule R122. -/
theorem test_encFlush : goesTo (exec .encFlush (raw encOne)) (fun t =>
    t.ports.sinkBytes = [0xC0] ∧ t.eng.nbytes = 1 ∧ t.eng.mode = .idle) := by decide +kernel

/-- Vector E7: `00 07 20` after the `D8`. -/
theorem test_encFlush_deferred : goesTo (exec .encFlush (raw encHeld)) (fun t =>
    t.ports.sinkBytes = [0x00, 0x07, 0x20] ∧ t.eng.nbytes = 4) := by decide +kernel

/-- Rule R123. -/
theorem test_decInit : goesTo (exec .decInit (withBytes (raw encOne) [0x60])) (fun t =>
    t.eng = { decStart 0x60000000 with eos := true } ∧ t.status.exhausted ∧ t.status.err = .streamExhausted) := by
  decide +kernel

/-- Vector E9. -/
theorem test_decInit_bytes :
    goesTo (exec .decInit (withBytes State.reset [0xC0, 0xFF, 0xD0])) (fun t =>
      t.eng.c = 0xC0000000 ∧ t.regRead 0x018 = 0x1D0 ∧ t.status.exhausted = false ∧ t.ports.source.bytes = []) ∧
    goesTo (exec .decInit (withBytes State.reset [0xFF, 0xFF, 0x00, 0x12])) (fun t =>
      t.eng.c = 0xFF120000 ∧ t.regRead 0x018 = 0 ∧ t.status.exhausted = false) ∧
    goesTo (exec .decInit (withBytes State.reset [0xFF, 0x00])) (fun t =>
      t.eng.c = 0xFF000000 ∧ t.regRead 0x018 = 0 ∧ t.status.exhausted) ∧
    goesTo (exec .decInit (withBytes State.reset [0xFF])) (fun t => t.eng.c = 0 ∧ t.status.exhausted) := by
  decide +kernel

/-- Vector E2 read back. -/
theorem test_decBit : goesTo (exec (.decBit 0 0) (raw (decStart 0xC0000000))) (fun t =>
    t.regs.result = 1 ∧ t.eng.a = 0xB43A ∧ t.ctxAt 0 0 = { i := 1, mps := true }) := by decide +kernel

/-- The first bit of vector E3. -/
theorem test_decBit_zero : goesTo (exec (.decBit 0 0) (raw (decStart 0x60000000))) (fun t =>
    t.regs.result = 0 ∧ t.eng = { decStart 0x60000000 with a := 0xA5E3 } ∧ t.ctxAt 0 0 = { i := 0, mps := false }) := by
  decide +kernel

/-- Vector E10. -/
theorem test_ctxReset :
    goesTo (exec (.ctxReset 1) ((raw encOne).setCtx 0 0 { i := 1, mps := true })) (fun t =>
      t.ctxAt 0 0 = { i := 0, mps := false } ∧ t.eng = encOne) ∧
    goesTo (exec (.ctxReset 0) ((raw encOne).setCtx 0 0 { i := 1, mps := true })) (fun t =>
      t.ctxAt 0 0 = { i := 1, mps := true }) := by decide +kernel

/-- Rule R231. -/
theorem test_clearErr : goesTo (exec .clearErr (idle.withErr .illegalCommand)) (fun t => t.status.err = .none) ∧
    nextState (exec .clearErr faulted) = some faulted := by decide +kernel

/-- Rule R160 (vector K6). -/
theorem test_classify :
    goesTo (exec (.classify 2 6) (withArgs idle 3 (-50) 0)) (fun t => t.regs.result = 0x00400013) ∧
    goesTo (exec (.classify 2 6) (withArgs idle 3 (-100) 0)) (fun t => t.regs.result = 0x003C0103) ∧
    goesTo (exec (.classify 3 2) (withArgs idle 20 20 0)) (fun t => t.regs.result = 0x00600144) := by decide +kernel

/-- Rule R161, and vector V8. -/
theorem test_encDiff_decisions :
    residualDecisions 5 0 0 2 6 =
      [(48, true), (49, false), (50, true), (100, true), (101, true), (102, false), (117, false), (117, false)] ∧
    residualDecisions 9 (-100) 65 2 6 =
      [(16, true), (17, false), (18, true), (130, true), (131, true), (132, true), (133, false), (148, false),
       (148, false), (148, false)] := by decide +kernel

/-- The refusals of section 2.4's notes, beside an accepted residual. -/
theorem test_encDiff :
    goesTo (exec (.encDiff 0) (withArgs (raw encStart) 32768 0 0)) (fun t => t.status.err = .none) ∧
    nextState (exec (.encDiff 0) (withArgs (raw encStart) 32769 0 0)) =
      some ((withArgs (raw encStart) 32769 0 0).withErr .illegalCommand) ∧
    nextState (exec (.encDiff 0) (withArgs (raw (decStart 0)) 5 0 0)) =
      some ((withArgs (raw (decStart 0)) 5 0 0).withErr .sequenceError) := by decide +kernel

/-- Rule R162 (vector V6). -/
theorem test_decDiff : goesTo (exec (.decDiff 0) (withArgs (raw (decStart 0xCE000000)) 0 0 0)) (fun t =>
    t.regs.result = 5) := by decide +kernel

/-- Vector V13. -/
theorem test_decDiff_corrupt :
    goesTo (exec (.decDiff 0) (withArgs (withBytes (raw (decStart 0xFFFF0000)) (List.replicate 18 [0xFF, 0x00]).flatten)
      0 0 0)) (fun t => t.statusWord = 0x445 ∧ t.eng.mode = .idle ∧ t.regs.result = 0) := by decide +kernel

/-- Rule R171. -/
theorem test_startScan : goesTo (exec (.startScan .encode) (raw encOne)) (fun t =>
    t.statusWord = 0x10001 ∧ t.eng.a = 0x10000 ∧ t.eng.ct = 11) := by decide +kernel

/-- Vector D7. -/
theorem test_startScan_invalid :
    goesTo (exec (.startScan .encode) { idle with cfg := { cfgP2 with pred := 8 } }) (fun t => t.statusWord = 0x145) ∧
    goesTo (exec (.startScan .encode) { idle with cfg := { cfgP2 with ri := 6 } }) (fun t => t.statusWord = 0x145) ∧
    goesTo (exec (.startScan .encode) { idle with cfg := { cfgP2 with ri := 8 } }) (fun t => t.statusWord = 0x10001) := by
  decide +kernel

/-- Rule R172. -/
theorem test_startMcuRow :
    goesTo (exec .startMcuRow (scan .encode .scanStarted cfgP2 0 encStart)) (fun t => t.pos.yend = 4 ∧
      t.status.dstate = .rowReady) ∧
    nextState (exec .startMcuRow idle) = some (idle.withErr .sequenceError) := by decide +kernel

/-- Vector D1. -/
theorem test_writeMcu : goesTo (exec .writeMcu (withImage (scan .encode .rowReady cfgP2 4 encStart) image128)) (fun t =>
    t.status.dstate = .rowConsumed ∧ t.pos.y = 4 ∧ t.ctxAt 0 48 = { i := 3, mps := false } ∧
    t.ports.sinkBytes = []) := by decide +kernel

/-- Vector D3: the first interval's bytes, then the restart, then the second interval's, its last bytes still held. -/
theorem test_writeMcu_restart :
    goesTo (exec .writeMcu (withImage (scan .encode .rowReady cfgD3 2 encStart) imageD3)) (fun t =>
      (wrotes [0xFF, 0x00, 0xCD, 0x8B, 0x48] ++ [PortEvent.markerEmit (.rst 0) .ok]).isPrefixOf
        (t.ports.trace.filter fun e => match e with
          | .lineRead _ _ _ _ => false
          | _ => true) ∧
      t.ports.sinkBytes.isPrefixOf [0xFF, 0x00, 0xCD, 0x8B, 0x48, 0xFF, 0x00, 0xCE, 0x02, 0x6B, 0xD1, 0xC0] ∧
      t.pos.m = 1 ∧ t.pos.rl = 1) := by decide +kernel

/-- Program P3. -/
theorem test_parseMcu :
    goesTo (exec .parseMcu (scan .decode .rowReady cfgP2 4 (decStart 0x60000000))) (fun t =>
      t.ports.samples = image128 ∧ t.status.dstate = .rowConsumed) := by decide +kernel

/-- Vector D3 read back: the marker reader leaves the source at the second interval. -/
theorem test_parseMcu_restart :
    goesTo (exec .parseMcu (withBytes
      { scan .decode .rowReady cfgD3 2 (decStart 0xFFCD0000) with
        ports := { Ports.empty with
          syncs := [some { bytes := [0xFF, 0x00, 0xCE, 0x02, 0x6B, 0xD1, 0xC0], silent := false }] } }
      [0x8B, 0x48, 0xFF, 0xD0])) (fun t => t.ports.samples = imageD3 ∧ t.pos.m = 1) := by decide +kernel

/-- Rule R175, with the registers of the example of rule R122. -/
theorem test_flush :
    goesTo (exec .flush { scan .encode .rowConsumed cfgP2 4 encOne with pos := { Position.reset with y := 4, yend := 4 } })
      (fun t => t.status.dstate = .scanFlushed ∧
        t.ports.trace = [.sinkWrite 0xC0 .ok, .markerEmit .scanEnd .ok]) := by decide +kernel

/-- Vector D7: rows are left. -/
theorem test_flush_early :
    goesTo (exec .flush (scan .encode .rowConsumed cfgP2 4 encOne)) (fun t => t.status.err = .sequenceError ∧
      t.eng = encOne) := by decide +kernel

/-- Rule R176. -/
theorem test_abort : goesTo (exec .abort (scan .encode .rowReady cfgP2 4 encHeld)) (fun t =>
    t.status.dstate = .uninitialized ∧ t.ports.trace = [] ∧ t.pos.yend = 4 ∧
    t.eng = { encHeld with b := 0, bv := false, zc := 0, mode := .idle }) := by decide +kernel

/-- Rule R251. -/
theorem test_reset : goesTo (exec .reset faulted) (fun t => t.statusWord = 0 ∧ t = State.reset) := by decide +kernel

/-! ## Operations -/

/-- The state a vector of section 2.2 starts from. -/
def atByteOut (b : Byte) (bv : Bool) (sc zc : Word) (t : Nat) : State :=
  raw { encStart with b := b, bv := bv, sc := sc, zc := zc, ct := 0, c := BitVec.ofNat 32 (t * 2 ^ 19 + 0x12345) }

/-- The bytes `ByteOut` writes there, and the registers it leaves. -/
def byteOutEnd (s : State) : Option (List Byte × Engine) :=
  match byteOut s with
  | .ok _ t => some (t.ports.sinkBytes, { t.eng with nbytes := 0 })
  | .error _ _ => none

/-- The end of a vector of section 2.2. -/
def byteOutLeaves (bs : List Byte) (b : Byte) (sc zc : Word) : Option (List Byte × Engine) :=
  some (bs, { encStart with b := b, bv := true, sc := sc, zc := zc, c := 0x12345, ct := 8 })

/-- Vectors B1 to B7. -/
theorem test_byteOut :
    [atByteOut 0x12 true 2 0 0x105, atByteOut 0x12 true 2 0 0x040, atByteOut 0xFE true 0 0 0x1AB,
     atByteOut 0x00 true 0 0 0x033, atByteOut 0x00 true 0 3 0x077, atByteOut 0x05 true 0 2 0x0FF,
     atByteOut 0x00 false 0 0 0x0D7].map byteOutEnd =
    [byteOutLeaves [0x13] 0x05 0 2, byteOutLeaves [0x12, 0xFF, 0x00, 0xFF, 0x00] 0x40 0 0,
     byteOutLeaves [0xFF, 0x00] 0xAB 0 0, byteOutLeaves [] 0x33 0 1, byteOutLeaves [] 0x77 0 4,
     byteOutLeaves [] 0x05 1 2, byteOutLeaves [] 0xD7 0 0] := by decide +kernel

/-- Vectors K1 to K5. -/
theorem test_classify_bands :
    [-65, -64, -3, -2, 0, 2, 3, 64, 65].map (fun d => classify d 2 6) = [-2, -1, -1, 0, 0, 0, 1, 1, 2] ∧
    [-3, -2, -1, 0, 1, 2].map (fun d => classify d 0 0) = [-2, -2, -1, 0, 1, 2] ∧
    [32768, -32769].map (fun d => classify d 0 15) = [1, -2] ∧
    [16384, 16385, 32769].map (fun d => classify d 15 15) = [0, 1, 2] ∧
    [4, -5].map (fun d => classify d 3 2) = [0, -2] := by decide +kernel

/-- An unlisted write, and one that unlists: equal memories are equal data. -/
theorem test_memory : Memory.write dbBlank [] 5 (3 : Residual) = [(5, 3)] ∧
    Memory.write dbBlank [(5, (3 : Residual))] 5 0 = [] := by decide

/-! ## Sound states -/

theorem encodeSound_of {e : Engine} (h : (0x8000 ≤ e.a.toNat ∧ e.a.toNat ≤ 0x10000) ∧
    (e.c.toNat + e.a.toNat) * 2 ^ e.ct.toNat ≤ 2 ^ 27 + 2 ^ 24 ∧ (1 ≤ e.ct.toNat ∧ e.ct.toNat ≤ 11) ∧ e.b ≠ 0xFF ∧
    (e.bv = false → e.b = 0)) : e.EncodeSound :=
  ⟨h.1.1, h.1.2, h.2.1, h.2.2.1.1, h.2.2.1.2, h.2.2.2.1, h.2.2.2.2⟩

theorem decodeSound_of {e : Engine} (h : (0x8000 ≤ e.a.toNat ∧ e.a.toNat ≤ 0x10000) ∧
    e.c.toNat >>> 16 < e.a.toNat ∧ e.ct.toNat ≤ 8 ∧ e.c.toNat % 2 ^ (16 - e.ct.toNat) = 0) : e.DecodeSound :=
  ⟨h.1.1, h.1.2, h.2.1, h.2.2.1, h.2.2.2⟩

theorem nothingHeld_of {e : Engine} (h : e.b = 0 ∧ e.bv = false ∧ e.sc = 0 ∧ e.zc = 0) : e.NothingHeld :=
  ⟨h.1, h.2.1, h.2.2.1, h.2.2.2⟩

theorem encStart_sound : encStart.EncodeSound := encodeSound_of (by decide)

theorem encOne_sound : encOne.EncodeSound := encodeSound_of (by decide)

theorem encHeld_sound : encHeld.EncodeSound := encodeSound_of (by decide)

theorem decStart_sound : (decStart 0xCE000000).DecodeSound := decodeSound_of (by decide)

/-- The invariant of a state whose DA, DB and build are those after reset. -/
theorem inv_of {s : State} (hc : s.CtxLegal) (hfix : s.build = Build.default ∧ s.da = Vector.replicate 4 0 ∧
    s.db = Vector.replicate 4 []) (henc : s.eng.mode = .encode → s.eng.EncodeSound)
    (hdec : s.eng.mode = .decode → s.eng.DecodeSound)
    (hheld : s.eng.mode ≠ .encode → s.eng.b = 0 ∧ s.eng.bv = false ∧ s.eng.sc = 0 ∧ s.eng.zc = 0)
    (hf : ((s.status.fault = true ↔ s.status.dstate = .faulted) ∧
      (s.status.fault = true → s.eng.mode = .idle ∧ s.status.err.isFatal = true)) ∧
      (s.marker.valid = false → s.marker.code = 0) ∧ (s.eng.eos = true → s.status.exhausted = true) ∧
      Memory.wf sampleBlank s.ports.samples = true) (hs : s.scanning → s.ScanSound) : s.Inv where
  build := hfix.1 ▸ ⟨by decide +kernel, by decide +kernel⟩
  ctx := hc
  encoder := henc
  decoder := hdec
  held := fun _ h => nothingHeld_of (hheld h)
  faulted := hf.1.1
  fault := hf.1.2
  scan := hs
  diff := by
    refine ⟨fun c => ?_, fun c => ?_, fun c => ?_⟩
    · rw [hfix.2.1]
      revert c
      decide
    · rw [hfix.2.2]
      revert c
      intro c e he
      simp at he
    · rw [hfix.2.2]
      revert c
      decide
  marker := hf.2.1
  eos := hf.2.2.1
  samples := hf.2.2.2

theorem raw_encOne_inv : (raw encOne).Inv :=
  inv_of (ctxLegal_reset rfl) ⟨rfl, rfl, rfl⟩ (fun _ => encOne_sound) (fun h => absurd h (by decide)) (by decide)
    (by decide) (fun h => absurd h (by decide))

theorem raw_encHeld_inv : (raw encHeld).Inv :=
  inv_of (ctxLegal_reset rfl) ⟨rfl, rfl, rfl⟩ (fun _ => encHeld_sound) (fun h => absurd h (by decide)) (by decide)
    (by decide) (fun h => absurd h (by decide))

theorem raw_dec_inv : (withArgs (raw (decStart 0xCE000000)) 0 0 0).Inv :=
  inv_of (ctxLegal_reset rfl) ⟨rfl, rfl, rfl⟩ (fun h => absurd h (by decide)) (fun _ => decStart_sound) (by decide)
    (by decide) (fun h => absurd h (by decide))

theorem idle_inv : idle.Inv :=
  inv_of (ctxLegal_reset rfl) ⟨rfl, rfl, rfl⟩ (fun h => absurd h (by decide)) (fun h => absurd h (by decide)) (by decide)
    (by decide) (fun h => absurd h (by decide))

theorem faulted_inv : faulted.Inv ∧ (faulted.pushEvent .hardReset).Inv ∧
    (faulted.pushEvent (.write 0 4 0x7F000000#32)).Inv ∧ (faulted.pushEvent (.write 0 4 0x20000000#32)).Inv := by
  refine ⟨?_, ?_, ?_, ?_⟩ <;>
  exact inv_of (ctxLegal_reset rfl) ⟨rfl, rfl, rfl⟩ (fun h => absurd h (by decide)) (fun h => absurd h (by decide))
    (by decide) (by decide) (fun h => absurd h (by decide))

/-- A scan of one sample, ready to be coded. -/
def oneSample (dir : Dir) (e : Engine) : State := withImage (scan dir .rowReady cfgOne 1 e) [(0, 77)]

theorem oneSample_enc_inv : (oneSample .encode encStart).Inv :=
  inv_of (ctxLegal_reset rfl) ⟨rfl, rfl, rfl⟩ (fun _ => encStart_sound) (fun h => absurd h (by decide)) (by decide)
    (by decide) (fun _ => ⟨rfl, by decide +kernel, rfl, by decide, by decide, by decide, by decide, by decide,
      fun h => absurd h (by decide)⟩)

theorem oneSample_dec_inv : (oneSample .decode (decStart 0xCE000000)).Inv :=
  inv_of (ctxLegal_reset rfl) ⟨rfl, rfl, rfl⟩ (fun h => absurd h (by decide)) (fun _ => decStart_sound) (by decide)
    (by decide) (fun _ => ⟨rfl, by decide +kernel, rfl, by decide, by decide, by decide, by decide, by decide,
      fun h => absurd h (by decide)⟩)

theorem oneSample_supply (dir : Dir) (e : Engine) : (oneSample dir e).GroupSupply dir := by
  refine ⟨fun _ c hc x hx y _ hy => ?_, fun _ h => absurd rfl h⟩
  have hc0 : c = 0 := by
    have h : ∀ k ∈ (oneSample .encode encStart).components, k = 0 := by decide
    exact h c hc
  have hx0 : x = 0 := by
    have : x < 1 := hx
    omega
  have hy0 : y = 0 := by
    have : y < 1 := hy
    omega
  subst hc0 hx0 hy0
  rfl

/-- The scan of one sample, coded and ready to be flushed. -/
def coded (dir : Dir) (e : Engine) : State :=
  { scan dir .rowConsumed cfgOne 1 e with pos := { Position.reset with y := 1, yend := 1 } }

theorem coded_inv : (coded .encode encOne).Inv :=
  inv_of (ctxLegal_reset rfl) ⟨rfl, rfl, rfl⟩ (fun _ => encOne_sound) (fun h => absurd h (by decide)) (by decide)
    (by decide) (fun _ => ⟨rfl, by decide +kernel, rfl, by decide, by decide, by decide, by decide, by decide,
      fun h => absurd h (by decide)⟩)

/-! ## The hypotheses of the statements can be met

One theorem for each statement with hypotheses, with a case for each of its clauses. -/

theorem witness_EncodeOfDecode : decode 0x02029F00#32 = .ok (.encBit 2 159 false) ∧
    encode (.encBit 2 159 false) = 0x02029F00#32 := by decide

/-- The ends of each range of illegal OPs, a reserved bit of a command, and each operand just outside its range. -/
theorem witness_IllegalCommands :
    ([0x08, 0x0F, 0x13, 0x1F, 0x25, 0x2E, 0x30, 0x7E, 0x80, 0xFF].all fun op =>
      decode (BitVec.ofNat 32 (op * 2 ^ 24)) = .error .unknownOpcode) ∧
    0x02000002#32 &&& (Instr.encBit 0 0 false).row.1 ≠ 0x02000000#32 ∧ decode 0x02000002#32 = .error .reservedBits ∧
    goesTo (runWord 0x02000002#32 idle) (fun t => t.status.err = .illegalCommand) ∧
    goesTo (exec (.encBit 0 160 true) (raw encOne)) (fun t => t.status.err = .illegalCommand ∧ t.eng = encOne) ∧
    goesTo (exec (.encDiff 0) (withArgs (raw encOne) 32769 0 0)) (fun t => t.status.err = .illegalCommand) ∧
    goesTo (exec (.encDiff 0) (withArgs (raw encOne) (-32769) 0 0)) (fun t => t.status.err = .illegalCommand) ∧
    goesTo (exec (.decDiff 1) { idle with cfg := { cfgP2 with lu := Vector.replicate 4 { l := 3, u := 2 } } })
      (fun t => t.status.err = .illegalCommand) := by decide +kernel

theorem witness_StepRunsTheCommand : (idle.pushEvent (.write 0 4 0x01000000#32)).ports.host =
    .write 0x000 4 0x01000000#32 :: [] ∧ decode 0x01000000#32 = .ok .encInit ∧
    goesTo (step (idle.withFetchWord 32 0x01000000)) (fun t => t.eng = encStart) := by decide +kernel

theorem witness_OtherSteps : idle.ports.host = [] ∧ ((2 : Nat) ≠ 4 ∨ 0 % 4 ≠ 0) ∧ ((4 : Nat) ≠ 4 ∨ 3 % 4 ≠ 0) ∧
    0x1400 % 4 = 0 ∧ accessProblem 0x1400 4 = some .outsideWindow ∧ accessProblem 0x13FC 4 = none := by decide

/-- The last bin, the first unused one and the last of the window; the reserved offsets between the maps. -/
theorem witness_ReadsReturnTheFields :
    ((raw encOne).setCtx 3 159 { i := 112, mps := true }).regRead (0x400 + 4 * (256 * 3 + 159)) = 0xF0 ∧
    (raw encOne).regRead (0x400 + 4 * (256 * 3 + 160)) = 0 ∧ (raw encOne).regRead 0x13FC = 0 ∧
    (raw encOne).regRead 0x07C = 0 ∧ (raw encOne).regRead 0x3FC = 0 ∧ (raw encOne).regRead 0x060 = 0xB43A := by
  decide +kernel

/-- 93_implementation_defined.md I21: the encoder's held registers show in ENG_MODE Encode and read as 0 in Idle, after a
fatal error too, where rule R226 writes none of them. -/
theorem test_held_registers_read_zero_in_idle :
    let held := idle.withEng { encStart with b := 0x12, bv := true, sc := 3, zc := 5 }
    let faulted := held.enterFaulted .sinkFailure
    [0x06C, 0x070, 0x074].map held.regRead = [0x112#32, 3#32, 5#32] ∧
    [0x06C, 0x070, 0x074].map faulted.regRead = [0#32, 0#32, 0#32] ∧ faulted.eng.b = 0x12 := by
  decide +kernel

theorem witness_HostWrites :
    idle.status.dstate = .uninitialized ∧ (scan .encode .scanFlushed cfgP2 4 encOne).status.dstate = .scanFlushed ∧
    goesTo (step (idle.pushEvent (.write 0x04C 4 0xFFFFFFFF))) (fun t => t.cfg.lu[3] = { l := 15, u := 15 }) ∧
    goesTo (step ((scan .encode .rowReady cfgP2 4 encOne).pushEvent (.write 0x020 4 7))) (fun t => t.cfg = cfgP2) ∧
    goesTo (step ((scan .encode .rowReady cfgP2 4 encOne).pushEvent (.write 0x038 4 7))) (fun t => t.cfg = cfgP2) ∧
    goesTo (step (idle.pushEvent (.write 0x13FC 4 7))) (fun t => t.ctx = resetContexts) := by decide +kernel

theorem witness_FatalEntry : assignA 0x8000 idle = .ok () (idle.withEng { idle.eng with a := 0x8000 }) ∧
    idle.status.fault = false := ⟨rfl, rfl⟩

theorem witness_CommandsAreCheckedInOrder :
    faulted.status.fault = true ∧ (idle.status.fault = false ∧ ¬ operandsLegal (.decBit 0 160) idle) ∧
    (operandsLegal (.decBit 0 159) idle ∧ ¬ allowedIn (.decBit 0 159) idle) := by
  refine ⟨rfl, ⟨rfl, ?_⟩, ?_, ?_⟩ <;> simp [operandsLegal, allowedIn, idle, withArgs, State.reset, Status.reset,
    Engine.reset]

/-- A sink failure and an invalid configuration (a magnitude category above 15: `test_decDiff_corrupt`). -/
theorem witness_FatalErrorsOfEachCommand :
    (failing.Inv ∧ failing.status.fault = false ∧ ∃ t, exec .encFlush failing = .next t ∧
      (decide (t.status.fault = true ∧ t.status.err = .sinkFailure ∧ t.status.dstate = .faulted) = true)) ∧
    (idle.Inv ∧ ∃ t, exec (.startScan .encode) idle = .next t ∧
      (decide (t.status.fault = true ∧ t.status.err = .configurationError) = true)) := by
  refine ⟨⟨inv_of (ctxLegal_reset rfl) ⟨rfl, rfl, rfl⟩ (fun _ => encodeSound_of (by decide))
    (fun h => absurd h (by decide)) (by decide) (by decide) (fun h => absurd h (by decide)), rfl, ?_⟩, idle_inv, ?_⟩
  · exact exists_next (by decide +kernel)
  · exact exists_next (by decide +kernel)

theorem witness_FaultedIsLeftOnlyByReset :
    ((faulted.pushEvent .hardReset).Inv ∧ ∃ t, step (faulted.pushEvent .hardReset) = .next t ∧
      decide (t.status.dstate = .uninitialized) = true) ∧
    ((faulted.pushEvent (.write 0 4 0x7F000000#32)).Inv ∧
      ∃ t, step (faulted.pushEvent (.write 0 4 0x7F000000#32)) = .next t ∧
        decide (t.status.dstate = .uninitialized) = true) ∧
    (faulted.pushEvent (.write 0 4 0x20000000#32)).Inv ∧
    ∃ t, step (faulted.pushEvent (.write 0 4 0x20000000#32)) = .next t ∧ decide (t.status = faulted.status) = true :=
  ⟨⟨faulted_inv.2.1, exists_next (by decide +kernel)⟩, ⟨faulted_inv.2.2.1, exists_next (by decide +kernel)⟩,
   faulted_inv.2.2.2, exists_next (by decide +kernel)⟩

theorem witness_StickyFlags : (faulted.Inv ∧ ∃ t, exec .nop faulted = .next t ∧ decide (t.status.fault = true) = true) ∧
    ({ idle with status := { idle.status with exhausted := true } } : State).Inv ∧
    ∃ t, exec .encInit { idle with status := { idle.status with exhausted := true } } = .next t ∧
      decide (t.status.exhausted = true) = true :=
  ⟨⟨faulted_inv.1, exists_next (by decide +kernel)⟩,
   inv_of (ctxLegal_reset rfl) ⟨rfl, rfl, rfl⟩ (fun h => absurd h (by decide)) (fun h => absurd h (by decide))
     (by decide) (by decide) (fun h => absurd h (by decide)), exists_next (by decide +kernel)⟩

theorem witness_NopDoesNothing : (0x00000001#32).extractLsb' 24 8 = 0#8 ∧ decode 0x00000001#32 = .error .reservedBits := by decide

theorem witness_ClearErrClearsErrAlone : idle.status.fault = false ∧ faulted.status.fault = true := by decide

theorem witness_ResetGivesEveryResetValue : (0x7F000001#32).extractLsb' 24 8 = 0x7F#8 ∧ decode 0x7F000001#32 = .error .reservedBits ∧
    ∃ t, exec .reset faulted = .next t ∧ decide (t.configValid = false) = true :=
  ⟨by decide, by decide, exists_next (by decide +kernel)⟩

/-- Both states of RAW, and one that is not. -/
theorem witness_EncInitSetsTheRegisters : idle.status.dstate = .uninitialized ∧
    (scan .encode .scanFlushed cfgP2 4 encOne).status.dstate = .scanFlushed ∧
    goesTo (exec .encInit (scan .encode .rowReady cfgP2 4 encOne)) (fun t => t.status.err = .sequenceError) := by
  decide +kernel

theorem witness_CtxResetResetsTheMaskedSets : goesTo (exec (.ctxReset 8) ((raw encOne).setCtx 3 159 { i := 9, mps := true }))
      (fun t => t.ctxAt 3 159 = { i := 0, mps := false }) ∧
    goesTo (exec (.ctxReset 7) ((raw encOne).setCtx 3 159 { i := 9, mps := true }))
      (fun t => t.ctxAt 3 159 = { i := 9, mps := true }) ∧
    goesTo (exec (.ctxReset 1) (scan .encode .rowReady cfgP2 4 encOne)) (fun t => t.status.err = .sequenceError) := by
  decide +kernel

theorem witness_EmitSendsAndCounts : idle.ports.sinkAnswers.head? = none ∧ failing.ports.sinkAnswers.head? = some (some .fail) ∧
    encStart.zc = 0 ∧ encHeld.zc ≠ 0 ∧ (raw encHeld).ports.SinkAccepts := by decide

/-- Each of the cases of the bytes held, with room in SC and ZC. -/
theorem witness_EmitHeldBytesAndRegisters : (raw encHeld).ports.SinkAccepts ∧ encHeld.b ≠ 0xFF ∧ encHeld.Room 1 ∧ encHeld.bv = true ∧
    encStart.bv = false ∧ encStart.sc = 0 ∧ ({ encHeld with b := 0xFE } : Engine).heldBytes true =
      [0x00, 0xFF, 0x00] ∧ ({ encHeld with b := 0, sc := 1 } : Engine).heldBytes false = [0x00, 0x00, 0xFF, 0x00] ∧
    ({ encStart with sc := 1 } : Engine).heldBytes false = [0xFF, 0x00] := by decide +kernel

/-- T just below, at and just above 0xFF; and SC at its largest. -/
theorem witness_ByteOutForEachT : (atByteOut 0x12 true 2 0 0xFE).eng.c.toNat / 2 ^ 19 < 0xFF ∧
    (atByteOut 0x12 true 2 0 0xFF).eng.c.toNat / 2 ^ 19 = 0xFF ∧ 0xFF < (atByteOut 0x12 true 2 0 0x100).eng.c.toNat / 2 ^ 19 ∧
    (atByteOut 0x12 true 2 0 0xFE).eng.ct = 0 ∧ (atByteOut 0x12 true 2 0 0xFE).eng.Room 1 ∧
    (atByteOut 0x12 true 0xFFFFFFFF 0 0xFF).eng.sc.toNat = 2 ^ 32 - 1 := by decide +kernel

/-- An MPS without renormalization, and the other cases' hypotheses. -/
theorem witness_EncBitCompletes : encStart.EncodeSound ∧ encStart.Room 2 ∧
    (raw encStart).build.rom[((raw encStart).ctxAt 0 159).i.toNat]? = some (Config.row 0x5A1D 1 1 true) ∧
    (Config.row 0x5A1D 1 1 true).Legal ∧ 0x8000 ≤ encStart.a.toNat - 0x5A1D :=
  ⟨encStart_sound, by decide, by decide +kernel, by decide, by decide⟩

/-- A body completes in the state given. -/
def completesIn {α : Type} (r : EStateM.Result Halt State α) (t : State) : Bool :=
  match r with
  | .ok _ u => u = t
  | .error _ _ => false

theorem witness_RenormalizationWithoutAByte :
    let e : Engine := { encStart with a := 0x5A1D, c := 0xA5E3 }
    completesIn (renormE 16 (raw e)) (raw encOne) ∧ e.renorm 16 = (encOne, []) ∧ 0x5A1D < 0x8000 ∧ 0x8000 ≤ 0x5A1D * 2 ^ 1 ∧
    0x5A1D * 2 ^ 1 < 0x10000 ∧ 1 < e.ct.toNat ∧ 0xA5E3 * 2 ^ 1 < 2 ^ 32 ∧
    (let d : Engine := { decStart 0xCE000000 with a := 0x5A1D, ct := 1 }
     completesIn (renormD 16 (raw d)) (raw { d with a := 0xB43A, c := 0x9C000000, ct := 0 }) ∧ 1 ≤ d.ct.toNat) := by
  decide +kernel

theorem witness_FlushValueHasMostTrailingZeros : (raw encOne).eng.EncodeSound ∧ clearFinalBits 0xB43A 0x14BC6 = 0x18000 :=
  ⟨encOne_sound, by decide⟩

/-- Flushes without and with a carry into the held byte. -/
theorem witness_EncFlushCompletes : encHeld.EncodeSound ∧ encHeld.Room 1 ∧ encHeld.flushC < 2 ^ 27 ∧
    ({ encHeld with c := 0x7FF00, ct := 8, a := 0x10000 } : Engine).EncodeSound ∧
    2 ^ 27 ≤ ({ encHeld with c := 0x7FF00, ct := 8, a := 0x10000 } : Engine).flushC :=
  ⟨encHeld_sound, by decide, by decide +kernel, encodeSound_of (by decide), by decide +kernel⟩

theorem witness_TheStreamEndsWell : (raw encHeld).Inv ∧ ∃ t, exec .encFlush (raw encHeld) = .next t ∧
    decide (t.status.fault = false ∧ t.ports.sinkBytes = [0x00, 0x07, 0x20]) = true :=
  ⟨raw_encHeld_inv, exists_next (by decide +kernel)⟩

/-- Each shape of the source (vector E9). -/
theorem witness_ByteInOnEachSource : (withBytes idle [0xFF, 0xFF, 0x00, 0x12]).ports.source.bytes =
      List.replicate (1 + 1) 0xFF ++ 0x00 :: [0x12] ∧
    (withBytes idle [0xFF, 0xD0]).ports.source.bytes = List.replicate (0 + 1) 0xFF ++ 0xD0 :: [] ∧
    (withBytes idle [0xFF]).ports.source.bytes = List.replicate (0 + 1) 0xFF ∧ idle.ports.source.silent = false ∧
    idle.eng.c.toNat + 0xFF00 < 2 ^ 32 ∧ idle.marker.valid = false ∧ idle.eng.eos = false := by decide

theorem witness_DecInitCompletes : idle.ports.SourceAnswers ∧ idle.ports.source.bytes = [] ∧
    (withBytes idle [0x60, 0x12, 0x34]).ports.source.bytes = 0x60 :: 0x12 :: [0x34] := by decide

theorem witness_DecBitCompletes : (decStart 0xCE000000).DecodeSound ∧ idle.ports.SourceAnswers ∧
    (raw (decStart 0xCE000000)).build.rom[((raw (decStart 0xCE000000)).ctxAt 0 159).i.toNat]? =
      some (Config.row 0x5A1D 1 1 true) ∧ (Config.row 0x5A1D 1 1 true).Legal :=
  ⟨decStart_sound, rfl, by decide +kernel, by decide⟩

/-- The ends of the interval of an MPS and of an LPS. -/
theorem witness_DecoderStepTracksEncoderStep :
    [(0, true), (0xA5E2, true), (0xA5E3, false), (0xFFFF, false)].map (fun p =>
      decodeSplit 0x10000 (p.1 * 2 ^ 16) 0x5A1D) =
    [(0xA5E3, 0, true, .keep), (0xA5E3, 0xA5E20000, true, .keep), (0x5A1D, 0, false, .lps),
     (0x5A1D, 0x5A1C0000, false, .lps)] := by decide +kernel

theorem witness_ClassifyBandsAndCells : (2 : Nat) ≤ 6 ∧ selectMagnitude 65 6 = true ∧ selectMagnitude 64 6 = false ∧
    classify 65 2 6 = 2 := by decide

theorem witness_ClassifyWritesResultAlone : idle.status.fault = false ∧
    goesTo (exec (.classify 15 15) (withArgs idle (-2147483648) 2147483647 0)) (fun t => t.regs.result = 0x00100140) := by
  decide +kernel

/-- V = 0, abs(V) = 1, the least and the greatest residual, and a category's two ends. -/
theorem witness_DecisionsOfAResidual : residualDecisions 0 0 0 2 6 = [(48, false)] ∧
    residualDecisions (-1) 0 0 2 6 = [(48, true), (49, true), (51, false)] ∧
    (residualDecisions (-32768) 0 0 2 6).length = 32 ∧ (residualDecisions 32768 0 0 2 6).length = 32 ∧
    2 ^ (15 - 1) ≤ (32768 : Int).natAbs - 1 ∧ (32768 : Int).natAbs - 1 < 2 ^ 15 ∧
    2 ^ (1 - 1) ≤ (2 : Int).natAbs - 1 ∧ (2 : Int).natAbs - 1 < 2 ^ 1 := by decide +kernel

theorem witness_ResidualCodeIsPrefixFree : residualDecisions 32768 0 0 2 6 <+: residualDecisions 32768 0 0 2 6 ∧
    ¬ residualDecisions 0 0 0 2 6 <+: residualDecisions 5 0 0 2 6 := by decide +kernel

theorem encDiff_operands : operandsLegal (.encDiff 0) (withArgs (raw encOne) 5 0 0) ∧
    allowedIn (.encDiff 0) (withArgs (raw encOne) 5 0 0) := by
  constructor <;> simp only [operandsLegal, allowedIn] <;> decide

theorem encDiff_inv : (withArgs (raw encOne) 5 0 0).Inv :=
  inv_of (ctxLegal_reset rfl) ⟨rfl, rfl, rfl⟩ (fun _ => encOne_sound) (fun h => absurd h (by decide)) (by decide)
    (by decide) (fun h => absurd h (by decide))

/-- The same residual as one command and as its decisions (vector V6). -/
theorem witness_EncDiffIsItsEncBits : (withArgs (raw encOne) 5 0 0).Inv ∧
    operandsLegal (.encDiff 0) (withArgs (raw encOne) 5 0 0) ∧ allowedIn (.encDiff 0) (withArgs (raw encOne) 5 0 0) ∧
    goesTo (runEncBits 0 (residualDecisions 5 0 0 2 6) (withArgs (raw encOne) 5 0 0)) (fun t =>
      goesTo (exec (.encDiff 0) (withArgs (raw encOne) 5 0 0)) fun u => u.eng = t.eng ∧ u.ctxAt 0 50 = t.ctxAt 0 50) :=
  ⟨encDiff_inv, encDiff_operands.1, encDiff_operands.2, by decide +kernel⟩

theorem witness_EncDiffCompletes : (withArgs (raw encOne) 5 0 0).Inv ∧
    operandsLegal (.encDiff 0) (withArgs (raw encOne) 5 0 0) ∧ allowedIn (.encDiff 0) (withArgs (raw encOne) 5 0 0) ∧
    (withArgs (raw encOne) 5 0 0).ports.SinkAccepts ∧ encOne.Room 64 :=
  ⟨encDiff_inv, encDiff_operands.1, encDiff_operands.2, by decide, by decide⟩

/-- Read decisions from a state, to the state after them. -/
def readDecisions (c : Fin 4) : List (Nat × Bool) → State → Option State
  | [], s => some s
  | (b, d) :: rest, s =>
    match decodeBit c b s with
    | .ok d' t => if d' = d then readDecisions c rest t else none
    | .error _ _ => none

theorem decodesAs_of {c : Fin 4} {ds : List (Nat × Bool)} {s : State} (h : (readDecisions c ds s).isSome = true) :
    ∃ t, DecodesAs c ds s t := by
  induction ds generalizing s with
  | nil => exact ⟨s, rfl⟩
  | cons p rest ih =>
    obtain ⟨b, d⟩ := p
    unfold readDecisions at h
    rcases hd : decodeBit c b s with ⟨d', u⟩ | ⟨e, u⟩
    · rw [hd] at h
      by_cases hdd : d' = d
      · subst hdd
        obtain ⟨t, ht⟩ := ih (s := u) (by simpa using h)
        exact ⟨t, u, hd, ht⟩
      · simp [hdd] at h
    · rw [hd] at h
      cases h

theorem decDiff_operands : operandsLegal (.decDiff 0) (withArgs (raw (decStart 0xCE000000)) 0 0 0) ∧
    allowedIn (.decDiff 0) (withArgs (raw (decStart 0xCE000000)) 0 0 0) := by
  constructor <;> simp only [operandsLegal, allowedIn] <;> decide

/-- Vector V6. -/
theorem witness_DecDiffReadsTheDecisionsOfItsResult :
    (withArgs (raw (decStart 0xCE000000)) 0 0 0).Inv ∧
    operandsLegal (.decDiff 0) (withArgs (raw (decStart 0xCE000000)) 0 0 0) ∧
    allowedIn (.decDiff 0) (withArgs (raw (decStart 0xCE000000)) 0 0 0) ∧
    (∃ t, DecodesAs 0 (residualDecisions 5 0 0 2 6) (withArgs (raw (decStart 0xCE000000)) 0 0 0) t) ∧
    ∃ t, exec (.decDiff 0) (withArgs (raw (decStart 0xCE000000)) 0 0 0) = .next t ∧
      decide (t.status.fault = false ∧ t.regs.result = 5) = true :=
  ⟨raw_dec_inv, decDiff_operands.1, decDiff_operands.2, decodesAs_of (by decide +kernel), exists_next (by decide +kernel)⟩

theorem witness_DecDiffAnswers :
    (withArgs (raw (decStart 0xCE000000)) 0 0 0).Inv ∧
    operandsLegal (.decDiff 0) (withArgs (raw (decStart 0xCE000000)) 0 0 0) ∧
    allowedIn (.decDiff 0) (withArgs (raw (decStart 0xCE000000)) 0 0 0) ∧
    (withArgs (raw (decStart 0xCE000000)) 0 0 0).ports.SourceAnswers ∧
    (operandsLegal (.decDiff 0) (raw (decStart 0x60000000)) ∧ allowedIn (.decDiff 0) (raw (decStart 0x60000000)) ∧
      (decStart 0x60000000).DecodeSound ∧ (0x60000000 : Nat) / 2 ^ 16 < 0x10000 - 0x5A1D ∧
      Build.default.rom[0]? = some (Config.row 0x5A1D 1 1 true) ∧ (Config.row 0x5A1D 1 1 true).Legal) := by
  refine ⟨raw_dec_inv, decDiff_operands.1, decDiff_operands.2, rfl, ?_, ?_, decodeSound_of (by decide), by decide, rfl,
    by decide⟩ <;>
    simp only [operandsLegal, allowedIn] <;> decide

/-- Each bound of a valid configuration (vector D7). -/
theorem witness_ConfigValidExactlyWhen :
    ([{ cfgP2 with pred := 7 }, { cfgP2 with ncomp := 4 }, { cfgP2 with prec := 2 }, { cfgP2 with prec := 16 },
      { cfgP2 with width := 1 }, { cfgP2 with ri := 8 }, { cfgP2 with rowgrp := 1 }].all fun k =>
      State.configValid { idle with cfg := k }) ∧
    ([{ cfgP2 with pred := 8 }, { cfgP2 with ncomp := 0 }, { cfgP2 with ncomp := 5 }, { cfgP2 with prec := 1 },
      { cfgP2 with prec := 17 }, { cfgP2 with width := 0 }, { cfgP2 with height := 0 }, { cfgP2 with ri := 6 },
      { cfgP2 with rowgrp := 0 }, { cfgP2 with lu := Vector.replicate 4 { l := 3, u := 2 } }].all fun k =>
      !State.configValid { idle with cfg := k }) ∧ idle.configValid = false := by decide +kernel

theorem witness_StartScanCompletes : (raw encOne).configValid = true ∧ (raw encOne).ports.SourceAnswers ∧
    goesTo (exec (.startScan .decode) (withBytes (raw encOne) [0x60])) (fun t => t.status.dstate = .scanStarted ∧
      t.eng.c = 0x60000000 ∧ t.status.exhausted) := by decide +kernel

/-- The last row group, and no line left. -/
theorem witness_StartMcuRowSetsYend : (scan .encode .scanStarted cfgP2 0 encStart).pos.y.toNat < cfgP2.height.toNat ∧
    cfgOne.height.toNat ≤ (coded .encode encOne).pos.y.toNat ∧
    goesTo (exec .startMcuRow (coded .encode encOne)) (fun t => t.status.err = .sequenceError) := by decide +kernel

/-- A scan of one sample (77, predicted as 128). -/
theorem witness_WriteMcuCompletes : (oneSample .encode encStart).Inv ∧ (oneSample .encode encStart).ports.SinkAccepts ∧
    (oneSample .encode encStart).ports.WriterAccepts ∧ (oneSample .encode encStart).GroupSupply .encode ∧
    encStart.Room (oneSample .encode encStart).groupRoom ∧
    goesTo (exec .writeMcu (oneSample .encode encStart)) (fun t => t.status.dstate = .rowConsumed) :=
  ⟨oneSample_enc_inv, by decide, by decide, oneSample_supply .encode encStart, by decide +kernel, by decide +kernel⟩

theorem witness_ParseMcuAnswers : (oneSample .decode (decStart 0xCE000000)).Inv ∧
    (oneSample .decode (decStart 0xCE000000)).ports.SourceAnswers ∧
    (oneSample .decode (decStart 0xCE000000)).ports.ReaderAnswers ∧
    (oneSample .decode (decStart 0xCE000000)).GroupSupply .decode ∧
    goesTo (exec .parseMcu (oneSample .decode (decStart 0xCE000000))) (fun t => t.status.dstate = .rowConsumed ∧
      t.ports.samples = [(0, 133)]) :=
  ⟨oneSample_dec_inv, rfl, by decide, oneSample_supply .decode _, by decide +kernel⟩

/-- Four columns of zero residuals from bin 48 at I = 2, and the samples the first line's predictions give. -/
theorem witness_ParseMcuOfZeroResiduals :
    let s := (scan .decode .rowReady { cfgP2 with height := 1 } 1 (decStart 0)).setCtx 0 48 { i := 2, mps := false }
    s.Inv ∧ s.status.dmode = .decode ∧ s.cfg.ncomp = 1 ∧ s.cfg.ri = 0 ∧ (∀ x, x < s.cfg.width.toNat → s.dbAt 0 x = 0) ∧
    s.GroupSupply .decode ∧ s.build.rom[(s.ctxAt 0 48).i.toNat]? = some (Config.row 0x1114 16 3 false) ∧
    0x8000 + 4 * 0x1114 ≤ s.eng.a.toNat ∧ s.eng.c.toNat / 2 ^ 16 + 4 * 0x1114 < s.eng.a.toNat ∧
    goesTo (exec .parseMcu s) (fun t => t.ports.samples = image [[128, 128, 128, 128]] ∧
      t.eng = { decStart 0 with a := 0xBBB0 } ∧ t.pos.mcucnt = 4) := by
  refine ⟨inv_of (by decide +kernel) ⟨rfl, rfl, rfl⟩ (fun h => absurd h (by decide))
    (fun _ => decodeSound_of (by decide)) (by decide) (by decide) (fun _ => ⟨rfl, by decide +kernel, rfl, by decide,
      by decide, by decide, by decide, by decide, fun h => absurd h (by decide)⟩), rfl, rfl, rfl, by decide,
    ⟨fun h => absurd h (by decide), fun _ h => absurd rfl h⟩, by decide +kernel, by decide, by decide, by decide +kernel⟩

/-- Both directions. -/
theorem witness_FlushCompletes : (coded .encode encOne).Inv ∧ (coded .encode encOne).pos.y = cfgOne.height ∧
    (coded .encode encOne).ports.SinkAccepts ∧ (coded .encode encOne).ports.WriterAccepts ∧ encOne.Room 1 ∧
    (coded .decode (decStart 0)).status.dmode = .decode ∧ (coded .decode (decStart 0)).ports.ReaderAnswers ∧
    goesTo (exec .flush (coded .decode (decStart 0))) (fun t => t.status.dstate = .scanFlushed ∧ t.eng.mode = .idle ∧
      t.ports.trace = [.markerSync .scanEnd none]) :=
  ⟨coded_inv, rfl, by decide, by decide, by decide, rfl, by decide, by decide +kernel⟩

theorem witness_AbortDiscardsTheScan : (scan .encode .rowReady cfgP2 4 encHeld).status.fault = false ∧
    (scan .encode .rowReady cfgP2 4 encHeld).status.dstate ≠ .faulted := by decide

theorem witness_DriverTransitions : (raw encOne).Inv ∧ ∃ t, exec (.startScan .encode) (raw encOne) = .next t ∧
    decide (t.status.dstate ≠ (raw encOne).status.dstate ∧ t.status.dstate = .scanStarted) = true :=
  ⟨raw_encOne_inv, exists_next (by decide +kernel)⟩

/-- Each case of the prediction of column 1 or 0 on line 0 or 1 of vector D3, with RL = 0. -/
theorem witness_PredictionAndItsNeighbours :
    let at' := fun (x y : BitVec 16) (k : ScanConfig) =>
      { withImage (scan .encode .rowReady k 2 encStart) imageD3 with pos := { Position.reset with x := x, y := y } }
    ([at' 0 0 { cfgD3 with pred := 0 }, at' 0 0 cfgD3, at' 1 0 cfgD3, at' 0 1 cfgD3, at' 1 1 { cfgD3 with pred := 4 },
      at' 3 1 { cfgD3 with pred := 7 }].map fun s => match prediction 0 s with
        | .ok p _ => some p
        | .error _ _ => none) =
      [some 0, some 128, some 10, some 10, some (11 + 12 - 10), some ((40 + 9) / 2)] := by decide +kernel

theorem witness_ReconstructionUndoesTheResidual : (idle.cfg.prec.toNat ≤ 16 ∧ idle.cfg.pred = 0) ∧
    (cfgP2.prec.toNat ≤ 16 ∧ cfgP2.pred ≠ 0 ∧ (255 : Sample).toNat < 2 ^ cfgP2.prec.toNat) ∧
    s16 (0x8000 - 0) = -32768 ∧ idle.reconstruct 0 (-32768) = 0x8000 := by decide +kernel

theorem witness_SamplePortReadsBack : ((1 : Fin 4), 0, 65535) ≠ ((0 : Fin 4), 0, 65535) ∧
    Memory.read sampleBlank imageD3 (sampleKey 0 3 1) = some 200 ∧
    Memory.read sampleBlank imageD3 (sampleKey 1 3 1) = none := by decide

theorem witness_RestartCompletes : encHeld.EncodeSound ∧ (raw encHeld).ports.SinkAccepts ∧ (raw encHeld).ports.WriterAccepts ∧
    encHeld.Room 1 ∧ idle.ports.SourceAnswers ∧ idle.ports.ReaderAnswers :=
  ⟨encHeld_sound, by decide, by decide, by decide, rfl, by decide⟩

/-- A body completes with a decidable property of its value. -/
def completesWith {α : Type} (r : EStateM.Result Halt State α) (p : α → Bool) : Bool :=
  match r with
  | .ok a _ => p a
  | .error _ _ => false

/-- The first sample of vector D2, and the residual of vector V6. -/
theorem witness_WalkAndOneSample :
    completesWith (prediction 0 (oneSample .encode encStart)) (fun px => px = 128) ∧
    Memory.read sampleBlank (oneSample .encode encStart).ports.samples (sampleKey 0 0 0) = some 77 ∧
    s16 (77 - 128) = -51 ∧ completesWith (encodeV 0 (-51) 0 0 2 6 (oneSample .encode encStart)) (fun _ => true) ∧
    completesWith (prediction 0 (oneSample .decode (decStart 0xCE000000))) (fun px => px = 128) ∧
    completesWith (decodeV 0 0 0 2 6 (oneSample .decode (decStart 0xCE000000))) (fun r => r = 5) ∧
    (oneSample .encode encStart).pos.y.toNat < (oneSample .encode encStart).pos.yend.toNat := by decide +kernel

theorem witness_StepKeepsTheInvariant : (raw encOne).Inv ∧ ∃ t, step (raw encOne) = .next t ∧
    decide (t.eng = encOne) = true :=
  ⟨raw_encOne_inv, exists_next (by decide +kernel)⟩

/-- A command that gives RESULT, and the one that stores samples. -/
theorem witness_WhatCommandsKeep : (idle.Inv ∧ ∃ t, exec (.classify 2 6) idle = .next t ∧
      decide (t.regs.result ≠ idle.regs.result) = true) ∧
    (oneSample .decode (decStart 0xCE000000)).Inv ∧
    ∃ t, exec .parseMcu (oneSample .decode (decStart 0xCE000000)) = .next t ∧
      decide (t.ports.samples ≠ (oneSample .decode (decStart 0xCE000000)).ports.samples) = true :=
  ⟨⟨idle_inv, exists_next (by decide +kernel)⟩, oneSample_dec_inv, exists_next (by decide +kernel)⟩

theorem witness_StuffingGuarantee : (raw encHeld).Inv ∧ (raw encHeld).ports.SinkAccepts ∧
    (raw encHeld).ports.WriterAccepts ∧ encHeld.Room 64 ∧ ∃ t, exec .encFlush (raw encHeld) = .next t ∧
      decide (t.eng.nbytes = 4 ∧ t.ports.sinkBytes = [0x00, 0x07, 0x20]) = true :=
  ⟨raw_encHeld_inv, by decide, by decide, by decide, exists_next (by decide +kernel)⟩

end Sys2Proof.Tests
end

