-- ==== Sys2Proof/Proofs/HostWrites.lean ====
section
/-! PROOFS. A host write to the register window (spec/10_state.md rules R22, R24): the register an aligned offset
names, what a step makes of the write, and obligation O10. -/

namespace Sys2Proof.Machine

/-! ## Offsets and registers -/

namespace Reg

theorem offset_lt (r : Reg) : r.offset < 0x1400 := by
  cases r with
  | cfgLu c => simp only [offset]; omega
  | ctx c b => simp only [offset]; omega
  | _ => decide

theorem offset_mod_four (r : Reg) : r.offset % 4 = 0 := by
  cases r with
  | cfgLu c => simp only [offset]; omega
  | ctx c b => simp only [offset]; omega
  | _ => rfl

theorem offset_eq_cmd_iff (r : Reg) : r.offset = offset .cmd ↔ r = .cmd := by
  cases r with
  | cfgLu c => simp [offset]
  | ctx c b => simp [offset]
  | _ => decide

/-- The CTX view: the component is the quotient of the entry's number by 256 and the bin its remainder. -/
theorem ofOffset_offset_ctx (c : Fin 4) (b : Byte) : ofOffset (offset (.ctx c b)) = some (.ctx c b) := by
  have hlow : ¬ offset (.ctx c b) < 0x400 := by simp [offset]
  have hentry : (offset (.ctx c b) - 0x400) / 4 = 256 * c.val + b.toNat := by simp only [offset]; omega
  have hcomp : Fin.ofNat 4 ((256 * c.val + b.toNat) / 256) = c :=
    Fin.ext (by simp only [Fin.val_ofNat]; omega)
  have hbin : BitVec.ofNat 8 (256 * c.val + b.toNat) = b :=
    BitVec.eq_of_toNat_eq (by simp only [BitVec.toNat_ofNat]; omega)
  rw [ofOffset, if_neg hlow, if_pos ⟨offset_lt _, offset_mod_four _⟩, hentry, hcomp, hbin]

/-- The map of rule R22 names each register at its own offset. -/
@[simp] theorem ofOffset_offset (r : Reg) : ofOffset r.offset = some r := by
  cases r with
  | cfgLu c => revert c; decide
  | ctx c b => exact ofOffset_offset_ctx c b
  | _ => decide

theorem offset_of_ofOffset {off : Nat} {r : Reg} (h : ofOffset off = some r) : r.offset = off := by
  unfold ofOffset at h
  split at h
  · simpa using List.find?_some h
  · split at h
    · obtain rfl := Option.some.inj h
      simp only [offset, Fin.val_ofNat, BitVec.toNat_ofNat]
      omega
    · cases h

end Reg

/-! ## What the state keeps of a write -/

namespace State

variable {s : State} {r : Reg} (v : Word)

theorem cfgWritable_iff :
    s.cfgWritable = true ↔ s.status.dstate = .uninitialized ∨ s.status.dstate = .scanFlushed := by
  simp [cfgWritable]

theorem writeCfg_of_writable (h : s.cfgWritable = true) (f : ScanConfig → ScanConfig) :
    s.writeCfg f = { s with cfg := f s.cfg } := if_pos h

theorem writeCfg_of_not_writable (h : ¬ s.cfgWritable = true) (f : ScanConfig → ScanConfig) :
    s.writeCfg f = s := if_neg h

/-- In a state that ignores CFG writes only the operand registers take one, and they stand below CFG. -/
theorem writeReg_of_not_writable (h : ¬ s.cfgWritable = true) (hr : 0x020 ≤ r.offset) : s.writeReg r v = s := by
  cases r with
  | arg0 | arg1 | arg2 => simp [Reg.offset] at hr
  | cfgPred | cfgNcomp | cfgPrec | cfgWidth | cfgHeight | cfgRi | cfgRowgrp | cfgLu c =>
    simp only [writeReg, writeCfg_of_not_writable h]
  | _ => rfl

/-- The read-only registers stand at the offsets that are neither an operand's nor a CFG register's. -/
theorem writeReg_of_readOnly (hr : r.offset = 0x004 ∨ r.offset = 0x008 ∨ r.offset = 0x018 ∨ r.offset = 0x01C ∨
    r.offset = 0x03C ∨ 0x050 ≤ r.offset) : s.writeReg r v = s := by
  cases r with
  | arg0 | arg1 | arg2 | cfgPred | cfgNcomp | cfgPrec | cfgWidth | cfgHeight | cfgRi | cfgRowgrp =>
    simp [Reg.offset] at hr
  | cfgLu c => simp only [Reg.offset] at hr; omega
  | _ => rfl

@[simp] theorem regWrite_offset (s : State) (r : Reg) : s.regWrite r.offset v = s.writeReg r v := by
  simp only [regWrite, Reg.ofOffset_offset]

theorem regWrite_eq_self {off : Nat} (h : ∀ r : Reg, r.offset = off → s.writeReg r v = s) :
    s.regWrite off v = s := by
  unfold regWrite
  split
  · next r hr => exact h r (Reg.offset_of_ofOffset hr)
  · rfl

end State

/-! ## The step that serves a write -/

section Step

variable (s : State) (v : Word)

@[simp] theorem step_pushEvent (e : HostEvent) : step (s.pushEvent e) = serve e s := rfl

theorem accessProblem_eq_none {off : Nat} (ha : off % 4 = 0) (hw : off < 0x1400) : accessProblem off 4 = none := by
  simp [accessProblem, ha, hw]

theorem step_write_aligned {off : Nat} (ha : off % 4 = 0) (hw : off < 0x1400) :
    step (s.pushEvent (.write off 4 v)) = serveWrite off v s := by
  simp only [step_pushEvent, serve, accessProblem_eq_none ha hw]

theorem step_write_cmd : step (s.pushEvent (.write 0x000 4 v)) = runWord v s :=
  step_write_aligned s v (by decide) (by decide)

theorem step_write_register {r : Reg} (hr : r ≠ .cmd) :
    step (s.pushEvent (.write r.offset 4 v)) = .next (s.writeReg r v) := by
  rw [step_write_aligned s v r.offset_mod_four r.offset_lt, serveWrite, if_neg (mt r.offset_eq_cmd_iff.mp hr),
    State.regWrite_offset]

/-- The premise `hf` names the register's case of `State.writeReg`; it holds by computation for each of them. -/
theorem step_write_cfg (hw : s.cfgWritable = true) {r : Reg} (hr : r ≠ .cmd) (f : ScanConfig → ScanConfig)
    (hf : s.writeReg r v = s.writeCfg f) :
    step (s.pushEvent (.write r.offset 4 v)) = .next { s with cfg := f s.cfg } := by
  rw [step_write_register s v hr, hf, State.writeCfg_of_writable hw]

/-- A write is ignored where no register standing at its offset takes it, an unlisted offset among them. -/
theorem step_write_ignored {off : Nat} (ha : off % 4 = 0) (hw : off < 0x1400) (hcmd : off ≠ Reg.offset .cmd)
    (h : ∀ r : Reg, r.offset = off → s.writeReg r v = s) : step (s.pushEvent (.write off 4 v)) = .next s := by
  rw [step_write_aligned s v ha hw, serveWrite, if_neg hcmd, State.regWrite_eq_self v h]

end Step

/-! ## The obligation -/

/-- Settles O10: an aligned offset of the window names at most one register (`Reg.offset_of_ofOffset`), and
`State.writeReg` says what each register takes of a write. -/
theorem hostWrites : Obligations.HostWrites := by
  refine ⟨fun s v => ⟨?_, ?_, ?_, step_write_cmd s v⟩, fun s v hd => ?writable,
    fun s off v hu hf ha hoff => ?notWritable, fun s off v ha hoff => ?readOnly⟩
  · exact step_write_register s v (r := .arg0) nofun
  · exact step_write_register s v (r := .arg1) nofun
  · exact step_write_register s v (r := .arg2) nofun
  case writable =>
    have cfg {r : Reg} := step_write_cfg s v (State.cfgWritable_iff.mpr hd) (r := r)
    exact ⟨cfg (r := .cfgPred) nofun (fun g => { g with pred := v.extractLsb' 0 4 }) rfl,
      cfg (r := .cfgNcomp) nofun (fun g => { g with ncomp := v.extractLsb' 0 3 }) rfl,
      cfg (r := .cfgPrec) nofun (fun g => { g with prec := v.extractLsb' 0 5 }) rfl,
      cfg (r := .cfgWidth) nofun (fun g => { g with width := v.extractLsb' 0 16 }) rfl,
      cfg (r := .cfgHeight) nofun (fun g => { g with height := v.extractLsb' 0 16 }) rfl,
      cfg (r := .cfgRi) nofun (fun g => { g with ri := v.extractLsb' 0 16 }) rfl,
      cfg (r := .cfgRowgrp) nofun (fun g => { g with rowgrp := v.extractLsb' 0 8 }) rfl,
      fun c => cfg (r := .cfgLu c) nofun (fun g => { g with lu := g.lu.set c (thresholdsOf v) }) rfl⟩
  case notWritable =>
    have hw : ¬ s.cfgWritable = true := fun h => (State.cfgWritable_iff.mp h).elim hu hf
    exact step_write_ignored s v ha (by omega) (by simp only [Reg.offset]; omega) fun r hr =>
      State.writeReg_of_not_writable v hw (by omega)
  case readOnly =>
    exact step_write_ignored s v ha (by omega) (by simp only [Reg.offset]; omega) fun r hr =>
      State.writeReg_of_readOnly v (by omega)

end Sys2Proof.Machine
end

