-- ==== Sys2Proof/Proofs/Encoding.lean ====
section
/-! PROOFS. Command words (spec/30_encoding.md rules R80 to R84, R88): the rows of rule R83, the words the decoder
takes and refuses, what a refused command leaves, and obligations O1, O4 and O5. -/

namespace Sys2Proof

/-! ## Words by their OP and their low bits -/

theorem word_eq_iff {v w : Word} :
    v = w ↔ opcodeOf v = opcodeOf w ∧ v.extractLsb' 0 24 = w.extractLsb' 0 24 := by
  refine ⟨fun h => h ▸ ⟨rfl, rfl⟩, fun ⟨hop, hlow⟩ => ?_⟩
  have split (u : Word) : opcodeOf u ++ u.extractLsb' 0 24 = u := by
    rw [opcodeOf, BitVec.extractLsb'_append_extractLsb'_eq_extractLsb' (by rfl), BitVec.extractLsb'_eq_self]
  rw [← split v, ← split w, hop, hlow]

/-! ## The rows of rule R83 -/

namespace Instr

/-- The OP of a command (rule R82), from the match of its row. -/
def opcode (i : Instr) : Byte := opcodeOf i.row.2

/-- The reserved bits of a command: those of `word[23:0]` in the mask of its row (rules R80, R83). -/
def reserved (i : Instr) : BitVec 24 := i.row.1.extractLsb' 0 24

/-- The command of the same row with the operands a word spells (rule R81). -/
def withFields (w : Word) : Instr → Instr
  | encBit _ _ _ => encBit (fieldC w) (fieldBin w) (fieldD w)
  | decBit _ _ => decBit (fieldC w) (fieldBin w)
  | ctxReset _ => ctxReset (fieldLow w)
  | classify _ _ => classify (fieldLow w) (fieldU w)
  | encDiff _ => encDiff (fieldC w)
  | decDiff _ => decDiff (fieldC w)
  | startScan _ => startScan (fieldDir w)
  | i => i

@[simp] theorem row_withFields (w : Word) (i : Instr) : (i.withFields w).row = i.row := by cases i <;> rfl

theorem opcodeOf_mask (i : Instr) : opcodeOf i.row.1 = 0xFF#8 := by cases i <;> simp [row, opcodeOf]

theorem low_match (i : Instr) : i.row.2.extractLsb' 0 24 = 0#24 := by
  cases i <;> simp [row]

/-- Rule R82 leaves no OP to a command outside these ranges. -/
theorem opcode_ranges (i : Instr) :
    i.opcode.toNat ≤ 0x07 ∨ (0x10 ≤ i.opcode.toNat ∧ i.opcode.toNat ≤ 0x12) ∨
      (0x20 ≤ i.opcode.toNat ∧ i.opcode.toNat ≤ 0x24) ∨ i.opcode.toNat = 0x2F ∨ i.opcode.toNat = 0x7F := by
  cases i <;> simp [opcode, row, opcodeOf]

/-- A word is in a command's row exactly when it has the command's OP and none of the command's reserved bits. -/
theorem selects_iff (i : Instr) (w : Word) :
    w &&& i.row.1 = i.row.2 ↔ opcodeOf w = i.opcode ∧ w.extractLsb' 0 24 &&& i.reserved = 0#24 := by
  have hop : opcodeOf (w &&& i.row.1) = opcodeOf w := by
    rw [opcodeOf, BitVec.extractLsb'_and, ← opcodeOf, ← opcodeOf, opcodeOf_mask]
    exact BitVec.and_allOnes
  rw [word_eq_iff, hop, low_match, BitVec.extractLsb'_and, opcode, reserved]

theorem selects_encode (i : Instr) : encode i &&& i.row.1 = i.row.2 := by
  cases i with
  | encBit c bin d => exact Laws.EncodedRow.encBit c bin d
  | decBit c bin => exact Laws.EncodedRow.decBit c bin
  | ctxReset mask => exact Laws.EncodedRow.ctxReset mask
  | classify l u => exact Laws.EncodedRow.classify l u
  | encDiff c => exact Laws.EncodedRow.encDiff c
  | decDiff c => exact Laws.EncodedRow.decDiff c
  | startScan dir => exact Laws.EncodedRow.startScan dir
  | _ => rfl

theorem opcodeOf_encode (i : Instr) : opcodeOf (encode i) = i.opcode := (i.selects_iff _).mp i.selects_encode |>.1

end Instr

/-! ## The decoder -/

/-- The check of a decoder's arm, in terms of the reserved bits. -/
theorem definedOnly_mask (i j : Instr) (w : Word) :
    definedOnly (~~~i.row.1) w j =
      if w.extractLsb' 0 24 &&& i.reserved = 0#24 then .ok j else .error .reservedBits := by
  have hmask : w &&& ~~~(0xFF000000#32 ||| ~~~i.row.1) = 0#32 ↔ w.extractLsb' 0 24 &&& i.reserved = 0#24 := by
    have hlow : (0x00FFFFFF#24 &&& i.row.1.extractLsb' 0 24) = i.reserved := BitVec.allOnes_and
    simp [word_eq_iff, opcodeOf, BitVec.extractLsb'_and, BitVec.not_or, hlow]
  simp only [definedOnly, hmask]

/-- What the decoder makes of a word with the OP of a command. -/
theorem decode_of_opcode {w : Word} {i : Instr} (h : opcodeOf w = i.opcode) :
    decode w = if w.extractLsb' 0 24 &&& i.reserved = 0#24 then .ok (i.withFields w) else .error .reservedBits := by
  rw [← definedOnly_mask, decode, h, Instr.opcode]
  cases i <;> rw [Instr.row] <;> rfl

/-- Every word either has the OP of a command or is refused for its OP. -/
theorem decode_cases (w : Word) : (∃ i : Instr, opcodeOf w = i.opcode) ∨ decode w = .error .unknownOpcode := by
  have of {n : Nat} (h : (opcodeOf w).toNat = n) (i : Instr) (hi : i.opcode.toNat = n) :
      ∃ i : Instr, opcodeOf w = i.opcode := ⟨i, BitVec.eq_of_toNat_eq (h.trans hi.symm)⟩
  unfold decode
  split
  · exact .inl (of ‹_› .nop rfl)
  · exact .inl (of ‹_› .encInit rfl)
  · exact .inl (of ‹_› (.encBit 0 0 false) rfl)
  · exact .inl (of ‹_› .encFlush rfl)
  · exact .inl (of ‹_› .decInit rfl)
  · exact .inl (of ‹_› (.decBit 0 0) rfl)
  · exact .inl (of ‹_› (.ctxReset 0) rfl)
  · exact .inl (of ‹_› .clearErr rfl)
  · exact .inl (of ‹_› (.classify 0 0) rfl)
  · exact .inl (of ‹_› (.encDiff 0) rfl)
  · exact .inl (of ‹_› (.decDiff 0) rfl)
  · exact .inl (of ‹_› (.startScan .encode) rfl)
  · exact .inl (of ‹_› .startMcuRow rfl)
  · exact .inl (of ‹_› .writeMcu rfl)
  · exact .inl (of ‹_› .parseMcu rfl)
  · exact .inl (of ‹_› .flush rfl)
  · exact .inl (of ‹_› .abort rfl)
  · exact .inl (of ‹_› .reset rfl)
  · exact .inr rfl

/-- A word spells a command of a row only if the row selects it. -/
theorem selects_of_decode {w : Word} {i : Instr} (h : decode w = .ok i) : w &&& i.row.1 = i.row.2 := by
  obtain ⟨j, hop⟩ | hunknown := decode_cases w
  · rw [decode_of_opcode hop] at h
    split at h
    · next hlow =>
      obtain rfl := Except.ok.inj h
      rw [j.row_withFields w]
      exact (j.selects_iff w).mpr ⟨hop, hlow⟩
    · exact nomatch h
  · exact nomatch hunknown.symm.trans h

theorem decode_of_selects {w : Word} {i : Instr} (h : w &&& i.row.1 = i.row.2) : decode w = .ok (i.withFields w) := by
  obtain ⟨hop, hlow⟩ := (i.selects_iff w).mp h
  rw [decode_of_opcode hop, if_pos hlow]

/-- A command without operands is the only one of its row. -/
theorem decode_eq_ok_iff_selects {w : Word} {i : Instr} (hi : i.withFields w = i) :
    decode w = .ok i ↔ w &&& i.row.1 = i.row.2 :=
  ⟨selects_of_decode, fun h => (decode_of_selects h).trans (congrArg _ hi)⟩

theorem decode_of_reserved {w : Word} {i : Instr} (hop : opcodeOf w = i.opcode)
    (hlow : w.extractLsb' 0 24 &&& i.reserved ≠ 0#24) : decode w = .error .reservedBits := by
  rw [decode_of_opcode hop, if_neg hlow]

theorem decode_of_opcode_unknown {w : Word} (h : ∀ i : Instr, opcodeOf w ≠ i.opcode) :
    decode w = .error .unknownOpcode :=
  (decode_cases w).resolve_left fun ⟨i, hop⟩ => h i hop

theorem opcodeOf_toNat (w : Word) : (opcodeOf w).toNat = w.toNat / 2 ^ 24 := by
  rw [opcodeOf, BitVec.extractLsb'_toNat, Nat.shiftRight_eq_div_pow]
  exact Nat.mod_eq_of_lt (by omega)

end Sys2Proof

namespace Sys2Proof.Machine

/-! ## What a refused command leaves -/

variable {s : State}

theorem report_eq_withErr (hf : s.status.fault = false) (e : ErrCode) : s.report e = s.withErr e :=
  report_of_not_fault s e hf

theorem runWord_of_error {w : Word} {e : DecodeError} (h : decode w = .error e) :
    runWord w s = .next (s.report .illegalCommand) := by simp only [runWord, h]

/-- An operand out of its range is reported before anything else a command with FAULT = 0 does (rules R84, R85). -/
theorem exec_of_not_operandsLegal {i : Instr} (hf : s.status.fault = false) (h : ¬ operandsLegal i s) :
    exec i s = .next (s.withErr .illegalCommand) := by
  have refused {operands precondition : Bool} {body : Cmd Unit} (ho : operands = false) :
      guarded operands precondition body s = .next (s.withErr .illegalCommand) := by
    rw [guarded_illegal hf ho, report_eq_withErr hf]
  cases i with
  | encBit c bin d => exact refused (decide_eq_false h)
  | decBit c bin => exact refused (decide_eq_false h)
  | encDiff c =>
    refine refused (Bool.eq_false_iff.mpr fun ho => h ?_)
    simpa [residualLegal, State.thresholdsOrdered, operandsLegal, and_assoc] using ho
  | decDiff c => exact refused (decide_eq_false h)
  | _ => exact absurd trivial h

/-! ## The obligations -/

/-- Settles O4: a row selects the words of its OP without its reserved bits (`Instr.selects_iff`), and these are the
words the decoder takes as a command of that row. -/
theorem maskAndMatch : Obligations.MaskAndMatch := by
  intro w
  have noOperands (i : Instr) (hi : i.withFields w = i) := decode_eq_ok_iff_selects hi
  exact ⟨noOperands .nop rfl, noOperands .encInit rfl,
    ⟨fun ⟨_, _, _, h⟩ => selects_of_decode h, fun h => ⟨_, _, _, decode_of_selects (i := .encBit 0 0 false) h⟩⟩,
    noOperands .encFlush rfl, noOperands .decInit rfl,
    ⟨fun ⟨_, _, h⟩ => selects_of_decode h, fun h => ⟨_, _, decode_of_selects (i := .decBit 0 0) h⟩⟩,
    ⟨fun ⟨_, h⟩ => selects_of_decode h, fun h => ⟨_, decode_of_selects (i := .ctxReset 0) h⟩⟩,
    noOperands .clearErr rfl,
    ⟨fun ⟨_, _, h⟩ => selects_of_decode h, fun h => ⟨_, _, decode_of_selects (i := .classify 0 0) h⟩⟩,
    ⟨fun ⟨_, h⟩ => selects_of_decode h, fun h => ⟨_, decode_of_selects (i := .encDiff 0) h⟩⟩,
    ⟨fun ⟨_, h⟩ => selects_of_decode h, fun h => ⟨_, decode_of_selects (i := .decDiff 0) h⟩⟩,
    ⟨fun ⟨_, h⟩ => selects_of_decode h, fun h => ⟨_, decode_of_selects (i := .startScan .encode) h⟩⟩,
    noOperands .startMcuRow rfl, noOperands .writeMcu rfl, noOperands .parseMcu rfl, noOperands .flush rfl,
    noOperands .abort rfl, noOperands .reset rfl⟩

/-- Settles O5: no command has an OP of the ranges of rule R84, the decoder tests the bits `Instr.reserved`, and a
refusal is a report (`runWord_of_error`, `exec_of_not_operandsLegal`). -/
theorem illegalCommands : Obligations.IllegalCommands := by
  refine ⟨fun w hop => ?unknown, fun w i hop hlow => ?reserved, fun w e s h => ?refused,
    fun c bin d s hf hbin => ?bin, fun c s hf => ⟨fun h => ?encDiff, fun h => ?decDiff⟩⟩
  case unknown =>
    refine decode_of_opcode_unknown fun i hi => ?_
    have hranges := i.opcode_ranges
    rw [← hi, opcodeOf_toNat] at hranges
    omega
  case reserved => exact decode_of_reserved (hop.trans i.opcodeOf_encode) hlow
  case refused => exact runWord_of_error h
  case bin =>
    exact ⟨exec_of_not_operandsLegal hf (Nat.not_lt.mpr hbin), exec_of_not_operandsLegal hf (Nat.not_lt.mpr hbin)⟩
  case encDiff =>
    refine exec_of_not_operandsLegal hf fun ⟨hlow, hhigh, hlu⟩ => ?_
    simp only [State.arg0, State.lowThreshold, State.highThreshold] at hlow hhigh hlu
    omega
  case decDiff => exact exec_of_not_operandsLegal hf (Nat.not_le.mpr h)

/-- Settles O1: the encoder and the decoder compute the nine words. -/
theorem workedEncodings : Obligations.WorkedEncodings := by
  unfold Obligations.WorkedEncodings
  decide

end Sys2Proof.Machine
end

