-- ==== Sys2Proof/Proofs/Engine.lean ====
section
/-! PROOFS. The arithmetic coder engine (spec/40_engine.md): the raw commands by their precondition, writing bytes,
the flush value, `ByteIn`, and obligations O19 to O22, O27 and O30. -/

namespace Sys2Proof.Machine

/-! ## Raw commands -/

section Raw

variable {s : State} {body : Cmd Unit}

theorem State.raw_iff : s.raw = true ↔ s.status.dstate = .uninitialized ∨ s.status.dstate = .scanFlushed := by
  simp [State.raw]

theorem guarded_raw_runs {t : State} (hf : s.status.fault = false)
    (hraw : s.status.dstate = .uninitialized ∨ s.status.dstate = .scanFlushed) (h : body s = .ok () t) :
    guarded true s.raw body s = .next t :=
  (guarded_runs hf rfl (State.raw_iff.mpr hraw)).trans (outcome_ok h)

theorem guarded_raw_refused (hf : s.status.fault = false) (hu : s.status.dstate ≠ .uninitialized)
    (hsf : s.status.dstate ≠ .scanFlushed) : guarded true s.raw body s = .next (s.withErr .sequenceError) := by
  have hraw : s.raw = false := Bool.eq_false_iff.mpr fun h => (State.raw_iff.mp h).elim hu hsf
  rw [guarded_sequence hf rfl hraw, report_eq_withErr hf]

end Raw

/-! ## CTX_RESET -/

theorem State.ctxAt_resetMasked (s : State) (k : BitVec 4) (c : Fin 4) {b : Nat} (hb : b < 160) :
    (s.resetMasked k).ctxAt c b = if k.getLsbD c.val then { i := 0, mps := false } else s.ctxAt c b := by
  simp only [State.ctxAt, State.resetMasked, Fin.getElem_fin, Vector.getElem_ofFn]
  split
  · simp [Config.nBin, hb]
  · rfl

theorem State.resetMasked_zero (s : State) : s.resetMasked 0 = s := by
  have hctx : (s.resetMasked 0).ctx = s.ctx := Vector.ext fun c hc => by simp [State.resetMasked]
  calc s.resetMasked 0 = { s with ctx := (s.resetMasked 0).ctx } := rfl
    _ = s := by rw [hctx]

/-! ## Writing bytes -/

section Emit

variable {s : State} (b : Byte)

/-- An answer list that has run out answers Ok (notes/assumptions/3.md). -/
theorem sinkWrite_of_accepted
    (h : s.ports.sinkAnswers.head? = none ∨ s.ports.sinkAnswers.head? = some (some .ok)) :
    sinkWrite b s = .ok .ok { s with ports := { s.ports with
      sinkAnswers := s.ports.sinkAnswers.tail, trace := s.ports.trace ++ [.sinkWrite b .ok] } } := by
  rcases hq : s.ports.sinkAnswers with _ | ⟨a, rest⟩
  · simp [sinkWrite, hq, State.log]
  · obtain rfl : a = some .ok := by simpa [hq] using h
    simp [sinkWrite, hq, State.log]

theorem sinkWrite_of_refused (h : s.ports.sinkAnswers.head? = some (some .fail)) :
    sinkWrite b s = .ok .fail { s with ports := { s.ports with
      sinkAnswers := s.ports.sinkAnswers.tail, trace := s.ports.trace ++ [.sinkWrite b .fail] } } := by
  obtain ⟨rest, hq⟩ := List.head?_eq_some_iff.mp h
  simp [sinkWrite, hq, State.log]

/-- A turn of `EmitZeros`: `Emit` keeps ZC, so the turns left are those of the ZC lowered by 1. -/
theorem emitZeros_turn (hz : s.eng.zc ≠ 0) :
    emitZeros s = (do emit 0x00; modifyEng fun e => { e with zc := e.zc - 1 }; emitZeros : Cmd Unit) s := by
  obtain ⟨n, hn⟩ : ∃ n, s.eng.zc.toNat = n + 1 :=
    Nat.exists_eq_succ_of_ne_zero fun h => hz (BitVec.eq_of_toNat_eq h)
  have hemit := emit_ends 0x00 s
  unfold Cmd.Ends at hemit
  simp only [emitZeros, hn, emitZerosN, cmd_bind]
  cases hrun : emit 0x00 s with
  | ok _ t =>
    rw [hrun] at hemit
    obtain rfl : t = s.wrote [0x00] := hemit
    have hleft : (s.eng.zc - 1#32).toNat = n := by bv_omega
    change emitZerosN n _ = emitZerosN (s.eng.zc - 1#32).toNat _
    rw [hleft]
  | error e t => rfl

theorem emitZeros_of_accepts (hs : s.ports.SinkAccepts) :
    emitZeros s = .ok () ((s.withEng { s.eng with zc := 0 }).wrote (List.replicate s.eng.zc.toNat 0x00)) := by
  obtain ⟨_, t, hrun, rfl⟩ := (emitZeros_ends s).completes (fun _ _ h => h.absurd hs id) (not_not.mpr hs)
  exact hrun

end Emit

/-! ## The flush value -/

theorem flushValue_of_sound {s : State} (h : s.eng.EncodeSound) :
    flushValue s = .ok () (s.withEng { s.eng with c := BitVec.ofNat 32 s.eng.flushC }) := by
  rw [flushValue, cmd_bind, cmd_get]
  exact assignC_ok _ _ (flushC_lt h)

theorem Engine.EncodeSound.code_lt {e : Engine} (h : e.EncodeSound) : e.c.toNat + e.a.toNat < 2 ^ 32 :=
  calc e.c.toNat + e.a.toNat ≤ (e.c.toNat + e.a.toNat) * 2 ^ e.ct.toNat := Nat.le_mul_of_pos_right _ (by positivity)
    _ ≤ 2 ^ 27 + 2 ^ 24 := h.code_le
    _ < 2 ^ 32 := by norm_num

/-- An interval of at most 2^16 values holds at most one multiple of 2^16. It is the flush value where there is one;
where there is none, no value has more than 15 trailing zeros, and the flush value is an odd multiple of 2^15. -/
theorem two_pow_dvd_clearFinalBits {a c w n : Nat} (ha : a ≤ 0x10000) (hc : c + a < 2 ^ 32)
    (hw : c ≤ w) (hw' : w < c + a) (hd : 2 ^ n ∣ w) : 2 ^ n ∣ clearFinalBits a c := by
  rw [clearFinalBits, and_high (by omega)]
  obtain hn | hn := Nat.lt_or_ge n 16
  · have h15 : 2 ^ n ∣ 0x8000 := Nat.pow_dvd_pow 2 (n := 15) (by omega)
    have h16 : 2 ^ n ∣ (c + a - 1) / 65536 * 65536 := (Nat.pow_dvd_pow 2 (n := 16) (by omega)).mul_left _
    split
    · exact h16.add h15
    · exact h16
  · obtain ⟨k, hk⟩ := (Nat.pow_dvd_pow 2 (m := 16) hn).trans hd
    have hmultiple : (c + a - 1) / 65536 * 65536 = w := by omega
    rwa [hmultiple, if_neg (by omega)]

/-! ## The byte `ByteIn` fetches -/

/-- Fill bytes are read and dropped. -/
theorem fetchPastFF_fill (n : Nat) (bytes : List Byte) :
    fetchPastFF (List.replicate n 0xFF ++ bytes) =
      { fetchPastFF bytes with reads := List.replicate n (some 0xFF) ++ (fetchPastFF bytes).reads } := by
  induction n with
  | zero => rfl
  | succ n ih => rw [List.replicate_succ, List.cons_append, fetchPastFF, if_pos rfl, ih]; rfl

theorem fetchData_fill (n : Nat) (bytes : List Byte) :
    fetchData (List.replicate (n + 1) 0xFF ++ bytes) =
      { fetchPastFF bytes with reads := List.replicate (n + 1) (some 0xFF) ++ (fetchPastFF bytes).reads } := by
  rw [List.replicate_succ, List.cons_append, fetchData, if_pos rfl, fetchPastFF_fill]
  rfl

theorem fetchData_of_ne {b : Byte} (hb : b ≠ 0xFF) (rest : List Byte) :
    fetchData (b :: rest) = { t := b, marker := none, ended := false, rest := rest, reads := [some b] } := by
  rw [fetchData, if_neg hb]

theorem fetchPastFF_marker {m : Byte} (h0 : m ≠ 0x00) (hff : m ≠ 0xFF) (rest : List Byte) :
    fetchPastFF (m :: rest) = { t := 0x00, marker := some m, ended := false, rest := rest, reads := [some m] } := by
  rw [fetchPastFF, if_neg hff, if_neg h0]

namespace State

variable {s : State}

theorem byteFed_of_stopped (h : s.marker.valid = true ∨ s.eng.eos = true) : s.byteFed = s := by
  have hstop : s.inputStopped = true := by simpa [inputStopped] using h
  simp [byteFed, dataByte, hstop, withEng]

theorem byteFed_of_fetch {f : Fetch} (hm : s.marker.valid = false) (he : s.eng.eos = false)
    (hf : fetchData s.ports.source.bytes = f) :
    s.byteFed = (s.afterFetch f).withEng
      { (s.afterFetch f).eng with c := s.eng.c + BitVec.ofNat 32 (f.t.toNat * 256) } := by
  have hrun : s.inputStopped = false := by simp [inputStopped, hm, he]
  simp [byteFed, dataByte, hrun, hf, BitVec.ofNat_add]

end State

theorem byteIn_of_fetch {s : State} {f : Fetch} (hs : s.ports.SourceAnswers) (hc : s.eng.c.toNat + 0xFF00 < 2 ^ 32)
    (hm : s.marker.valid = false) (he : s.eng.eos = false) (hf : fetchData s.ports.source.bytes = f) :
    byteIn s = .ok () ((s.afterFetch f).withEng
      { (s.afterFetch f).eng with c := s.eng.c + BitVec.ofNat 32 (f.t.toNat * 256) }) := by
  rw [byteIn_exact s hs hc, State.byteFed_of_fetch hm he hf]

/-! ## The obligations -/

/-- Settles O30: `ByteIn` computes `State.byteFed` (`byteIn_exact`), and the fetch of a byte is known for every shape
of the source's bytes. -/
theorem byteInOnEachSource : Obligations.ByteInOnEachSource := by
  intro s hs hc
  refine ⟨fun h => ?stopped, fun hm he => ?running⟩
  case stopped => rw [byteIn_exact s hs hc, State.byteFed_of_stopped h]
  case running =>
    have fetched {f : Fetch} := byteIn_of_fetch hs hc hm he (f := f)
    refine ⟨fun hb => ?empty, fun b rest hne hb => ?data, fun n hb => ?fillOnly, fun n rest hb => ?stuffedZero,
      fun n m rest h0 hff hb => ?marker⟩
    case empty => exact fetched (congrArg fetchData hb)
    case data => exact fetched ((congrArg fetchData hb).trans (fetchData_of_ne hne rest))
    case fillOnly =>
      exact fetched ((congrArg fetchData (hb.trans (List.append_nil _).symm)).trans (fetchData_fill n []))
    case stuffedZero => exact fetched ((congrArg fetchData hb).trans (fetchData_fill n _))
    case marker =>
      have hfetch := (congrArg fetchData hb).trans (fetchData_fill n _)
      rw [fetchPastFF_marker h0 hff] at hfetch
      exact fetched hfetch

/-- Settles O27: the value lies in the interval (`clearFinalBits_bounds`) and every power of two dividing one of the
interval's values divides it (`two_pow_dvd_clearFinalBits`). -/
theorem flushValueHasMostTrailingZeros : Obligations.FlushValueHasMostTrailingZeros := by
  intro s h
  obtain ⟨hlow, hhigh⟩ := clearFinalBits_bounds h.a_ge h.a_le h.code_lt
  exact ⟨flushValue_of_sound h, hlow, hhigh, fun w n hw hw' hd =>
    two_pow_dvd_clearFinalBits h.a_le h.code_lt hw hw' hd⟩

/-- Settles O22: `Emit` on each answer of the sink, one turn of `EmitZeros`, and all its turns. -/
theorem emitSendsAndCounts : Obligations.EmitSendsAndCounts := by
  refine ⟨fun b s h => ?accepted, fun b s h => ?refused, fun s hz => ?none, fun s => emitZeros_turn,
    fun s => emitZeros_of_accepts⟩
  case accepted => rw [emit, cmd_bind, sinkWrite_of_accepted b h]; rfl
  case refused => rw [emit, cmd_bind, sinkWrite_of_refused b h]; rfl
  case none => rw [emitZeros, hz]; rfl

/-- Settles O21: a set the mask selects is written over as a whole and any other kept (`State.ctxAt_resetMasked`). -/
theorem ctxResetResetsTheMaskedSets : Obligations.CtxResetResetsTheMaskedSets :=
  ⟨fun _ => rfl,
    fun k s hf hraw => ⟨s.resetMasked k, guarded_raw_runs hf hraw rfl, rfl, fun c _ hb => s.ctxAt_resetMasked k c hb⟩,
    fun s hf hraw => guarded_raw_runs hf hraw (congrArg _ s.resetMasked_zero),
    fun _ _ hf hu hsf => guarded_raw_refused hf hu hsf⟩

/-- Settles O20: ENC_INIT runs `EncInit` and clears NBYTES where the driver state is RAW. -/
theorem encInitSetsTheRegisters : Obligations.EncInitSetsTheRegisters :=
  ⟨rfl, fun _ => rfl, fun _ hf hraw => guarded_raw_runs hf hraw rfl,
    fun _ hf hu hsf => guarded_raw_refused hf hu hsf⟩

/-- Settles O19: the rows of the default build's table, one after another. -/
theorem romProperties : Obligations.RomProperties :=
  ⟨rfl, rfl, by decide, by decide⟩

end Sys2Proof.Machine
end

