-- ==== Sys2Proof/Proofs/Context.lean ====
section
/-! PROOFS. The context model (spec/41_context.md): the bands of `classify` (rules R151, R153, R155), CLASSIFY
(rule R160), the decisions of a residual and their bins (rules R152, R156, R159), and obligations O34 to O36. -/

namespace Sys2Proof.Machine

/-! ## The bands and the magnitude group -/

/-- The bound L' of the zero band (rule R151). -/
def zeroBand (l : Nat) : Nat := if l = 0 then 0 else 2 ^ (l - 1)

theorem zeroBand_eq_shift (l : Nat) : (1 <<< l) >>> 1 = zeroBand l := by
  cases l with
  | zero => rfl
  | succ l => simp [zeroBand, Nat.shiftLeft_eq, Nat.shiftRight_eq_div_pow, Nat.pow_succ]

theorem zeroBand_le {l u : Nat} (h : l ≤ u) : zeroBand l ≤ 2 ^ u := by
  unfold zeroBand
  split
  · exact Nat.zero_le _
  · exact Nat.pow_le_pow_right two_pos (by omega)

section Bands

variable (d da db : Int) (l u : Nat)

theorem classify_eq :
    classify d l u =
      if d.natAbs ≤ zeroBand l then 0
      else if d.natAbs ≤ 2 ^ u then (if 0 < d then 1 else -1)
      else (if 0 < d then 2 else -2) := by
  rw [classify, zeroBand_eq_shift, Nat.one_shiftLeft]

theorem classify_bands :
    (classify d l u = 0 ↔ d.natAbs ≤ zeroBand l) ∧
    (classify d l u = 1 ↔ zeroBand l < d.natAbs ∧ d.natAbs ≤ 2 ^ u ∧ 0 < d) ∧
    (classify d l u = -1 ↔ zeroBand l < d.natAbs ∧ d.natAbs ≤ 2 ^ u ∧ d < 0) ∧
    (classify d l u = 2 ↔ zeroBand l < d.natAbs ∧ 2 ^ u < d.natAbs ∧ 0 < d) ∧
    (classify d l u = -2 ↔ zeroBand l < d.natAbs ∧ 2 ^ u < d.natAbs ∧ d < 0) := by
  rw [classify_eq]
  generalize zeroBand l = lp, 2 ^ u = up
  by_cases hzero : d.natAbs ≤ lp
  · rw [if_pos hzero]; omega
  · by_cases hsmall : d.natAbs ≤ up
    · rw [if_neg hzero, if_pos hsmall]; split <;> omega
    · rw [if_neg hzero, if_neg hsmall]; split <;> omega

theorem selectMagnitude_iff : selectMagnitude db u = true ↔ 2 ^ u < db.natAbs := by
  rw [selectMagnitude, decide_eq_true_iff, Nat.one_shiftLeft]

/-- With ordered thresholds the zero band ends inside the small band. -/
theorem selectMagnitude_iff_classify {l u : Nat} (h : l ≤ u) :
    selectMagnitude db u = true ↔ classify db l u = 2 ∨ classify db l u = -2 := by
  obtain ⟨-, -, -, hpos, hneg⟩ := classify_bands db l u
  have hband := zeroBand_le h
  rw [selectMagnitude_iff, hpos, hneg]
  omega

theorem selectZeroSign_eq :
    (selectZeroSign da db l u : Int) = 5 * (classify da l u + 2) + (classify db l u + 2) := by
  have ha := classify_range da l u
  have hb := classify_range db l u
  rw [selectZeroSign]
  omega

end Bands

/-! ## CLASSIFY -/

/-- The fields of a CLASSIFY result do not overlap. -/
theorem resultFields_eq_append (a b : BitVec 3) (g : Bool) (z : Byte) :
    BitVec.ofNat 32 (a.toNat ||| b.toNat <<< 4 ||| g.toNat <<< 8 ||| z.toNat <<< 16) =
      0#8 ++ z ++ 0#7 ++ BitVec.ofBool g ++ 0#1 ++ b ++ 0#1 ++ a := by
  have htoNat : a.toNat ||| b.toNat <<< 4 ||| g.toNat <<< 8 ||| z.toNat <<< 16 =
      (0#8 ++ z ++ 0#7 ++ BitVec.ofBool g ++ 0#1 ++ b ++ 0#1 ++ a).toNat := by
    simp only [BitVec.toNat_append, BitVec.toNat_ofBool, BitVec.toNat_zero, Nat.zero_shiftLeft, Nat.zero_or,
      Nat.or_zero, Nat.shiftLeft_or_distrib, ← Nat.shiftLeft_add]
    ac_rfl
  rw [htoNat, BitVec.ofNat_toNat, BitVec.setWidth_eq]

theorem classifyResult_eq (da db : Int) (l u : Nat) :
    classifyResult da db l u =
      0#8 ++ BitVec.ofInt 8 (4 * (5 * (classify da l u + 2) + (classify db l u + 2))) ++ 0#7 ++
        BitVec.ofBool (selectMagnitude db u) ++ 0#1 ++ BitVec.ofInt 3 (classify db l u + 2) ++ 0#1 ++
        BitVec.ofInt 3 (classify da l u + 2) := by
  have ha := classify_range da l u
  have hb := classify_range db l u
  have hz := selectZeroSign_eq da db l u
  rw [← resultFields_eq_append, classifyResult, binZero]
  simp only [BitVec.toNat_ofInt, Bool.toNat, Bool.cond_eq_ite]
  congr <;> omega

theorem classify_reserved_ne_zero {w : Word} {l u : BitVec 4} (h : w.extractLsb' 8 16 ≠ 0#16) :
    w.extractLsb' 0 24 &&& (Instr.classify l u).reserved ≠ 0#24 := by
  intro hlow
  have hmask : w.extractLsb' 8 16 &&& BitVec.allOnes 16 = 0#16 := by
    simpa [Instr.reserved, Instr.row, BitVec.extractLsb'_and] using congrArg (BitVec.extractLsb' 8 16) hlow
  exact h (BitVec.and_allOnes.symm.trans hmask)

theorem encode_classify (l u : BitVec 4) :
    encode (.classify l u) = 0x10000000#32 ||| u.setWidth 32 <<< 4 ||| l.setWidth 32 := by
  rw [encode, commandWord, BitVec.or_comm (l.setWidth 32), ← BitVec.or_assoc]
  rfl

/-! ## The decisions of a residual -/

theorem encodeDecisions_eq_forM (c : Fin 4) (ds : List (Nat × Bool)) :
    encodeDecisions c ds = ds.forM fun p => encodeBit c p.1 p.2 := by
  induction ds with
  | nil => rfl
  | cons p ds ih => rw [encodeDecisions, ih]; rfl

theorem magnitudeCategory_eq {sz k : Nat} (hk : 1 ≤ k) (hlow : 2 ^ (k - 1) ≤ sz) (hhigh : sz < 2 ^ k) :
    magnitudeCategory sz = k := by
  have hpos : sz ≠ 0 := (Nat.two_pow_pos (k - 1)).trans_le hlow |>.ne'
  have hlog : Nat.log2 sz = k - 1 := (Nat.log2_eq_iff hpos).mpr ⟨hlow, by rwa [Nat.sub_add_cancel hk]⟩
  rw [magnitudeCategory, hlog, Nat.sub_add_cancel hk]

/-- The length of a residual's magnitude decisions (rule R156), without the first. -/
theorem magnitude_length (g : Bool) (sz : Nat) :
    (exponentDecisions g sz ++ mantissaDecisions g sz).length = 2 * magnitudeCategory sz - 1 := by
  simp only [exponentDecisions, mantissaDecisions, List.length_append, List.length_map, List.length_range,
    List.length_reverse, List.length_singleton]
  rw [magnitudeCategory]
  omega

section Decisions

variable {v : Int} (da db : Int) (l u : Nat)

theorem binFirst_of_ne (h : v ≠ 0) (z : Nat) :
    binFirst z (decide (v < 0)) = if 0 < v then 4 * z + 2 else 4 * z + 3 := by
  simp only [binFirst, decide_eq_true_iff]
  split_ifs <;> omega

theorem residualDecisions_of_natAbs_eq_one (h : v.natAbs = 1) :
    residualDecisions v da db l u =
      [(binZero (selectZeroSign da db l u), true), (binSign (selectZeroSign da db l u), decide (v < 0)),
        (binFirst (selectZeroSign da db l u) (decide (v < 0)), false)] := by
  rw [residualDecisions, if_neg (by omega), h]
  rfl

theorem residualDecisions_of_two_le (h : 2 ≤ v.natAbs) :
    residualDecisions v da db l u =
      [(binZero (selectZeroSign da db l u), true), (binSign (selectZeroSign da db l u), decide (v < 0)),
        (binFirst (selectZeroSign da db l u) (decide (v < 0)), true)] ++
        (exponentDecisions (selectMagnitude db u) (v.natAbs - 1) ++
          mantissaDecisions (selectMagnitude db u) (v.natAbs - 1)) := by
  rw [residualDecisions, if_neg (by omega), magnitudeDecisions, if_neg (by omega)]
  rfl

end Decisions

/-! ## The bins of a residual -/

/-- The first bin of the magnitude group g (rule R152). -/
def groupBase (g : Bool) : Nat := if g then 130 else 100

theorem groupBase_eq (g : Bool) : groupBase g = 100 ∨ groupBase g = 130 := by
  cases g
  · exact .inl rfl
  · exact .inr rfl

theorem binX_eq (g : Bool) (k : Nat) : binX g k = groupBase g + (k - 1) := rfl

theorem binM_eq (g : Bool) (k : Nat) : binM g k = groupBase g + 15 + (k - 1) := by cases g <;> rfl

/-- Category 1 has no low bits to code, so no decision is on M1, the bin 15 above the group's first. -/
theorem magnitude_bin {g : Bool} {sz : Nat} (h : sz < 32768) {p : Nat × Bool}
    (hp : p ∈ exponentDecisions g sz ++ mantissaDecisions g sz) :
    groupBase g ≤ p.1 ∧ p.1 < groupBase g + 30 ∧ p.1 ≠ groupBase g + 15 := by
  have hk := magnitudeCategory_le h
  simp only [exponentDecisions, mantissaDecisions, List.mem_append, List.mem_map, List.mem_range, List.mem_reverse,
    List.mem_singleton] at hp
  obtain (⟨i, hi, rfl⟩ | rfl) | ⟨j, hj, rfl⟩ := hp
  · rw [binX_eq]; omega
  · rw [binX_eq]; omega
  · rw [binM_eq]; omega

/-- The decisions before a residual's magnitude are on the bins of its cell. -/
theorem cell_bin {z : Nat} {negative nonzero large : Bool} {p : Nat × Bool}
    (hp : p ∈ [(binZero z, nonzero), (binSign z, negative), (binFirst z negative, large)]) :
    4 * z ≤ p.1 ∧ p.1 ≤ 4 * z + 3 := by
  simp only [List.mem_cons, List.not_mem_nil, or_false] at hp
  obtain rfl | rfl | rfl := hp
  · simp only [binZero]; omega
  · simp only [binSign]; omega
  · simp only [binFirst]; split <;> omega

/-- Every decision is on a bin of the residual's cell or, for abs(V) >= 2, of its magnitude group (rule R159). -/
theorem residualDecisions_bin {v da db : Int} {l u : Nat} {p : Nat × Bool} (hp : p ∈ residualDecisions v da db l u) :
    (4 * selectZeroSign da db l u ≤ p.1 ∧ p.1 ≤ 4 * selectZeroSign da db l u + 3) ∨
      (2 ≤ v.natAbs ∧ p ∈ exponentDecisions (selectMagnitude db u) (v.natAbs - 1) ++
        mantissaDecisions (selectMagnitude db u) (v.natAbs - 1)) := by
  obtain hzero | hone | htwo : v = 0 ∨ v.natAbs = 1 ∨ 2 ≤ v.natAbs := by omega
  · rw [residualDecisions, if_pos hzero, List.mem_singleton] at hp
    exact .inl (cell_bin (negative := false) (large := false) (List.mem_cons.mpr (.inl hp)))
  · rw [residualDecisions_of_natAbs_eq_one da db l u hone] at hp
    exact .inl (cell_bin hp)
  · rw [residualDecisions_of_two_le da db l u htwo] at hp
    exact (List.mem_append.mp hp).imp cell_bin fun hmag => ⟨htwo, hmag⟩

/-! ## The obligations -/

/-- Settles O34: the two bounds of the bands as powers of 2 (`zeroBand_eq_shift`), then the bands one by one
(`classify_bands`). -/
theorem classifyBandsAndCells : Obligations.ClassifyBandsAndCells :=
  ⟨classify_bands, fun da db l u => ⟨selectMagnitude_iff db u, selectMagnitude_iff_classify db,
    selectZeroSign_eq da db l u, selectZeroSign_le da db l u⟩⟩

/-- Settles O35: `decode_of_reserved` refuses the word, and `resultFields_eq_append` gives RESULT bit by bit. -/
theorem classifyWritesResultAlone : Obligations.ClassifyWritesResultAlone := by
  refine ⟨encode_classify, fun w hop hlow => ?reserved, fun l u s hf => ?runs⟩
  case reserved => exact decode_of_reserved (i := .classify 0 0) hop (classify_reserved_ne_zero hlow)
  case runs =>
    intro ca cb
    rw [← classifyResult_eq]
    exact guarded_runs hf rfl rfl

/-- Settles O36: the decisions for abs(V) = 0, 1 and above, where `magnitudeCategory_eq` gives the category and
`residualDecisions_bin` the bins. -/
theorem decisionsOfAResidual : Obligations.DecisionsOfAResidual := by
  refine ⟨fun c v da db l u s => ?loop, fun v da db l u hlow hhigh => ⟨fun h => ?zero, fun h => ?one,
    fun k hmin hmax hk => ?category⟩, fun v da db l u hlow hhigh => ⟨selectZeroSign_le da db l u, fun p hp => ?bins⟩⟩
  case loop => rw [encodeV, encodeDecisions_eq_forM]
  case zero => rw [residualDecisions, if_pos h]; rfl
  case one => rw [residualDecisions_of_natAbs_eq_one da db l u h, binFirst_of_ne (by omega)]; rfl
  case category =>
    have hcat := magnitudeCategory_eq hk hmin hmax
    have htwo : 2 ≤ v.natAbs := by have := Nat.two_pow_pos (k - 1); omega
    have hds := residualDecisions_of_two_le da db l u htwo
    refine ⟨hcat ▸ magnitudeCategory_le (by omega), ?length, ?list⟩
    case length =>
      rw [hds, List.length_append, magnitude_length, hcat]
      simp only [List.length_cons, List.length_nil]
      omega
    case list =>
      rw [hds, exponentDecisions, mantissaDecisions, hcat, binFirst_of_ne (by omega)]
      simp only [List.append_assoc]
      rfl
  case bins =>
    have hz := selectZeroSign_le da db l u
    obtain hcell | ⟨htwo, hmag⟩ := residualDecisions_bin hp
    · exact ⟨by omega, by omega, by omega, .inl hcell⟩
    · obtain ⟨hfirst, hlast, hunused⟩ := magnitude_bin (by omega) hmag
      have hbase := groupBase_eq (selectMagnitude db u)
      exact ⟨by omega, by omega, by omega, .inr ⟨hfirst, hlast, htwo⟩⟩

end Sys2Proof.Machine
end

