-- ==== Sys2Proof/Proofs/Driver.lean ====
section
/-! PROOFS. The predictive scan driver's commands (spec/42_driver.md): the configuration check and what START_SCAN makes
of a bad configuration (rules R171, R177), START_MCU_ROW (rule R172), ABORT (rule R176), and obligations O42, O44
and O49. -/

namespace Sys2Proof.Machine

variable {s : State}

/-! ## The configuration check -/

theorem State.mem_components {c : Fin 4} : c ∈ s.components ↔ c.val < s.cfg.ncomp.toNat := by
  simp [State.components]

theorem State.thresholdsOrdered_iff {c : Fin 4} :
    s.thresholdsOrdered c = true ↔ s.cfg.lu[c].l.toNat ≤ s.cfg.lu[c].u.toNat := decide_eq_true_iff

theorem State.configValid_iff : s.configValid = true ↔
    s.cfg.pred.toNat ≤ 7 ∧ 1 ≤ s.cfg.ncomp.toNat ∧ s.cfg.ncomp.toNat ≤ 4 ∧ 2 ≤ s.cfg.prec.toNat ∧
    s.cfg.prec.toNat ≤ 16 ∧ 1 ≤ s.cfg.width.toNat ∧ s.cfg.width.toNat ≤ s.build.xmax ∧ 1 ≤ s.cfg.height.toNat ∧
    1 ≤ s.cfg.rowgrp.toNat ∧ (s.cfg.ri.toNat = 0 ∨ s.cfg.ri.toNat % s.cfg.width.toNat = 0) ∧
    ∀ c : Fin 4, c.val < s.cfg.ncomp.toNat → s.cfg.lu[c].l.toNat ≤ s.cfg.lu[c].u.toNat := by
  simp only [State.configValid, Bool.and_eq_true, decide_eq_true_eq, List.all_eq_true, State.mem_components,
    State.thresholdsOrdered_iff, and_assoc]

theorem startScan_of_invalid (dir : Dir) (hv : s.configValid = false) :
    startScan dir s = .error .fatal (s.enterFaulted .configurationError) := by
  simp [startScan, hv]

/-! ## Commands and their preconditions -/

theorem outcome_fatal {body : Cmd Unit} {t : State} (h : body s = .error .fatal t) :
    Cmd.outcome body s = .next t := by
  simp [Cmd.outcome, h]

/-- With FAULT = 0 the error is reported, so the Faulted entry writes ERR (rules R226, R227). -/
theorem enterFaulted_of_not_fault (e : ErrCode) (hf : s.status.fault = false) :
    s.enterFaulted e = { s with
      status := { s.status with dstate := .faulted, fault := true, err := e }
      eng := { s.eng with mode := .idle } } := by
  simp [State.enterFaulted, report_of_not_fault s e hf]

theorem State.rowStartable_iff : s.rowStartable = true ↔
    (s.status.dstate = .scanStarted ∨ s.status.dstate = .rowConsumed) ∧ s.pos.y.toNat < s.cfg.height.toNat := by
  simp [State.rowStartable]

theorem State.rowStartable_eq_false_iff : s.rowStartable = false ↔
    (s.status.dstate ≠ .scanStarted ∧ s.status.dstate ≠ .rowConsumed) ∨ s.cfg.height.toNat ≤ s.pos.y.toNat := by
  rw [← Bool.not_eq_true, State.rowStartable_iff, not_and_or, not_or, Nat.not_lt]

/-! ## The obligations -/

/-- Settles O42: a scan's components are those below N (`State.mem_components`), and the body of START_SCAN on an
invalid configuration is the Faulted entry alone (`startScan_of_invalid`). -/
theorem configValidExactlyWhen : Obligations.ConfigValidExactlyWhen := by
  refine ⟨fun s => State.configValid_iff, fun dir s hf hraw hv => ?refused⟩
  case refused =>
    calc exec (.startScan dir) s = Cmd.outcome (startScan dir) s := guarded_runs hf rfl (State.raw_iff.mpr hraw)
      _ = .next (s.enterFaulted .configurationError) := outcome_fatal (startScan_of_invalid dir hv)
      _ = _ := by rw [enterFaulted_of_not_fault _ hf]

/-- Settles O44: where the precondition holds the body is two register writes, and where it fails nothing runs. -/
theorem startMcuRowSetsYend : Obligations.StartMcuRowSetsYend := by
  refine ⟨rfl, fun s hf hd hy => ?allowed, fun s hf hno => ?refused⟩
  case allowed => exact guarded_runs hf rfl (State.rowStartable_iff.mpr ⟨hd, hy⟩)
  case refused =>
    rw [← report_eq_withErr hf]
    exact guarded_sequence hf rfl (State.rowStartable_eq_false_iff.mpr hno)

/-- Settles O49: the driver state is the only precondition, and the body writes registers of the block alone. -/
theorem abortDiscardsTheScan : Obligations.AbortDiscardsTheScan :=
  ⟨rfl, fun _ hf hd => guarded_runs hf rfl (decide_eq_true hd)⟩

end Sys2Proof.Machine
end

/-! PROOFS. Errors (spec/60_exceptions.md): what the Faulted entry writes, the order of a command's checks, what a step
does while FAULT = 1, NOP and CLEAR_ERR, and obligations O11, O12, O14, O16 and O17. -/

namespace Sys2Proof.Machine

variable {s : State} {i : Instr}

/-! ## The Faulted entry -/

theorem enterFaulted_eq (u : State) (e : ErrCode) : u.enterFaulted e = { u with
    status := { u.status with
      err := if u.status.fault then u.status.err else e
      fault := true
      dstate := .faulted }
    eng := { u.eng with mode := .idle } } := by
  unfold State.enterFaulted State.report
  split <;> rfl

/-- Nothing after the raise runs. -/
theorem raiseFatal_skips_rest {before rest : Cmd Unit} {u : State} (h : before s = .ok () u) (e : ErrCode) :
    (do before; raiseFatal e; rest : Cmd Unit) s = .error .fatal (u.enterFaulted e) := by
  simp only [cmd_bind, h, cmd_raiseFatal]

/-! ## The order of the checks -/

theorem State.rawIn_iff {m : EngMode} : s.rawIn m = true ↔
    (s.status.dstate = .uninitialized ∨ s.status.dstate = .scanFlushed) ∧ s.eng.mode = m := by
  simp [State.rawIn, State.raw_iff]

theorem State.rowReadyFor_iff {dir : Dir} :
    s.rowReadyFor dir = true ↔ s.status.dstate = .rowReady ∧ s.status.dmode = dir := by
  simp [State.rowReadyFor]

theorem State.scanDone_iff : s.scanDone = true ↔ s.status.dstate = .rowConsumed ∧ s.pos.y = s.cfg.height := by
  simp [State.scanDone]

/-- The operands ENC_DIFF checks (rules R84, R158). -/
theorem encDiff_operands_iff {c : Fin 4} :
    (residualLegal s.arg0 && s.thresholdsOrdered c) = true ↔ operandsLegal (.encDiff c) s := by
  simp [residualLegal, State.thresholdsOrdered, operandsLegal, and_assoc]

/-- Every command but NOP and RESET is checked in the order of rule R85, its operands against `operandsLegal` and its
precondition against `allowedIn`. -/
theorem exec_eq_guarded (s : State) (hn : i ≠ .nop) (hr : i ≠ .reset) :
    ∃ (operands precondition : Bool) (body : Cmd Unit), exec i s = guarded operands precondition body s ∧
      (operands = true ↔ operandsLegal i s) ∧ (precondition = true ↔ allowedIn i s) := by
  cases i with
  | nop => exact absurd rfl hn
  | reset => exact absurd rfl hr
  | encInit | decInit | ctxReset | startScan => exact ⟨_, _, _, rfl, iff_of_true rfl trivial, State.raw_iff⟩
  | encFlush => exact ⟨_, _, _, rfl, iff_of_true rfl trivial, State.rawIn_iff⟩
  | encBit | decBit | decDiff => exact ⟨_, _, _, rfl, decide_eq_true_iff, State.rawIn_iff⟩
  | encDiff => exact ⟨_, _, _, rfl, encDiff_operands_iff, State.rawIn_iff⟩
  | startMcuRow => exact ⟨_, _, _, rfl, iff_of_true rfl trivial, State.rowStartable_iff⟩
  | writeMcu | parseMcu => exact ⟨_, _, _, rfl, iff_of_true rfl trivial, State.rowReadyFor_iff⟩
  | flush => exact ⟨_, _, _, rfl, iff_of_true rfl trivial, State.scanDone_iff⟩
  | abort => exact ⟨_, _, _, rfl, iff_of_true rfl trivial, decide_eq_true_iff⟩
  | clearErr | classify => exact ⟨_, _, _, rfl, iff_of_true rfl trivial, iff_of_true rfl trivial⟩

theorem exec_of_not_allowedIn (hf : s.status.fault = false) (hn : i ≠ .nop) (hr : i ≠ .reset)
    (ho : operandsLegal i s) (ha : ¬ allowedIn i s) : exec i s = .next (s.withErr .sequenceError) := by
  obtain ⟨operands, precondition, body, hexec, hoperands, hprecondition⟩ := exec_eq_guarded s hn hr
  rw [hexec, guarded_sequence hf (hoperands.mpr ho) (Bool.eq_false_iff.mpr (mt hprecondition.mp ha)),
    report_eq_withErr hf]

/-! ## While FAULT = 1 -/

/-- The report of a blocked command is frozen (rule R227), and NOP does nothing anyway. -/
theorem exec_of_fault (hf : s.status.fault = true) (hr : i ≠ .reset) : exec i s = .next s := by
  by_cases hn : i = .nop
  · rw [hn]
    rfl
  · obtain ⟨operands, precondition, body, hexec, -, -⟩ := exec_eq_guarded s hn hr
    rw [hexec, guarded_fault hf]

/-- RESET has one word (rule R83). -/
theorem eq_of_decode_reset {w : Word} (h : decode w = .ok .reset) : w = 0x7F000000#32 :=
  BitVec.and_allOnes.symm.trans (selects_of_decode h)

theorem runWord_of_fault {w : Word} (hf : s.status.fault = true) (hw : w ≠ 0x7F000000#32) :
    runWord w s = .next s := by
  cases hdecode : decode w with
  | error e => rw [runWord_of_error hdecode, report_of_fault s _ hf]
  | ok i =>
    have hr : i ≠ .reset := fun h => hw (eq_of_decode_reset (h ▸ hdecode))
    simp only [runWord, hdecode, exec_of_fault hf hr]

@[simp] theorem State.writeCfg_status (s : State) (f : ScanConfig → ScanConfig) :
    (s.writeCfg f).status = s.status := by
  unfold State.writeCfg
  split <;> rfl

@[simp] theorem State.writeReg_status (s : State) (r : Reg) (v : Word) : (s.writeReg r v).status = s.status := by
  cases r <;> simp only [State.writeReg, State.writeCfg_status]

@[simp] theorem State.regWrite_status (s : State) (off : Nat) (v : Word) : (s.regWrite off v).status = s.status := by
  unfold State.regWrite
  split
  · exact State.writeReg_status s _ v
  · rfl

theorem bytes_of_accessProblem {off bytes : Nat} (h : accessProblem off bytes = none) : bytes = 4 := by
  by_contra hb
  simp [accessProblem, hb] at h

theorem step_of_no_event (h : s.ports.host = []) : step s = .next s := by
  simp only [step, State.nextEvent, h]

theorem step_of_event {e : HostEvent} {rest : List HostEvent} (h : s.ports.host = e :: rest) :
    step s = serve e { s with ports := { s.ports with host := rest } } := by
  simp only [step, State.nextEvent, h]

theorem serveWrite_of_fault {off : Nat} {v : Word} {t : State} (h : serveWrite off v s = .next t)
    (hf : s.status.fault = true) :
    t.status = s.status ∨ (t = s.resetBlock ∧ off = 0x000 ∧ v = 0x7F000000#32) := by
  unfold serveWrite at h
  split at h
  · next hcmd =>
    by_cases hv : v = 0x7F000000#32
    · subst hv
      exact .inr ⟨(Host.Outcome.next.inj h).symm, hcmd, rfl⟩
    · rw [runWord_of_fault hf hv] at h
      exact .inl (Host.Outcome.next.inj h ▸ rfl)
  · exact .inl (Host.Outcome.next.inj h ▸ s.regWrite_status off v)

/-- A host event served with FAULT = 1 leaves STATUS or resets the block (rules R225, R227, R229). -/
theorem serve_of_fault {e : HostEvent} {t : State} (h : serve e s = .next t) (hf : s.status.fault = true) :
    t.status = s.status ∨ (t = s.resetBlock ∧ (e = .hardReset ∨ e = .write 0x000 4 0x7F000000#32)) := by
  cases e with
  | hardReset => exact .inr ⟨(Host.Outcome.next.inj h).symm, .inl rfl⟩
  | read off bytes =>
    simp only [serve] at h
    split at h
    · exact nomatch h
    · exact .inl (Host.Outcome.next.inj h ▸ rfl)
  | write off bytes v =>
    simp only [serve] at h
    split at h
    · exact nomatch h
    · next haccess =>
      obtain rfl := bytes_of_accessProblem haccess
      obtain hstatus | ⟨ht, rfl, rfl⟩ := serveWrite_of_fault h hf
      · exact .inl hstatus
      · exact .inr ⟨ht, .inr rfl⟩

/-! ## The obligations -/

/-- Settles O14: a sound Faulted state has FAULT = 1, so a command but RESET is blocked (`exec_of_fault`), no register
write reaches STATUS (`State.regWrite_status`), and RESET has one word. -/
theorem faultedIsLeftOnlyByReset : Obligations.FaultedIsLeftOnlyByReset := by
  intro s t hinv hfaulted hstep
  have hf : s.status.fault = true := hinv.faulted.mpr hfaulted
  cases hhost : s.ports.host with
  | nil =>
    rw [step_of_no_event hhost] at hstep
    exact .inl (Host.Outcome.next.inj hstep ▸ rfl)
  | cons e rest =>
    rw [step_of_event hhost] at hstep
    obtain hstatus | ⟨ht, he⟩ := serve_of_fault hstep hf
    · exact .inl hstatus
    · exact .inr ⟨ht ▸ rfl, rest, he.imp (congrArg (· :: rest)) (congrArg (· :: rest))⟩

/-- Settles O12: the checks of rule R85 stand before every command's body (`exec_eq_guarded`). -/
theorem commandsAreCheckedInOrder : Obligations.CommandsAreCheckedInOrder :=
  fun _ _ hn hr => ⟨fun hf => exec_of_fault hf hr, fun hf ho => exec_of_not_operandsLegal hf ho,
    fun hf ho ha => exec_of_not_allowedIn hf hn hr ho ha⟩

/-- Settles O11: the raise ends the body in the Faulted entry from the state reached before it. -/
theorem fatalEntry : Obligations.FatalEntry := by
  intro before rest e s u h
  rw [outcome_fatal (raiseFatal_skips_rest h e), enterFaulted_eq]

/-- Settles O16: all 24 low bits of NOP are reserved, so a word with its OP that is not 0 has one of them. -/
theorem nopDoesNothing : Obligations.NopDoesNothing := by
  refine ⟨rfl, fun _ => rfl, fun w hop hw => decode_of_reserved (i := .nop) hop fun hlow => hw ?_⟩
  have hlow : w.extractLsb' 0 24 = 0#24 := BitVec.and_allOnes.symm.trans hlow
  exact word_eq_iff.mpr ⟨hop, hlow⟩

/-- Settles O17: CLEAR_ERR has no operand and no precondition but FAULT = 0, and its body writes ERR alone. -/
theorem clearErrClearsErrAlone : Obligations.ClearErrClearsErrAlone :=
  ⟨rfl, fun _ hf => guarded_runs hf rfl rfl, fun _ hf => exec_of_fault hf nofun⟩

end Sys2Proof.Machine

/-! PROOFS. The operands of a command word (spec/30_encoding.md rules R80 to R83): each field and its place in the word,
and obligations O2 and O3. -/

namespace Sys2Proof

/-! ## Fields and their places in a word -/

section Fields

variable (w : Word)

theorem placeC_eq (c : Fin 4) : placeC c = (BitVec.ofFin c : BitVec 2).setWidth 32 <<< 16 := by
  revert c
  decide

theorem placeDir_fieldDir : placeDir (fieldDir w) = placeBit (fieldD w) := by
  rw [fieldDir, fieldD]
  cases w.getLsbD 0 <;> rfl

theorem placeC_fieldC : placeC (fieldC w) = w &&& 0x00030000#32 := by
  have hplace : placeC (fieldC w) = (w.extractLsb' 16 2).setWidth 32 <<< 16 := placeC_eq _
  rw [hplace]
  ext k hk
  interval_cases k <;> simp

theorem placeBin_fieldBin : placeBin (fieldBin w) = w &&& 0x0000FF00#32 := by
  ext k hk
  interval_cases k <;> simp [placeBin, fieldBin]

theorem placeBit_fieldD : placeBit (fieldD w) = w &&& 0x00000001#32 := by
  ext k hk
  interval_cases k <;> simp [placeBit, fieldD]

theorem setWidth_fieldLow : (fieldLow w).setWidth 32 = w &&& 0x0000000F#32 := by
  ext k hk
  interval_cases k <;> simp [fieldLow]

theorem setWidth_fieldU : (fieldU w).setWidth 32 <<< 4 = w &&& 0x000000F0#32 := by
  ext k hk
  interval_cases k <;> simp [fieldU]

end Fields

theorem fieldC_commandWord (op : Byte) (c : Fin 4) {x : Word} (hx : x.extractLsb' 16 2 = 0#2) :
    fieldC (commandWord op (placeC c ||| x)) = c := by
  have hop : (op.setWidth 32 <<< 24).extractLsb' 16 2 = 0#2 := by ext k hk; interval_cases k <;> simp
  have hc : (placeC c).extractLsb' 16 2 = BitVec.ofFin c := by revert c; decide
  rw [fieldC, commandWord, BitVec.extractLsb'_or, BitVec.extractLsb'_or, hop, hc, hx, BitVec.zero_or,
    BitVec.or_zero]

theorem commandWord_and (w : Word) {op : Byte} {fields mask value : Word} (hop : commandWord op 0#32 = value)
    (hmask : ~~~mask = fields) : commandWord op (w &&& fields) = value ||| w &&& ~~~mask := by
  rw [hmask, ← hop, commandWord, commandWord, BitVec.or_zero]

/-- The words of a row are its match and any bits outside its mask (rule R83). -/
theorem encode_withFields (i : Instr) (w : Word) : encode (i.withFields w) = i.row.2 ||| w &&& ~~~i.row.1 := by
  cases i with
  | encBit | decBit | ctxReset | classify | encDiff | decDiff | startScan =>
    simp only [Instr.withFields, encode, placeC_fieldC, placeBin_fieldBin, placeBit_fieldD, placeDir_fieldDir,
      setWidth_fieldLow, setWidth_fieldU, ← BitVec.and_or_distrib_left, Instr.row]
    exact commandWord_and w (by decide) (by decide)
  | _ => simp [Instr.withFields, encode, Instr.row, commandWord]

/-- The decoder finds each operand where the encoder placed it (rule R81). -/
theorem withFields_encode (i : Instr) : i.withFields (encode i) = i := by
  cases i with
  | encBit c bin d =>
    have hc : fieldC (encode (.encBit c bin d)) = c := by
      rw [encode, BitVec.or_assoc]
      apply fieldC_commandWord
      ext k hk
      interval_cases k <;> simp [placeBin, placeBit]
    have hbin : fieldBin (encode (.encBit c bin d)) = bin := by
      ext k hk
      interval_cases k <;> simp [encode, fieldBin, commandWord, placeC, placeBin, placeBit]
    have hd : fieldD (encode (.encBit c bin d)) = d := by
      simp [encode, fieldD, commandWord, placeC, placeBin, placeBit]
    rw [Instr.withFields, hc, hbin, hd]
  | decBit c bin =>
    have hc : fieldC (encode (.decBit c bin)) = c := by
      apply fieldC_commandWord
      ext k hk
      interval_cases k <;> simp [placeBin]
    have hbin : fieldBin (encode (.decBit c bin)) = bin := by
      ext k hk
      interval_cases k <;> simp [encode, fieldBin, commandWord, placeC, placeBin]
    rw [Instr.withFields, hc, hbin]
  | ctxReset mask =>
    have hm : fieldLow (encode (.ctxReset mask)) = mask := by
      ext k hk
      interval_cases k <;> simp [encode, fieldLow, commandWord]
    rw [Instr.withFields, hm]
  | classify l u =>
    have hl : fieldLow (encode (.classify l u)) = l := by
      ext k hk
      interval_cases k <;> simp [encode, fieldLow, commandWord]
    have hu : fieldU (encode (.classify l u)) = u := by
      ext k hk
      interval_cases k <;> simp [encode, fieldU, commandWord]
    rw [Instr.withFields, hl, hu]
  | encDiff c | decDiff c => revert c; decide
  | startScan dir => cases dir <;> rfl
  | nop | encInit | encFlush | decInit | clearErr | startMcuRow | writeMcu | parseMcu | flush | abort | reset => rfl

/-- Settles O2: the command's word lies in its row (`Instr.selects_encode`), and the fields the decoder reads there are
the ones the encoder placed. -/
theorem decodeOfEncode : Obligations.DecodeOfEncode :=
  fun i => (decode_of_selects i.selects_encode).trans (congrArg _ (withFields_encode i))

/-- Settles O3: a word that decodes is the match of its row and the field bits (`encode_withFields`). -/
theorem encodeOfDecode : Obligations.EncodeOfDecode := by
  intro w i h
  have hrow : w &&& i.row.1 = i.row.2 := selects_of_decode h
  have hi : i = i.withFields w := Except.ok.inj (h.symm.trans (decode_of_selects hrow))
  calc encode i = encode (i.withFields w) := congrArg encode hi
    _ = w &&& i.row.1 ||| w &&& ~~~i.row.1 := by rw [encode_withFields, hrow]
    _ = w := by rw [← BitVec.and_or_distrib_left, BitVec.or_not_self, BitVec.and_allOnes]

end Sys2Proof

/-! PROOFS. The whole machine (spec/10_state.md, spec/60_exceptions.md rules R221, R226, R229, spec/42_driver.md rule
R170): the invariant at reset and over a step, what a command can do from a sound state, and obligations O13, O15, O50
and O57 to O60. -/

namespace Sys2Proof.Machine

variable {s t : State} {i : Instr}

/-! ## The invariant over a step -/

theorem exec_keeps_inv (hi : s.Inv) (h : exec i s = .next t) : t.Inv := by
  cases i with
  | nop => exact Host.Outcome.next.inj h ▸ hi
  | reset => exact Host.Outcome.next.inj h ▸ hi.resetBlock
  | encInit => exact execEncInit_inv hi h
  | encBit => exact execEncBit_inv hi h
  | encFlush => exact execEncFlush_inv hi h
  | decInit => exact execDecInit_inv hi h
  | decBit => exact execDecBit_inv hi h
  | ctxReset => exact execCtxReset_inv hi h
  | clearErr => exact execClearErr_inv hi h
  | classify => exact execClassify_inv hi h
  | encDiff => exact execEncDiff_inv hi h
  | decDiff => exact execDecDiff_inv hi h
  | startScan => exact execStartScan_inv hi h
  | startMcuRow => exact execStartMcuRow_inv hi h
  | writeMcu => exact execWriteMcu_inv hi h
  | parseMcu => exact execParseMcu_inv hi h
  | flush => exact execFlush_inv hi h
  | abort => exact execAbort_inv hi h

theorem serveWrite_keeps_inv {off : Nat} {v : Word} (hi : s.Inv) (h : serveWrite off v s = .next t) : t.Inv := by
  unfold serveWrite at h
  split at h
  · unfold runWord at h
    split at h
    · exact exec_keeps_inv hi h
    · exact Host.Outcome.next.inj h ▸ hi.report _
  · exact Host.Outcome.next.inj h ▸ hi.regWrite off v

theorem serve_keeps_inv {e : HostEvent} (hi : s.Inv) (h : serve e s = .next t) : t.Inv := by
  cases e with
  | hardReset => exact Host.Outcome.next.inj h ▸ hi.resetBlock
  | read off bytes =>
    simp only [serve] at h
    split at h
    · exact nomatch h
    · exact Host.Outcome.next.inj h ▸ hi.congr rfl rfl rfl rfl rfl rfl rfl rfl rfl rfl
  | write off bytes v =>
    simp only [serve] at h
    split at h
    · exact nomatch h
    · exact serveWrite_keeps_inv hi h

/-- Settles O58: taking a host event leaves every field the invariant speaks of, and serving it keeps the invariant: a
command by `exec_keeps_inv`, a register write by `State.Inv.regWrite`. -/
theorem stepKeepsTheInvariant : Obligations.StepKeepsTheInvariant := by
  intro s t hi h
  cases hhost : s.ports.host with
  | nil => exact Host.Outcome.next.inj ((step_of_no_event hhost).symm.trans h) ▸ hi
  | cons e rest =>
    rw [step_of_event hhost] at h
    refine serve_keeps_inv ?_ h
    exact hi.congr rfl rfl rfl rfl rfl rfl rfl rfl rfl rfl

/-- Settles O57: nothing runs and nothing is held after reset, and the default build's ROM is legal. -/
theorem invAtReset : Obligations.InvAtReset := by
  have hsteady : State.reset.Steady :=
    { build := ⟨rfl, by decide⟩
      ctx := ctxLegal_reset rfl
      diff := ⟨(DiffSound.clear State.reset).da, (DiffSound.clear State.reset).db, (DiffSound.clear State.reset).wf⟩
      marker := fun _ => rfl
      eos := nofun
      samples := rfl
      fault := rfl }
  exact Inv.of_raw hsteady rfl nofun nofun fun _ => ⟨rfl, rfl, rfl, rfl⟩

/-! ## What a command can do -/

/-- `exec_did` with NOP and RESET, the two commands that FAULT = 1 does not block. -/
theorem exec_cases (hi : s.Inv) (h : exec i s = .next t) :
    (i = .nop ∧ t = s) ∨ (i = .reset ∧ t = s.resetBlock) ∨ (i ≠ .nop ∧ i ≠ .reset ∧ Did i s t) := by
  by_cases hn : i = .nop
  · subst hn
    exact .inl ⟨rfl, (Host.Outcome.next.inj h).symm⟩
  · by_cases hr : i = .reset
    · subst hr
      exact .inr (.inl ⟨rfl, (Host.Outcome.next.inj h).symm⟩)
    · exact .inr (.inr ⟨hn, hr, exec_did hi h hn hr⟩)

/-- Settles O13: only a command that halted raises FAULT (`Did`), and then what it kept and the code it can raise are
those of `Halted`. -/
theorem fatalErrorsOfEachCommand : Obligations.FatalErrorsOfEachCommand := by
  intro i s t hi hf h hft
  obtain ⟨rfl, rfl⟩ | ⟨rfl, rfl⟩ | ⟨-, -, hdid⟩ := exec_cases hi h
  · exact absurd hft (by rw [hf]; exact Bool.false_ne_true)
  · exact nomatch hft
  · cases hdid with
    | reported e ht =>
      rw [ht, report_fault, hf] at hft
      exact nomatch hft
    | completed _ _ _ hc =>
      rw [hc.fault, hf] at hft
      exact nomatch hft
    | halted _ _ _ u e he hh ht =>
      have hregs : u.regs = s.regs := by rw [hh.args, hh.result]
      have herr : t.status.err = e := by rw [ht, enterFaulted_err _ _ (hh.fault.trans hf)]
      subst ht
      refine ⟨enterFaulted_dstate .., by rw [enterFaulted_eng], (enterFaulted_regs ..).trans hregs,
        (enterFaulted_cfg ..).trans hh.cfg, (enterFaulted_build ..).trans hh.build, ?_⟩
      rw [herr]
      have hcode := hh.code
      cases i <;> exact hcode

/-- Settles O15: a report, a completed command and a Faulted entry keep both flags (`Common`). -/
theorem stickyFlags : Obligations.StickyFlags := by
  intro i s t hi h hr
  obtain ⟨rfl, rfl⟩ | ⟨rfl, -⟩ | ⟨-, -, hdid⟩ := exec_cases hi h
  · exact ⟨id, fun hx _ => hx⟩
  · exact absurd rfl hr
  · cases hdid with
    | reported e ht => exact ⟨fun hx => by rw [ht, report_fault, hx], fun hx _ => by rw [ht, report_exhausted, hx]⟩
    | completed _ _ _ hc => exact ⟨hc.fault.trans, hc.exhausted⟩
    | halted hf _ _ u e he hh ht =>
      exact ⟨fun hx => absurd hx (by rw [hf]; exact Bool.false_ne_true),
        fun hx hn => by rw [ht, enterFaulted_exhausted, hh.exhausted hx hn]⟩

/-- A START_SCAN that ends with FAULT = 0 found a valid configuration (rule R171). -/
theorem configValid_of_startScan {dir : Dir} (hf : s.status.fault = false)
    (hraw : s.status.dstate = .uninitialized ∨ s.status.dstate = .scanFlushed)
    (h : exec (.startScan dir) s = .next t) (ht : t.status.fault = false) : s.configValid = true := by
  by_contra hv
  rw [configValidExactlyWhen.2 dir s hf hraw (by simpa using hv)] at h
  exact nomatch (Host.Outcome.next.inj h ▸ ht)

/-- Settles O50: a completed command leaves `dstateAfter`, where its precondition (`allowedIn`) held. -/
theorem driverTransitions : Obligations.DriverTransitions := by
  intro i s t hi h hd
  obtain ⟨rfl, rfl⟩ | ⟨rfl, rfl⟩ | ⟨-, -, hdid⟩ := exec_cases hi h
  · exact absurd rfl hd
  · exact .inr rfl
  · cases hdid with
    | reported e ht => exact absurd (by rw [ht, report_dstate]) hd
    | halted _ _ _ u e he hh ht => exact .inl (by rw [ht]; exact ⟨enterFaulted_dstate .., enterFaulted_fault ..⟩)
    | completed hf _ ha hc =>
      have hafter := hc.dstate
      refine .inr ?_
      cases i with
      | startScan dir =>
        exact ⟨ha, configValid_of_startScan hf ha h (hc.fault.trans hf), hafter, hc.dmode⟩
      | startMcuRow | writeMcu | parseMcu | flush => exact ⟨ha.1, ha.2, hafter⟩
      | abort => exact ⟨ha, hafter⟩
      | reset => exact hafter
      | nop | encInit | encBit | encFlush | decInit | decBit | ctxReset | clearErr | classify | encDiff | decDiff =>
        exact hd hafter

/-! ## What a command keeps -/

/-- What every command but RESET keeps, a report and the Faulted entry among its ends. -/
theorem exec_keeps (hi : s.Inv) (h : exec i s = .next t) (hr : i ≠ .reset) :
    t.cfg = s.cfg ∧ t.build = s.build ∧ t.ports.host = s.ports.host ∧ t.ports.replies = s.ports.replies ∧
      t.regs = { s.regs with result := t.regs.result } ∧ (answers i = false → t.regs.result = s.regs.result) := by
  obtain ⟨rfl, rfl⟩ | ⟨rfl, -⟩ | ⟨-, -, hdid⟩ := exec_cases hi h
  · exact ⟨rfl, rfl, rfl, rfl, rfl, fun _ => rfl⟩
  · exact absurd rfl hr
  · cases hdid with
    | reported e ht => simp [ht]
    | completed _ _ _ hc => exact ⟨hc.cfg, hc.build, hc.host, hc.replies, hc.args, hc.result⟩
    | halted _ _ _ u e he hh ht =>
      simpa [ht] using ⟨hh.cfg, hh.build, hh.host, hh.replies, hh.args, fun _ => hh.result⟩

theorem exec_keeps_samples (hi : s.Inv) (h : exec i s = .next t) (hp : i ≠ .parseMcu) {c : Fin 4} {x y : Nat}
    (hx : x < 65536) (hy : y < 65536) : Memory.read sampleBlank t.ports.samples (sampleKey c x y) =
      Memory.read sampleBlank s.ports.samples (sampleKey c x y) := by
  obtain ⟨rfl, rfl⟩ | ⟨rfl, rfl⟩ | ⟨-, -, hdid⟩ := exec_cases hi h
  · rfl
  · rfl
  · cases hdid with
    | reported e ht => rw [ht, report_ports]
    | completed _ _ _ hc => exact hc.samples hp c x y hx hy
    | halted _ _ _ u e he hh ht => rw [ht, enterFaulted_ports, hh.samples hp c x y hx hy]

theorem exec_keeps_sinkBytes (hi : s.Inv) (h : exec i s = .next t) (he : encodes i = false) :
    t.ports.sinkBytes = s.ports.sinkBytes := by
  obtain ⟨rfl, rfl⟩ | ⟨rfl, rfl⟩ | ⟨-, -, hdid⟩ := exec_cases hi h
  · rfl
  · rfl
  · cases hdid with
    | reported e ht => rw [ht, report_ports]
    | completed _ _ _ hc => exact hc.sink he
    | halted _ _ _ u e _ hh ht => rw [ht, enterFaulted_ports, hh.sink he]

/-- Settles O59: `exec_keeps` for the registers, `exec_keeps_samples` and `exec_keeps_sinkBytes` for the ports. -/
theorem whatCommandsKeep : Obligations.WhatCommandsKeep := by
  refine ⟨fun i s t hi h hr => ?registers,
    fun i s t hi h => ⟨fun hp c x y hx hy => ?samples, fun hb hf hd hw hfl => ?sink⟩⟩
  case registers =>
    obtain ⟨hcfg, hbuild, hhost, hreplies, hargs, hresult⟩ := exec_keeps hi h hr
    refine ⟨hcfg, hbuild, hhost, hreplies, by rw [hargs], by rw [hargs], by rw [hargs], fun hne => ?_⟩
    cases i with
    | decBit c b => exact .inl ⟨c, b, rfl⟩
    | decDiff c => exact .inr (.inl ⟨c, rfl⟩)
    | classify l u => exact .inr (.inr ⟨l, u, rfl⟩)
    | _ => exact absurd (hresult rfl) hne
  case samples => exact exec_keeps_samples hi h hp hx hy
  case sink =>
    refine exec_keeps_sinkBytes hi h ?_
    cases i with
    | encBit c b d => exact absurd rfl (hb c b d)
    | encFlush => exact absurd rfl hf
    | encDiff c => exact absurd rfl (hd c)
    | writeMcu => exact absurd rfl hw
    | flush => exact absurd rfl hfl
    | _ => rfl

/-- A command other than RESET with collaborators that accept and room in SC and ZC writes stuffed bytes, counted in
NBYTES unless it clears it. -/
theorem Did.sunk (h : Did i s t) (hs : s.ports.SinkAccepts) (hw : s.ports.WriterAccepts)
    (hroom : s.eng.Room (roomOf i s)) :
    (t.ports.sinkBytes = s.ports.sinkBytes ∧ (i = .encInit ∨ ∃ dir, i = .startScan dir)) ∨ Sunk s t := by
  cases h with
  | reported e ht => exact .inr (.of_same (by rw [ht, report_ports]) (by rw [ht, report_eng]))
  | completed _ _ _ hc =>
    by_cases hinit : i = .encInit
    · exact .inl ⟨hc.sink (hinit ▸ rfl), .inl hinit⟩
    · by_cases hscan : ∃ dir, i = .startScan dir
      · exact .inl ⟨hc.sink (by obtain ⟨dir, rfl⟩ := hscan; rfl), .inr hscan⟩
      · exact .inr (hc.sunk hinit fun dir hd => hscan ⟨dir, hd⟩)
  | halted _ _ _ u e he hh ht =>
    have hencodes : encodes i = false := Bool.eq_false_iff.mpr fun hx =>
      (hh.cause hx).elim (· hs) fun hcause => hcause.elim (· hw) (· hroom)
    exact .inr (.of_same (by rw [ht, enterFaulted_ports, hh.sink hencodes])
      (by rw [ht, enterFaulted_eng]; exact hh.nbytes hencodes))

/-- Settles O60: with collaborators that accept and room, a command that writes bytes does not halt (`Did.sunk`). -/
theorem stuffingGuarantee : Obligations.StuffingGuarantee := by
  intro i s t hi hs hw hroom h
  have nothing (hsame : t.ports.sinkBytes = s.ports.sinkBytes) :
      t.ports.sinkBytes = s.ports.sinkBytes ++ [] ∧ StuffedBytes [] := ⟨hsame.trans (List.append_nil _).symm, trivial⟩
  obtain ⟨rfl, rfl⟩ | ⟨rfl, rfl⟩ | ⟨-, -, hdid⟩ := exec_cases hi h
  · exact ⟨[], (nothing rfl).1, trivial, fun _ _ _ => by simp⟩
  · exact ⟨[], (nothing rfl).1, trivial, fun _ hr => absurd rfl hr⟩
  · obtain ⟨hsame, hclears⟩ | ⟨bs, hbytes, hstuffed, hcount⟩ := hdid.sunk hs hw hroom
    · refine ⟨[], (nothing hsame).1, trivial, fun hinit _ hscan => ?_⟩
      obtain rfl | ⟨dir, rfl⟩ := hclears
      · exact absurd rfl hinit
      · exact absurd rfl (hscan dir)
    · exact ⟨bs, hbytes, hstuffed, fun _ _ _ => hcount⟩

end Sys2Proof.Machine

/-! PROOFS. The host interface and reset (spec/00_scope.md rule R14, spec/10_state.md rules R22 to R25,
spec/70_reset_and_hazards.md rules R250, R251): the step that serves a command or a read, the value of each register bit
by bit, and obligations O6 to O9 and O18. -/

namespace Sys2Proof.Machine

/-! ## Steps -/

theorem runWord_of_ok {s : State} {w : Word} {i : Instr} (h : decode w = .ok i) : runWord w s = exec i s := by
  simp only [runWord, h]

/-- Settles O6: the access is the aligned one at CMD's offset, and the word of a command decodes to it (O2). -/
theorem stepRunsTheCommand : Obligations.StepRunsTheCommand := by
  refine ⟨fun s w rest i hhost hw => ?_, fun s i => ?_⟩
  · rw [step_of_event hhost]
    exact runWord_of_ok hw
  · have hword : BitVec.ofNat 32 ((encode i).toNat % 2 ^ 32) = encode i :=
      BitVec.eq_of_toNat_eq (by simp only [BitVec.toNat_ofNat]; omega)
    rw [State.withFetchWord, hword]
    exact (step_write_cmd s (encode i)).trans (runWord_of_ok (decodeOfEncode i))

theorem accessProblem_unsupported {off bytes : Nat} (h : bytes ≠ 4 ∨ off % 4 ≠ 0) :
    accessProblem off bytes = some .unsupportedAccess := if_pos h

theorem accessProblem_outside {off : Nat} (ha : off % 4 = 0) (h : 0x1400 ≤ off) :
    accessProblem off 4 = some .outsideWindow := by
  simp [accessProblem, ha, h]

/-- Settles O7: `serve` refuses an access with a problem (`accessProblem`) before it looks at the register. -/
theorem otherSteps : Obligations.OtherSteps := by
  refine ⟨fun s => step_of_no_event, fun s => rfl, fun s off bytes v h => ?_, fun s off v ha h => ?_⟩
  · simp only [step_pushEvent, serve, accessProblem_unsupported h, and_self]
  · simp only [step_pushEvent, serve, accessProblem_outside ha h, and_self]

theorem step_read_aligned (s : State) {off : Nat} (ha : off % 4 = 0) (hw : off < 0x1400) :
    step (s.pushEvent (.read off 4)) = .next (s.reply (s.regRead off)) := by
  simp only [step_pushEvent, serve, accessProblem_eq_none ha hw]

/-! ## Fields of a word -/

theorem toNat_append_eq_add {m n : Nat} (x : BitVec m) (y : BitVec n) :
    (x ++ y).toNat = x.toNat * 2 ^ n + y.toNat := by
  rw [BitVec.toNat_append, ← Nat.shiftLeft_add_eq_or_of_lt y.isLt, Nat.shiftLeft_eq]

theorem flagAt_eq (b : Bool) (p : Nat) : flagAt b p = (BitVec.ofBool b).toNat * 2 ^ p := by
  cases b <;> simp [flagAt]

theorem setWidth_eq_zero_append {m n : Nat} (x : BitVec n) : x.setWidth (m + n) = 0#m ++ x :=
  BitVec.eq_of_toNat_eq (by
    rw [toNat_append_eq_add, BitVec.toNat_setWidth_of_le (Nat.le_add_left n m), BitVec.toNat_ofNat, Nat.zero_mod,
      Nat.zero_mul, Nat.zero_add])

namespace State

variable (s : State)

/-! ## The registers -/

@[simp] theorem regRead_offset (r : Reg) : s.regRead r.offset = s.regValue r := by
  simp only [regRead, Reg.ofOffset_offset]

theorem regRead_unlisted {off : Nat} (h : ∀ r : Reg, r.offset ≠ off) : s.regRead off = 0#32 := by
  unfold regRead
  split
  · next r hr => exact absurd (Reg.offset_of_ofOffset hr) (h r)
  · rfl

theorem regValue_marker : s.regValue .marker = 0#23 ++ BitVec.ofBool s.marker.valid ++ s.marker.code :=
  BitVec.eq_of_toNat_eq (by
    simp only [regValue, toNat_append_eq_add, flagAt_eq, BitVec.toNat_ofNat]
    omega)

theorem regValue_cfgLu (c : Fin 4) : s.regValue (.cfgLu c) = 0#24 ++ s.cfg.lu[c].u ++ s.cfg.lu[c].l :=
  BitVec.eq_of_toNat_eq (by
    simp only [regValue, toNat_append_eq_add, BitVec.toNat_ofNat]
    omega)

theorem regValue_pos : s.regValue .pos = s.pos.y ++ s.pos.x :=
  BitVec.eq_of_toNat_eq (by
    simp only [regValue, toNat_append_eq_add, BitVec.toNat_ofNat]
    omega)

theorem regValue_rst : s.regValue .rst = s.pos.rl ++ 0#13 ++ s.pos.m :=
  BitVec.eq_of_toNat_eq (by
    simp only [regValue, toNat_append_eq_add, BitVec.toNat_ofNat]
    omega)

theorem regValue_engB : s.regValue .engB =
    if s.eng.mode = .encode then 0#23 ++ BitVec.ofBool s.eng.bv ++ s.eng.b else 0#32 := by
  have hfields : BitVec.ofNat 32 (s.eng.b.toNat + flagAt s.eng.bv 8) = 0#23 ++ BitVec.ofBool s.eng.bv ++ s.eng.b :=
    BitVec.eq_of_toNat_eq (by
      simp only [toNat_append_eq_add, flagAt_eq, BitVec.toNat_ofNat]
      omega)
  rw [← hfields]
  rfl

theorem regValue_engMode :
    s.regValue .engMode = match s.eng.mode with | .idle => 0#32 | .encode => 1#32 | .decode => 2#32 := by
  rw [regValue]
  cases s.eng.mode <;> rfl

theorem ctxAt_of_le (c : Fin 4) {b : Nat} (hb : 160 ≤ b) : s.ctxAt c b = CtxEntry.init := by
  simp [ctxAt, Config.nBin, hb]

theorem regValue_ctx (c : Fin 4) (b : Byte) : s.regValue (.ctx c b) =
    if b.toNat < 160 then 0#24 ++ BitVec.ofBool (s.ctxAt c b.toNat).mps ++ (s.ctxAt c b.toNat).i else 0#32 := by
  split
  · apply BitVec.eq_of_toNat_eq
    simp only [regValue, toNat_append_eq_add, flagAt_eq, BitVec.toNat_ofNat]
    omega
  · rw [regValue, s.ctxAt_of_le c (by omega)]
    rfl

theorem statusWord_eq : s.statusWord = 0#15 ++ BitVec.ofBool s.rowsLeft ++ 0#4 ++ BitVec.ofNat 4 s.status.err.code ++
    0#1 ++ BitVec.ofBool s.status.fault ++ BitVec.ofBool s.marker.valid ++ BitVec.ofBool s.status.exhausted ++
    BitVec.ofBool (s.status.dmode = .decode) ++ BitVec.ofNat 3 s.status.dstate.code := by
  have hdstate : s.status.dstate.code < 8 := by cases s.status.dstate <;> decide
  have herr : s.status.err.code < 16 := by cases s.status.err <;> decide
  have hdmode : dirCode s.status.dmode = (BitVec.ofBool (s.status.dmode = .decode)).toNat := by
    cases s.status.dmode <;> rfl
  apply BitVec.eq_of_toNat_eq
  simp only [statusWord, toNat_append_eq_add, flagAt_eq, hdmode, BitVec.toNat_ofNat]
  omega

end State

/-- Settles O8: an aligned read is served by `State.regRead`, and that is `State.regValue` of the register. -/
theorem readsReturnTheFields : Obligations.ReadsReturnTheFields := by
  refine ⟨fun s off ha hw => step_read_aligned s ha hw, fun s => ?low, fun s c => ?thresholds, fun s => ?high,
    fun s c b hb => ?contexts, fun s off hlo hhi => ?unlisted⟩
  case low =>
    have read (r : Reg) := s.regRead_offset r
    exact ⟨read .cmd, read .result, read .arg0, read .arg1, read .arg2, (read .marker).trans s.regValue_marker,
      read .nbytes, (read .cfgPred).trans (setWidth_eq_zero_append _),
      (read .cfgNcomp).trans (setWidth_eq_zero_append _), (read .cfgPrec).trans (setWidth_eq_zero_append _),
      (read .cfgWidth).trans (setWidth_eq_zero_append _), (read .cfgHeight).trans (setWidth_eq_zero_append _),
      (read .cfgRi).trans (setWidth_eq_zero_append _), (read .cfgRowgrp).trans (setWidth_eq_zero_append _),
      s.regRead_unlisted fun r => by cases r <;> simp only [Reg.offset] <;> omega⟩
  case thresholds => exact (s.regRead_offset (.cfgLu c)).trans (s.regValue_cfgLu c)
  case high =>
    have read (r : Reg) := s.regRead_offset r
    exact ⟨(read .pos).trans s.regValue_pos, (read .rst).trans s.regValue_rst, read .mcucnt,
      (read .yend).trans (setWidth_eq_zero_append _), (read .engA).trans (setWidth_eq_zero_append _), read .engC,
      (read .engCT).trans (setWidth_eq_zero_append _), (read .engB).trans s.regValue_engB, read .engSC, read .engZC,
      (read .engMode).trans s.regValue_engMode⟩
  case contexts =>
    have hb' : (BitVec.ofNat 8 b).toNat = b := by simp only [BitVec.toNat_ofNat]; omega
    have hread := (s.regRead_offset (.ctx c (BitVec.ofNat 8 b))).trans (s.regValue_ctx c _)
    rwa [Reg.offset, hb'] at hread
  case unlisted =>
    exact s.regRead_unlisted fun r => by cases r <;> simp only [Reg.offset] <;> omega

/-- Settles O9: the fields of the word (`State.statusWord_eq`), and their codes case by case. -/
theorem statusWordFields : Obligations.StatusWordFields := by
  intro s
  refine ⟨BitVec.ofNat 3 s.status.dstate.code, BitVec.ofNat 4 s.status.err.code, s.rowsLeft,
    (s.regRead_offset .status).trans s.statusWord_eq, ?_, ?_, ?_⟩
  · cases s.status.dstate <;> rfl
  · cases s.status.err <;> rfl
  · unfold State.rowsLeft
    cases s.status.dstate <;> simp [DState.code]

/-! ## Reset -/

namespace State

variable (s : State)

@[simp] theorem resetBlock_dbAt (c : Fin 4) (x : Nat) : s.resetBlock.dbAt c x = 0 := by
  simp [resetBlock, dbAt, reset]

theorem resetBlock_regValue (r : Reg) : s.resetBlock.regValue r = 0#32 := by
  cases r with
  | status =>
    simp [regValue, statusWord, rowsLeft, flagAt, resetBlock, reset, Status.reset, DState.code, ErrCode.code, dirCode]
  | pos | rst => simp [regValue, resetBlock, reset, Position.reset]
  | cfgLu c => simp [regValue, resetBlock, reset, ScanConfig.reset]
  | ctx c b => rw [regValue, ctxAt_resetContexts _ _ _ rfl]; rfl
  | _ => rfl

theorem resetBlock_regRead (off : Nat) : s.resetBlock.regRead off = 0#32 := by
  unfold regRead
  split
  · exact s.resetBlock_regValue _
  · rfl

end State

/-- Settles O18: both resets are `State.resetBlock`, which is `State.reset` but for the build and the ports. -/
theorem resetGivesEveryResetValue : Obligations.ResetGivesEveryResetValue := by
  refine ⟨rfl, fun w hop hw => ?reserved, fun r hr => ?values, fun s => ⟨s.resetBlock, rfl, rfl, rfl, rfl⟩, rfl, rfl⟩
  case reserved =>
    refine decode_of_reserved (i := .reset) hop fun hlow => hw ?_
    exact word_eq_iff.mpr ⟨hop, BitVec.and_allOnes.symm.trans hlow⟩
  case values =>
    obtain ⟨s, rfl⟩ : ∃ s : State, r = s.resetBlock :=
      hr.elim (fun ⟨s, h⟩ => ⟨s, (Host.Outcome.next.inj h).symm⟩) fun ⟨s, h⟩ => ⟨s, (Host.Outcome.next.inj h).symm⟩
    exact ⟨rfl, rfl, rfl, fun off _ => s.resetBlock_regRead off, rfl, fun c b => ctxAt_resetContexts _ _ _ rfl,
      fun c => ⟨by simp [State.resetBlock, State.reset], s.resetBlock_dbAt c⟩, rfl, rfl⟩

end Sys2Proof.Machine

/-! PROOFS. The encoder of the arithmetic coder engine (spec/40_engine.md rules R107 to R113, R121, R122): bodies in
sequence, held bytes, `ByteOut`, one decision and the flush; obligations O23 to O25, O28 and O29. -/

namespace Sys2Proof.Machine

/-! ## Bodies in sequence -/

section Bind

variable {α β : Type} {m : Cmd α} {f g : α → Cmd β} {s t : State} {a : α} {b : β} {r : EStateM.Result Halt State β}

/-- A body goes on from where its first step completes. -/
theorem bind_of_ok (h : m s = .ok a t) (hf : f a t = r) : (m >>= f) s = r := by
  rw [cmd_bind, h]
  exact hf

/-- Two bodies that begin alike are equal where what follows is. -/
theorem bind_congr_ok (h : ∀ a t, m s = .ok a t → f a t = g a t) : (m >>= f) s = (m >>= g) s := by
  rw [cmd_bind, cmd_bind]
  cases hm : m s with
  | ok a t => exact h a t hm
  | error e t => rfl

theorem bind_eq_ok_iff : (m >>= f) s = .ok b t ↔ ∃ a u, m s = .ok a u ∧ f a u = .ok b t := by
  rw [cmd_bind]
  cases m s with
  | ok a u => exact ⟨fun h => ⟨a, u, rfl, h⟩, by rintro ⟨_, _, ⟨⟩, h⟩; exact h⟩
  | error e u => exact ⟨(fun h => by cases h), by rintro ⟨_, _, ⟨⟩, _⟩⟩

end Bind

/-- An encoding procedure completes where the sink accepts and nothing overflows. -/
theorem Cmd.Ends.accepted {α : Type} {m : Cmd α} {s : State} {good : α → State → Prop} {K : State → Prop} {w : Prop}
    (h : Cmd.Ends m s good (EncodeHalt s K w) (¬ s.ports.SinkAccepts)) (hs : s.ports.SinkAccepts) (hw : ¬ w) :
    ∃ a t, m s = .ok a t ∧ good a t :=
  h.completes (fun _ _ hu => hu.absurd hs hw) (not_not.mpr hs)

/-! ## Held bytes -/

theorem emitHeld_of_accepts {s : State} (carry : Bool) (hs : s.ports.SinkAccepts) (hb : s.eng.b ≠ 0xFF)
    (hr : s.eng.Room 1) :
    emitHeld carry s = .ok () ((s.withEng (s.eng.afterHeld carry)).wrote (s.eng.heldBytes carry)) := by
  obtain ⟨_, t, hrun, rfl⟩ := (emitHeld_ends carry s).accepted hs (not_not.mpr ⟨hr, hb⟩)
  exact hrun

section Held

variable {e : Engine}

theorem stuffed_eq (b : Byte) : stuffed b = if b = 0xFF then [0xFF, 0x00] else [b] := by
  unfold stuffed
  split
  · next h => rw [h]
  · rfl

theorem afterHeld_sc (carry : Bool) : (e.afterHeld carry).sc = 0 := by cases carry <;> rfl

theorem afterHeld_eq (carry : Bool) :
    e.afterHeld carry = { e with zc := (e.afterHeld carry).zc, sc := (e.afterHeld carry).sc } := by
  cases carry <;> rfl

theorem heldBytes_carry (hv : e.bv = true) :
    e.heldBytes true = List.replicate e.zc.toNat 0x00 ++ stuffed (e.b + 1) := by
  simp [Engine.heldBytes, hv]

theorem heldBytes_carry_none (hv : e.bv = false) : e.heldBytes true = [] := by
  simp [Engine.heldBytes, hv]

theorem afterHeld_carry_zc (hv : e.bv = true) : (e.afterHeld true).zc = e.sc := by
  simp [Engine.afterHeld, hv]

theorem afterHeld_carry_zc_none (hv : e.bv = false) : (e.afterHeld true).zc = e.zc + e.sc := by
  simp [Engine.afterHeld, hv, BitVec.ofNat_add]

/-- Without a carry, and with stacked bytes, the deferred zeros and the stack are written (rule R107). -/
theorem heldBytes_stacked (hsc : e.sc ≠ 0) : e.heldBytes false =
    (if e.bv = true ∧ e.b ≠ 0 then List.replicate e.zc.toNat 0x00 ++ [e.b] else []) ++
      (List.replicate e.zcAfterHeld 0x00 ++ (List.replicate e.sc.toNat [0xFF, 0x00]).flatten) := by
  rw [Engine.heldBytes, if_neg Bool.false_ne_true, if_neg hsc]
  rfl

theorem heldBytes_unstacked (hsc : e.sc = 0) : e.heldBytes false =
    if e.bv = true ∧ e.b ≠ 0 then List.replicate e.zc.toNat 0x00 ++ [e.b] else [] := by
  rw [Engine.heldBytes, if_neg Bool.false_ne_true, if_pos hsc, List.append_nil]

theorem afterHeld_zc_stacked (hsc : e.sc ≠ 0) : (e.afterHeld false).zc = 0 := by
  rw [Engine.afterHeld, if_neg Bool.false_ne_true]
  exact if_neg hsc

theorem afterHeld_zc_unstacked (hsc : e.sc = 0) : (e.afterHeld false).zc = BitVec.ofNat 32 e.zcAfterHeld := by
  simp [Engine.afterHeld, hsc]

/-- A held byte other than 0x00 leaves no zeros for the stack (rule R107). -/
theorem heldBytes_byte (hv : e.bv = true) (hb : e.b ≠ 0) : e.heldBytes false =
      List.replicate e.zc.toNat 0x00 ++ [e.b] ++ (List.replicate e.sc.toNat [0xFF, 0x00]).flatten := by
  by_cases hsc : e.sc = 0
  · rw [heldBytes_unstacked hsc, if_pos ⟨hv, hb⟩, hsc]
    exact (List.append_nil _).symm
  · rw [heldBytes_stacked hsc, if_pos ⟨hv, hb⟩, zcAfterHeld_byte hv hb]
    rfl

theorem afterHeld_zc_byte (hv : e.bv = true) (hb : e.b ≠ 0) : (e.afterHeld false).zc = 0 := by
  by_cases hsc : e.sc = 0
  · rw [afterHeld_zc_unstacked hsc, zcAfterHeld_byte hv hb]
    rfl
  · exact afterHeld_zc_stacked hsc

end Held

/-- Settles O23: `emitHeld_ends`, and `Engine.heldBytes` and `Engine.afterHeld` in each case of the rule. -/
theorem emitHeldBytesAndRegisters : Obligations.EmitHeldBytesAndRegisters := by
  refine ⟨fun carry s hs hb hr => emitHeld_of_accepts carry hs hb hr, fun e _ _ => ?_⟩
  refine ⟨fun hv => ⟨(heldBytes_carry hv).trans (by rw [stuffed_eq]), afterHeld_carry_zc hv⟩,
    fun hv => ⟨heldBytes_carry_none hv, afterHeld_carry_zc_none hv⟩, fun hv hb hsc => ⟨?_, ?_⟩,
    fun hv hb hsc => ⟨?_, afterHeld_zc_stacked hsc⟩, fun hv hb => ⟨heldBytes_byte hv hb, afterHeld_zc_byte hv hb⟩,
    fun hv hsc => ⟨?_, ?_⟩, fun hv hsc => ⟨?_, afterHeld_zc_stacked hsc⟩,
    fun carry => ⟨afterHeld_sc carry, afterHeld_eq carry⟩⟩
  · simp [heldBytes_unstacked hsc, hb]
  · rw [afterHeld_zc_unstacked hsc, zcAfterHeld_zero hv hb, BitVec.ofNat_add, BitVec.ofNat_toNat, BitVec.setWidth_eq]
    rfl
  · simp [heldBytes_stacked hsc, hb, zcAfterHeld_zero hv hb]
  · simp [heldBytes_unstacked hsc, hv]
  · rw [afterHeld_zc_unstacked hsc, zcAfterHeld_none hv, BitVec.ofNat_toNat, BitVec.setWidth_eq]
  · simp [heldBytes_stacked hsc, hv, zcAfterHeld_none hv]

/-! ## ByteOut -/

/-- The registers with C and CT as `ByteOut` leaves them (rule R110). -/
def Engine.dropped (e : Engine) (c : Nat) : Engine := { e with c := BitVec.ofNat 32 (c % 2 ^ 19), ct := 8 }

section ByteOut

variable {e : Engine}

theorem outByte_eq (e : Engine) : e.outByte = e.c.toNat / 2 ^ 19 := Nat.shiftRight_eq_div_pow _ _

theorem afterByteOut_eq (hct : e.ct = 0) : e.afterByteOut = Engine.dropped
    (if e.outByte > 0xFF then { e.afterHeld true with b := BitVec.ofNat 8 e.outByte, bv := true }
      else if e.outByte = 0xFF then { e with sc := e.sc + 1 }
      else { e.afterHeld false with b := BitVec.ofNat 8 e.outByte, bv := true }) e.c.toNat := by
  have hsc : BitVec.ofNat 32 (e.sc.toNat + 1) = e.sc + 1 := by simp [BitVec.ofNat_add]
  have hc : e.c.toNat &&& 0x7FFFF = e.c.toNat % 2 ^ 19 := Nat.and_two_pow_sub_one_eq_mod _ 19
  rw [Engine.afterByteOut, hct, hsc, hc]
  rfl

theorem byteOut_of_accepts {s : State} (hct : s.eng.ct = 0) (hs : s.ports.SinkAccepts) (hb : s.eng.b ≠ 0xFF)
    (hr : s.eng.Room 1) : byteOut s = .ok () ((s.withEng s.eng.afterByteOut).wrote s.eng.byteOutBytes) := by
  obtain ⟨_, t, hrun, rfl⟩ := (byteOut_ends s (by rw [hct]; decide)).accepted hs (not_not.mpr ⟨hr, hb⟩)
  exact hrun

theorem byteOut_overflow {s : State} (ht : s.eng.outByte = 0xFF) (hsc : s.eng.sc.toNat = 2 ^ 32 - 1) :
    byteOut s = .error .fatal (s.enterFaulted .stateCorruption) := by
  have hfull : assignSC (s.eng.sc.toNat + 1) s = .error .fatal (s.enterFaulted .stateCorruption) := by
    rw [assignSC, if_neg (by omega), cmd_raiseFatal]
  rw [byteOut, cmd_bind, cmd_get]
  simp only [ht, gt_iff_lt, lt_irrefl, if_false, if_true]
  rw [cmd_bind, hfull]

end ByteOut

/-- Settles O24: `byteOut_ends`, and `Engine.afterByteOut` and `Engine.byteOutBytes` for each T. -/
theorem byteOutForEachT : Obligations.ByteOutForEachT := by
  refine ⟨fun s hct hs hb hr => ?_, fun s ht hsc => byteOut_overflow ((outByte_eq _).trans ht) hsc⟩
  have hrun := byteOut_of_accepts hct hs hb hr
  rw [afterByteOut_eq hct, Engine.byteOutBytes, outByte_eq] at hrun
  refine ⟨fun ht => ?above, fun ht => ?equal, fun ht => ?below⟩
  case above =>
    rw [if_pos ht, if_pos ht] at hrun
    exact hrun
  case equal =>
    have hle : ¬ s.eng.c.toNat / 2 ^ 19 > 0xFF := by omega
    rw [if_neg hle, if_neg hle, if_pos ht, if_pos ht, wrote_nil] at hrun
    exact hrun
  case below =>
    have hle : ¬ s.eng.c.toNat / 2 ^ 19 > 0xFF := by omega
    rw [if_neg hle, if_neg hle, if_neg ht.ne, if_neg ht.ne] at hrun
    exact hrun

/-! ## One decision -/

section EncodeBit

variable {s : State} {c : Fin 4} {b : Nat} {d : Bool} {row : RomRow}

theorem encodeBit_of_accepts (hb : b < Config.nBin) (he : s.eng.EncodeSound)
    (hrow : romLookup s.build (s.ctxAt c b).i = some row) (hleg : row.Legal) (hs : s.ports.SinkAccepts)
    (hr : s.eng.Room 2) : encodeBit c b d s = .ok () (s.coded c b row
      (encodeSplit s.eng.a.toNat s.eng.c.toNat row.qe.toNat (d == (s.ctxAt c b).mps))) := by
  obtain ⟨_, t, hrun, ht⟩ := (encodeBit_rowEnds s c b d hb he hrow hleg).accepted hs (not_not.mpr hr)
  obtain ⟨row', hrow', -, rfl, -⟩ := ht.result
  obtain rfl := Option.some.inj (hrow.symm.trans hrow')
  exact hrun

/-- An MPS that needs no renormalization calls no port (rules R108, R121). -/
theorem encodeBit_mps_keep (he : s.eng.EncodeSound) (hrow : romLookup s.build (s.ctxAt c b).i = some row)
    (hq : row.qe.toNat < 0x8000) (ha : 0x8000 ≤ s.eng.a.toNat - row.qe.toNat) :
    encodeBit c b (s.ctxAt c b).mps s = .ok () (s.withEng { s.eng with a := s.eng.a - row.qe.setWidth 17 }) := by
  have hle := he.a_le
  have hsplit : encodeSplit s.eng.a.toNat s.eng.c.toNat row.qe.toNat true =
      (s.eng.a.toNat - row.qe.toNat, s.eng.c.toNat, .keep) := by simp [encodeSplit, ha]
  have hA : BitVec.ofNat 17 (s.eng.a.toNat - row.qe.toNat) = s.eng.a - row.qe.setWidth 17 := by bv_omega
  have hbounds : requireEncodeBounds s = .ok () s := by simp [requireEncodeBounds, encodeBounds_of_sound he]
  have hlookup : romRow c b s = .ok row s := by simp [romRow, hrow]
  simp only [encodeBit, cmd_bind, hbounds, hlookup, cmd_get, beq_self_eq_true, hsplit]
  rw [assignA_ok _ _ (by omega), hA]
  simp only
  rw [assignC_ok _ _ (by omega)]
  simp

/-- The entry after a decision, by its estimate (rules R103, R104). -/
theorem adapt_eq (old : CtxEntry) (row : RomRow) (est : Estimate) : old.adapt row est = match est with
    | .keep => old
    | .mps => { i := row.nmps, mps := old.mps }
    | .lps => { i := row.nlps, mps := if row.switch = true then !old.mps else old.mps } := by
  cases est <;> rfl

end EncodeBit

theorem guarded_rawIn_runs {s t : State} {m : EngMode} {operands : Bool} {body : Cmd Unit}
    (hf : s.status.fault = false) (hraw : s.status.dstate = .uninitialized ∨ s.status.dstate = .scanFlushed)
    (hm : s.eng.mode = m) (ho : operands = true) (h : body s = .ok () t) :
    guarded operands (s.rawIn m) body s = .next t :=
  (guarded_runs hf ho (State.rawIn_iff.mpr ⟨hraw, hm⟩)).trans (outcome_ok h)

/-- Settles O25: `encodeBit_rowEnds` with a sink that accepts, and `encodeBit_mps_keep` with any sink. -/
theorem encBitCompletes : Obligations.EncBitCompletes := by
  refine ⟨fun c bin d s row hf hraw hm hb => ?_, fun c bin s row hf hraw hm hb he hrow hleg ha => ?_⟩
  · intro old he hrow hleg hs hr a q step t
    have hsplit : encodeSplit s.eng.a.toNat s.eng.c.toNat row.qe.toNat (d == old.mps) = step := by
      simp only [encodeSplit, beq_iff_eq, step, a, q]
    refine ⟨guarded_rawIn_runs hf hraw hm (decide_eq_true hb) ?_, fun c' b' => ?_⟩
    · rw [encodeBit_of_accepts hb he (romLookup_of_row hrow hleg) hleg hs hr, hsplit]
    · exact (ctxAt_coded s hb row step c' b').trans (congrArg (ite _ · _) (adapt_eq _ _ _))
  · exact guarded_rawIn_runs hf hraw hm (decide_eq_true hb)
      (encodeBit_mps_keep he (romLookup_of_row hrow hleg) hleg.2.1 ha)

/-! ## The flush -/

/-- A field of k bits at bit a of a number. -/
theorem and_field_eq_zero_iff (n a k : Nat) : n &&& (2 ^ k - 1) <<< a = 0 ↔ n % 2 ^ (a + k) / 2 ^ a = 0 := by
  have hfield : n % 2 ^ (a + k) / 2 ^ a = n / 2 ^ a % 2 ^ k := by
    rw [pow_add, Nat.mod_mul_right_div_self]
  have hand : n &&& (2 ^ k - 1) <<< a = (n / 2 ^ a % 2 ^ k) <<< a := by
    rw [← Nat.and_two_pow_sub_one_eq_mod, Nat.shiftLeft_and_distrib, ← Nat.shiftRight_eq_div_pow]
    apply Nat.eq_of_testBit_eq
    intro i
    by_cases hi : a ≤ i <;> simp [Nat.testBit_shiftLeft, hi]
  rw [hfield, hand, Nat.shiftLeft_eq, Nat.mul_eq_zero, or_iff_left (by positivity)]

theorem carry_iff {v : Nat} (hv : v < 2 ^ 32) : v &&& 0xF8000000 ≠ 0 ↔ 2 ^ 27 ≤ v := by
  have h := and_field_eq_zero_iff v 27 5
  rw [Nat.mod_eq_of_lt hv, Nat.div_eq_zero_iff_lt (by decide)] at h
  exact (not_congr h).trans Nat.not_lt

theorem finalBytes_eq (z v : Nat) : finalBytes z v =
    if v % 2 ^ 27 / 2 ^ 11 = 0 then [] else List.replicate z (0x00 : Byte) ++ stuffed (BitVec.ofNat 8 (v / 2 ^ 19)) ++
      if v % 2 ^ 19 / 2 ^ 11 = 0 then [] else stuffed (BitVec.ofNat 8 (v / 2 ^ 11)) := by
  simp only [finalBytes, ← and_field_eq_zero_iff v 11 16, ← and_field_eq_zero_iff v 11 8, Nat.shiftRight_eq_div_pow]
  rfl

theorem encFlush_of_accepts {s : State} (he : s.eng.EncodeSound) (hs : s.ports.SinkAccepts) (hr : s.eng.Room 1) :
    encFlush s = .ok () ((s.withEng s.eng.flushed).wrote s.eng.flushBytes) := by
  obtain ⟨_, t, hrun, rfl⟩ := (encFlush_ends s he).accepted hs (not_not.mpr hr)
  exact hrun

/-- Settles O28: `encFlush_ends`, with the carry and the final bytes as quotients of the flush value. -/
theorem encFlushCompletes : Obligations.EncFlushCompletes := by
  intro s hf hraw hm he hs hr v carry zeros
  have hv : s.eng.flushC = v := Nat.shiftLeft_eq _ _
  have hcarry : decide (s.eng.flushC &&& 0xF8000000 ≠ 0) = carry := by
    rw [hv]
    exact decide_eq_decide.mpr (carry_iff (hv ▸ flushC_lt he))
  refine guarded_rawIn_runs hf hraw hm rfl ?_
  rw [encFlush_of_accepts he hs hr, Engine.flushBytes, hcarry, finalBytes_eq, Engine.flushed, hv]
  rfl

/-! ## The end of the stream -/

/-- The last byte is 0x00 only directly after a 0xFF. -/
def EndsWell (bs : List Byte) : Prop := ∀ p : List Byte, bs = p ++ [0x00] → ∃ r : List Byte, p = r ++ [0xFF]

theorem EndsWell.nil : EndsWell [] := fun p hp => by simp at hp

theorem EndsWell.append_stuffed (a : List Byte) {b : Byte} (hb : b ≠ 0x00) : EndsWell (a ++ stuffed b) := by
  intro p hp
  unfold stuffed at hp
  split at hp
  · next hff => exact ⟨a, List.append_cancel_right (bs := [0x00]) (by rw [← hp, hff]; simp)⟩
  · exact absurd (List.singleton_inj.mp (List.append_inj_right' hp rfl)) hb

theorem EndsWell.heldBytes {e : Engine} (hff : e.b ≠ 0xFF) (carry : Bool) : EndsWell (e.heldBytes carry) := by
  cases carry with
  | true =>
    cases hv : e.bv with
    | true =>
      rw [heldBytes_carry hv]
      exact append_stuffed _ (by bv_omega)
    | false =>
      rw [heldBytes_carry_none hv]
      exact nil
  | false =>
    by_cases hsc : e.sc = 0
    · rw [heldBytes_unstacked hsc]
      split
      · next h =>
        rw [show [e.b] = stuffed e.b from (if_neg hff).symm]
        exact append_stuffed _ h.2
      · exact nil
    · obtain ⟨n, hn⟩ : ∃ n, e.sc.toNat = n + 1 := ⟨e.sc.toNat - 1, by bv_omega⟩
      have hlast : (List.replicate e.sc.toNat [0xFF, 0x00]).flatten =
          (List.replicate n [0xFF, 0x00]).flatten ++ stuffed 0xFF := by
        rw [hn, List.replicate_succ', List.flatten_append]
        rfl
      rw [heldBytes_stacked hsc, hlast, ← List.append_assoc, ← List.append_assoc]
      exact append_stuffed _ (by decide)

/-- The final bytes are none, or end in the stuffing of a byte that is not 0x00 (rule R113). -/
theorem finalBytes_last (z v : Nat) :
    finalBytes z v = [] ∨ ∃ (a : List Byte) (b : Byte), b ≠ 0x00 ∧ finalBytes z v = a ++ stuffed b := by
  rw [finalBytes_eq]
  split
  · exact .inl rfl
  · next hfinal =>
    refine .inr ?_
    split
    · next hsecond =>
      exact ⟨_, _, fun h => by bv_omega, List.append_nil _⟩
    · next hsecond => exact ⟨_, _, fun h => by bv_omega, rfl⟩

theorem EndsWell.flushBytes {e : Engine} (hff : e.b ≠ 0xFF) : EndsWell e.flushBytes := by
  rw [Engine.flushBytes]
  obtain hnone | ⟨a, b, hb, hlast⟩ := finalBytes_last
    (e.afterHeld (decide (e.flushC &&& 0xF8000000 ≠ 0))).zc.toNat e.flushC
  · rw [hnone, List.append_nil]
    exact heldBytes hff _
  · rw [hlast, ← List.append_assoc]
    exact append_stuffed _ hb

@[simp] theorem sinkBytes_wrote (s : State) (bs : List Byte) :
    (s.wrote bs).ports.sinkBytes = s.ports.sinkBytes ++ bs := by
  simp [State.wrote, Ports.sinkBytes, List.filterMap_append, sunk_wrotes]

/-- The registers `EncInit` sets (rule R105). -/
def Engine.fresh (n : BitVec 32) : Engine :=
  { a := 0x10000, c := 0, ct := 11, b := 0, bv := false, sc := 0, zc := 0, nbytes := n, eos := false, mode := .encode }

theorem fresh_flushC (n : BitVec 32) : (Engine.fresh n).flushC = 0 :=
  show clearFinalBits 0x10000 0 <<< 11 = 0 by decide

/-- Right after `EncInit` nothing is held and the flush value is 0, so no port is called (rules R112, R113). -/
theorem encFlush_of_fresh {s : State} {n : BitVec 32} (h : s.eng = Engine.fresh n) :
    encFlush s = .ok () (s.withEng { s.eng with mode := .idle }) := by
  have hbounds : requireEncodeBounds s = .ok () s := by
    rw [requireEncodeBounds, h]
    rfl
  have hvalue : flushValue s = .ok () s := by
    have hzero : ({ s.eng with c := BitVec.ofNat 32 s.eng.flushC } : Engine) = s.eng := by
      rw [h, fresh_flushC]
      rfl
    rw [flushValue_of_sound (h ▸ encInit_sound (Engine.fresh n)), hzero, withEng_self]
  have hheld : emitHeld false s = .ok () s := by
    simp [emitHeld, emitHeldPlain, emitHeldByte, emitHeldStack, h, Engine.fresh]
  have hc : s.eng.c.toNat = 0 := by rw [h]; rfl
  simp only [encFlush, cmd_bind, cmd_get, hbounds, hvalue, hc]
  rw [show decide (0 &&& 0xF8000000 ≠ 0) = false from rfl, hheld]
  show EStateM.Result.ok () (s.withEng s.eng.discardHeld) = _
  rw [h]
  rfl

/-- Settles O29: the bytes of a flush (`encFlush_ends`) are stuffed and end well; the flush of fresh registers runs
without a port. -/
theorem theStreamEndsWell : Obligations.TheStreamEndsWell := by
  refine ⟨fun s t hi hf h ht hm hraw => ?_, fun s hf hraw => ?_⟩
  · have he := hi.encoder hm
    have hrun : Cmd.outcome encFlush s = .next t :=
      (guarded_runs hf rfl (State.rawIn_iff.mpr ⟨hraw, hm⟩)).symm.trans h
    obtain rfl | ⟨u, e, -, -, rfl⟩ := (encFlush_ends s he).outcome hrun
    · exact ⟨_, sinkBytes_wrote _ _, stuffedBytes_flush he, EndsWell.flushBytes he.b_ne⟩
    · exact absurd ht (by simp)
  · exact ⟨_, _, guarded_raw_runs hf hraw rfl, guarded_rawIn_runs hf hraw rfl rfl (encFlush_of_fresh rfl), rfl, rfl,
      rfl⟩

end Sys2Proof.Machine

/-! PROOFS. Renormalization and the decoder of the arithmetic coder engine (spec/40_engine.md rules R108, R109, R114 to
R118, R123, R124): shifts without a byte, one decision, `DecInit`, and START_SCAN; obligations O26, O31
to O33 and O43. -/

namespace Sys2Proof.Machine

/-! ## Renormalization without a byte -/

/-- The registers after k shifts without a byte (rules R109, R117). -/
def Engine.scaled (e : Engine) (k : Nat) : Engine :=
  { e with
    a := BitVec.ofNat 17 (e.a.toNat * 2 ^ k), c := BitVec.ofNat 32 (e.c.toNat * 2 ^ k)
    ct := BitVec.ofNat 4 (e.ct.toNat - k) }

section Scaled

variable {s : State} {e : Engine} {k n : Nat}

theorem scaled_scaled (j k : Nat) : (e.scaled j).scaled k = e.scaled (j + k) := by
  have scale (w x : Nat) : BitVec.ofNat w ((BitVec.ofNat w (x * 2 ^ j)).toNat * 2 ^ k) =
      BitVec.ofNat w (x * 2 ^ (j + k)) :=
    BitVec.eq_of_toNat_eq (by simp only [BitVec.toNat_ofNat, Nat.mod_mul_mod, pow_add, mul_assoc])
  have hct : BitVec.ofNat 4 ((BitVec.ofNat 4 (e.ct.toNat - j)).toNat - k) = BitVec.ofNat 4 (e.ct.toNat - (j + k)) := by
    rw [BitVec.toNat_ofNat, Nat.mod_eq_of_lt (by omega), Nat.sub_sub]
  simp only [Engine.scaled, scale, hct]

theorem scaled_one_a (ha : e.a.toNat < 0x8000) : (e.scaled 1).a.toNat = 2 * e.a.toNat := by
  simp only [Engine.scaled, BitVec.toNat_ofNat]
  omega

theorem scaled_one_ct : (e.scaled 1).ct.toNat = e.ct.toNat - 1 := by
  simp only [Engine.scaled, BitVec.toNat_ofNat]
  omega

theorem shifted_eq_scaled : e.shifted = e.scaled 1 := by
  simp only [Engine.shifted, Engine.scaled, Nat.shiftLeft_eq]

/-- The last shift is the one that brings A to 0x8000. -/
theorem last_shift {a : Nat} (h : 0x8000 ≤ a * 2 ^ (k + 1)) (h' : a * 2 ^ (k + 1) < 0x10000) :
    (k = 0 ∧ 0x8000 ≤ 2 * a) ∨ (0 < k ∧ 2 * a < 0x8000) := by
  rw [pow_succ] at h h'
  obtain rfl | hk := Nat.eq_zero_or_pos k
  · exact .inl ⟨rfl, by omega⟩
  · have hpow : 2 ^ 1 ≤ 2 ^ k := Nat.pow_le_pow_right (by decide) hk
    exact .inr ⟨hk, by nlinarith⟩

/-- One turn of `RenormE` with no byte due (rule R109). -/
theorem turnE_without_byte (ha : s.eng.a.toNat < 0x8000) (hct : 1 < s.eng.ct.toNat) (hc : s.eng.c.toNat * 2 < 2 ^ 32) :
    renormE (n + 1) s = (if 0x8000 ≤ (s.eng.scaled 1).a.toNat then .ok () (s.withEng (s.eng.scaled 1))
      else renormE n (s.withEng (s.eng.scaled 1))) ∧ s.eng.turn = (s.eng.scaled 1, []) := by
  have hdue : (s.eng.scaled 1).ct ≠ 0 := fun h => by
    have := congrArg BitVec.toNat h
    rw [scaled_one_ct] at this
    simp at this
    omega
  have hshift : shiftE s = .ok () (s.withEng (s.eng.scaled 1)) := by
    simp only [shiftE, cmd_bind, cmd_get]
    rw [assignA_ok _ _ (by rw [Nat.shiftLeft_eq]; omega)]
    simp only
    rw [assignC_ok _ _ (by rw [Nat.shiftLeft_eq]; omega)]
    simp only
    rw [assignCT_ok _ _ (by omega), ← shifted_eq_scaled]
    simp only [withEng_withEng]
    rfl
  have hbyte : byteOutIfDue (s.withEng (s.eng.scaled 1)) = .ok () (s.withEng (s.eng.scaled 1)) :=
    bind_of_ok (cmd_get _) (congrFun (if_neg hdue) _)
  exact ⟨bind_of_ok hshift (bind_of_ok hbyte (bind_of_ok (cmd_get _) (cmd_ite _ (pure ()) (renormE n)))),
    by rw [Engine.turn, shifted_eq_scaled, if_neg hdue]⟩

theorem renormE_without_byte (ha : s.eng.a.toNat < 0x8000) (hlow : 0x8000 ≤ s.eng.a.toNat * 2 ^ k)
    (hhigh : s.eng.a.toNat * 2 ^ k < 0x10000) (hn : k ≤ n) (hct : k < s.eng.ct.toNat)
    (hc : s.eng.c.toNat * 2 ^ k < 2 ^ 32) :
    renormE n s = .ok () (s.withEng (s.eng.scaled k)) ∧ s.eng.renorm n = (s.eng.scaled k, []) := by
  induction k generalizing s n with
  | zero => omega
  | succ k ih =>
    obtain ⟨m, rfl⟩ : ∃ m, n = m + 1 := ⟨n - 1, by omega⟩
    have hc2 : s.eng.c.toNat * 2 ≤ s.eng.c.toNat * 2 ^ (k + 1) :=
      Nat.mul_le_mul_left _ (Nat.le_self_pow (Nat.succ_ne_zero k) 2)
    have ha2 := scaled_one_a ha
    obtain ⟨hrun, hturn⟩ := turnE_without_byte (n := m) ha (by omega) (by omega : s.eng.c.toNat * 2 < 2 ^ 32)
    obtain ⟨rfl, hstop⟩ | ⟨hk, hgo⟩ := last_shift hlow hhigh
    · rw [hrun, if_pos (by omega), renorm_stop (by rw [hturn]; show 0x8000 ≤ (s.eng.scaled 1).a.toNat; omega), hturn]
      exact ⟨rfl, rfl⟩
    · have hc1 : (s.eng.scaled 1).c.toNat = s.eng.c.toNat * 2 := by
        simp only [Engine.scaled, BitVec.toNat_ofNat]
        omega
      have hct1 := scaled_one_ct (e := s.eng)
      rw [pow_succ, mul_comm (2 ^ k), ← mul_assoc] at hlow hhigh hc
      obtain ⟨hrest, hrenorm⟩ := ih (s := s.withEng (s.eng.scaled 1)) (n := m) (by rw [withEng_eng]; omega)
        (by rw [withEng_eng, ha2, mul_comm 2]; exact hlow) (by rw [withEng_eng, ha2, mul_comm 2]; exact hhigh)
        (by omega) (by rw [withEng_eng]; omega) (by rw [withEng_eng, hc1]; exact hc)
      rw [withEng_eng] at hrest hrenorm
      rw [hrun, if_neg (by omega), hrest,
        renorm_go (by rw [hturn]; show ¬ 0x8000 ≤ (s.eng.scaled 1).a.toNat; omega), hturn, hrenorm, scaled_scaled,
        withEng_withEng, Nat.add_comm 1]
      exact ⟨rfl, rfl⟩

/-- One turn of `RenormD` with no byte due (rule R117). -/
theorem turnD_without_byte (ha : s.eng.a.toNat < 0x8000) (hct : 1 ≤ s.eng.ct.toNat) :
    renormD (n + 1) s = (if 0x8000 ≤ (s.eng.scaled 1).a.toNat then .ok () (s.withEng (s.eng.scaled 1))
      else renormD n (s.withEng (s.eng.scaled 1))) ∧ s.turnD = s.withEng (s.eng.scaled 1) := by
  have hdue : s.eng.ct ≠ 0 := fun h => by rw [h] at hct; exact absurd hct (by decide)
  have hC : BitVec.ofNat 32 ((s.eng.c.toNat <<< 1) % 2 ^ 32) = (s.eng.scaled 1).c :=
    BitVec.eq_of_toNat_eq (by simp [Engine.scaled, Nat.shiftLeft_eq])
  have hshift : shiftD s = .ok () (s.withEng (s.eng.scaled 1)) := by
    simp only [shiftD, cmd_bind, cmd_get]
    rw [assignA_ok _ _ (by rw [Nat.shiftLeft_eq]; omega)]
    simp only
    rw [assignC_ok _ _ (Nat.mod_lt _ (by decide)), hC]
    simp only
    rw [assignCT_ok _ _ (by omega)]
    simp only [withEng_withEng, withEng_eng, Nat.shiftLeft_eq]
    rfl
  have hbyte : byteInIfDue s = .ok () s :=
    bind_of_ok (cmd_get _) (congrFun (if_neg hdue) _)
  refine ⟨?_, ?_⟩
  · exact bind_of_ok hbyte (bind_of_ok hshift (bind_of_ok (cmd_get _) (cmd_ite _ (pure ()) (renormD n))))
  · simp only [State.turnD, if_neg hdue, Nat.mul_comm 2]
    rfl

theorem renormD_without_byte (ha : s.eng.a.toNat < 0x8000) (hlow : 0x8000 ≤ s.eng.a.toNat * 2 ^ k)
    (hhigh : s.eng.a.toNat * 2 ^ k < 0x10000) (hn : k ≤ n) (hct : k ≤ s.eng.ct.toNat) :
    renormD n s = .ok () (s.withEng (s.eng.scaled k)) ∧ s.renormedD n = s.withEng (s.eng.scaled k) := by
  induction k generalizing s n with
  | zero => omega
  | succ k ih =>
    obtain ⟨m, rfl⟩ : ∃ m, n = m + 1 := ⟨n - 1, by omega⟩
    have ha2 := scaled_one_a ha
    obtain ⟨hrun, hturn⟩ := turnD_without_byte (n := m) ha (by omega : 1 ≤ s.eng.ct.toNat)
    rw [hrun, State.renormedD, hturn, withEng_eng]
    obtain ⟨rfl, hstop⟩ | ⟨hk, hgo⟩ := last_shift hlow hhigh
    · rw [if_pos (by omega), if_pos (by omega)]
      exact ⟨rfl, rfl⟩
    · have hct1 := scaled_one_ct (e := s.eng)
      rw [pow_succ, mul_comm (2 ^ k), ← mul_assoc] at hlow hhigh
      have hrest := ih (s := s.withEng (s.eng.scaled 1)) (n := m) (by rw [withEng_eng]; omega)
        (by rw [withEng_eng, ha2, mul_comm 2]; exact hlow) (by rw [withEng_eng, ha2, mul_comm 2]; exact hhigh)
        (by omega) (by rw [withEng_eng]; omega)
      rw [if_neg (by omega), if_neg (by omega)]
      rwa [withEng_eng, scaled_scaled, withEng_withEng, Nat.add_comm 1] at hrest

end Scaled

/-- Settles O26: by induction on the number of shifts, each a turn without a byte. -/
theorem renormalizationWithoutAByte : Obligations.RenormalizationWithoutAByte :=
  fun _ _ _ ha hlow hhigh hn => ⟨fun hct hc => renormE_without_byte ha hlow hhigh hn hct hc,
    fun hct => renormD_without_byte ha hlow hhigh hn hct⟩

/-! ## One decision -/

theorem decodeSplit_eq (a c q : Nat) : decodeSplit a c q =
    if c / 2 ^ 16 < a - q then
      if a - q < 0x8000 then
        if a - q < q then (a - q, c, false, .lps) else (a - q, c, true, .mps)
      else (a - q, c, true, .keep)
    else if a - q < q then (q, c - (a - q) * 2 ^ 16, true, .mps) else (q, c - (a - q) * 2 ^ 16, false, .lps) := by
  simp only [decodeSplit, Nat.shiftRight_eq_div_pow, Nat.shiftLeft_eq]

/-- The code value n lies in the lower part of the interval. -/
theorem decodeSplit_lower {a n q : Nat} (h : n < a - q) : decodeSplit a (n * 2 ^ 16) q =
    if a - q < 0x8000 then
      if a - q < q then (a - q, n * 2 ^ 16, false, .lps) else (a - q, n * 2 ^ 16, true, .mps)
    else (a - q, n * 2 ^ 16, true, .keep) := by
  rw [decodeSplit_eq, Nat.mul_div_cancel _ (Nat.two_pow_pos 16), if_pos h]

/-- The code value n lies in the upper part of the interval. -/
theorem decodeSplit_upper {a n q : Nat} (h : a - q ≤ n) : decodeSplit a (n * 2 ^ 16) q =
    if a - q < q then (q, (n - (a - q)) * 2 ^ 16, true, .mps) else (q, (n - (a - q)) * 2 ^ 16, false, .lps) := by
  rw [decodeSplit_eq, Nat.mul_div_cancel _ (Nat.two_pow_pos 16), if_neg (Nat.not_lt.mpr h), Nat.sub_mul n]

/-- Settles O33: in the lower part of the interval the decoder keeps p's place, in the upper part it takes off the same
`A - Qe` the encoder added. -/
theorem decoderStepTracksEncoderStep : Obligations.DecoderStepTracksEncoderStep := by
  intro a c q p isMps ha ha' hq hq' e hlow hhigh
  simp only [e, encodeSplit] at hlow hhigh ⊢
  cases isMps with
  | true =>
    simp only [if_true] at hlow hhigh ⊢
    split_ifs at hlow hhigh ⊢ with hkeep hupper <;> dsimp only at hlow hhigh ⊢
    · rw [decodeSplit_lower (by omega), if_neg (by omega)]
    · rw [decodeSplit_upper (by omega), if_pos hupper, Nat.sub_sub]
    · rw [decodeSplit_lower (by omega), if_pos (by omega), if_neg hupper]
  | false =>
    simp only [Bool.false_eq_true, if_false] at hlow hhigh ⊢
    split_ifs at hlow hhigh ⊢ with hupper <;> dsimp only at hlow hhigh ⊢
    · rw [decodeSplit_upper (by omega), if_neg (by omega), Nat.sub_sub]
    · rw [decodeSplit_lower (by omega), if_pos (by omega), if_pos (by omega)]

section DecodeBit

variable {s : State} {c : Fin 4} {b : Nat} {row : RomRow}

/-- A decision that needs no renormalization makes no read (rules R115, R124). -/
theorem decodeBit_keep (he : s.eng.DecodeSound) (hrow : romLookup s.build (s.ctxAt c b).i = some row)
    (ha : 0x8000 ≤ s.eng.a.toNat - row.qe.toNat) (hc : s.eng.c.toNat / 2 ^ 16 < s.eng.a.toNat - row.qe.toNat) :
    decodeBit c b s = .ok (s.ctxAt c b).mps
      (s.withEng { s.eng with a := BitVec.ofNat 17 (s.eng.a.toNat - row.qe.toNat) }) := by
  have hle := he.a_le
  have hsplit : decodeSplit s.eng.a.toNat s.eng.c.toNat row.qe.toNat =
      (s.eng.a.toNat - row.qe.toNat, s.eng.c.toNat, true, .keep) := by
    rw [decodeSplit_eq, if_pos hc, if_neg (by omega)]
  have hbounds : requireDecodeBounds s = .ok () s := by simp [requireDecodeBounds, decodeBounds_of_sound he]
  have hlookup : romRow c b s = .ok row s := by simp [romRow, hrow]
  simp only [decodeBit, cmd_bind, hbounds, hlookup, cmd_get, hsplit]
  rw [assignA_ok _ _ (by omega)]
  simp only
  rw [assignC_ok _ _ (by omega)]
  simp

end DecodeBit

theorem decodeBit_bit (m mps : Bool) :
    BitVec.ofNat 32 (m == mps).toNat = if (if m then mps else !mps) then 1#32 else 0#32 := by
  revert m mps
  decide

/-- Settles O32: `decodeBit_exact`, with the interval step written out (`decodeSplit_eq`). -/
theorem decBitCompletes : Obligations.DecBitCompletes := by
  intro c bin s row hf hraw hm hb old he hrow hleg hs a q upper step d t
  have hsplit : decodeSplit s.eng.a.toNat s.eng.c.toNat row.qe.toNat = step := decodeSplit_eq _ _ _
  refine ⟨guarded_rawIn_runs hf hraw hm (decide_eq_true hb) ?_, fun c' b' => ?_⟩
  · rw [cmd_bind, decodeBit_exact s c _ he hs (romLookup_of_row hrow hleg) hleg, hsplit]
    simp only [cmd_writeResult, decodeBit_bit]
    rfl
  · exact (ctxAt_decoded s hb row step c' b').trans (congrArg (ite _ · _) (adapt_eq _ _ _))

/-! ## DecInit -/

section DecInit

variable {s : State}

/-- What `DecInit` sets and keeps, on a source that answers. -/
theorem decInited_spec (hs : s.ports.SourceAnswers) :
    Fetched ({ s with
      marker := { code := 0, valid := false }
      eng := { s.eng with eos := false, b := 0, bv := false, sc := 0, zc := 0, mode := .decode } }) s.decInited ∧
    s.decInited.ctx = s.ctx ∧ s.decInited.eng.DecodeSound ∧ s.decInited.eng.a = 0x10000 ∧
    s.decInited.eng.ct = 0 ∧ s.decInited.eng.NothingHeld := by
  obtain ⟨_, t, hrun, ht⟩ := (decInit_ends s).completes (fun _ _ h => h) (not_not.mpr hs)
  have heq := hrun.symm.trans (decInit_exact s hs)
  injection heq with _ heq
  exact heq ▸ ht

theorem afterFetch_stopped (hs : s.inputStopped = false) (f : Fetch) :
    (s.afterFetch f).inputStopped = (f.marker.isSome || f.ended) := by
  rw [State.inputStopped, Bool.or_eq_false_iff] at hs
  obtain ⟨hm, he⟩ := hs
  cases hmk : f.marker <;> cases hen : f.ended <;> simp [State.inputStopped, State.afterFetch, State.sourceEnded, *]

theorem bytes_afterFetch (f : Fetch) : (s.afterFetch f).ports.source.bytes = f.rest := by
  cases hen : f.ended <;> simp [State.afterFetch, State.sourceEnded, hen]

/-- C after two bytes added at [15:8] and shifted up (rule R114). -/
theorem twoBytes_eq (x y : Byte) :
    BitVec.ofNat 32 ((BitVec.ofNat 32 ((BitVec.ofNat 32 ((BitVec.ofNat 32 (x.toNat * 256)).toNat * 256)).toNat +
      y.toNat * 256)).toNat * 256) = x ++ y ++ 0#16 :=
  BitVec.eq_of_toNat_eq (by
    simp only [toNat_append_eq_add, BitVec.toNat_ofNat]
    omega)

/-- The state before the first `ByteIn` of `DecInit` (rule R114). -/
def State.decStarted (s : State) : State :=
  ({ s with marker := { code := 0, valid := false } } : State).withEng { s.eng with eos := false, a := 0x10000, c := 0 }

/-- The state before the second `ByteIn` of `DecInit` (rule R114). -/
def State.firstFed (s : State) : State :=
  s.decStarted.byteFed.withEng
    { s.decStarted.byteFed.eng with c := BitVec.ofNat 32 (s.decStarted.byteFed.eng.c.toNat * 256) }

/-- `DecInit` shifts the second byte in and clears the other registers. -/
theorem decInited_eq : s.decInited = s.firstFed.byteFed.withEng { s.firstFed.byteFed.eng with
    c := BitVec.ofNat 32 (s.firstFed.byteFed.eng.c.toNat * 256), ct := 0, b := 0, bv := false, sc := 0, zc := 0
    mode := .decode } := rfl

theorem decInited_c {f : Fetch} (hf : fetchData s.ports.source.bytes = f) :
    s.decInited.eng.c = f.t ++ (if f.marker.isSome || f.ended then 0x00 else (fetchData f.rest).t) ++ 0#16 := by
  have hstop : s.firstFed.inputStopped = (f.marker.isSome || f.ended) :=
    hf ▸ afterFetch_stopped (s := s.decStarted) rfl _
  have hbytes : s.firstFed.ports.source.bytes = f.rest := hf ▸ bytes_afterFetch (s := s.decStarted) _
  have hbyte : s.firstFed.dataByte = if f.marker.isSome || f.ended then 0x00 else (fetchData f.rest).t := by
    rw [State.dataByte, hstop, hbytes]
  rw [← hbyte, ← twoBytes_eq, ← hf, ← Nat.zero_add ((fetchData s.ports.source.bytes).t.toNat * 256), decInited_eq]
  rfl

/-- EOS is set with EXHAUSTED, and STATUS is kept where the source has not ended (rules R116, R224). -/
theorem byteFed_exhausted (h : s.status.exhausted = s.eng.eos) :
    s.byteFed.status.exhausted = s.byteFed.eng.eos ∧ (s.byteFed.eng.eos = false → s.byteFed.status = s.status) := by
  cases hstop : s.inputStopped
  · cases hen : (fetchData s.ports.source.bytes).ended
    · simpa [State.byteFed, State.afterFetch, hstop, hen] using h
    · cases hx : s.status.exhausted <;> simp [State.byteFed, State.afterFetch, State.sourceEnded, hstop, hen, hx]
  · simpa [State.byteFed, hstop] using h

theorem decInited_exhausted (h : s.status.exhausted = false) :
    s.decInited.status.exhausted = s.decInited.eng.eos ∧
      (s.decInited.status.exhausted = false → s.decInited.status = s.status) := by
  rw [decInited_eq]
  obtain ⟨hx, hkeep⟩ := byteFed_exhausted (s := s.decStarted) h
  obtain ⟨hx', hkeep'⟩ := byteFed_exhausted (s := s.firstFed) hx
  refine ⟨hx', fun hnot => ?_⟩
  have heos : s.firstFed.byteFed.eng.eos = false := hx'.symm.trans hnot
  have hstatus := hkeep' heos
  refine Eq.trans hstatus (hkeep ?_)
  exact hx.symm.trans ((congrArg Status.exhausted hstatus).symm.trans hnot)

theorem byteIn_plain {b : Byte} {rest : List Byte} (hm : s.marker.valid = false) (he : s.eng.eos = false)
    (hb : b ≠ 0xFF) (hbytes : s.ports.source.bytes = b :: rest) (hc : s.eng.c.toNat + 0xFF00 < 2 ^ 32) :
    byteIn s = .ok () ((s.took b rest).withEng
      { s.eng with c := BitVec.ofNat 32 (s.eng.c.toNat + b.toNat * 256) }) := by
  have hlt := b.isLt
  have hnext : nextDataByte s = .ok b (s.took b rest) := by
    refine bind_of_ok (cmd_get _) ?_
    simp only [hm, he, Bool.or_self, Bool.false_eq_true, if_false]
    exact bind_of_ok (sourceRead_cons hbytes) (congrFun (if_neg hb) _)
  simp only [byteIn, cmd_bind, hnext, cmd_get, Nat.shiftLeft_eq]
  exact assignC_ok _ _ (by show s.eng.c.toNat + _ < _; omega)

theorem shiftInit_ok (h : s.eng.c.toNat * 256 < 2 ^ 32) :
    shiftInit s = .ok () (s.withEng { s.eng with c := BitVec.ofNat 32 (s.eng.c.toNat * 256) }) := by
  simp only [shiftInit, cmd_bind, cmd_get, Nat.shiftLeft_eq]
  exact assignC_ok _ _ h

/-- `DecInit` from what its two `ByteIn` do (rule R114). -/
theorem decInit_of_byteIn {t u : State}
    (ht : byteIn s.decStarted = .ok () t) (hct : t.eng.c.toNat * 256 < 2 ^ 32)
    (hu : byteIn (t.withEng { t.eng with c := BitVec.ofNat 32 (t.eng.c.toNat * 256) }) = .ok () u)
    (hcu : u.eng.c.toNat * 256 < 2 ^ 32) : decInit s = .ok () (u.withEng { u.eng with
      c := BitVec.ofNat 32 (u.eng.c.toNat * 256), ct := 0, b := 0, bv := false, sc := 0, zc := 0, mode := .decode }) :=
  bind_of_ok (cmd_modify _ _) (bind_of_ok (cmd_modifyEng _ _) (bind_of_ok ht (bind_of_ok (shiftInit_ok hct)
    (bind_of_ok hu (bind_of_ok (shiftInit_ok hcu) rfl)))))

/-- Two bytes the source holds are read without asking whether it ends. -/
theorem decInit_plain {b b' : Byte} {rest : List Byte} (hb : b ≠ 0xFF) (hb' : b' ≠ 0xFF)
    (hbytes : s.ports.source.bytes = b :: b' :: rest) : decInit s = .ok () { s with
      eng := { s.eng with
        a := 0x10000, c := b ++ b' ++ 0#16, ct := 0, b := 0, bv := false, sc := 0, zc := 0, eos := false
        mode := .decode }
      marker := { code := 0, valid := false }
      ports := { s.ports with
        source := { s.ports.source with bytes := rest }
        trace := s.ports.trace ++ [.sourceRead (some b), .sourceRead (some b')] } } := by
  have hlt := b.isLt
  have hlt' := b'.isLt
  refine (decInit_of_byteIn (byteIn_plain rfl rfl hb hbytes ?_) ?_ (byteIn_plain rfl rfl hb' rfl ?_) ?_).trans ?eq
  case eq =>
    rw [← twoBytes_eq, ← Nat.zero_add (b.toNat * 256)]
    simp [State.decStarted, State.took, State.log, State.withEng]
  all_goals
    simp only [State.decStarted, withEng_eng, BitVec.ofNat_eq_ofNat, BitVec.toNat_ofNat]
    omega

theorem decInited_of_empty (hf : s.status.fault = false) (hbytes : s.ports.source.bytes = []) :
    s.decInited = { s with
      eng := { s.eng with
        a := 0x10000, c := 0, ct := 0, b := 0, bv := false, sc := 0, zc := 0, eos := true, mode := .decode }
      marker := { code := 0, valid := false }
      status := if s.status.exhausted then s.status else { s.status with exhausted := true, err := .streamExhausted }
      ports := { s.ports with trace := s.ports.trace ++ [.sourceRead none] } } := by
  simp [State.decInited, State.byteFed, State.dataByte, State.inputStopped, State.afterFetch, State.sourceEnded,
    State.withEng, fetchData, Fetch.atEnd, hbytes, hf]
  rw [← hbytes]

/-- Settles O31: the registers by `decInited_c` and `decInited_spec`, and the two exact cases. -/
theorem decInitCompletes : Obligations.DecInitCompletes := by
  refine ⟨fun s hf hraw hs => ?_, fun s hf hraw => ⟨fun b1 b2 rest hb1 hb2 hbytes => ?_, fun hbytes hs => ?_⟩⟩
  · obtain ⟨hfetched, hctx, _, ha, hct, hheld⟩ := decInited_spec hs
    obtain ⟨_, _, hsamples, hsink⟩ := hfetched.portsKept
    exact ⟨_, guarded_raw_runs hf hraw (decInit_exact s hs), rfl, decInited_c rfl, ha, hct, hheld.b, hheld.bv, hheld.sc,
      hheld.zc, hfetched.mode, hfetched.nbytes, hctx, hfetched.regs, hfetched.cfg, hfetched.da, hfetched.db,
      hfetched.pos, hfetched.build, hfetched.dstate, hfetched.dmode, hfetched.fault.trans hf, hsink, hsamples⟩
  · exact guarded_raw_runs hf hraw (decInit_plain hb1 hb2 hbytes)
  · exact guarded_raw_runs hf hraw ((decInit_exact s hs).trans (congrArg _ (decInited_of_empty hf hbytes)))

/-! ## START_SCAN -/

/-- The state after the resets of START_SCAN (rule R171). -/
def State.scanResetTo (s : State) (dir : Dir) : State := { s with
  status := { s.status with dmode := dir, exhausted := false }
  ctx := Vector.replicate 4 (Vector.replicate 160 { i := 0, mps := false })
  da := Vector.replicate 4 0
  db := Vector.replicate 4 []
  pos := { x := 0, y := 0, yend := 0, rl := 0, m := 0, mcucnt := 0 }
  eng := { s.eng with nbytes := 0 } }

theorem startScan_runs {t : State} {dir : Dir} (hv : s.configValid = true)
    (h : engineInit dir (s.scanResetTo dir) = .ok () t) :
    startScan dir s = .ok () { t with status := { t.status with dstate := .scanStarted } } := by
  have hreset : scanReset dir s = .ok () (s.scanResetTo dir) := rfl
  exact bind_of_ok (cmd_get _) ((congrFun (if_pos hv) s).trans (bind_of_ok hreset (bind_of_ok h rfl)))

/-- Settles O43: `startScan_runs` in each direction, and what `DecInit` keeps. -/
theorem startScanCompletes : Obligations.StartScanCompletes := by
  refine ⟨fun s hf hraw hv => guarded_raw_runs hf hraw ((startScan_runs hv rfl).trans rfl), fun s hf hraw hv hs => ?_⟩
  have hs' : (s.scanResetTo .decode).ports.SourceAnswers := hs
  obtain ⟨hfetched, _, _, ha, hct, _⟩ := decInited_spec hs'
  obtain ⟨_, _, hsamples, hsink⟩ := hfetched.portsKept
  obtain ⟨hx, hkeep⟩ := decInited_exhausted (s := s.scanResetTo .decode) rfl
  exact ⟨_, guarded_raw_runs hf hraw (startScan_runs hv (decInit_exact _ hs')), rfl, hfetched.mode, ha, hct,
    hfetched.nbytes, hfetched.fault.trans hf, hfetched.dmode, hx, hkeep, hfetched.cfg, hfetched.regs, hfetched.build,
    hsink, hsamples⟩

end DecInit

end Sys2Proof.Machine

/-! PROOFS. The parts of the predictive scan driver (spec/42_driver.md rules R180 to R190, spec/10_state.md section 5,
spec/20_memory.md section 4): the differential buffers, the sample port, predictions, one sample and the loops of a
walk; obligations O51 to O55. -/

namespace Sys2Proof.Machine

/-! ## The buffers and the sample port -/

section Buffers

variable {s : State} {c c' : Fin 4} {x x' : Nat} {v : Residual}

theorem dbAt_setDb : (s.setDb c x v).dbAt c' x' = if c' = c ∧ x' = x then v else s.dbAt c' x' := by
  by_cases hc : c' = c
  · subst hc
    by_cases hx : x' = x <;> simp [State.dbAt, State.setDb, read_write, hx]
  · have hc' : c.val ≠ c'.val := fun h => hc (Fin.ext h.symm)
    simp [State.dbAt, State.setDb, hc, hc']

theorem da_setDa : (s.setDa c v).da[c'] = if c' = c then v else s.da[c'] := by
  by_cases hc : c' = c
  · simp [State.setDa, hc]
  · have hc' : c.val ≠ c'.val := fun h => hc (Fin.ext h.symm)
    simp [State.setDa, hc, hc']

end Buffers

/-- Settles O53: an entry of DB is found after its component, then after its column. -/
theorem differentialBuffersReadBack : Obligations.DifferentialBuffersReadBack := by
  intro s c c' x x' v
  exact ⟨dbAt_setDb, da_setDa, rfl, rfl, by simp [State.dbAt, State.clearDiff, Memory.read, Memory.lookup],
    by simp [State.clearDiff]⟩

section SamplePort

variable {s : State} {c : Fin 4} {x y : Nat} {v : Sample}

theorem lineRead_of_held (h : Memory.read sampleBlank s.ports.samples (sampleKey c x y) = some v) :
    lineRead c x y s = .ok v (s.log (.lineRead c x y v)) := by
  simp [lineRead, h]

theorem lineRead_of_not_held (h : Memory.read sampleBlank s.ports.samples (sampleKey c x y) = none) :
    lineRead c x y s = .error (.stuck .lineBufferNeverAnswers) s := by
  rw [lineRead, h]
  rfl

/-- The state after `LineWrite` (rule R68). -/
def State.lineWritten (s : State) (c : Fin 4) (x y : Nat) (v : Sample) : State :=
  ({ s with ports := { s.ports with
    samples := Memory.write sampleBlank s.ports.samples (sampleKey c x y) v } } : State).log (.lineWrite c x y v)

theorem lineWrite_eq : lineWrite c x y v s = .ok () (s.lineWritten c x y v) := rfl

/-- Another position has another key. -/
theorem sampleKey_ne {c' : Fin 4} {x' y' : Nat} (hx : x < 65536) (hy : y < 65536) (hx' : x' < 65536) (hy' : y' < 65536)
    (h : (c', x', y') ≠ (c, x, y)) : sampleKey c' x' y' ≠ sampleKey c x y := fun hk => by
  obtain ⟨rfl, rfl, rfl⟩ := sampleKey_injective hx' hx hy' hy hk
  exact h rfl

end SamplePort

/-- Settles O54: the buffer is read through `read_write`, and positions have keys of their own (`sampleKey_ne`). -/
theorem samplePortReadsBack : Obligations.SamplePortReadsBack := by
  intro s c c' x y x' y' v w hx hy hx' hy'
  have hread (k : Nat) : Memory.read sampleBlank (s.lineWritten c x y v).ports.samples k =
      if k = sampleKey c x y then some v else Memory.read sampleBlank s.ports.samples k := read_write _ _ _ _ _
  refine ⟨s.lineWritten c x y v, lineWrite_eq, lineRead_of_held ?_, fun hne h => lineRead_of_held ?_,
    fun hne h => lineRead_of_not_held ?_⟩
  · rw [hread, if_pos rfl]
  · rw [hread, if_neg (sampleKey_ne hx hy hx' hy' hne), h]
  · rw [hread, if_neg (sampleKey_ne hx hy hx' hy' hne), h]

/-! ## Prediction -/

section Prediction

variable {s : State} {c : Fin 4} {x y : Nat} {v : Sample}

theorem readMasked_of_held (h : Memory.read sampleBlank s.ports.samples (sampleKey c x y) = some v) :
    readMasked c x y s = .ok (s.maskSample v.toNat : Int) (s.log (.lineRead c x y v)) := by
  rw [readMasked, cmd_bind, lineRead_of_held h]
  rfl

theorem maskSample_of_pred (hp : s.cfg.pred ≠ 0) (n : Nat) : s.maskSample n = n % 2 ^ s.cfg.prec.toNat := if_neg hp

/-- In predictor modes a sample is read modulo 2^P. -/
theorem readMasked_of_pred (hp : s.cfg.pred ≠ 0)
    (h : Memory.read sampleBlank s.ports.samples (sampleKey c x y) = some v) :
    readMasked c x y s = .ok ((v.toNat % 2 ^ s.cfg.prec.toNat : Nat) : Int) (s.log (.lineRead c x y v)) := by
  rw [readMasked_of_held h, maskSample_of_pred hp]

theorem predictInner_of_held {ra rb rc : Sample} {sel : Nat} {p : Int} (hp : s.cfg.pred ≠ 0)
    (ha : Memory.read sampleBlank s.ports.samples (sampleKey c (x - 1) y) = some ra)
    (hb : Memory.read sampleBlank s.ports.samples (sampleKey c x (y - 1)) = some rb)
    (hc : Memory.read sampleBlank s.ports.samples (sampleKey c (x - 1) (y - 1)) = some rc)
    (h : predict sel ((ra.toNat % 2 ^ s.cfg.prec.toNat : Nat) : Int) ((rb.toNat % 2 ^ s.cfg.prec.toNat : Nat) : Int)
      ((rc.toNat % 2 ^ s.cfg.prec.toNat : Nat) : Int) = some p) :
    predictInner c sel x y s = .ok p (((s.log (.lineRead c (x - 1) y ra)).log (.lineRead c x (y - 1) rb)).log
      (.lineRead c (x - 1) (y - 1) rc)) := by
  have hreadB := readMasked_of_pred (s := s.log (.lineRead c (x - 1) y ra)) hp hb
  have hreadC := readMasked_of_pred (s := (s.log (.lineRead c (x - 1) y ra)).log (.lineRead c x (y - 1) rb)) hp hc
  refine bind_of_ok (readMasked_of_pred hp ha) (bind_of_ok hreadB (bind_of_ok hreadC ?_))
  simp only [State.log] at h ⊢
  rw [h]
  rfl

end Prediction

theorem int_shiftRight_one (n : Int) : n >>> 1 = n / 2 :=
  (Int.shiftRight_natCast_right n 1).trans (Int.shiftRight_eq_div_pow n 1)

/-- Settles O51: the branches of `prediction`, each with its reads. -/
theorem predictionAndItsNeighbours : Obligations.PredictionAndItsNeighbours := by
  refine ⟨fun ra rb rc => ?_, fun c s => ⟨fun hp => ?_, fun hp hy hx => ?_, fun ra hp hy hx ha => ?_,
    fun rb hp hy _ hx hb => ?_, fun ra rb rc p hp hy _ hx ha hb hc h => ?_⟩⟩
  · simp only [int_shiftRight_one]
    exact ⟨rfl, rfl, rfl, rfl, rfl, rfl, rfl⟩
  · rw [prediction, cmd_bind, cmd_get]
    simp only [hp, if_true, cmd_pure]
  · rw [prediction, cmd_bind, cmd_get]
    simp only [hp, hy, hx, if_true, if_false, cmd_pure]
  · rw [prediction, cmd_bind, cmd_get]
    simp only [hp, hy, hx, if_true, if_false]
    exact hy ▸ readMasked_of_pred hp ha
  · rw [prediction, cmd_bind, cmd_get]
    simp only [hp, hy, hx, if_true, if_false]
    exact readMasked_of_pred hp hb
  · rw [prediction, cmd_bind, cmd_get]
    simp only [hp, hy, hx, if_false]
    exact predictInner_of_held hp ha hb hc h

/-! ## One sample -/

theorem add_s16_emod (px v : Int) : (px + s16 (v - px)) % 2 ^ 16 = v % 2 ^ 16 := by
  rw [s16, BitVec.toInt_ofInt, Int.bmod_def]
  omega

/-- Settles O52: `px + s16 (v - px)` is v modulo 2^16 (`add_s16_emod`), and the mask keeps v. -/
theorem reconstructionUndoesTheResidual : Obligations.ReconstructionUndoesTheResidual := by
  intro s px v _ hv
  obtain ⟨hlow, hhigh⟩ := s16_range ((v.toNat : Int) - px)
  refine ⟨hlow, hhigh, ?_⟩
  have hlt := v.isLt
  have hsum : ((px + s16 ((v.toNat : Int) - px)) % 2 ^ 16).toNat = v.toNat := by
    rw [add_s16_emod]
    omega
  have hmask : s.maskSample v.toNat = v.toNat := by
    by_cases hp : s.cfg.pred = 0
    · exact if_pos hp
    · rw [maskSample_of_pred hp, Nat.mod_eq_of_lt (hv hp)]
  rw [State.reconstruct, hsum, hmask, BitVec.ofNat_toNat, BitVec.setWidth_eq]

section CodeSample

variable {s t u : State} {c : Fin 4} {px r : Int} {v : Sample}

theorem codeSampleEncode_of_held (hp : prediction c s = .ok px u)
    (hv : Memory.read sampleBlank s.ports.samples (sampleKey c s.pos.x.toNat s.pos.y.toNat) = some v)
    (hr : s16 ((s.maskSample v.toNat : Int) - px) = r)
    (ht : encodeV c r s.da[c].toInt (s.dbAt c s.pos.x.toNat).toInt (s.lowThreshold c) (s.highThreshold c)
      (u.log (.lineRead c s.pos.x.toNat s.pos.y.toNat v)) = .ok () t) :
    codeSampleEncode c s = .ok () ((t.setDa c (BitVec.ofInt 17 r)).setDb c s.pos.x.toNat (BitVec.ofInt 17 r)) := by
  obtain ⟨trace, rfl, _⟩ := prediction_logged hp
  have hx := ((Stays.encodeV _ _ _ _ _ _).ok ht).x
  subst hr
  refine bind_of_ok hp (bind_of_ok (cmd_get _) (bind_of_ok (readMasked_of_held hv) (bind_of_ok (cmd_get _)
    (bind_of_ok ht ?_))))
  rw [storeResidual, cmd_modify, hx]
  rfl

theorem codeSampleDecode_of_decoded (hp : prediction c s = .ok px u)
    (ht : decodeV c s.da[c].toInt (s.dbAt c s.pos.x.toNat).toInt (s.lowThreshold c) (s.highThreshold c) u = .ok r t) :
    codeSampleDecode c s = .ok () (((t.lineWritten c s.pos.x.toNat s.pos.y.toNat (s.reconstruct px r)).setDa c
      (BitVec.ofInt 17 r)).setDb c s.pos.x.toNat (BitVec.ofInt 17 r)) := by
  obtain ⟨trace, rfl, _⟩ := prediction_logged hp
  have hx : t.pos.x = s.pos.x := ((Stays.decodeV _ _ _ _ _).ok ht).x
  refine bind_of_ok hp (bind_of_ok (cmd_get _) (bind_of_ok ht (bind_of_ok lineWrite_eq ?_)))
  rw [storeResidual, cmd_modify]
  show EStateM.Result.ok () (((t.lineWritten _ _ _ _).setDa _ _).setDb _ t.pos.x.toNat _) = _
  rw [hx]
  rfl

end CodeSample

/-! ## The loops -/

section Loops

variable {s t : State} {dir : Dir}

/-- What a column does before x and MCUCNT move. -/
def columnBody (dir : Dir) : Cmd Unit := restartIfDue dir >>= fun _ => MonadState.get >>= fun u =>
  codeComponents dir u.components

theorem walkColumn_eq_bind : walkColumn dir = columnBody dir >>= fun _ =>
    modifyPos fun p => { p with mcucnt := p.mcucnt + 1, x := p.x + 1 } := by
  simp only [walkColumn, columnBody, bind_assoc]

/-- One column moves x by one and stays on its line. -/
theorem walkColumn_moves (h : walkColumn dir s = .ok () t) :
    t.pos.x = s.pos.x + 1 ∧ t.pos.y = s.pos.y ∧ t.pos.yend = s.pos.yend ∧ t.cfg = s.cfg := by
  have hstays : Stays (columnBody dir) := .bind (.restartIfDue dir) fun _ => .get fun _ => .codeComponents dir _
  obtain ⟨_, u, hbody, hmove⟩ := bind_eq_ok_iff.mp ((congrFun walkColumn_eq_bind s).symm.trans h)
  obtain ⟨hx, hy, hyend, hcfg⟩ := hstays.ok hbody
  cases hmove
  exact ⟨congrArg (· + 1) hx, hy, hyend, hcfg⟩

theorem walkColumns_stays_on_line {n : Nat} (h : walkColumns dir n s = .ok () t) :
    t.pos.y = s.pos.y ∧ t.pos.yend = s.pos.yend ∧ t.cfg = s.cfg := by
  induction n generalizing s with
  | zero => cases h; exact ⟨rfl, rfl, rfl⟩
  | succ n ih =>
    obtain ⟨_, u, hcolumn, hrest⟩ := bind_eq_ok_iff.mp h
    obtain ⟨_, hy, hyend, hcfg⟩ := walkColumn_moves hcolumn
    obtain ⟨hy', hyend', hcfg'⟩ := ih hrest
    exact ⟨hy'.trans hy, hyend'.trans hyend, hcfg'.trans hcfg⟩

/-- The state a line starts its columns in (rule R180). -/
def State.lineStart (s : State) : State := { s with
  da := Vector.ofFn fun c => if c.val < s.cfg.ncomp.toNat then 0 else s.da[c]
  pos := { s.pos with x := 0 } }

theorem walkLine_eq : walkLine dir s =
    (do walkColumnsLeft dir; modifyPos fun p => { p with y := p.y + 1 } : Cmd Unit) s.lineStart := by
  refine bind_of_ok (cmd_get _) (bind_of_ok (clearLeft_eq _ _) ?_)
  simp only [State.mem_components]
  exact bind_of_ok (cmd_modifyPos _ _) (bind_of_ok (cmd_get _) rfl)

theorem walkColumnsLeft_eq : walkColumnsLeft dir s = if s.pos.x.toNat < s.cfg.width.toNat then
    (walkColumn dir >>= fun _ => walkColumnsLeft dir) s else .ok () s := by
  rw [walkColumnsLeft]
  by_cases hx : s.pos.x.toNat < s.cfg.width.toNat
  · obtain ⟨n, hn⟩ : ∃ n, s.cfg.width.toNat - s.pos.x.toNat = n + 1 := ⟨_, (Nat.sub_add_cancel (by omega)).symm⟩
    rw [if_pos hx, hn, walkColumns]
    refine bind_congr_ok fun _ t ht => ?_
    obtain ⟨hx', _, _, hcfg⟩ := walkColumn_moves ht
    have hleft : t.cfg.width.toNat - t.pos.x.toNat = n := by
      have hlt := s.cfg.width.isLt
      rw [hcfg, hx', BitVec.toNat_add]
      simp
      omega
    rw [walkColumnsLeft, hleft]
  · rw [if_neg hx, Nat.sub_eq_zero_of_le (by omega)]
    rfl

theorem walkColumn_bind (f : Unit → Cmd Unit) : (walkColumn dir >>= f) s = (do
    restartIfDue dir
    codeComponents dir s.components
    modifyPos fun p => { p with mcucnt := p.mcucnt + 1, x := p.x + 1 }
    f () : Cmd Unit) s := by
  simp only [walkColumn, bind_assoc]
  refine bind_congr_ok fun _ t ht => bind_of_ok (cmd_get _) ?_
  have hcfg := ((Stays.restartIfDue dir).ok ht).cfg
  rw [State.components, State.components, hcfg]

/-- One line moves y by one. -/
theorem walkLine_moves (h : walkLine dir s = .ok () t) : t.pos.y = s.pos.y + 1 ∧ t.pos.yend = s.pos.yend := by
  obtain ⟨_, u, hcolumns, hmove⟩ := bind_eq_ok_iff.mp (walkLine_eq.symm.trans h)
  obtain ⟨hy, hyend, _⟩ := walkColumns_stays_on_line hcolumns
  cases hmove
  exact ⟨congrArg (· + 1) hy, hyend⟩

theorem walk_eq : walk dir s = if s.pos.y.toNat < s.pos.yend.toNat then (walkLine dir >>= fun _ => walk dir) s
    else .ok () (s.withPos { s.pos with x := 0 }) := by
  have hwalk (t : State) : walk dir t =
      (walkLines dir (t.pos.yend.toNat - t.pos.y.toNat) >>= fun _ => modifyPos fun p => { p with x := 0 }) t := rfl
  rw [hwalk]
  by_cases hy : s.pos.y.toNat < s.pos.yend.toNat
  · obtain ⟨n, hn⟩ : ∃ n, s.pos.yend.toNat - s.pos.y.toNat = n + 1 := ⟨_, (Nat.sub_add_cancel (by omega)).symm⟩
    rw [if_pos hy, hn, walkLines, bind_assoc]
    refine bind_congr_ok fun _ t ht => ?_
    obtain ⟨hy', hyend⟩ := walkLine_moves ht
    have hleft : t.pos.yend.toNat - t.pos.y.toNat = n := by
      have hlt := s.pos.yend.isLt
      rw [hyend, hy', BitVec.toNat_add]
      simp
      omega
    rw [hwalk, hleft]
  · rw [if_neg hy, Nat.sub_eq_zero_of_le (by omega)]
    rfl

theorem restartIfDue_eq : restartIfDue dir s =
    if 0 < s.cfg.ri.toNat ∧ s.pos.mcucnt.toNat = s.cfg.ri.toNat then restart dir s else .ok () s := by
  refine bind_of_ok (cmd_get _) ?_
  rw [cmd_ite]
  simp only [State.restartDue, Bool.and_eq_true, decide_eq_true_eq]
  rfl

end Loops

theorem components_of_ncomp {s : State} : (s.cfg.ncomp = 1 → s.components = [0]) ∧
    (s.cfg.ncomp = 2 → s.components = [0, 1]) ∧ (s.cfg.ncomp = 3 → s.components = [0, 1, 2]) ∧
    (s.cfg.ncomp = 4 → s.components = [0, 1, 2, 3]) := by
  refine ⟨fun h => ?_, fun h => ?_, fun h => ?_, fun h => ?_⟩ <;> rw [State.components, h] <;> rfl

/-- Settles O55: the loops by `walk_eq`, `walkLine_eq`, `walkColumnsLeft_eq` and `restartIfDue_eq`, a sample by
`codeSampleEncode_of_held` and `codeSampleDecode_of_decoded`. -/
theorem walkAndOneSample : Obligations.WalkAndOneSample := by
  refine ⟨fun dir s => ⟨walk_eq, walkLine_eq, ?_, restartIfDue_eq⟩, fun s => components_of_ncomp,
    fun dir c rest s => ⟨rfl, rfl⟩, fun c px v s u t hp hv ht => codeSampleEncode_of_held hp hv ?_ ht,
    fun c px r s u t hp ht => ⟨_, lineWrite_eq, codeSampleDecode_of_decoded hp ht⟩⟩
  · rw [walkColumnsLeft_eq, walkColumn_bind]
  · rfl

end Sys2Proof.Machine

/-! PROOFS. The marker ports in the driver (spec/20_memory.md sections 5 and 6, spec/42_driver.md rules R175, R181 to
R183): the end of a scan and a restart; obligations O48 and O56. -/

namespace Sys2Proof.Machine

section Markers

variable {s t : State} {k : MarkerKind}

theorem emitMarker_of_accepts (h : s.ports.WriterAccepts) : emitMarker k s = .ok () { s with
    ports := { s.ports with
      emitAnswers := s.ports.emitAnswers.tail, trace := s.ports.trace ++ [.markerEmit k .ok] } } := by
  have hemit : markerEmit k s = .ok .ok { s with
      ports := { s.ports with
        emitAnswers := s.ports.emitAnswers.tail, trace := s.ports.trace ++ [.markerEmit k .ok] } } := by
    rcases ha : s.ports.emitAnswers with _ | ⟨a, rest⟩
    · simp [markerEmit, ha, State.log]
    · have hok := h a (by simp [ha])
      simp [markerEmit, ha, hok, State.log]
  exact bind_of_ok hemit rfl

/-- The state after `MarkerSync` (rule R69). -/
def State.synced (s : State) (k : MarkerKind) : State := { s with
  ports := { s.ports with
    source := match s.ports.syncs with
      | some src :: _ => src
      | _ => s.ports.source
    syncs := s.ports.syncs.tail
    trace := s.ports.trace ++ [.markerSync k (if s.marker.valid then some s.marker.code else none)] } }

theorem markerSync_of_answers (h : s.ports.ReaderAnswers) : markerSync k s.latched s = .ok () (s.synced k) := by
  rcases ha : s.ports.syncs with _ | ⟨_ | src, rest⟩
  · simp [markerSync, State.synced, State.latched, State.log, ha]
  · have hok := h none (by simp [ha])
    simp at hok
  · simp [markerSync, State.synced, State.latched, State.log, ha]

theorem synced_sourceAnswers (h : s.ports.ReaderAnswers) (hs : s.ports.SourceAnswers) :
    (s.synced k).ports.SourceAnswers := by
  rcases ha : s.ports.syncs with _ | ⟨_ | src, rest⟩
  · simpa [State.synced, ha] using hs
  · simpa [State.synced, ha] using hs
  · have hok := h (some src) (by simp [ha])
    simpa [State.synced, ha] using hok

end Markers

/-- Settles O56: the flush or the marker call, then the resets, then the engine's start. -/
theorem restartCompletes : Obligations.RestartCompletes := by
  refine ⟨fun s he hs hw hr => ?_, fun s hs hr => ?_⟩
  · exact bind_of_ok (encFlush_of_accepts he hs hr) (bind_of_ok (cmd_get _) (bind_of_ok (emitMarker_of_accepts hw) rfl))
  · refine bind_of_ok (cmd_get _) (bind_of_ok (markerSync_of_answers hr) (bind_of_ok (cmd_modifyPos _ _)
      (bind_of_ok (cmd_modify _ _) (decInit_exact _ ?_))))
    exact synced_sourceAnswers hr hs

/-- Settles O48: the flush or the marker call, then the end of the scan. -/
theorem flushCompletes : Obligations.FlushCompletes := by
  refine ⟨fun s hi hf hd hy hdir hs hw hr => ?_, fun s hf hd hy hdir hr => ?_⟩
  · have he : s.eng.EncodeSound := hi.encoder ((hi.scan (.inr (.inr hd))).mode.trans (congrArg dirMode hdir))
    refine (guarded_runs hf rfl (State.scanDone_iff.mpr ⟨hd, hy⟩)).trans (outcome_ok ?_)
    rw [hdir]
    exact bind_of_ok (bind_of_ok (encFlush_of_accepts he hs hr) (emitMarker_of_accepts hw)) rfl
  · refine (guarded_runs hf rfl (State.scanDone_iff.mpr ⟨hd, hy⟩)).trans (outcome_ok ?_)
    rw [hdir]
    exact bind_of_ok (bind_of_ok (cmd_get _) (bind_of_ok (markerSync_of_answers hr) rfl)) rfl

end Sys2Proof.Machine

/-! PROOFS. The decisions of a residual (spec/41_context.md rules R156 to R158, R161, R162): what `DecodeV` reads is the
decision list of its result, no list begins another, and ENC_DIFF and DEC_DIFF run them; obligations O37 to O41. -/

namespace Sys2Proof.Machine

/-! ## The decision lists as recursions -/

/-- The exponent decisions from category k that end after n more (rule R156). -/
def exponentFrom (g : Bool) : Nat → Nat → List (Nat × Bool)
  | k, 0 => [(binX g k, false)]
  | k, n + 1 => (binX g k, true) :: exponentFrom g (k + 1) n

/-- The mantissa decisions for bits n - 1 down to 0 (rule R156). -/
def mantissaFrom (b sz : Nat) : Nat → List (Nat × Bool)
  | 0 => []
  | n + 1 => (b, sz.testBit n) :: mantissaFrom b sz n

section Lists

variable {g : Bool} {b k m n sz sz' z : Nat}

theorem exponentFrom_eq_map (k n : Nat) :
    exponentFrom g k n = (List.range n).map (fun i => (binX g (k + i), true)) ++ [(binX g (k + n), false)] := by
  induction n generalizing k with
  | zero => rfl
  | succ n ih =>
    rw [exponentFrom, ih, List.range_succ_eq_map]
    simp [Nat.add_comm, Nat.add_left_comm]

theorem mantissaFrom_eq_map (n : Nat) :
    mantissaFrom b sz n = (List.range n).reverse.map fun j => (b, sz.testBit j) := by
  induction n with
  | zero => rfl
  | succ n ih => simp [mantissaFrom, ih, List.range_succ]

theorem magnitudeCategory_eq_iff : magnitudeCategory sz = n + 1 ↔ (n = 0 ∧ sz = 0) ∨ sz / 2 ^ n = 1 := by
  rw [magnitudeCategory, Nat.add_right_cancel_iff]
  by_cases hz : sz = 0
  · subst hz
    simp [eq_comm]
  · rw [Nat.log2_eq_iff hz, Nat.div_eq_iff (Nat.two_pow_pos n), pow_succ]
    omega

/-- The magnitude decisions past the first, by the number of bits below the highest. -/
theorem magnitude_eq_from (h : magnitudeCategory sz = n + 1) :
    exponentDecisions g sz ++ mantissaDecisions g sz = exponentFrom g 1 n ++ mantissaFrom (binM g (n + 1)) sz n := by
  rw [exponentDecisions, mantissaDecisions, h, exponentFrom_eq_map, mantissaFrom_eq_map]
  simp only [Nat.add_sub_cancel, Nat.add_comm 1]

/-- A number above bit n is twice the number above bit n + 1 and bit n. -/
theorem div_two_pow_iff (d : Bool) : sz / 2 ^ n = 2 * m + d.toNat ↔ sz / 2 ^ (n + 1) = m ∧ sz.testBit n = d := by
  have hhalf : sz / 2 ^ (n + 1) = sz / 2 ^ n / 2 := by rw [pow_succ, Nat.div_div_eq_div_mul]
  have hbit : (sz.testBit n).toNat = sz / 2 ^ n % 2 := Nat.toNat_testBit sz n
  constructor
  · intro h
    cases d with
    | false =>
      rw [Bool.toNat_false] at h
      exact ⟨by omega, Bool.toNat_eq_zero.mp (by omega)⟩
    | true =>
      rw [Bool.toNat_true] at h
      exact ⟨by omega, Bool.toNat_eq_one.mp (by omega)⟩
  · rintro ⟨rfl, rfl⟩
    omega

theorem exponentFrom_prefix {r r' : List (Nat × Bool)} (h : exponentFrom g k n ++ r <+: exponentFrom g k m ++ r') :
    n = m ∧ r <+: r' := by
  induction n generalizing k m with
  | zero =>
    cases m with
    | zero => exact ⟨rfl, (List.cons_prefix_cons.mp h).2⟩
    | succ m => simp [exponentFrom, List.cons_prefix_cons] at h
  | succ n ih =>
    cases m with
    | zero => simp [exponentFrom, List.cons_prefix_cons] at h
    | succ m =>
      obtain ⟨rfl, hr⟩ := ih (List.cons_prefix_cons.mp h).2
      exact ⟨rfl, hr⟩

theorem mantissaFrom_prefix (hdiv : sz / 2 ^ n = sz' / 2 ^ n) (h : mantissaFrom b sz n <+: mantissaFrom b sz' n) :
    sz = sz' := by
  induction n with
  | zero => simpa using hdiv
  | succ n ih =>
    obtain ⟨hhead, htail⟩ := List.cons_prefix_cons.mp h
    refine ih ?_ htail
    rw [(div_two_pow_iff (sz'.testBit n)).mpr ⟨hdiv, (Prod.mk.inj hhead).2⟩]
    exact ((div_two_pow_iff _).mpr ⟨rfl, rfl⟩).symm

theorem magnitude_prefix (hsz : sz ≠ 0) (hsz' : sz' ≠ 0)
    (h : exponentDecisions g sz ++ mantissaDecisions g sz <+: exponentDecisions g sz' ++ mantissaDecisions g sz') :
    sz = sz' := by
  have hcat : magnitudeCategory sz = Nat.log2 sz + 1 := rfl
  have hcat' : magnitudeCategory sz' = Nat.log2 sz' + 1 := rfl
  rw [magnitude_eq_from hcat, magnitude_eq_from hcat'] at h
  obtain ⟨hn, hmantissa⟩ := exponentFrom_prefix h
  rw [← hn] at hmantissa hcat'
  have htop := (magnitudeCategory_eq_iff.mp hcat).resolve_left fun h => hsz h.2
  have htop' := (magnitudeCategory_eq_iff.mp hcat').resolve_left fun h => hsz' h.2
  exact mantissaFrom_prefix (htop.trans htop'.symm) hmantissa

theorem magnitudeDecisions_prefix {negative : Bool}
    (h : magnitudeDecisions z g negative sz <+: magnitudeDecisions z g negative sz') : sz = sz' := by
  unfold magnitudeDecisions at h
  split at h <;> split at h
  · omega
  · simp [List.cons_prefix_cons] at h
  · simp [List.cons_prefix_cons] at h
  · exact magnitude_prefix ‹_› ‹_› (List.cons_prefix_cons.mp h).2

end Lists

/-- Settles O37: the zero decision, the sign and the magnitude (`magnitudeDecisions_prefix`) agree. -/
theorem residualCodeIsPrefixFree : Obligations.ResidualCodeIsPrefixFree := by
  intro v w da db l u _ _ _ _ h
  unfold residualDecisions at h
  simp only at h
  split at h <;> split at h
  · omega
  · simp [List.cons_prefix_cons] at h
  · simp [List.cons_prefix_cons] at h
  · obtain ⟨_, h⟩ := List.cons_prefix_cons.mp h
    obtain ⟨hsign, h⟩ := List.cons_prefix_cons.mp h
    have hneg : decide (v < 0) = decide (w < 0) := (Prod.mk.inj hsign).2
    rw [hneg] at h
    have habs := magnitudeDecisions_prefix h
    have hiff : v < 0 ↔ w < 0 := decide_eq_decide.mp hneg
    omega

/-! ## What DecodeV reads -/

section Reads

variable {c : Fin 4} {g : Bool} {b k m n sz z fuel : Nat} {s t : State} {da db v : Int} {l u : Nat}

theorem decodesAs_append {ds ds' : List (Nat × Bool)} :
    DecodesAs c (ds ++ ds') s t ↔ ∃ w, DecodesAs c ds s w ∧ DecodesAs c ds' w t := by
  induction ds generalizing s with
  | nil => exact ⟨fun h => ⟨s, rfl, h⟩, by rintro ⟨_, rfl, h⟩; exact h⟩
  | cons p ds ih =>
    constructor
    · rintro ⟨w, hd, h⟩
      obtain ⟨w', h1, h2⟩ := ih.mp h
      exact ⟨w', ⟨w, hd, h1⟩, h2⟩
    · rintro ⟨w', ⟨w, hd, h1⟩, h2⟩
      exact ⟨w, hd, ih.mpr ⟨w', h1, h2⟩⟩

/-- The exponent loop ends at category k + n where it read the decisions for it (rule R157). -/
theorem decodeExponent_ok_iff :
    decodeExponent c g fuel k s = .ok m t ↔ ∃ n < fuel, m = k + n ∧ DecodesAs c (exponentFrom g k n) s t := by
  induction fuel generalizing k s with
  | zero => exact ⟨(fun h => by cases h), by rintro ⟨n, hn, _⟩; omega⟩
  | succ fuel ih =>
    rw [decodeExponent, bind_eq_ok_iff]
    constructor
    · rintro ⟨_ | _, w, hd, h⟩
      · cases h
        exact ⟨0, by omega, rfl, _, hd, rfl⟩
      · obtain ⟨n, hn, rfl, hread⟩ := ih.mp h
        exact ⟨n + 1, by omega, by omega, w, hd, hread⟩
    · rintro ⟨n, hn, rfl, h⟩
      cases n with
      | zero =>
        obtain ⟨w, hd, rfl⟩ := h
        exact ⟨false, _, hd, rfl⟩
      | succ n =>
        obtain ⟨w, hd, h⟩ := h
        exact ⟨true, w, hd, ih.mpr ⟨n, by omega, by omega, h⟩⟩

/-- The mantissa loop sets the low n bits to those it read (rule R157). -/
theorem decodeMantissa_ok_iff :
    decodeMantissa c b n (2 ^ n * m) s = .ok sz t ↔ sz / 2 ^ n = m ∧ DecodesAs c (mantissaFrom b sz n) s t := by
  induction n generalizing m s with
  | zero =>
    simp only [pow_zero, Nat.one_mul, Nat.div_one]
    constructor
    · intro h
      cases h
      exact ⟨rfl, rfl⟩
    · rintro ⟨rfl, rfl⟩
      rfl
  | succ n ih =>
    have hstep (d : Bool) (w : State) : (if d then decodeMantissa c b n (2 ^ (n + 1) * m ||| 2 ^ n)
        else decodeMantissa c b n (2 ^ (n + 1) * m)) w = decodeMantissa c b n (2 ^ n * (2 * m + d.toNat)) w := by
      have hset := Nat.two_pow_add_eq_or_of_lt (i := n + 1) (Nat.pow_lt_pow_right (by decide) (Nat.lt_succ_self n)) m
      cases d
      · simp only [Bool.false_eq_true, if_false, Bool.toNat_false, Nat.add_zero, pow_succ, mul_assoc]
      · simp only [if_true, Bool.toNat_true, ← hset]
        ring_nf
    rw [decodeMantissa, bind_eq_ok_iff]
    simp only [hstep, ih, div_two_pow_iff]
    constructor
    · rintro ⟨_, w, hd, ⟨hdiv, rfl⟩, h⟩
      exact ⟨hdiv, w, hd, h⟩
    · rintro ⟨hdiv, w, hd, h⟩
      exact ⟨_, w, hd, ⟨hdiv, rfl⟩, h⟩

theorem decodeMagnitude_ok_iff : decodeMagnitude c g s = .ok sz t ↔
    sz ≠ 0 ∧ sz < 2 ^ 15 ∧ DecodesAs c (exponentDecisions g sz ++ mantissaDecisions g sz) s t := by
  have hmantissa (n : Nat) (w : State) : decodeMantissa c (binM g (1 + n)) (1 + n - 1) (2 ^ (1 + n - 1)) w = .ok sz t ↔
      sz / 2 ^ n = 1 ∧ DecodesAs c (mantissaFrom (binM g (n + 1)) sz n) w t := by
    rw [Nat.add_sub_cancel_left, Nat.add_comm 1, ← decodeMantissa_ok_iff, Nat.mul_one]
  rw [decodeMagnitude, bind_eq_ok_iff]
  constructor
  · rintro ⟨_, w, hexp, h⟩
    obtain ⟨n, hn, rfl, hreadExp⟩ := decodeExponent_ok_iff.mp hexp
    obtain ⟨htop, hread⟩ := (hmantissa n w).mp h
    have hlt : sz < 2 ^ (n + 1) := by
      rw [pow_succ]
      exact (Nat.div_lt_iff_lt_mul (Nat.two_pow_pos n)).mp (by omega) |>.trans_eq (Nat.mul_comm _ _)
    refine ⟨fun h0 => by simp [h0] at htop, hlt.trans_le (Nat.pow_le_pow_right (by decide) (by omega)), ?_⟩
    rw [magnitude_eq_from (magnitudeCategory_eq_iff.mpr (.inr htop))]
    exact decodesAs_append.mpr ⟨w, hreadExp, hread⟩
  · rintro ⟨hsz, hlt, h⟩
    have hcat : magnitudeCategory sz = Nat.log2 sz + 1 := rfl
    rw [magnitude_eq_from hcat] at h
    obtain ⟨w, hexp, hread⟩ := decodesAs_append.mp h
    exact ⟨_, w, decodeExponent_ok_iff.mpr ⟨_, (Nat.log2_lt hsz).mpr hlt, rfl, hexp⟩,
      (hmantissa _ w).mpr ⟨(magnitudeCategory_eq_iff.mp hcat).resolve_left fun h => hsz h.2, hread⟩⟩

theorem decodeNonzero_ok_iff : decodeNonzero c z g s = .ok v t ↔ ∃ negative sz, v = signedResidual negative sz ∧
    sz < 2 ^ 15 ∧ DecodesAs c ((binSign z, negative) :: magnitudeDecisions z g negative sz) s t := by
  rw [decodeNonzero, bind_eq_ok_iff]
  simp only [bind_eq_ok_iff]
  constructor
  · rintro ⟨negative, w, hsign, _ | _, w', hfirst, h⟩
    · cases h
      exact ⟨negative, 0, rfl, by decide, w, hsign, _, hfirst, rfl⟩
    · obtain ⟨sz, w'', hmag, h⟩ := bind_eq_ok_iff.mp h
      cases h
      obtain ⟨hsz, hlt, hread⟩ := decodeMagnitude_ok_iff.mp hmag
      refine ⟨negative, sz, rfl, hlt, w, hsign, ?_⟩
      rw [magnitudeDecisions, if_neg hsz]
      exact ⟨w', hfirst, hread⟩
  · rintro ⟨negative, sz, rfl, hlt, w, hsign, h⟩
    by_cases hsz : sz = 0
    · subst hsz
      obtain ⟨w', hfirst, rfl⟩ := h
      exact ⟨negative, w, hsign, false, _, hfirst, rfl⟩
    · rw [magnitudeDecisions, if_neg hsz] at h
      obtain ⟨w', hfirst, hread⟩ := h
      exact ⟨negative, w, hsign, true, w', hfirst,
        bind_eq_ok_iff.mpr ⟨sz, t, decodeMagnitude_ok_iff.mpr ⟨hsz, hlt, hread⟩, rfl⟩⟩

theorem signedResidual_neg_iff (negative : Bool) (sz : Nat) : signedResidual negative sz < 0 ↔ negative = true := by
  cases negative <;> simp [signedResidual] <;> omega

theorem natAbs_signedResidual (negative : Bool) (sz : Nat) : (signedResidual negative sz).natAbs = sz + 1 := by
  cases negative <;> simp [signedResidual] <;> omega

theorem residualDecisions_signed (negative : Bool) (sz : Nat) :
    residualDecisions (signedResidual negative sz) da db l u =
      (binZero (selectZeroSign da db l u), true) :: (binSign (selectZeroSign da db l u), negative) ::
        magnitudeDecisions (selectZeroSign da db l u) (selectMagnitude db u) negative sz := by
  have habs := natAbs_signedResidual negative sz
  have hneg : decide (signedResidual negative sz < 0) = negative := by simp [signedResidual_neg_iff]
  rw [residualDecisions, if_neg (by omega), hneg, habs, Nat.add_sub_cancel]

theorem signedResidual_of_ne (hv : v ≠ 0) : signedResidual (decide (v < 0)) (v.natAbs - 1) = v := by
  by_cases hneg : v < 0
  · rw [decide_eq_true hneg, signedResidual, if_pos rfl]
    omega
  · rw [decide_eq_false hneg, signedResidual, if_neg Bool.false_ne_true]
    omega

/-- `DecodeV` returns V exactly where it read the decisions of V (rule R157). -/
theorem decodeV_ok_iff : decodeV c da db l u s = .ok v t ↔
    -32768 ≤ v ∧ v ≤ 32768 ∧ DecodesAs c (residualDecisions v da db l u) s t := by
  rw [decodeV, bind_eq_ok_iff]
  constructor
  · rintro ⟨_ | _, w, hzero, h⟩
    · cases h
      exact ⟨by decide, by decide, _, hzero, rfl⟩
    · obtain ⟨negative, sz, rfl, hlt, hread⟩ := decodeNonzero_ok_iff.mp h
      have habs := natAbs_signedResidual negative sz
      rw [residualDecisions_signed]
      exact ⟨by omega, by omega, w, hzero, hread⟩
  · rintro ⟨hlow, hhigh, h⟩
    by_cases hv : v = 0
    · subst hv
      obtain ⟨w, hzero, rfl⟩ := h
      exact ⟨false, _, hzero, rfl⟩
    · rw [← signedResidual_of_ne hv, residualDecisions_signed] at h
      obtain ⟨w, hzero, hread⟩ := h
      exact ⟨true, w, hzero, decodeNonzero_ok_iff.mpr ⟨_, _, (signedResidual_of_ne hv).symm, by omega, hread⟩⟩

end Reads

/-! ## ENC_DIFF -/

section EncDiff

variable {c : Fin 4} {s t : State}

/-- ENC_DIFF runs its body where it is allowed (rule R161). -/
theorem exec_encDiff (hf : s.status.fault = false) (ho : operandsLegal (.encDiff c) s) (ha : allowedIn (.encDiff c) s) :
    exec (.encDiff c) s = Cmd.outcome (encodeDecisions c
      (residualDecisions s.arg0 s.arg1 s.arg2 (s.lowThreshold c) (s.highThreshold c))) s :=
  guarded_runs hf (encDiff_operands_iff.mpr ho) (State.rawIn_iff.mpr ha)

theorem exec_encBit {b : Nat} (hb : b < 160) (d : Bool) (hf : s.status.fault = false)
    (ha : allowedIn (.encBit c (BitVec.ofNat 8 b) d) s) :
    exec (.encBit c (BitVec.ofNat 8 b) d) s = Cmd.outcome (encodeBit c b d) s := by
  have hbin : (BitVec.ofNat 8 b).toNat = b := by
    rw [BitVec.toNat_ofNat, Nat.mod_eq_of_lt (by omega)]
  refine (guarded_runs hf (decide_eq_true (by rw [hbin]; exact hb)) (State.rawIn_iff.mpr ha)).trans ?_
  rw [hbin]

theorem outcome_bind (m n : Cmd Unit) : Cmd.outcome (m >>= fun _ => n) s = match m s with
    | .ok _ t => Cmd.outcome n t
    | .error .fatal t => .next t
    | .error (.stuck f) _ => .fault f := by
  rw [Cmd.outcome, cmd_bind]
  rcases m s with ⟨_, t⟩ | ⟨_ | _, t⟩ <;> rfl

/-- A body of decisions is its ENC_BITs, up to the first that faults. -/
theorem outcome_encodeDecisions {ds : List (Nat × Bool)} (hbins : ∀ p ∈ ds, p.1 < 160) (hi : s.Inv)
    (hf : s.status.fault = false) (hraw : s.status.dstate = .uninitialized ∨ s.status.dstate = .scanFlushed)
    (hm : s.eng.mode = .encode) : Cmd.outcome (encodeDecisions c ds) s = runEncBits c ds s := by
  induction ds generalizing s with
  | nil => rfl
  | cons p ds ih =>
    obtain ⟨b, d⟩ := p
    have hb : b < 160 := hbins (b, d) (by simp)
    have hexec := exec_encBit (c := c) hb d hf ⟨hraw, hm⟩
    have hends := encodeBit_ends s c b d hb (hi.encoder hm) hi.build (hi.ctx c b hb)
    unfold Cmd.Ends at hends
    rw [runEncBits, encodeDecisions, outcome_bind, hexec]
    rcases hrun : encodeBit c b d s with ⟨_, t⟩ | ⟨_ | f, t⟩
    case ok =>
      rw [hrun] at hends
      obtain ⟨bs, hcoded, _⟩ := hends.coded
      have hfault : t.status.fault = false := (congrArg Status.fault hcoded.status).trans hf
      rw [outcome_ok hrun]
      simp only [hfault, Bool.false_eq_true, if_false]
      exact ih (fun p hp => hbins p (List.mem_cons_of_mem _ hp)) (exec_keeps_inv hi (hexec.trans (outcome_ok hrun)))
        hfault (by rw [hcoded.status]; exact hraw) (hcoded.mode.trans hm)
    case error.fatal =>
      rw [hrun] at hends
      obtain ⟨u, e, _, _, rfl⟩ := hends
      rw [outcome_fatal hrun]
      simp
    case error.stuck => simp [Cmd.outcome, hrun]

end EncDiff

/-- Settles O38: the decisions of a residual have bins below 160 (`residualDecisions_bounds`). -/
theorem encDiffIsItsEncBits : Obligations.EncDiffIsItsEncBits := by
  intro c s hi hf ho ha
  obtain ⟨hlow, hhigh, _⟩ := id ho
  rw [exec_encDiff hf ho ha]
  exact outcome_encodeDecisions (residualDecisions_bounds ⟨hlow, hhigh⟩ _ _ _ _).1 hi hf ha.1 ha.2

/-- Settles O39: `encodeDecisions_ends` on the at most 32 decisions of a residual. -/
theorem encDiffCompletes : Obligations.EncDiffCompletes := by
  intro c s hi hf ho ha hs hr
  obtain ⟨hlow, hhigh, _⟩ := id ho
  obtain ⟨hbins, hlen⟩ := residualDecisions_bounds ⟨hlow, hhigh⟩ s.arg1 s.arg2 (s.lowThreshold c) (s.highThreshold c)
  have hends := encodeDecisions_ends c _ s hbins (hi.encoder ha.2) hi.build hi.ctx
  obtain ⟨_, t, hrun, hcodedBits, hother⟩ := hends.accepted hs (by unfold Engine.Room at *; omega)
  obtain ⟨bs, hcoded, hstuffed⟩ := hcodedBits.coded
  exact ⟨t, bs, (exec_encDiff hf ho ha).trans (outcome_ok hrun), ⟨hcoded.status, hcoded.regs, hcoded.marker, hcoded.cfg,
    hcoded.da, hcoded.db, hcoded.pos, hcoded.build, hcoded.mode, hcoded.eos, hcoded.nbytes,
    by simpa using hcoded.ports⟩, hstuffed, hcodedBits.sound, hcodedBits.moved.other, hother⟩

/-! ## DEC_DIFF -/

section DecDiff

variable {c : Fin 4} {s t : State}

/-- DEC_DIFF runs its body where it is allowed (rule R162). -/
theorem exec_decDiff (hf : s.status.fault = false) (ho : operandsLegal (.decDiff c) s) (ha : allowedIn (.decDiff c) s) :
    exec (.decDiff c) s = Cmd.outcome (do
      let v ← decodeV c s.arg1 s.arg2 (s.lowThreshold c) (s.highThreshold c)
      writeResult (BitVec.ofInt 32 v)) s :=
  guarded_runs hf (decide_eq_true ho) (State.rawIn_iff.mpr ha)

theorem exec_decDiff_of_decoded {v : Int} (hf : s.status.fault = false) (ho : operandsLegal (.decDiff c) s)
    (ha : allowedIn (.decDiff c) s)
    (h : decodeV c s.arg1 s.arg2 (s.lowThreshold c) (s.highThreshold c) s = .ok v t) :
    exec (.decDiff c) s = .next (t.withResult (BitVec.ofInt 32 v)) :=
  (exec_decDiff hf ho ha).trans (outcome_ok (bind_of_ok h rfl))

/-- DEC_DIFF returns the residual it read, ends in StateCorruption, or waits for the source. -/
theorem exec_decDiff_cases (hi : s.Inv) (hf : s.status.fault = false) (ho : operandsLegal (.decDiff c) s)
    (ha : allowedIn (.decDiff c) s) :
    (∃ v u, decodeV c s.arg1 s.arg2 (s.lowThreshold c) (s.highThreshold c) s = .ok v u ∧ DecodedBits s c u ∧
      exec (.decDiff c) s = .next (u.withResult (BitVec.ofInt 32 v))) ∨
    (∃ u, DecodedBits s c u ∧ exec (.decDiff c) s = .next (u.enterFaulted .stateCorruption)) ∨
    (¬ s.ports.SourceAnswers ∧ ∃ f, exec (.decDiff c) s = .fault f) := by
  have hends := decodeV_ends c s.arg1 s.arg2 (s.lowThreshold c) (s.highThreshold c) s (decodable_of_inv hi ha.2)
  unfold Cmd.Ends at hends
  rcases hrun : decodeV c s.arg1 s.arg2 (s.lowThreshold c) (s.highThreshold c) s with ⟨v, u⟩ | ⟨_ | f, u⟩ <;>
    rw [hrun] at hends
  case ok => exact .inl ⟨v, u, rfl, hends.1, exec_decDiff_of_decoded hf ho ha hrun⟩
  case error.fatal =>
    obtain ⟨w, e, _, ⟨rfl, hbits⟩, rfl⟩ := hends
    exact .inr (.inl ⟨w, hbits, (exec_decDiff hf ho ha).trans (by rw [Cmd.outcome, cmd_bind, hrun])⟩)
  case error.stuck => exact .inr (.inr ⟨hends, f, (exec_decDiff hf ho ha).trans (by rw [Cmd.outcome, cmd_bind, hrun])⟩)

theorem Fetched.frame (h : Fetched s t) : s.DecodeFrame t where
  args := by rw [h.regs]; exact ⟨rfl, rfl, rfl⟩
  cfg := h.cfg
  da := h.da
  db := h.db
  pos := h.pos
  build := h.build
  dmode := h.dmode
  exhausted := h.exhausted
  held := h.held
  nbytes := h.nbytes
  sink := h.portsKept.2.2.2
  ports := by
    obtain ⟨bytes, trace, _, hports⟩ := h.ports
    exact ⟨bytes, trace, hports⟩

theorem State.DecodeFrame.withResult (h : s.DecodeFrame t) (v : Word) : s.DecodeFrame (t.withResult v) := { h with }

theorem State.DecodeFrame.enterFaulted (h : s.DecodeFrame t) (e : ErrCode) : s.DecodeFrame (t.enterFaulted e) := by
  rw [enterFaulted_eq]
  exact { h with }

/-- A zero decision that needs no renormalization: the residual is 0. -/
theorem decodeV_zero {da db : Int} {l u : Nat} {row : RomRow} (he : s.eng.DecodeSound)
    (hrow : romLookup s.build (s.ctxAt c (binZero (selectZeroSign da db l u))).i = some row)
    (hmps : (s.ctxAt c (binZero (selectZeroSign da db l u))).mps = false)
    (ha : 0x8000 ≤ s.eng.a.toNat - row.qe.toNat) (hc : s.eng.c.toNat / 2 ^ 16 < s.eng.a.toNat - row.qe.toNat) :
    decodeV c da db l u s = .ok 0 (s.withEng { s.eng with a := BitVec.ofNat 17 (s.eng.a.toNat - row.qe.toNat) }) := by
  refine bind_of_ok (decodeBit_keep he hrow ha hc) ?_
  rw [hmps]
  rfl

theorem ofNat_sub_setWidth {a : BitVec 17} {q : BitVec 16} (h : q.toNat ≤ a.toNat) :
    BitVec.ofNat 17 (a.toNat - q.toNat) = a - q.setWidth 17 := by
  have hq : (q.setWidth 17).toNat = q.toNat := BitVec.toNat_setWidth_of_le (by decide)
  have hle : q.setWidth 17 ≤ a := BitVec.le_def.mpr (hq ▸ h)
  refine BitVec.eq_of_toNat_eq ?_
  rw [BitVec.toNat_sub_of_le hle, hq, BitVec.toNat_ofNat, Nat.mod_eq_of_lt (by omega)]

end DecDiff

/-- Settles O40: `decodeV_ok_iff`. -/
theorem decDiffReadsTheDecisionsOfItsResult : Obligations.DecDiffReadsTheDecisionsOfItsResult := by
  refine fun c s hf ho ha => ⟨fun v t hlow hhigh h => ?_, fun t hi h hfault => ?_⟩
  · exact exec_decDiff_of_decoded hf ho ha (decodeV_ok_iff.mpr ⟨hlow, hhigh, h⟩)
  · obtain ⟨v, u, hrun, _, hexec⟩ | ⟨u, _, hexec⟩ | ⟨_, f, hexec⟩ := exec_decDiff_cases hi hf ho ha <;> rw [h] at hexec
    · obtain ⟨hlow, hhigh, hread⟩ := decodeV_ok_iff.mp hrun
      exact ⟨v, u, hlow, hhigh, hread, Host.Outcome.next.inj hexec⟩
    · rw [Host.Outcome.next.inj hexec, enterFaulted_fault] at hfault
      cases hfault
    · cases hexec

/-- Settles O41: `exec_decDiff_cases` with a source that answers, and `decodeV_zero`. -/
theorem decDiffAnswers : Obligations.DecDiffAnswers := by
  refine ⟨fun c s hi hf ho ha hs => ?_, fun c s row hf ho ha he => fun hrow hleg hmps hA hC => ?_⟩
  · obtain ⟨v, u, hrun, hbits, hexec⟩ | ⟨u, hbits, hexec⟩ | ⟨hwait, _⟩ := exec_decDiff_cases hi hf ho ha
    · obtain ⟨hlow, hhigh, _⟩ := decodeV_ok_iff.mp hrun
      exact ⟨_, hexec, hbits.fetched.frame.withResult _, hbits.moved.other, .inl ⟨hbits.fetched.fault.trans hf,
        hbits.fetched.dstate, hbits.fetched.mode.trans ha.2, hbits.sound, v, hlow, hhigh, rfl⟩⟩
    · refine ⟨_, hexec, hbits.fetched.frame.enterFaulted _, fun c' hc' => ?_, .inr ⟨by simp, by simp, ?_, by simp, ?_⟩⟩
      · rw [enterFaulted_ctx]
        exact hbits.moved.other c' hc'
      · exact enterFaulted_err _ _ (hbits.fetched.fault.trans hf)
      · rw [enterFaulted_regs, hbits.fetched.regs]
    · exact absurd hs hwait
  · refine (exec_decDiff_of_decoded hf ho ha (decodeV_zero he (romLookup_of_row hrow hleg) hmps hA hC)).trans ?_
    rw [ofNat_sub_setWidth (by omega)]
    rfl

end Sys2Proof.Machine

/-! PROOFS. The row group commands (spec/42_driver.md rules R173, R174, R180): WRITE_MCU and PARSE_MCU as walks;
obligations O45 and O46. -/

namespace Sys2Proof.Machine

section Group

variable {s : State}

theorem regionGroup_iff {c : Fin 4} {x y : Nat} : s.regionGroup c x y ↔
    c.val < s.cfg.ncomp.toNat ∧ x < s.cfg.width.toNat ∧ s.pos.y.toNat ≤ y ∧ y < s.pos.yend.toNat := by
  rw [State.regionGroup, State.regionLines, State.mem_components]
  omega

/-- Settles O45: `codeGroup_ends`, encoding. -/
theorem writeMcuCompletes : Obligations.WriteMcuCompletes := by
  intro s hi hf hd hdir hs hw hsupply hroom
  have hready := State.rowReadyFor_iff.mpr ⟨hd, hdir⟩
  obtain ⟨_, t, hrun, _, _, _, hx, hy, hyend, u, hwalk, rfl⟩ := (codeGroup_ends .encode s hi hf hready).completes
    (fun e v h => h.cause.2.elim (absurd hs) (Or.rec (absurd hw) (absurd hroom)))
    (fun h => h.elim (absurd hs) (Or.rec (absurd hw) (absurd hsupply)))
  obtain ⟨hstatus, hmarker, hsource, hsyncs⟩ := hwalk.quiet.encode rfl
  obtain ⟨bs, hsunk, hstuffed, hnbytes⟩ := hwalk.sunk
  have hkept := hwalk.kept
  exact ⟨_, bs, (guarded_runs hf rfl hready).trans (outcome_ok hrun),
    congrArg (fun st : Status => { st with dstate := .rowConsumed }) hstatus, hx, hy, hyend, hwalk.ready.mode,
    hwalk.ready.encoder rfl, hsunk, hstuffed, hnbytes, hkept.regs, hmarker, hkept.cfg, hkept.build, hsource, hsyncs,
    hkept.host, hkept.replies, fun c x y hx hy => hwalk.stores c x y hx hy fun h => by cases h⟩

/-- Settles O46: `codeGroup_ends`, decoding. -/
theorem parseMcuAnswers : Obligations.ParseMcuAnswers := by
  intro s hi hf hd hdir hs hr hsupply
  have hready := State.rowReadyFor_iff.mpr ⟨hd, hdir⟩
  have hends := codeGroup_ends .decode s hi hf hready
  have hexec := guarded_runs (body := do walk .decode; setDState .rowConsumed) hf (operands := true) rfl hready
  unfold Cmd.Ends at hends
  rcases hrun : (do walk .decode; setDState .rowConsumed : Cmd Unit) s with ⟨_, t⟩ | ⟨_ | f, t⟩ <;> rw [hrun] at hends
  case ok =>
    obtain ⟨_, hdstate, hfault, hx, hy, hyend, u, hwalk, rfl⟩ := hends
    obtain ⟨hsink, hemit, hsunk, hnbytes⟩ := hwalk.quiet.decode rfl
    have hkept := hwalk.kept
    refine ⟨_, hexec.trans (outcome_ok hrun), .inl ⟨hfault, hdstate, hx, hy, hyend, hwalk.ready.mode,
      (hwalk.ready.decoder rfl).1, hnbytes⟩, hkept.dmode.trans hdir, hkept.regs, hkept.cfg, hkept.build, hsunk, hsink,
      hemit, hkept.host, hkept.replies, fun c x y hx hy h => hwalk.stores c x y hx hy fun _ => mt regionGroup_iff.mp h⟩
  case error.fatal =>
    obtain ⟨u, e, _, ⟨hkept, hcause, hstores, hquiet⟩, rfl⟩ := hends
    obtain ⟨hsink, hemit, hsunk, _⟩ := hquiet.decode rfl
    have hfault : u.status.fault = false := (hkept.steady (hi.steady hf)).fault
    exact ⟨_, (hexec.trans (outcome_fatal hrun)).trans (congrArg _ (enterFaulted_of_not_fault e hfault)),
      .inr ⟨rfl, rfl, hcause, rfl⟩, hkept.dmode.trans hdir, hkept.regs, hkept.cfg, hkept.build, hsunk, hsink, hemit,
      hkept.host, hkept.replies, fun c x y hx hy h => hstores c x y hx hy fun _ => mt regionGroup_iff.mp h⟩
  case error.stuck => exact hends.elim (absurd ⟨hs, hr⟩) (absurd hsupply)

end Group

end Sys2Proof.Machine

/-! PROOFS. A row group of zero residuals (spec/42_driver.md rules R174, R180, R185, R188): each decision lowers A by Qe
and touches nothing else of the engine; obligation O47. -/

namespace Sys2Proof.Machine

/-- A one-component scan without restarts whose next k decisions are zeros that need no renormalization. -/
structure ZeroRun (row : RomRow) (k : Nat) (s : State) : Prop where
  ncomp : s.cfg.ncomp = 1
  ri : s.cfg.ri = 0
  pred : s.cfg.pred.toNat ≤ 7
  sound : s.eng.DecodeSound
  entry : romLookup s.build (s.ctxAt 0 48).i = some row
  mps : (s.ctxAt 0 48).mps = false
  a : 0x8000 + k * row.qe.toNat ≤ s.eng.a.toNat
  c : s.eng.c.toNat / 2 ^ 16 + k * row.qe.toNat < s.eng.a.toNat
  db : ∀ x < s.cfg.width.toNat, s.dbAt 0 x = 0

/-- What n zero decisions of a walk leave; x, y, DA and the record of transactions apart. -/
structure Zeroed (row : RomRow) (n : Nat) (s t : State) : Prop where
  status : t.status = s.status
  regs : t.regs = s.regs
  marker : t.marker = s.marker
  cfg : t.cfg = s.cfg
  build : t.build = s.build
  ctx : t.ctx = s.ctx
  source : t.ports.source = s.ports.source
  eng : t.eng = { s.eng with a := BitVec.ofNat 17 (s.eng.a.toNat - n * row.qe.toNat) }
  pos : t.pos = { s.pos with x := t.pos.x, y := t.pos.y, mcucnt := s.pos.mcucnt + BitVec.ofNat 32 n }
  db : ∀ x, s.dbAt 0 x = 0 → t.dbAt 0 x = 0
  samples : ∀ x y, s.ports.has 0 x y → t.ports.has 0 x y

section ZeroResiduals

variable {row : RomRow} {s t u : State} {k m n : Nat}

theorem Zeroed.refl (s : State) : Zeroed row 0 s s where
  status := rfl
  regs := rfl
  marker := rfl
  cfg := rfl
  build := rfl
  ctx := rfl
  source := rfl
  eng := by simp
  pos := by simp
  db := fun _ h => h
  samples := fun _ _ h => h

theorem Zeroed.a (h : Zeroed row n s t) : t.eng.a.toNat = s.eng.a.toNat - n * row.qe.toNat := by
  have hlt := s.eng.a.isLt
  rw [h.eng, BitVec.toNat_ofNat, Nat.mod_eq_of_lt (by omega)]

theorem Zeroed.trans (h : Zeroed row n s t) (h' : Zeroed row m t u) : Zeroed row (n + m) s u where
  status := h'.status.trans h.status
  regs := h'.regs.trans h.regs
  marker := h'.marker.trans h.marker
  cfg := h'.cfg.trans h.cfg
  build := h'.build.trans h.build
  ctx := h'.ctx.trans h.ctx
  source := h'.source.trans h.source
  eng := by
    rw [h'.eng, h.a, h.eng, Nat.sub_sub, ← Nat.add_mul]
  pos := by
    rw [h'.pos, h.pos, BitVec.ofNat_add, BitVec.add_assoc]
  db := fun x hx => h'.db x (h.db x hx)
  samples := fun x y hxy => h'.samples x y (h.samples x y hxy)

/-- The run goes on with the decisions that are left. -/
theorem ZeroRun.next (h : ZeroRun row k s) (hz : Zeroed row n s t) (hk : n + m = k) : ZeroRun row m t := by
  subst hk
  have hA := hz.a
  have ha := h.a
  have hc := h.c
  rw [Nat.add_mul] at ha hc
  have hct : t.ctxAt 0 48 = s.ctxAt 0 48 := by rw [State.ctxAt, hz.ctx]; rfl
  have hC : t.eng.c = s.eng.c := by rw [hz.eng]
  have hCT : t.eng.ct = s.eng.ct := by rw [hz.eng]
  exact {
    ncomp := by rw [hz.cfg, h.ncomp]
    ri := by rw [hz.cfg, h.ri]
    pred := by rw [hz.cfg]; exact h.pred
    sound := {
      a_ge := by omega
      a_le := by have := h.sound.a_le; omega
      cx_lt := by rw [hC, Nat.shiftRight_eq_div_pow]; omega
      ct_le := hCT ▸ h.sound.ct_le
      low_zero := by rw [hC, hCT]; exact h.sound.low_zero }
    entry := by rw [hz.build, hct]; exact h.entry
    mps := by rw [hct]; exact h.mps
    a := by omega
    c := by rw [hC]; omega
    db := fun x hx => hz.db x (h.db x (hz.cfg ▸ hx)) }

/-- Two zero residuals select the middle cell (rules R151, R153). -/
theorem selectZeroSign_zero (l u : Nat) : selectZeroSign 0 0 l u = 12 := by simp [selectZeroSign, classify]

/-- A LineWrite keeps what the buffer holds, and holds its own sample. -/
theorem has_lineWritten (s : State) (x y x' y' : Nat) (v : Sample) (h : (x', y') = (x, y) ∨ s.ports.has 0 x' y') :
    (s.lineWritten 0 x y v).ports.has 0 x' y' := by
  rw [Ports.has, State.lineWritten, State.log]
  simp only [read_write]
  split
  · rfl
  · next hne =>
    obtain ⟨⟨⟩⟩ | h := h
    · exact absurd rfl hne
    · exact h

/-- The state after one column with a zero residual and the sample v; `trace` is the record after the prediction. -/
def State.zeroColumn (s : State) (trace : List PortEvent) (q : Nat) (v : Sample) : State :=
  (((((s.withTrace trace).withEng { s.eng with a := BitVec.ofNat 17 (s.eng.a.toNat - q) }).lineWritten 0 s.pos.x.toNat
    s.pos.y.toNat v).setDa 0 0).setDb 0 s.pos.x.toNat 0).withPos
      { s.pos with mcucnt := s.pos.mcucnt + 1, x := s.pos.x + 1 }

theorem zeroColumn_zeroed (s : State) (trace : List PortEvent) (v : Sample) :
    Zeroed row 1 s (s.zeroColumn trace row.qe.toNat v) where
  status := by simp [State.zeroColumn, State.lineWritten, State.withTrace]
  regs := by simp [State.zeroColumn, State.lineWritten, State.withTrace]
  marker := by simp [State.zeroColumn, State.lineWritten, State.withTrace]
  cfg := by simp [State.zeroColumn, State.lineWritten, State.withTrace]
  build := by simp [State.zeroColumn, State.lineWritten, State.withTrace]
  ctx := by simp [State.zeroColumn, State.lineWritten, State.withTrace]
  source := rfl
  eng := by rw [Nat.one_mul]; rfl
  pos := rfl
  db := fun x hx => by
    refine Eq.trans (dbAt_setDb (s := State.setDa _ 0 0)) ?_
    split
    · rfl
    · exact hx
  samples := fun x y h => has_lineWritten _ _ _ _ _ v (.inr h)

/-- One column: a zero residual is read and its sample is stored. -/
theorem walkColumn_zero (h : ZeroRun row (k + 1) s) (hda : s.da[(0 : Fin 4)] = 0)
    (hx : s.pos.x.toNat < s.cfg.width.toNat) (hn : s.cfg.pred ≠ 0 → s.neighboursPresent 0) :
    ∃ t, walkColumn .decode s = .ok () t ∧ Zeroed row 1 s t ∧ t.da[(0 : Fin 4)] = 0 ∧
      t.ports.has 0 s.pos.x.toNat s.pos.y.toNat := by
  have ha := h.a
  have hc := h.c
  rw [Nat.add_mul, Nat.one_mul] at ha hc
  obtain ⟨px, _, hp, trace, rfl, _⟩ := (prediction_ends 0 s h.pred).completes (fun _ _ h => h) (not_not.mpr hn)
  have hbin : binZero (selectZeroSign s.da[(0 : Fin 4)].toInt (s.dbAt 0 s.pos.x.toNat).toInt (s.lowThreshold 0)
      (s.highThreshold 0)) = 48 := by
    rw [hda, h.db _ hx]
    exact congrArg binZero (selectZeroSign_zero _ _)
  have hv : decodeV 0 s.da[(0 : Fin 4)].toInt (s.dbAt 0 s.pos.x.toNat).toInt (s.lowThreshold 0) (s.highThreshold 0)
      (s.withTrace trace) = .ok 0 ((s.withTrace trace).withEng
        { s.eng with a := BitVec.ofNat 17 (s.eng.a.toNat - row.qe.toNat) }) :=
    decodeV_zero (s := s.withTrace trace) h.sound (by rw [hbin]; exact h.entry) (by rw [hbin]; exact h.mps)
      (by show _ ≤ s.eng.a.toNat - _; omega) (by show s.eng.c.toNat / _ < s.eng.a.toNat - _; omega)
  have hrestart : restartIfDue .decode s = .ok () s := restartIfDue_eq.trans (if_neg (by rw [h.ri]; simp))
  have hcomponents : s.components = [0] := components_of_ncomp.1 h.ncomp
  refine ⟨s.zeroColumn trace row.qe.toNat (s.reconstruct px 0), bind_of_ok hrestart (bind_of_ok (cmd_get _) ?_),
    zeroColumn_zeroed s trace _, ?_, has_lineWritten _ _ _ _ _ _ (.inl rfl)⟩
  · rw [hcomponents]
    exact bind_of_ok (bind_of_ok (codeSampleDecode_of_decoded hp hv) rfl) rfl
  · exact da_setDa (s := State.lineWritten _ 0 _ _ _)

/-- The line above is supplied where the predictor reads it. -/
def State.AboveSupplied (s : State) : Prop := s.cfg.pred ≠ 0 → s.pos.y ≠ s.pos.rl →
  ∀ x < s.cfg.width.toNat, s.ports.has 0 x (s.pos.y.toNat - 1)

theorem State.AboveSupplied.next (h : s.AboveSupplied) (hz : Zeroed row n s t) (hy : t.pos.y = s.pos.y) :
    t.AboveSupplied := by
  have hrl : t.pos.rl = s.pos.rl := by rw [hz.pos]
  intro hpred hne x hx
  rw [hz.cfg] at hpred hx
  rw [hy, hrl] at hne
  rw [hy]
  exact hz.samples _ _ (h hpred hne x hx)

theorem walkColumns_zero (h : ZeroRun row (n + k) s) (hda : s.da[(0 : Fin 4)] = 0)
    (hx : s.pos.x.toNat + n = s.cfg.width.toNat) (habove : s.AboveSupplied)
    (hleft : s.pos.x ≠ 0 → s.ports.has 0 (s.pos.x.toNat - 1) s.pos.y.toNat) :
    ∃ t, walkColumns .decode n s = .ok () t ∧ Zeroed row n s t ∧ t.pos.y = s.pos.y ∧
      ∀ x, s.pos.x.toNat ≤ x → x < s.cfg.width.toNat → t.ports.has 0 x s.pos.y.toNat := by
  induction n generalizing s with
  | zero => exact ⟨s, rfl, .refl s, rfl, fun x hlow hhigh => absurd hhigh (by omega)⟩
  | succ n ih =>
    have hcount : (n + 1) + k = (n + k) + 1 := by omega
    obtain ⟨t, hrun, hz, hda', hhas⟩ := walkColumn_zero (hcount ▸ h) hda (by omega) fun hpred => ⟨hleft, fun hy =>
      ⟨habove hpred hy _ (by omega), fun _ => habove hpred hy _ (by omega)⟩⟩
    obtain ⟨hx', hy', _, hcfg⟩ := walkColumn_moves hrun
    have hlt := s.cfg.width.isLt
    have hxnat : t.pos.x.toNat = s.pos.x.toNat + 1 := by
      rw [hx', BitVec.toNat_add]
      simp
      omega
    obtain ⟨u, hrest, hzu, hyu, hhasu⟩ := ih (h.next hz (by omega)) hda' (by rw [hcfg]; omega) (habove.next hz hy')
      (fun _ => by rw [hxnat, hy', Nat.add_sub_cancel]; exact hhas)
    refine ⟨u, bind_of_ok hrun hrest, Nat.add_comm 1 n ▸ hz.trans hzu, hyu.trans hy', fun x hlow hhigh => ?_⟩
    obtain rfl | hne := Nat.eq_or_lt_of_le hlow
    · exact hzu.samples _ _ hhas
    · exact hy' ▸ hhasu x (by omega) (by rw [hcfg]; exact hhigh)

theorem walkLine_zero (h : ZeroRun row (s.cfg.width.toNat + k) s) (habove : s.AboveSupplied) :
    ∃ t, walkLine .decode s = .ok () t ∧ Zeroed row s.cfg.width.toNat s t ∧
      ∀ x < s.cfg.width.toNat, t.ports.has 0 x s.pos.y.toNat := by
  have hstart : Zeroed row 0 s s.lineStart := { Zeroed.refl s with pos := by simp [State.lineStart] }
  have hda : s.lineStart.da[(0 : Fin 4)] = 0 := by simp [State.lineStart, h.ncomp]
  obtain ⟨t, hrun, hz, hy, hhas⟩ := walkColumns_zero (n := s.cfg.width.toNat) (h.next hstart (Nat.zero_add _)) hda
    (Nat.zero_add _) (habove.next hstart rfl) (fun hx => absurd rfl hx)
  refine ⟨t.withPos { t.pos with y := t.pos.y + 1 }, walkLine_eq.trans (bind_of_ok hrun rfl), ?_,
    fun x hx => hhas x (Nat.zero_le _) hx⟩
  have hend : Zeroed row 0 t (t.withPos { t.pos with y := t.pos.y + 1 }) := { Zeroed.refl t with pos := by simp }
  have hall := (hstart.trans hz).trans hend
  rwa [Nat.zero_add, Nat.add_zero] at hall

theorem walkLines_zero (h : ZeroRun row (s.cfg.width.toNat * n) s) (habove : s.AboveSupplied)
    (hn : s.pos.y.toNat + n < 65536) :
    ∃ t, walkLines .decode n s = .ok () t ∧ Zeroed row (s.cfg.width.toNat * n) s t ∧
      t.pos.y.toNat = s.pos.y.toNat + n ∧
      ∀ x < s.cfg.width.toNat, ∀ y, s.pos.y.toNat ≤ y → y < s.pos.y.toNat + n → t.ports.has 0 x y := by
  induction n generalizing s with
  | zero => exact ⟨s, rfl, .refl s, rfl, fun x _ y hlow hhigh => absurd hhigh (by omega)⟩
  | succ n ih =>
    have hcount : s.cfg.width.toNat * (n + 1) = s.cfg.width.toNat + s.cfg.width.toNat * n := by ring
    rw [hcount] at h ⊢
    obtain ⟨t, hrun, hz, hhas⟩ := walkLine_zero h habove
    obtain ⟨hy, _⟩ := walkLine_moves hrun
    have hynat : t.pos.y.toNat = s.pos.y.toNat + 1 := by
      rw [hy, BitVec.toNat_add]
      simp
      omega
    have habove' : t.AboveSupplied := fun _ _ x hx => by
      rw [hynat, Nat.add_sub_cancel]
      exact hhas x (hz.cfg ▸ hx)
    obtain ⟨u, hrest, hzu, hyu, hhasu⟩ := ih (s := t) (by rw [hz.cfg]; exact h.next hz rfl) habove' (by omega)
    rw [hz.cfg] at hzu hhasu
    refine ⟨u, bind_of_ok hrun hrest, hz.trans hzu, by omega, fun x hx y hlow hhigh => ?_⟩
    obtain rfl | hne := Nat.eq_or_lt_of_le hlow
    · exact hzu.samples _ _ (hhas x hx)
    · exact hhasu x hx y (by omega) (by omega)

end ZeroResiduals

/-- The walk of a row group of zero residuals (rule R180). -/
theorem walk_zero {row : RomRow} {s : State} (hy : s.pos.y.toNat ≤ s.pos.yend.toNat)
    (h : ZeroRun row (s.cfg.width.toNat * (s.pos.yend.toNat - s.pos.y.toNat)) s) (habove : s.AboveSupplied) :
    ∃ t, walk .decode s = .ok () t ∧
      Zeroed row (s.cfg.width.toNat * (s.pos.yend.toNat - s.pos.y.toNat)) s t ∧ t.pos.x = 0 ∧ t.pos.y = s.pos.yend ∧
      ∀ x < s.cfg.width.toNat, ∀ y, s.pos.y.toNat ≤ y → y < s.pos.yend.toNat → t.ports.has 0 x y := by
  have hlt := s.pos.yend.isLt
  obtain ⟨t, hrun, hz, hynat, hhas⟩ := walkLines_zero h habove (by omega)
  have hend : Zeroed row 0 t (t.withPos { t.pos with x := 0 }) := { Zeroed.refl t with pos := by simp }
  exact ⟨t.withPos { t.pos with x := 0 }, bind_of_ok (cmd_get _) (bind_of_ok hrun rfl), hz.trans hend, rfl,
    BitVec.eq_of_toNat_eq (hynat.trans (by omega)), fun x hx y hlow hhigh => hhas x hx y hlow (by omega)⟩

/-- Settles O47: `walk_zero`, from what a sound scan says of the configuration and the engine. -/
theorem parseMcuOfZeroResiduals : Obligations.ParseMcuOfZeroResiduals := by
  intro s row hi hf hd hdir hncomp hri hdb hsupply hrow hmps k ha hc
  have hscan := hi.scan (.inr (.inl hd))
  obtain ⟨hpred, _⟩ := State.configValid_iff.mp hscan.config
  have hzero : ZeroRun row k s := ⟨hncomp, hri, hpred, hi.decoder (hscan.mode.trans (congrArg dirMode hdir)),
    romLookup_of_row hrow (Build.Legal.row hi.build hrow), hmps, ha, hc, hdb⟩
  have hzeroComponent : (0 : Fin 4) ∈ s.components := by simp [components_of_ncomp.1 hncomp]
  obtain ⟨t, hrun, hz, hx, hy, hhas⟩ := walk_zero (Nat.le_of_lt (hscan.ready hd)) hzero
    fun hp hne x hx => hsupply.above hp hne 0 hzeroComponent x hx
  have hpos : t.pos = { s.pos with x := 0, y := s.pos.yend, mcucnt := s.pos.mcucnt + BitVec.ofNat 32 k } := by
    rw [hz.pos, hx, hy]
  exact ⟨_, (guarded_runs hf rfl (State.rowReadyFor_iff.mpr ⟨hd, hdir⟩)).trans (outcome_ok (bind_of_ok hrun rfl)),
    congrArg (fun st : Status => { st with dstate := .rowConsumed }) hz.status, hz.eng, hz.ctx, hpos,
    fun x y hx hlow hhigh => hhas x hx y hlow hhigh, fun x hx => hz.db x (hdb x hx), hz.regs, hz.marker, hz.cfg,
    hz.build, hz.source⟩

end Sys2Proof.Machine
